-- ==== Sys2Proof/Word.lean ====
section
/-!
DEFINITION. The word types of TGAR-CORE: a byte of PB, of a stream or of a header
(00_scope.md R6), a 16-bit dimension register and a 32-bit register word (10_state.md R13).
-/

namespace Sys2Proof

/-- A byte: 8 bits, an unsigned value 0 to 255 (00_scope.md R6). -/
abbrev Byte := BitVec 8

/-- A 16-bit register or header field (10_state.md R14, 30_encoding.md R72). -/
abbrev Half := BitVec 16

/-- A register word as the host reads and writes it (10_state.md R13). -/
abbrev Word := BitVec 32

/-- A pixel: `bpp` consecutive bytes, channel 0 first (00_scope.md R6, 20_memory.md R43). -/
abbrev Pixel := List Byte

/-- A header record: 18 bytes in wire order (10_state.md R20, 30_encoding.md R72). -/
abbrev Machine.Header := Vector Byte 18

end Sys2Proof
end

