-- ==== Sys2Proof/Syntax.lean ====
section
/-!
DEFINITION. The instructions: the eleven commands of 30_encoding.md R61 and the two chunk kinds
of a run-length stream, R66 to R68. One constructor per row of spec/opcode_table.json.
-/

namespace Sys2Proof

/-- The instructions of the block. A command carries no operand: "every operand of a command is in
a register" (30_encoding.md R60). A chunk carries the count its control byte stands for (R66), in
the notation `REP n` and `RAW n` of R71; its pixel bytes are taken from the input stream when it is
executed (41_rle_codec.md R103). -/
inductive Instr where
  /-- 0x00, no operation (45_control.md R171). -/
  | nop
  /-- 0x01, read header (40_header.md R91). -/
  | rdhdr
  /-- 0x02, derive output header (40_header.md R92). -/
  | drvhdr
  /-- 0x03, write header (40_header.md R93). -/
  | wrhdr
  /-- 0x04, run-length decode (41_rle_codec.md R102). -/
  | decrle
  /-- 0x05, run-length encode (41_rle_codec.md R106). -/
  | encrle
  /-- 0x06, raw decode (42_raw_codec.md R121). -/
  | decraw
  /-- 0x07, raw encode (42_raw_codec.md R122). -/
  | encraw
  /-- 0x08, bilinear resample (43_resampler.md R131). -/
  | resample
  /-- 0x09, whole conversion (44_pipeline.md R151). -/
  | convert
  /-- 0xFF, soft reset (45_control.md R172). -/
  | srst
  /-- Control byte with bit 7 set: one pixel, `count` times (30_encoding.md R67). -/
  | rep (count : Nat)
  /-- Control byte with bit 7 clear: `count` pixels one after another (30_encoding.md R68). -/
  | raw (count : Nat)
  deriving DecidableEq, Repr

end Sys2Proof
end

