-- ==== Sys2Proof/WellFormed.lean ====
section
/-!
DEFINITION. Which terms of `Instr` are instructions of the hardware: a chunk's count is 1 to 128
(30_encoding.md R66, "from 1 to 128"; R71 "1 <= n <= 128"). A command has no operand to check.
-/

namespace Sys2Proof

/-- The largest chunk in pixels: "A chunk never exceeds 128 pixels" (00_scope.md R5 MAX_CHUNK). -/
def maxChunk : Nat := 128

/-- A legal chunk count, 1 to 128 (30_encoding.md R66, R71). -/
def chunkCountOk (count : Nat) : Bool := decide (1 ≤ count) && decide (count ≤ maxChunk)

/-- The well-formed instructions: those some word or control byte encodes. -/
def Instr.wellFormed : Instr → Bool
  | .nop => true
  | .rdhdr => true
  | .drvhdr => true
  | .wrhdr => true
  | .decrle => true
  | .encrle => true
  | .decraw => true
  | .encraw => true
  | .resample => true
  | .convert => true
  | .srst => true
  | .rep count => chunkCountOk count
  | .raw count => chunkCountOk count

end Sys2Proof
end

