-- ==== Sys2Proof/Decode.lean ====
section
/-!
DEFINITION. The decoder, total on any word and any control byte, and the encoder written from the
same tables: the command word of 30_encoding.md R60 and R61, the control byte of R66.
-/

namespace Sys2Proof

/-- Why a command word is not a command (30_encoding.md R62). Either reason is BadCommand. -/
inductive DecodeError where
  /-- OPC 0x0A to 0xFE: reserved (30_encoding.md R61). -/
  | reservedOpcode
  /-- `w[31:8]` is not 0 (30_encoding.md R60). -/
  | upperBitsSet
  deriving DecidableEq, Repr

/-- OPC, bits 7:0 of a command word (30_encoding.md R60). -/
def opcodeField (w : Word) : Byte := w.extractLsb' 0 8

/-- ZERO, bits 31:8 of a command word (30_encoding.md R60). -/
def zeroField (w : Word) : BitVec 24 := w.extractLsb' 8 24

/-- The opcode map (30_encoding.md R61); opcodes 0x0A to 0xFE are reserved. -/
def decodeOpcode (opc : Byte) : Option Instr :=
  match opc.toNat with
  | 0x00 => some .nop
  | 0x01 => some .rdhdr
  | 0x02 => some .drvhdr
  | 0x03 => some .wrhdr
  | 0x04 => some .decrle
  | 0x05 => some .encrle
  | 0x06 => some .decraw
  | 0x07 => some .encraw
  | 0x08 => some .resample
  | 0x09 => some .convert
  | 0xFF => some .srst
  | _ => none

/-- A word written to CMD (10_state.md R15): a command, or why it is none (30_encoding.md R62). -/
def decodeCommand (w : Word) : Except DecodeError Instr :=
  if zeroField w = 0 then
    match decodeOpcode (opcodeField w) with
    | some i => .ok i
    | none => .error .reservedOpcode
  else .error .upperBitsSet

/-- KIND, bit 7 of a control byte (30_encoding.md R66): `true` is a repeat chunk. -/
def kindField (c : Byte) : Bool := c.getLsbD 7

/-- `count(c) = (c & 0x7F) + 1`, 1 to 128 (30_encoding.md R66). -/
def countField (c : Byte) : Nat := (c &&& 0x7F#8).toNat + 1

/-- A control byte of a run-length stream: "All 256 control byte values are legal" (30_encoding.md
R70). -/
def decodeChunk (c : Byte) : Instr :=
  if kindField c then .rep (countField c) else .raw (countField c)

/-- The instruction the decoder reads from the bits `w` of an opcode-table row of `nbits` bits: a
command word of 32 bits or a control byte of 8 (30_encoding.md R60, R66). No row has another
width. -/
def decodeTableWord (nbits w : Nat) : Option Instr :=
  if nbits = 32 ∧ w < 2 ^ 32 then
    match decodeCommand (BitVec.ofNat 32 w) with
    | .ok i => some i
    | .error _ => none
  else if nbits = 8 ∧ w < 2 ^ 8 then some (decodeChunk (BitVec.ofNat 8 w))
  else none

/-- The control byte of a chunk: `0x80 | (count - 1)` for a repeat chunk, `count - 1` for a raw
chunk (30_encoding.md R67, R68). -/
def controlByte (repeats : Bool) (count : Nat) : Byte :=
  (if repeats then 0x80#8 else 0x00#8) ||| BitVec.ofNat 8 (count - 1)

/-- An encoded instruction: how many bits it has and what they are. -/
structure Encoded where
  nbits : Nat
  bits : Nat
  deriving DecidableEq, Repr

/-- The command word of an opcode, `OPC` zero-extended to 32 bits (30_encoding.md R60, R65). -/
def commandWord (opc : Byte) : Encoded := ⟨32, (opc.setWidth 32).toNat⟩

/-- The encoder: the command word (30_encoding.md R61) or the control byte (R67, R68) of an
instruction. -/
def encode : Instr → Encoded
  | .nop => commandWord 0x00
  | .rdhdr => commandWord 0x01
  | .drvhdr => commandWord 0x02
  | .wrhdr => commandWord 0x03
  | .decrle => commandWord 0x04
  | .encrle => commandWord 0x05
  | .decraw => commandWord 0x06
  | .encraw => commandWord 0x07
  | .resample => commandWord 0x08
  | .convert => commandWord 0x09
  | .srst => commandWord 0xFF
  | .rep count => ⟨8, (controlByte true count).toNat⟩
  | .raw count => ⟨8, (controlByte false count).toNat⟩

end Sys2Proof
end

