-- ==== Sys2Proof/Config.lean ====
section
/-!
DEFINITION. What an implementation fixes and the free values. Neither constant has a body, so no
proof can see what it is: a claim holds whatever it is.
-/

namespace Sys2Proof

/-- The free value of an unspecified byte (10_state.md R30, 93_implementation_defined.md U1):
"A model must not pick a value for it (not 0, not the previous contents)". The first argument is
the number of the draw (a draw is one occasion on which bytes become unspecified), the second the
place of the byte in what was drawn. DESIGN CHOICE, log 1. -/
opaque Config.freeByte : Nat → Nat → Byte

/-- The highest PB address of this implementation, a 32-bit value: PB_SIZE is left OPEN between 1
and 2^32 (00_scope.md R5, 92_eei_decisions.md D3). -/
opaque Config.pbTop : BitVec 32

/-- PB_SIZE of this implementation, `1 <= PB_SIZE <= 2^32` (00_scope.md R5). Log 3. -/
def Config.pbSize : Nat := Config.pbTop.toNat + 1

/-- A header file all of whose bytes are unspecified: byte `k` is place `k` of draw `d`
(10_state.md R30). -/
def Config.freeHeader (d : Nat) : Machine.Header :=
  #v[freeByte d 0, freeByte d 1, freeByte d 2, freeByte d 3, freeByte d 4, freeByte d 5,
     freeByte d 6, freeByte d 7, freeByte d 8, freeByte d 9, freeByte d 10, freeByte d 11,
     freeByte d 12, freeByte d 13, freeByte d 14, freeByte d 15, freeByte d 16, freeByte d 17]

end Sys2Proof
end

