-- ==== Sys2Proof/Machine/State.lean ====
section
/-!
DEFINITION. The state of the machine as plain data: the block's registers, header files, PB and
SEQ (10_state.md R11), its one parameter PB_SIZE, and beside them what the environment has ready
and has received. The reasons a step can stop. The state after reset.
-/

namespace Sys2Proof.Machine

/-- What the source answers to one `InByte()` (10_state.md R23). -/
inductive InAnswer where
  /-- `Byte(b)`: the next byte of the stream. -/
  | byte (b : Byte)
  /-- `End`: the stream has ended before this byte. -/
  | eos
  /-- `Fail`: the source failed to read. -/
  | fail
  deriving DecidableEq, Repr

/-- What the sink answers to one `OutByte(b)` (10_state.md R24). -/
inductive OutAnswer where
  /-- `Ack`: the byte is appended to the output stream. -/
  | ack
  /-- `Fail`: it is not. -/
  | fail
  deriving DecidableEq, Repr

/-- The error codes (60_exceptions.md R181). -/
inductive ErrorCode where
  | ioError
  | truncatedHeader
  | truncatedData
  | unsupportedFormat
  | writeFailed
  | overrun
  | badParam
  | bufferRange
  | badCommand
  deriving DecidableEq, Repr

/-- The stages ERRINFO.STAGE numbers (10_state.md R26). -/
inductive Stage where
  | issue
  | hdrRead
  | validate
  | decode
  | resample
  | hdrWrite
  | encode
  deriving DecidableEq, Repr

/-- The commands that run stages: all but NOP and SRST (30_encoding.md R63, 45_control.md R170). -/
inductive Command where
  | rdhdr
  | drvhdr
  | wrhdr
  | decrle
  | encrle
  | decraw
  | encraw
  | resample
  | convert
  deriving DecidableEq, Repr

/-- The kind of a chunk, bit 7 of its control byte (30_encoding.md R66). -/
inductive ChunkKind where
  | rep
  | raw
  deriving DecidableEq, Repr

/-- Where the run-length decoder stands inside the chunk sequence (10_state.md R27 a,
41_rle_codec.md R102). -/
inductive ChunkPos where
  /-- At a chunk boundary: the next byte is a control byte. -/
  | control
  /-- The control byte has been taken, and `got` of the first pixel (R103). -/
  | firstPixel (kind : ChunkKind) (count : Nat) (got : List Byte)
  /-- In a raw chunk past its first pixel, with `left` bytes still to come. -/
  | rest (left : Nat)
  deriving DecidableEq, Repr

/-- The run-length decoder's values: the codec buffer `[base, base + size)`, `bpp`, and the count
`emitted` of bytes written so far (10_state.md R27 a, 41_rle_codec.md R100, R102). -/
structure Decoder where
  base : Nat
  size : Nat
  bpp : Nat
  emitted : Nat
  deriving DecidableEq, Repr

/-- The sizes and bases of one resampling (43_resampler.md R131). -/
structure Geometry where
  bpp : Nat
  sbase : Nat
  srcW : Nat
  srcH : Nat
  dbase : Nat
  dstW : Nat
  dstH : Nat
  deriving DecidableEq, Repr

/-- CONVERT's temporaries (10_state.md R27 d, 44_pipeline.md R151). -/
structure Plan where
  bpp : Nat
  srcW : Nat
  srcH : Nat
  dstW : Nat
  dstH : Nat
  srcBytes : Nat
  dstBytes : Nat
  outType : Byte
  deriving DecidableEq, Repr

/-- The stage a running command is in, with the transient state of the stage (10_state.md R26,
R27). -/
inductive Cursor where
  /-- ISSUE: the parameters are to be checked. -/
  | issue
  /-- HDR_READ: `k` header bytes have been taken (40_header.md R91). -/
  | hdrRead (k : Nat)
  /-- VALIDATE: CONVERT is to check the header (44_pipeline.md R153). -/
  | validate
  /-- DECODE, raw: `done` of the `size` bytes have been taken (42_raw_codec.md R121). -/
  | decodeRaw (base size done : Nat)
  /-- DECODE, run-length (41_rle_codec.md R102). -/
  | decodeRle (d : Decoder) (pos : ChunkPos)
  /-- RESAMPLE: the destination region is to be computed (43_resampler.md R131). -/
  | resample (g : Geometry)
  /-- HDR_WRITE, first half: HDR_OUT is to be derived (40_header.md R92). -/
  | derive (width height : Half) (imageType : Byte)
  /-- HDR_WRITE, second half: `left` of HDR_OUT is still to be offered (40_header.md R93). -/
  | hdrWrite (left : List Byte)
  /-- ENCODE: `left` of the pixel stream is still to be offered (41_rle_codec.md R106,
  42_raw_codec.md R122). -/
  | encode (left : List Byte)
  deriving DecidableEq, Repr

/-- SEQ, the sequencer state: "which command is running and which stage of it" (10_state.md R26).
`plan` holds CONVERT's temporaries once VALIDATE has computed them. -/
inductive Sequencer where
  | idle
  | error
  | run (cmd : Command) (plan : Option Plan) (cur : Cursor)
  deriving DecidableEq, Repr

/-- One act of the environment, or one turn it leaves to the engine. -/
inductive Event where
  /-- The host writes the value to the register of that number (10_state.md R13, R14); a write to
  register 0 is a CMD write (R15). -/
  | wr (reg : Nat) (value : Word)
  /-- The host reads the register of that number. -/
  | rd (reg : Nat)
  /-- The host writes one PB byte (10_state.md R22, R25). -/
  | pbwr (addr : Nat) (value : Byte)
  /-- The host reads one PB byte. -/
  | pbrd (addr : Nat)
  /-- The source has one more answer ready (10_state.md R23). -/
  | source (answer : InAnswer)
  /-- The sink has one more answer ready (10_state.md R24). -/
  | sink (answer : OutAnswer)
  /-- `rst` is asserted and released (70_reset_and_hazards.md R210). `inFlight` is R212's free
  choice: whether a port transaction in progress took effect. -/
  | rst (inFlight : Bool)
  /-- The engine has a turn before the next event. -/
  | engine
  deriving DecidableEq, Repr

/-- When the engine moves after a CMD write. The spec gives no timing (70_reset_and_hazards.md
R229), so both are behaviours of the block. MODEL's own, log 5. -/
inductive Pace where
  /-- At once, until the command ends or is held on a port: the script word RUN, `CMD` followed by
  `WAIT` (30_encoding.md R65). -/
  | runAhead
  /-- Only at its own turns, one engine step each: host events can land while the command is BUSY
  in any stage. -/
  | stepwise
  deriving DecidableEq, Repr

/-- The parameter registers and CFG, numbers 3 to 13 (10_state.md R14, R18, R19). -/
structure Params where
  cfg : BitVec 3
  bpp : BitVec 3
  bufBase : Word
  bufLen : Word
  srcBase : Word
  srcW : Half
  srcH : Half
  dstBase : Word
  dstW : Half
  dstH : Half
  outType : Byte
  deriving DecidableEq, Repr

/-- Registers 3 to 13 after reset and after SRST: all 0 (10_state.md R28, 45_control.md R172). -/
def Params.zero : Params := ⟨0, 0, 0, 0, 0, 0, 0, 0, 0, 0, 0⟩

/-- A region of PB made unspecified at once: an unlisted byte of it is a place of draw `draw`
(10_state.md R30). MODEL's own, log 1. -/
structure FreeRegion where
  base : Nat
  len : Nat
  draw : Nat
  deriving DecidableEq, Repr

/-- The bytes of PB that have a value, by rising address; a byte not listed is unspecified
(10_state.md R22, R30). -/
abbrev Memory := List Host.Cell

/-- The state. The first eleven fields are the block's own (10_state.md R11); `pbFree` and `pbDraw`
only say which free value an unlisted PB byte is. The rest is the parameter PB_SIZE and the
environment. -/
structure State where
  /-- Registers 3 to 13. -/
  params : Params
  /-- Register 1, BUSY, DONE, ERR (10_state.md R16). -/
  status : BitVec 3
  /-- Register 2, CODE and STAGE (10_state.md R17). -/
  errinfo : Byte
  /-- Register 14, bytes taken from the input stream modulo 2^32 (10_state.md R21). -/
  inCount : Word
  /-- Register 15, bytes accepted by the output stream modulo 2^32 (10_state.md R21). -/
  outCount : Word
  /-- Registers 16 to 33 (10_state.md R20). -/
  hdrIn : Header
  /-- Registers 34 to 51 (10_state.md R20). -/
  hdrOut : Header
  /-- The PB bytes that have a value (10_state.md R22). -/
  pb : Memory
  /-- The PB regions made unspecified since the hardware reset, newest first. -/
  pbFree : List FreeRegion
  /-- The draw of the PB bytes unspecified since the hardware reset. -/
  pbDraw : Nat
  /-- SEQ (10_state.md R26) with the transient state of R27. -/
  seq : Sequencer
  /-- The parameter PB_SIZE (00_scope.md R5): no step changes it. -/
  pbSize : Nat
  /-- What the environment does next, oldest first. -/
  agenda : List Event
  /-- When the engine moves. -/
  pace : Pace
  /-- The answers the source has ready, the next first. -/
  source : List InAnswer
  /-- The answers the sink has ready, the next first. -/
  sink : List OutAnswer
  /-- The output stream: the bytes the sink has acknowledged, oldest first. -/
  out : List Byte
  /-- The values host reads have returned, newest first. -/
  replies : List Word
  /-- The number of the next draw of free values. -/
  draws : Nat
  deriving DecidableEq, Repr

/-- Why a step stops with a fault. -/
inductive Fault where
  /-- Raised by a host PB access at an address at or above PB_SIZE: no such byte exists
  (20_memory.md R40). Safe. Log 9. -/
  | pbAddress
  /-- Raised by an engine turn, or a chunk, whose region is not inside PB: "The engine never issues
  an access that breaks the requirement" (20_memory.md R40), so no run reaches it. Safe. Log 10. -/
  | pbRange
  deriving DecidableEq, Repr

/-- Why a step gives an instruction no meaning. -/
inductive Refusal where
  /-- Raised by an arm of `exec` whose instruction has no meaning yet. Safe. No arm does. -/
  | notModelled (mnemonic : String)
  /-- Raised by a chunk executed where no run-length decode stands at a chunk boundary with bytes
  still to decode: a control byte is a chunk only there (30_encoding.md R66, R69). Safe. Log 11. -/
  | chunkOutsideDecode
  deriving DecidableEq, Repr

/-- The state after reset (10_state.md R28, 70_reset_and_hazards.md R210): registers 1 to 15 are 0,
SEQ is IDLE, HDR_IN, HDR_OUT and PB are unspecified (draws 0, 1 and 2). The environment has done
nothing yet. Log 2, log 3, log 4. -/
def State.reset : State where
  params := Params.zero
  status := 0
  errinfo := 0
  inCount := 0
  outCount := 0
  hdrIn := Config.freeHeader 0
  hdrOut := Config.freeHeader 1
  pb := []
  pbFree := []
  pbDraw := 2
  seq := .idle
  pbSize := Config.pbSize
  agenda := []
  pace := .runAhead
  source := []
  sink := []
  out := []
  replies := []
  draws := 3

end Sys2Proof.Machine
end

