-- ==== Sys2Proof/Machine/Flags.lean ====
section
/-!
DEFINITION. STATUS and ERRINFO: the fields of 10_state.md R16 and R17, the error numbers of
60_exceptions.md R181 and the stage numbers of 10_state.md R26.
-/

namespace Sys2Proof.Machine

/-- STATUS with nothing set: IDLE, nothing completed since reset (10_state.md R16). -/
def statusNone : BitVec 3 := 0b000

/-- STATUS with BUSY alone (10_state.md R16). -/
def statusBusy : BitVec 3 := 0b001

/-- STATUS with DONE alone: IDLE, the last command completed (10_state.md R16). -/
def statusDone : BitVec 3 := 0b010

/-- STATUS with ERR alone: the ERROR state (10_state.md R16). -/
def statusErr : BitVec 3 := 0b100

/-- STATUS.BUSY, bit 0 (10_state.md R16). -/
def State.busy (s : State) : Bool := s.status.getLsbD 0

/-- STATUS.DONE, bit 1 (10_state.md R16). -/
def State.done (s : State) : Bool := s.status.getLsbD 1

/-- STATUS.ERR, bit 2 (10_state.md R16): the state ERROR. -/
def State.err (s : State) : Bool := s.status.getLsbD 2

/-- The state IDLE: `BUSY = 0` and `ERR = 0` (10_state.md R16). -/
def State.isIdle (s : State) : Bool := !s.busy && !s.err

/-- The number of an error (60_exceptions.md R181). -/
def ErrorCode.number : ErrorCode → BitVec 4
  | .ioError => 1
  | .truncatedHeader => 2
  | .truncatedData => 3
  | .unsupportedFormat => 4
  | .writeFailed => 5
  | .overrun => 6
  | .badParam => 7
  | .bufferRange => 8
  | .badCommand => 9

/-- The number of a stage (10_state.md R26). -/
def Stage.number : Stage → BitVec 4
  | .issue => 0
  | .hdrRead => 1
  | .validate => 2
  | .decode => 3
  | .resample => 4
  | .hdrWrite => 5
  | .encode => 6

/-- ERRINFO: CODE in bits 3:0, STAGE in bits 7:4 (10_state.md R17). -/
def errinfoOf (e : ErrorCode) (st : Stage) : Byte := st.number ++ e.number

/-- The stage a cursor is in (10_state.md R26). Deriving and writing HDR_OUT are both HDR_WRITE. -/
def Cursor.stage : Cursor → Stage
  | .issue => .issue
  | .hdrRead _ => .hdrRead
  | .validate => .validate
  | .decodeRaw _ _ _ => .decode
  | .decodeRle _ _ => .decode
  | .resample _ => .resample
  | .derive _ _ _ => .hdrWrite
  | .hdrWrite _ => .hdrWrite
  | .encode _ => .encode

/-- The stage an error is reported in: that of SEQ, or ISSUE where no command runs (10_state.md
R26, 30_encoding.md R62). -/
def Sequencer.stage : Sequencer → Stage
  | .idle => .issue
  | .error => .issue
  | .run _ _ cur => cur.stage

end Sys2Proof.Machine
end

