-- ==== Sys2Proof/Machine/Ops.lean ====
section
/-!
DEFINITION. The named operations every meaning is written over: PB (20_memory.md R40), the stream
ports (10_state.md R23, R24; 00_scope.md R7), making bytes unspecified (10_state.md R30), error
entry (60_exceptions.md R186) with leaving it by SRST and by reset, and completion
(30_encoding.md R63).
-/

namespace Sys2Proof.Machine

/-! ### PB -/

/-- The canonical form of PB's list: addresses strictly rising, so no address twice. An unlisted
address has no value of its own (it reads as a free value), so no entry repeats one. -/
abbrev Memory.wf (m : Memory) : Prop := List.Pairwise (fun x y => x.1 < y.1) m

/-- The value of the byte at `a`, if it has one. -/
def Memory.get? : Memory → Nat → Option Byte
  | [], _ => none
  | (k, b) :: m, a => if k = a then some b else Memory.get? m a

/-- Store the byte `b` at `a`, keeping the addresses rising. -/
def Memory.set : Memory → Nat → Byte → Memory
  | [], a, b => [(a, b)]
  | (k, c) :: m, a, b =>
    if a < k then (a, b) :: (k, c) :: m
    else if a = k then (a, b) :: m
    else (k, c) :: Memory.set m a b

/-- `MemWrite(a, n, v)`: "stores `v[0]` at `a`, `v[1]` at `a+1`, and so on" (20_memory.md R40). -/
def Memory.setBlock : Memory → Nat → List Byte → Memory
  | m, _, [] => m
  | m, a, b :: bs => Memory.setBlock (m.set a b) (a + 1) bs

/-- The bytes of `[base, base + len)` no longer have a value (10_state.md R30). -/
def Memory.clear (m : Memory) (base len : Nat) : Memory :=
  m.filter (fun x => !(decide (base ≤ x.1) && decide (x.1 < base + len)))

/-- Which draw an unspecified byte belongs to: that of the newest region that holds it, else that
of the hardware reset (10_state.md R30: it does not change by itself). -/
def freeDraw : List FreeRegion → Nat → Nat → Nat
  | [], d, _ => d
  | r :: rs, d, a => if r.base ≤ a ∧ a < r.base + r.len then r.draw else freeDraw rs d a

/-- `PB[a]`: the byte's value, or the free value of an unspecified byte (10_state.md R22, R30).
What an unlisted address reads as is decided here and nowhere else. -/
def State.pbByte (s : State) (a : Nat) : Byte :=
  match s.pb.get? a with
  | some b => b
  | none => Config.freeByte (freeDraw s.pbFree s.pbDraw a) a

/-- `MemRead(a, n)`: "the sequence `PB[a], PB[a+1], ..., PB[a+n-1]`" (20_memory.md R40). -/
def State.memRead (s : State) (a n : Nat) : List Byte :=
  (List.range n).map (fun k => s.pbByte (a + k))

/-- `MemWrite(a, n, v)` on the state (20_memory.md R40). -/
def State.memWrite (s : State) (a : Nat) (v : List Byte) : State :=
  { s with pb := s.pb.setBlock a v }

/-! ### Bytes that become unspecified -/

/-- `PB[base .. base+len-1]` becomes unspecified (60_exceptions.md R188). -/
def State.freePb (s : State) (base len : Nat) : State :=
  { s with
    pb := s.pb.clear base len
    pbFree := ⟨base, len, s.draws⟩ :: s.pbFree
    draws := s.draws + 1 }

/-- `HDR_IN[0..17]` becomes unspecified (60_exceptions.md R188). -/
def State.freeHdrIn (s : State) : State :=
  { s with hdrIn := Config.freeHeader s.draws, draws := s.draws + 1 }

/-! ### The stream ports -/

/-- How a sequence of `InByte()` transactions ended. -/
inductive TakeEnd where
  /-- All bytes asked for were delivered. -/
  | full
  /-- The source has not answered: "The engine holds, without limit" (10_state.md R23). -/
  | hold
  /-- The source answered `End`. -/
  | eos
  /-- The source answered `Fail`. -/
  | failed
  deriving DecidableEq, Repr

/-- What a sequence of `InByte()` transactions gave. -/
structure Taken where
  /-- The bytes delivered, in stream order. -/
  bytes : List Byte
  /-- The answers the source has still ready. -/
  left : List InAnswer
  ending : TakeEnd
  deriving DecidableEq, Repr

/-- `n` successive `InByte()` transactions, up to the first that is not answered `Byte(b)`
(00_scope.md R7, `TakeN`). -/
def takeN : Nat → List InAnswer → Taken
  | 0, q => ⟨[], q, .full⟩
  | _ + 1, [] => ⟨[], [], .hold⟩
  | _ + 1, .eos :: q => ⟨[], q, .eos⟩
  | _ + 1, .fail :: q => ⟨[], q, .failed⟩
  | n + 1, .byte b :: q =>
    let t := takeN n q
    ⟨b :: t.bytes, t.left, t.ending⟩

/-- The transactions have happened: the answers are used up and IN_COUNT has counted the bytes
(10_state.md R21: "An `End`, a `Fail` ... are not counted"). -/
def State.afterTake (s : State) (t : Taken) : State :=
  { s with source := t.left, inCount := s.inCount + BitVec.ofNat 32 t.bytes.length }

/-- How a sequence of `OutByte` transactions ended. -/
inductive PutEnd where
  /-- All bytes were acknowledged. -/
  | full
  /-- The sink has not answered: "The engine holds, without limit" (10_state.md R24). -/
  | hold
  /-- The sink answered `Fail`. -/
  | failed
  deriving DecidableEq, Repr

/-- What a sequence of `OutByte` transactions gave. -/
structure Given where
  /-- The bytes acknowledged, in order. -/
  sent : List Byte
  /-- The bytes not acknowledged. -/
  unsent : List Byte
  /-- The answers the sink has still ready. -/
  left : List OutAnswer
  ending : PutEnd
  deriving DecidableEq, Repr

/-- `OutByte` of every byte in order, up to the first that is not answered `Ack` (00_scope.md R7,
`PutN`). -/
def putN : List Byte → List OutAnswer → Given
  | [], q => ⟨[], [], q, .full⟩
  | b :: bs, [] => ⟨[], b :: bs, [], .hold⟩
  | b :: bs, .fail :: q => ⟨[], b :: bs, q, .failed⟩
  | b :: bs, .ack :: q =>
    let g := putN bs q
    ⟨b :: g.sent, g.unsent, g.left, g.ending⟩

/-- The transactions have happened: the acknowledged bytes are in the output stream and OUT_COUNT
has counted them (10_state.md R21, R24). -/
def State.afterPut (s : State) (g : Given) : State :=
  { s with
    sink := g.left
    out := s.out ++ g.sent
    outCount := s.outCount + BitVec.ofNat 32 g.sent.length }

/-! ### SEQ, completion and error entry -/

/-- `SEQ <- s`: the running command goes on at `cur` (00_scope.md R7). -/
def Sequencer.moveTo (cur : Cursor) : Sequencer → Sequencer
  | .idle => .idle
  | .error => .error
  | .run cmd plan _ => .run cmd plan cur

/-- `SEQ <- s` on the state. -/
def State.moveTo (s : State) (cur : Cursor) : State := { s with seq := s.seq.moveTo cur }

/-- Acceptance of a command other than NOP and SRST: `STATUS.DONE <- 0`, `STATUS.BUSY <- 1`,
`SEQ <- ISSUE` (30_encoding.md R63). -/
def State.accept (s : State) (cmd : Command) : State :=
  { s with status := statusBusy, seq := .run cmd none .issue }

/-- Completion: `STATUS.BUSY <- 0`, `STATUS.DONE <- 1`, `SEQ <- IDLE` (30_encoding.md R63). -/
def State.complete (s : State) : State := { s with status := statusDone, seq := .idle }

/-- What a failing command leaves unspecified, by its stage (60_exceptions.md R188): a header read
HDR_IN, a decode its codec buffer, CONVERT from DECODE on both its regions. -/
def State.spoil (s : State) : State :=
  match s.seq with
  | .idle => s
  | .error => s
  | .run _ plan cur =>
    match cur with
    | .issue => s
    | .hdrRead _ => s.freeHdrIn
    | .validate => s
    | .decodeRaw base size _ =>
      match plan with
      | none => s.freePb base size
      | some p => s.freePb 0 (p.srcBytes + p.dstBytes)
    | .decodeRle d _ =>
      match plan with
      | none => s.freePb d.base d.size
      | some p => s.freePb 0 (p.srcBytes + p.dstBytes)
    | .resample _ => s
    | .derive _ _ _ => s
    | .hdrWrite _ =>
      match plan with
      | none => s
      | some p => s.freePb 0 (p.srcBytes + p.dstBytes)
    | .encode _ =>
      match plan with
      | none => s
      | some p => s.freePb 0 (p.srcBytes + p.dstBytes)

/-- The registers of error entry: ERRINFO, STATUS and SEQ (60_exceptions.md R186). -/
def State.enterError (s : State) (e : ErrorCode) (st : Stage) : State :=
  { s with errinfo := errinfoOf e st, status := statusErr, seq := .error }

/-- `raise E`, error entry "as one step" (60_exceptions.md R186): the state of R188 becomes
unspecified, CODE and the stage of SEQ are recorded, STATUS shows ERR alone, SEQ is ERROR. -/
def State.raise (s : State) (e : ErrorCode) : State := s.spoil.enterError e s.seq.stage

/-- What SRST does: registers 1 to 15 are 0 and SEQ is IDLE; HDR_IN, HDR_OUT, PB and the streams
are not touched (45_control.md R172). It is the way out of ERROR (60_exceptions.md R189). -/
def State.softReset (s : State) : State :=
  { s with
    params := Params.zero
    status := statusNone
    errinfo := 0
    inCount := 0
    outCount := 0
    seq := .idle }

/-- The byte and the port of a transaction the engine has in progress. -/
inductive Pending where
  | none
  | input
  | output (b : Byte)
  deriving DecidableEq, Repr

/-- A transaction in progress at a hardware reset took effect after all (70_reset_and_hazards.md
R212): the source's byte is gone, or the sink has the byte. Log 8. -/
def State.landInFlight (s : State) : Pending → State
  | .none => s
  | .input => { s with source := s.source.tail }
  | .output b => { s with sink := s.sink.tail, out := s.out ++ [b] }

/-- The hardware reset (10_state.md R28, 70_reset_and_hazards.md R210): registers 1 to 15 are 0,
SEQ is IDLE, and every byte of HDR_IN, HDR_OUT and PB becomes unspecified anew. -/
def State.hardReset (s : State) : State :=
  { s with
    params := Params.zero
    status := statusNone
    errinfo := 0
    inCount := 0
    outCount := 0
    hdrIn := Config.freeHeader s.draws
    hdrOut := Config.freeHeader (s.draws + 1)
    pb := []
    pbFree := []
    pbDraw := s.draws + 2
    seq := .idle
    draws := s.draws + 3 }

end Sys2Proof.Machine
end

