-- ==== Sys2Proof/Machine/Operands.lean ====
section
/-!
DEFINITION. Operand forms: the views of a header record (10_state.md R20), the fields of CFG (R18),
the registers as numbers, pixel addressing (20_memory.md R44), and the parameter and region checks
of the commands (20_memory.md R47, 41_rle_codec.md R101, 42_raw_codec.md R120, 43_resampler.md
R130, 44_pipeline.md R153 and R155).
-/

namespace Sys2Proof.Machine

/-! ### Bytes and 16-bit fields -/

/-- `LE16(b0, b1) = b0 + 256*b1` (00_scope.md R6, 20_memory.md R42). -/
def le16 (b0 b1 : Byte) : Half := b1 ++ b0

/-- `s16(n)`: two's complement (00_scope.md R6). PRESUMED by the spec itself (G1), log 20. -/
def s16 (h : Half) : Int := h.toInt

/-- `lo8(n) = n mod 256` (00_scope.md R6). -/
def lo8 (h : Half) : Byte := h.extractLsb' 0 8

/-- `hi8(n) = (n div 256) mod 256` (00_scope.md R6). -/
def hi8 (h : Half) : Byte := h.extractLsb' 8 8

/-! ### The views of a header record (10_state.md R20) -/

/-- `type(H) = H[2]`. -/
def Header.imageType (h : Header) : Byte := h[2]

/-- `cmap(H) = H[1]`. -/
def Header.cmap (h : Header) : Byte := h[1]

/-- `width(H) = s16(LE16(H[12], H[13]))`. -/
def Header.width (h : Header) : Int := s16 (le16 h[12] h[13])

/-- `height(H) = s16(LE16(H[14], H[15]))`. -/
def Header.height (h : Header) : Int := s16 (le16 h[14] h[15])

/-- `bits(H) = H[16]`. -/
def Header.bits (h : Header) : Byte := h[16]

/-- Bytes `k, k+1, ...` of a header file are overwritten in order, as a header read does
(40_header.md R91); nothing is stored past the record's end. -/
def Header.store (h : Header) (k : Nat) : List Byte → Header
  | [] => h
  | b :: bs => Header.store (if hk : k < 18 then h.set k b else h) (k + 1) bs

/-- The derived header: "copies all fields from input, overwrites width/height/datatype"
(40_header.md R92). -/
def Header.derive (h : Header) (width height : Half) (imageType : Byte) : Header :=
  ((((h.set 2 imageType).set 12 (lo8 width)).set 13 (hi8 width)).set 14 (lo8 height)).set 15
    (hi8 height)

/-! ### CFG (10_state.md R18) -/

/-- CFG.HALF, bit 0. -/
def Params.half (p : Params) : Bool := p.cfg.getLsbD 0

/-- CFG.OTYPE, bits 2:1. -/
def Params.otype (p : Params) : BitVec 2 := p.cfg.extractLsb' 1 2

/-- The output image-type of a CFG.OTYPE and an input type: PRESERVE, RAW, RLE (10_state.md R18,
44_pipeline.md R158). OTYPE 3 never gets here: CONVERT has refused it (R152). -/
def outputType (otype : BitVec 2) (inputType : Byte) : Byte :=
  if otype = 0 then inputType else if otype = 1 then 2 else 10

/-! ### Addressing -/

/-- `PixAddr(base, width, bpp, x, y, ch)`: the block's one addressing mode (20_memory.md R44). -/
def pixAddr (base width bpp x y ch : Nat) : Nat := base + (x + y * width) * bpp + ch

/-- The pixels of the codec buffer: pixel `k` is `MemRead(base + k*bpp, bpp)`, `N = size div bpp` of
them (41_rle_codec.md R100). -/
def State.pixels (s : State) (base size bpp : Nat) : List Pixel :=
  (List.range (size / bpp)).map (fun k => s.memRead (base + k * bpp) bpp)

/-! ### Checks -/

/-- A bytes-per-pixel the block supports: "only 3 or 4 supported" (00_scope.md R5). -/
def bppOk (bpp : Nat) : Bool := bpp == 3 || bpp == 4

/-- A dimension in range, 1 to 32767 (00_scope.md R5 MAX_DIM). -/
def dimOk (d : Nat) : Bool := decide (1 ≤ d) && decide (d ≤ 32767)

/-- The check of DECRAW and ENCRAW (42_raw_codec.md R120): what it raises, if it fails. -/
def State.rawCheck (s : State) : Option ErrorCode :=
  if s.pbSize < s.params.bufBase.toNat + s.params.bufLen.toNat then some .bufferRange else none

/-- The checks of DECRLE and ENCRLE, in order (41_rle_codec.md R101). -/
def State.rleCheck (s : State) : Option ErrorCode :=
  if !bppOk s.params.bpp.toNat then some .badParam
  else if s.params.bufLen.toNat % s.params.bpp.toNat ≠ 0 then some .badParam
  else if s.pbSize < s.params.bufBase.toNat + s.params.bufLen.toNat then some .bufferRange
  else none

/-- The resampler's operands in the registers (43_resampler.md R131). -/
def Params.geometry (p : Params) : Geometry where
  bpp := p.bpp.toNat
  sbase := p.srcBase.toNat
  srcW := p.srcW.toNat
  srcH := p.srcH.toNat
  dbase := p.dstBase.toNat
  dstW := p.dstW.toNat
  dstH := p.dstH.toNat

/-- `srcBytes = srcW * srcH * bpp` (20_memory.md R47). -/
def Geometry.srcBytes (g : Geometry) : Nat := g.srcW * g.srcH * g.bpp

/-- `dstBytes = dstW * dstH * bpp` (20_memory.md R47). -/
def Geometry.dstBytes (g : Geometry) : Nat := g.dstW * g.dstH * g.bpp

/-- The checks of RESAMPLE, in order (43_resampler.md R130). -/
def Geometry.check (g : Geometry) (pbSize : Nat) : Option ErrorCode :=
  if !bppOk g.bpp then some .badParam
  else if !(dimOk g.srcW && dimOk g.srcH && dimOk g.dstW && dimOk g.dstH) then some .badParam
  else if pbSize < g.sbase + g.srcBytes then some .bufferRange
  else if pbSize < g.dbase + g.dstBytes then some .bufferRange
  else if ¬ (g.sbase + g.srcBytes ≤ g.dbase ∨ g.dbase + g.dstBytes ≤ g.sbase) then
    some .bufferRange
  else none

/-- A header CONVERT can handle: image-type 2, 3 or 10, color-map-type 0, 24 or 32 bits, width and
height positive (44_pipeline.md R153). -/
def Header.supported (h : Header) : Bool :=
  (h.imageType == 2 || h.imageType == 3 || h.imageType == 10) && h.cmap == 0
    && (h.bits == 24 || h.bits == 32) && decide (0 < h.width) && decide (0 < h.height)

/-- CONVERT's temporaries, computed from the header, CFG and the target size (44_pipeline.md R151,
R155, R158). -/
def planOf (p : Params) (h : Header) : Plan :=
  let bpp := h.bits.toNat / 8
  let srcW := h.width.toNat
  let srcH := h.height.toNat
  let dstW := if p.half then srcW / 2 else p.dstW.toNat
  let dstH := if p.half then srcH / 2 else p.dstH.toNat
  { bpp := bpp, srcW := srcW, srcH := srcH, dstW := dstW, dstH := dstH
    srcBytes := srcW * srcH * bpp, dstBytes := dstW * dstH * bpp
    outType := outputType p.otype h.imageType }

/-- The checks of VALIDATE, in order (44_pipeline.md R151, 60_exceptions.md R185). -/
def validateCheck (p : Params) (h : Header) (pbSize : Nat) : Option ErrorCode :=
  let t := planOf p h
  if !h.supported then some .unsupportedFormat
  else if !(dimOk t.dstW && dimOk t.dstH) then some .badParam
  else if pbSize < t.srcBytes + t.dstBytes then some .bufferRange
  else none

/-- The resampling CONVERT runs: source region from 0, destination region directly after it
(20_memory.md R48, 44_pipeline.md R157). -/
def Plan.geometry (t : Plan) : Geometry where
  bpp := t.bpp
  sbase := 0
  srcW := t.srcW
  srcH := t.srcH
  dbase := t.srcBytes
  dstW := t.dstW
  dstH := t.dstH

end Sys2Proof.Machine
end

