-- ==== Sys2Proof/Machine/Codec.lean ====
section
/-!
DEFINITION. The run-length encoder as a function of the pixel sequence (41_rle_codec.md R106 to
R111: "The output is a function of the buffer contents and `bpp` alone").
-/

namespace Sys2Proof.Machine

/-- How far a raw chunk grows: `len` pixels are in it, the last of them is `prev`, and the pixels
given follow. It grows while the next differs from its predecessor and `len < 128`; an equal pair
met before the cap closes it one short (41_rle_codec.md R108, R109). -/
def rawLength (len : Nat) (prev : Pixel) : List Pixel → Nat
  | [] => len
  | p :: ps =>
    if len < maxChunk then
      if p ≠ prev then rawLength (len + 1) p ps else len - 1
    else len

/-- How far a repeat chunk grows: while the next pixel equals its predecessor and `len < 128`
(41_rle_codec.md R107, R108). -/
def repLength (len : Nat) (prev : Pixel) : List Pixel → Nat
  | [] => len
  | p :: ps => if len < maxChunk ∧ p = prev then repLength (len + 1) p ps else len

/-- The kind and length of the next chunk of a pixel sequence that begins with `p`: one pixel left
is a raw chunk of one (41_rle_codec.md R110), else the first two pixels fix the mode (R107). -/
def nextChunk (p : Pixel) : List Pixel → ChunkKind × Nat
  | [] => (.raw, 1)
  | q :: ps => if q ≠ p then (.raw, rawLength 2 q ps) else (.rep, repLength 2 q ps)

/-- The bytes of one chunk over the pixels `ps`, the first of them `p`: control byte, then the one
pixel or all of them (30_encoding.md R67, R68). -/
def chunkBytes (kind : ChunkKind) (len : Nat) (p : Pixel) (ps : List Pixel) : List Byte :=
  match kind with
  | .rep => controlByte true len :: p
  | .raw => controlByte false len :: (ps.take len).flatten

/-- The encoder's outer loop, at most `fuel` chunks (41_rle_codec.md R106). -/
def encodeChunks : Nat → List Pixel → List Byte
  | 0, _ => []
  | _ + 1, [] => []
  | fuel + 1, p :: ps =>
    let c := nextChunk p ps
    chunkBytes c.1 c.2 p (p :: ps) ++ encodeChunks fuel ((p :: ps).drop c.2)

/-- The run-length encoding of a pixel sequence: every chunk stands for at least one pixel, so as
many rounds as there are pixels are enough (41_rle_codec.md R106, R111). -/
def encodePixels (ps : List Pixel) : List Byte := encodeChunks ps.length ps

/-- The bytes ENCRLE offers for the codec buffer (41_rle_codec.md R100, R106). -/
def State.rleBytes (s : State) (base size bpp : Nat) : List Byte :=
  encodePixels (s.pixels base size bpp)

end Sys2Proof.Machine
end

