-- ==== Sys2Proof/Machine/Sampler.lean ====
section
/-!
DEFINITION. The bilinear resampling of one destination byte and of the whole destination region, in
exact integer arithmetic (43_resampler.md R131 to R136).
-/

namespace Sys2Proof.Machine

/-- `clampi(v, lo, hi) = min(max(v, lo), hi)` (00_scope.md R6). -/
def clampi (v lo hi : Int) : Int := min (max v lo) hi

/-- `NX` (or `NY`): the clamped source coordinate of destination position `x`, times `2*dstN`
(43_resampler.md R132). -/
def mapNumerator (x srcN dstN : Nat) : Nat :=
  (clampi (2 * (x : Int) * srcN - dstN) 0 (((srcN : Int) - 1) * (2 * dstN))).toNat

/-- `x0 = NX div DX` (43_resampler.md R132). -/
def mapLow (x srcN dstN : Nat) : Nat := mapNumerator x srcN dstN / (2 * dstN)

/-- `fx = NX mod DX` (43_resampler.md R132). -/
def mapFrac (x srcN dstN : Nat) : Nat := mapNumerator x srcN dstN % (2 * dstN)

/-- `x1 = min(x0+1, srcW-1)`, the neighbour clamp (43_resampler.md R133). -/
def mapHigh (x srcN dstN : Nat) : Nat := min (mapLow x srcN dstN + 1) (srcN - 1)

/-- `num` (43_resampler.md R131): the weighted sum of the four samples. -/
def blendSum (c00 c01 c10 c11 fx fy dx dy : Nat) : Nat :=
  (c00 * (dx - fx) + c01 * fx) * (dy - fy) + (c10 * (dx - fx) + c11 * fx) * fy

/-- `v = num div (DX*DY)`: blend and truncation (43_resampler.md R134). -/
def blend (c00 c01 c10 c11 fx fy dx dy : Nat) : Nat :=
  blendSum c00 c01 c10 c11 fx fy dx dy / (dx * dy)

/-- `S(xx, yy, ch)`, a sample of the source region as a number (43_resampler.md R131). -/
def sample (pb : Nat → Byte) (g : Geometry) (x y ch : Nat) : Nat :=
  (pb (pixAddr g.sbase g.srcW g.bpp x y ch)).toNat

/-- The value of channel `ch` of the destination pixel `(x, y)` (43_resampler.md R131, R135). -/
def destValue (pb : Nat → Byte) (g : Geometry) (x y ch : Nat) : Nat :=
  let x0 := mapLow x g.srcW g.dstW
  let x1 := mapHigh x g.srcW g.dstW
  let y0 := mapLow y g.srcH g.dstH
  let y1 := mapHigh y g.srcH g.dstH
  blend (sample pb g x0 y0 ch) (sample pb g x1 y0 ch) (sample pb g x0 y1 ch)
    (sample pb g x1 y1 ch) (mapFrac x g.srcW g.dstW) (mapFrac y g.srcH g.dstH)
    (2 * g.dstW) (2 * g.dstH)

/-- The destination region as a whole, in address order: its byte `j` is channel `j mod bpp` of the
pixel of index `j div bpp`, row-major (20_memory.md R44, R52: "a model may ... define the
destination region as a whole, with the same result"). -/
def destBytes (pb : Nat → Byte) (g : Geometry) : List Byte :=
  (List.range g.dstBytes).map (fun j =>
    BitVec.ofNat 8 (destValue pb g (j / g.bpp % g.dstW) (j / g.bpp / g.dstW) (j % g.bpp)))

end Sys2Proof.Machine
end

