-- ==== Sys2Proof/Machine/Stages.lean ====
section
/-!
DEFINITION. What the engine does in each stage (10_state.md R26): it runs the stage's pseudocode as
far as the answers that are ready on the port allow. A stage that ends goes on to the next or
completes the command; one that is held keeps its place; one that fails raises.
-/

namespace Sys2Proof.Machine

/-! ### From one stage to the next (44_pipeline.md R150, R151) -/

/-- The running command, if one runs. -/
def Sequencer.command : Sequencer → Option Command
  | .idle => none
  | .error => none
  | .run cmd _ _ => some cmd

/-- CONVERT's temporaries, once VALIDATE has computed them. -/
def Sequencer.plan : Sequencer → Option Plan
  | .idle => none
  | .error => none
  | .run _ plan _ => plan

/-- HDR_READ has ended: CONVERT validates, RDHDR is complete (40_header.md R91, 44_pipeline.md
R151). -/
def State.afterHdrRead (s : State) : State :=
  match s.seq.command with
  | some .convert => s.moveTo .validate
  | _ => s.complete

/-- DECODE has ended: CONVERT resamples (44_pipeline.md R157), a decode command is complete. -/
def State.afterDecode (s : State) : State :=
  match s.seq.plan with
  | some p => s.moveTo (.resample p.geometry)
  | none => s.complete

/-- RESAMPLE has ended: CONVERT derives its output header (44_pipeline.md R158), RESAMPLE is
complete. -/
def State.afterResample (s : State) : State :=
  match s.seq.plan with
  | some p => s.moveTo (.derive (BitVec.ofNat 16 p.dstW) (BitVec.ofNat 16 p.dstH) p.outType)
  | none => s.complete

/-- HDR_OUT has been derived: CONVERT writes it (44_pipeline.md R159), DRVHDR is complete. -/
def State.afterDerive (s : State) : State :=
  match s.seq.plan with
  | some _ => s.moveTo (.hdrWrite s.hdrOut.toList)
  | none => s.complete

/-- The output pixel stream of CONVERT: the destination region, run-length when the output type is
10, raw when it is 2 or 3 (44_pipeline.md R154, R159). -/
def State.convertBody (s : State) (p : Plan) : List Byte :=
  if p.outType = 10 then s.rleBytes p.srcBytes p.dstBytes p.bpp
  else s.memRead p.srcBytes p.dstBytes

/-- HDR_OUT has been written: CONVERT encodes (44_pipeline.md R159), WRHDR is complete. -/
def State.afterHdrWrite (s : State) : State :=
  match s.seq.plan with
  | some p => s.moveTo (.encode (s.convertBody p))
  | none => s.complete

/-! ### ISSUE -/

/-- ISSUE of a command with a check: raise what the check raises, or go on at `cur`. -/
def State.checked (s : State) (check : Option ErrorCode) (cur : Cursor) : State :=
  match check with
  | some e => s.raise e
  | none => s.moveTo cur

/-- The check CONVERT makes before it reads anything (44_pipeline.md R152). -/
def State.convertCheck (s : State) : Option ErrorCode :=
  if s.params.otype = 3 then some .badParam else none

/-- The ISSUE stage of each command: its parameter checks, then the first stage of its pseudocode
(40_header.md R91 to R93, 41_rle_codec.md R101, R102, R106, 42_raw_codec.md R120 to R122,
43_resampler.md R130, R131, 44_pipeline.md R151, R152). -/
def State.issueStage (s : State) (cmd : Command) : State :=
  let base := s.params.bufBase.toNat
  let size := s.params.bufLen.toNat
  let bpp := s.params.bpp.toNat
  match cmd with
  | .rdhdr => s.moveTo (.hdrRead 0)
  | .drvhdr => s.moveTo (.derive s.params.dstW s.params.dstH s.params.outType)
  | .wrhdr => s.moveTo (.hdrWrite s.hdrOut.toList)
  | .decrle => s.checked s.rleCheck (.decodeRle ⟨base, size, bpp, 0⟩ .control)
  | .encrle => s.checked s.rleCheck (.encode (s.rleBytes base size bpp))
  | .decraw => s.checked s.rawCheck (.decodeRaw base size 0)
  | .encraw => s.checked s.rawCheck (.encode (s.memRead base size))
  | .resample => s.checked (s.params.geometry.check s.pbSize) (.resample s.params.geometry)
  | .convert => s.checked s.convertCheck (.hdrRead 0)

/-! ### Input stages -/

/-- How a stage that takes bytes goes on: past its end, held at `cur`, or with the error of the
port's answer (60_exceptions.md R183). -/
def State.onTaken (s : State) (ending : TakeEnd) (onEnd : ErrorCode) (next : State) (cur : Cursor) :
    State :=
  match ending with
  | .full => next
  | .hold => s.moveTo cur
  | .eos => s.raise onEnd
  | .failed => s.raise .ioError

/-- HDR_READ with `k` bytes taken: `HDR_IN[k] <- Take(TruncatedHeader)` for the rest of the 18
(40_header.md R91). -/
def State.hdrReadStage (s : State) (k : Nat) : State :=
  let t := takeN (18 - k) s.source
  let s1 := s.afterTake t
  let s2 := { s1 with hdrIn := s1.hdrIn.store k t.bytes }
  s2.onTaken t.ending .truncatedHeader s2.afterHdrRead (.hdrRead (k + t.bytes.length))

/-- VALIDATE: the checks of the header, of the output dimensions and of the room in PB, then the
decoder the image-type selects (44_pipeline.md R151, R153 to R156). -/
def State.validateStage (s : State) : State :=
  match validateCheck s.params s.hdrIn s.pbSize with
  | some e => s.raise e
  | none =>
    let p := planOf s.params s.hdrIn
    let cur :=
      if s.hdrIn.imageType = 10 then Cursor.decodeRle ⟨0, p.srcBytes, p.bpp, 0⟩ .control
      else Cursor.decodeRaw 0 p.srcBytes 0
    { s with seq := .run .convert (some p) cur }

/-- DECODE, raw: the bytes still to come are copied to PB (42_raw_codec.md R121). -/
def State.decodeRawStage (s : State) (base size done : Nat) : State :=
  let t := takeN (size - done) s.source
  let s1 := (s.afterTake t).memWrite (base + done) t.bytes
  s1.onTaken t.ending .truncatedData s1.afterDecode
    (.decodeRaw base size (done + t.bytes.length))

/-- A chunk has ended: the decoder "stops as soon as `emitted = size`" (41_rle_codec.md R104 a),
else it stands at the next control byte. -/
def State.chunkEnd (s : State) (d : Decoder) : State :=
  if d.emitted < d.size then s.moveTo (.decodeRle d .control) else s.afterDecode

/-- The later pixels of a raw chunk, `left` bytes of them still to come (41_rle_codec.md R102). -/
def State.rawRest (s : State) (d : Decoder) (left : Nat) : State :=
  let t := takeN left s.source
  let s1 := (s.afterTake t).memWrite (d.base + d.emitted) t.bytes
  let d1 := { d with emitted := d.emitted + t.bytes.length }
  s1.onTaken t.ending .truncatedData (s1.chunkEnd d1)
    (.decodeRle d1 (.rest (left - t.bytes.length)))

/-- A chunk whose first pixel has been taken: Overrun if it "stands for more pixels than remain",
before anything of it is written (41_rle_codec.md R104 c); else a repeat chunk writes its copies
and a raw chunk its first pixel and then the rest (R102). -/
def State.chunkBody (s : State) (d : Decoder) (kind : ChunkKind) (count : Nat) (px : Pixel) :
    State :=
  if d.size < d.emitted + count * d.bpp then s.raise .overrun
  else
    match kind with
    | .rep =>
      (s.memWrite (d.base + d.emitted) (List.replicate count px).flatten).chunkEnd
        { d with emitted := d.emitted + count * d.bpp }
    | .raw =>
      (s.memWrite (d.base + d.emitted) px).rawRest { d with emitted := d.emitted + d.bpp }
        ((count - 1) * d.bpp)

/-- The first pixel of a chunk, taken "regardless of chunk kind" before the kind is looked at
(41_rle_codec.md R103), `got` of its bytes being there already. -/
def State.chunkPixel (s : State) (d : Decoder) (kind : ChunkKind) (count : Nat) (got : List Byte) :
    State :=
  let t := takeN (d.bpp - got.length) s.source
  let s1 := s.afterTake t
  s1.onTaken t.ending .truncatedData (s1.chunkBody d kind count (got ++ t.bytes))
    (.decodeRle d (.firstPixel kind count (got ++ t.bytes)))

/-- One chunk whose control byte has been taken (30_encoding.md R67, R68). -/
def State.runChunk (s : State) (d : Decoder) (kind : ChunkKind) (count : Nat) : State :=
  s.chunkPixel d kind count []

/-- The chunk a decoded control byte stands for; a command is no chunk. -/
def State.runChunkOf (s : State) (d : Decoder) (i : Instr) : State :=
  match i with
  | .rep count => s.runChunk d .rep count
  | .raw count => s.runChunk d .raw count
  | .nop | .rdhdr | .drvhdr | .wrhdr | .decrle | .encrle | .decraw | .encraw | .resample
  | .convert | .srst => s

/-- DECODE at a chunk boundary: `while emitted < size`, `c <- Take(TruncatedData)`, then the chunk
the control byte stands for (41_rle_codec.md R102). -/
def State.controlStage (s : State) (d : Decoder) : State :=
  if d.emitted < d.size then
    match s.source with
    | [] => s
    | .byte c :: q =>
      ({ s with source := q, inCount := s.inCount + 1 } : State).runChunkOf d (decodeChunk c)
    | .eos :: q => ({ s with source := q } : State).raise .truncatedData
    | .fail :: q => ({ s with source := q } : State).raise .ioError
  else s.afterDecode

/-! ### The resampler and the header derivation -/

/-- RESAMPLE: the destination region is written, then nothing can fail (43_resampler.md R130,
R131). -/
def State.resampleStage (s : State) (g : Geometry) : State :=
  (s.memWrite g.dbase (destBytes s.pbByte g)).afterResample

/-- HDR_WRITE, first half: HDR_OUT is HDR_IN with width, height and image-type replaced
(40_header.md R92). -/
def State.deriveStage (s : State) (width height : Half) (imageType : Byte) : State :=
  ({ s with hdrOut := s.hdrIn.derive width height imageType } : State).afterDerive

/-! ### Output stages -/

/-- How a stage that offers bytes goes on: past its end, held at `cur`, or WriteFailed
(60_exceptions.md R183). -/
def State.onGiven (s : State) (ending : PutEnd) (next : State) (cur : Cursor) : State :=
  match ending with
  | .full => next
  | .hold => s.moveTo cur
  | .failed => s.raise .writeFailed

/-- HDR_WRITE, second half: `Put` of every byte of HDR_OUT still to be offered (40_header.md R93). -/
def State.hdrWriteStage (s : State) (left : List Byte) : State :=
  let g := putN left s.sink
  let s1 := s.afterPut g
  s1.onGiven g.ending s1.afterHdrWrite (.hdrWrite g.unsent)

/-- ENCODE: `Put` of every byte of the pixel stream still to be offered (41_rle_codec.md R106,
42_raw_codec.md R122); it is the last stage of every command that has it. -/
def State.encodeStage (s : State) (left : List Byte) : State :=
  let g := putN left s.sink
  let s1 := s.afterPut g
  s1.onGiven g.ending s1.complete (.encode g.unsent)

end Sys2Proof.Machine
end

