-- ==== Sys2Proof/Machine/Engine.lean ====
section
/-!
DEFINITION. The engine: one step of it is the current stage, or inside a run-length DECODE one
chunk, as far as the ready answers allow (10_state.md R10 a, R26); it moves until the command ends
or is held (60_exceptions.md R192). Acceptance of a command (30_encoding.md R63).
-/

namespace Sys2Proof.Machine

/-- One step of the engine at a cursor. -/
def State.stageStep (s : State) (cmd : Command) (cur : Cursor) : State :=
  match cur with
  | .issue => s.issueStage cmd
  | .hdrRead k => s.hdrReadStage k
  | .validate => s.validateStage
  | .decodeRaw base size done => s.decodeRawStage base size done
  | .decodeRle d .control => s.controlStage d
  | .decodeRle d (.firstPixel kind count got) => s.chunkPixel d kind count got
  | .decodeRle d (.rest left) => s.rawRest d left
  | .resample g => s.resampleStage g
  | .derive width height imageType => s.deriveStage width height imageType
  | .hdrWrite left => s.hdrWriteStage left
  | .encode left => s.encodeStage left

/-- One step of the engine; it "does nothing when no command is active" (10_state.md R10 a). -/
def State.engineStep (s : State) : State :=
  match s.seq with
  | .idle => s
  | .error => s
  | .run cmd _ cur => s.stageStep cmd cur

/-- How many input bytes the engine asks for next at a cursor. -/
def Cursor.wanted : Cursor → Nat
  | .issue => 0
  | .hdrRead k => 18 - k
  | .validate => 0
  | .decodeRaw _ size done => size - done
  | .decodeRle d .control => if d.emitted < d.size then 1 else 0
  | .decodeRle d (.firstPixel _ _ got) => d.bpp - got.length
  | .decodeRle _ (.rest left) => left
  | .resample _ => 0
  | .derive _ _ _ => 0
  | .hdrWrite _ => 0
  | .encode _ => 0

/-- The bytes the engine has to offer next at a cursor. -/
def Cursor.offers : Cursor → List Byte
  | .issue => []
  | .hdrRead _ => []
  | .validate => []
  | .decodeRaw _ _ _ => []
  | .decodeRle _ _ => []
  | .resample _ => []
  | .derive _ _ _ => []
  | .hdrWrite left => left
  | .encode left => left

/-- The port transaction the engine has in progress, if it is at one. -/
def Cursor.pending (cur : Cursor) : Pending :=
  match cur.offers with
  | b :: _ => .output b
  | [] => if cur.wanted = 0 then .none else .input

/-- The transaction in progress, `none` when no command runs. -/
def Sequencer.pending : Sequencer → Pending
  | .idle => .none
  | .error => .none
  | .run _ _ cur => cur.pending

/-- A command runs. -/
def Sequencer.active : Sequencer → Bool
  | .idle => false
  | .error => false
  | .run _ _ _ => true

/-- The engine can move: a command runs and is not held on a port that has no answer
(10_state.md R23, R24). -/
def State.ready (s : State) : Bool :=
  s.seq.active &&
    match s.seq.pending with
    | .none => true
    | .input => !s.source.isEmpty
    | .output _ => !s.sink.isEmpty

/-- The engine moves at most `n` steps, stopping where it cannot move. -/
def State.drive : Nat → State → State
  | 0, s => s
  | n + 1, s => if s.ready then State.drive n s.engineStep else s

/-- Steps enough for the engine to come to its end or to a hold: each step uses up an answer or
passes a stage (60_exceptions.md R192: "Given answers, every command ends"). -/
def State.work (s : State) : Nat := 3 * s.source.length + s.sink.length + 16

/-- The engine moves until the command ends or is held. -/
def State.settle (s : State) : State := s.drive s.work

/-- A command other than NOP and SRST is issued (30_encoding.md R63): in IDLE it is accepted, and
the engine moves as the pace says; in BUSY and in ERROR the write is dropped. -/
def State.issue (s : State) (cmd : Command) : State :=
  if s.isIdle then
    match s.pace with
    | .runAhead => (s.accept cmd).settle
    | .stepwise => s.accept cmd
  else s

/-- The region of PB the engine may touch at a cursor lies inside PB (20_memory.md R40, R47). -/
def Cursor.inPb (cur : Cursor) (pbSize : Nat) : Bool :=
  match cur with
  | .issue => true
  | .hdrRead _ => true
  | .validate => true
  | .decodeRaw base size _ => decide (base + size ≤ pbSize)
  | .decodeRle d _ => decide (d.base + d.size ≤ pbSize)
  | .resample g =>
    decide (g.sbase + g.srcBytes ≤ pbSize) && decide (g.dbase + g.dstBytes ≤ pbSize)
  | .derive _ _ _ => true
  | .hdrWrite _ => true
  | .encode _ => true

/-- CONVERT's two regions lie inside PB (20_memory.md R47). -/
def Plan.inPb (p : Plan) (pbSize : Nat) : Bool := decide (p.srcBytes + p.dstBytes ≤ pbSize)

/-- Every region the running command may still touch lies inside PB. -/
def State.regionsInPb (s : State) : Bool :=
  match s.seq with
  | .idle => true
  | .error => true
  | .run _ none cur => cur.inPb s.pbSize
  | .run _ (some p) cur => cur.inPb s.pbSize && p.inPb s.pbSize

/-- A turn of the engine: one step if it can move, nothing if it is held or no command runs. A
region outside PB stops it (log 10). -/
def State.engineTurn (s : State) : Host.Outcome State Fault Refusal :=
  if s.ready then
    if s.regionsInPb then .next s.engineStep else .fault .pbRange
  else .next s

/-- A chunk executed by itself, its control byte having been taken: it has a meaning where a
run-length DECODE stands at a chunk boundary with bytes still to decode (30_encoding.md R66, R69;
41_rle_codec.md R102). Log 11. -/
def State.execChunk (s : State) (kind : ChunkKind) (count : Nat) :
    Host.Outcome State Fault Refusal :=
  match s.seq with
  | .run _ _ (.decodeRle d .control) =>
    if d.emitted < d.size then
      if s.regionsInPb then .next (s.runChunk d kind count) else .fault .pbRange
    else .refused .chunkOutsideDecode
  | _ => .refused .chunkOutsideDecode

end Sys2Proof.Machine
end

