-- ==== Sys2Proof/Machine/Control.lean ====
section
/-!
DEFINITION. The control commands, which "complete in the act of being accepted" (45_control.md
R170), and the CMD write that is no command (30_encoding.md R62).
-/

namespace Sys2Proof.Machine

/-- NOP (45_control.md R171): in IDLE `STATUS.DONE <- 1`; in BUSY and in ERROR the write is
dropped. -/
def execNop (s : State) : Host.Outcome State Fault Refusal :=
  .next (if s.isIdle then { s with status := statusDone } else s)

/-- SRST (45_control.md R172): accepted in IDLE and in ERROR; in BUSY the write is dropped. -/
def execSrst (s : State) : Host.Outcome State Fault Refusal :=
  .next (if s.busy then s else s.softReset)

/-- A CMD write whose word is not a command: in IDLE the engine enters ERROR with BadCommand at
ISSUE and nothing else changes (30_encoding.md R62); in BUSY and in ERROR the write is dropped
(R63). Log 12. -/
def State.illegalCommand (s : State) : State :=
  if s.isIdle then s.enterError .badCommand .issue else s

end Sys2Proof.Machine
end

