-- ==== Sys2Proof/Machine/Header.lean ====
section
/-!
DEFINITION. The header commands (40_header.md R90 to R95).
-/

namespace Sys2Proof.Machine

/-- RDHDR (40_header.md R91): ISSUE, HDR_READ (`State.hdrReadStage`), complete. -/
def execRdhdr (s : State) : Host.Outcome State Fault Refusal := .next (s.issue .rdhdr)

/-- DRVHDR (40_header.md R92): ISSUE, HDR_WRITE (`State.deriveStage`), complete. -/
def execDrvhdr (s : State) : Host.Outcome State Fault Refusal := .next (s.issue .drvhdr)

/-- WRHDR (40_header.md R93): ISSUE, HDR_WRITE (`State.hdrWriteStage`), complete. -/
def execWrhdr (s : State) : Host.Outcome State Fault Refusal := .next (s.issue .wrhdr)

end Sys2Proof.Machine
end

