-- ==== Sys2Proof/Machine/Pipeline.lean ====
section
/-!
DEFINITION. The conversion pipeline command (44_pipeline.md R151).
-/

namespace Sys2Proof.Machine

/-- CONVERT (44_pipeline.md R151): ISSUE (`State.convertCheck`), HDR_READ, VALIDATE
(`State.validateStage`), DECODE, RESAMPLE, HDR_WRITE, ENCODE, complete. -/
def execConvert (s : State) : Host.Outcome State Fault Refusal := .next (s.issue .convert)

end Sys2Proof.Machine
end

