-- ==== Sys2Proof/Machine/RawCodec.lean ====
section
/-!
DEFINITION. The raw codec commands (42_raw_codec.md R121, R122).
-/

namespace Sys2Proof.Machine

/-- DECRAW (42_raw_codec.md R121): ISSUE (`State.rawCheck`), DECODE (`State.decodeRawStage`),
complete. -/
def execDecraw (s : State) : Host.Outcome State Fault Refusal := .next (s.issue .decraw)

/-- ENCRAW (42_raw_codec.md R122): ISSUE (`State.rawCheck`), ENCODE (`State.encodeStage`),
complete. -/
def execEncraw (s : State) : Host.Outcome State Fault Refusal := .next (s.issue .encraw)

end Sys2Proof.Machine
end

