-- ==== Sys2Proof/Machine/Resampler.lean ====
section
/-!
DEFINITION. The bilinear resampler command (43_resampler.md R131).
-/

namespace Sys2Proof.Machine

/-- RESAMPLE (43_resampler.md R131): ISSUE (`Geometry.check`), RESAMPLE (`State.resampleStage`),
complete. -/
def execResample (s : State) : Host.Outcome State Fault Refusal := .next (s.issue .resample)

end Sys2Proof.Machine
end

