-- ==== Sys2Proof/Machine/RunLength.lean ====
section
/-!
DEFINITION. The run-length codec commands (41_rle_codec.md R102, R106) and the two chunk kinds the
decoder executes (30_encoding.md R67, R68).
-/

namespace Sys2Proof.Machine

/-- DECRLE (41_rle_codec.md R102): ISSUE (`State.rleCheck`), DECODE (`State.controlStage` and the
chunks), complete. -/
def execDecrle (s : State) : Host.Outcome State Fault Refusal := .next (s.issue .decrle)

/-- ENCRLE (41_rle_codec.md R106): ISSUE (`State.rleCheck`), ENCODE (`encodePixels`,
`State.encodeStage`), complete. -/
def execEncrle (s : State) : Host.Outcome State Fault Refusal := .next (s.issue .encrle)

/-- A repeat chunk whose control byte has been taken (30_encoding.md R67): one pixel is taken and
written `count` times. -/
def execRep (count : Nat) (s : State) : Host.Outcome State Fault Refusal := s.execChunk .rep count

/-- A raw chunk whose control byte has been taken (30_encoding.md R68): `count` pixels are taken
and written. -/
def execRaw (count : Nat) (s : State) : Host.Outcome State Fault Refusal := s.execChunk .raw count

end Sys2Proof.Machine
end

