-- ==== Sys2Proof/Machine/Dispatch.lean ====
section
/-! DEFINITION. One arm per instruction, each a direct call of its meaning. -/

namespace Sys2Proof.Machine

/-- The meaning of an instruction: a command whose word has been written to CMD, or a chunk whose
control byte has been taken from the input stream. -/
def exec (i : Instr) (s : State) : Host.Outcome State Fault Refusal :=
  match i with
  | .nop => Sys2Proof.Machine.execNop s
  | .rdhdr => Sys2Proof.Machine.execRdhdr s
  | .drvhdr => Sys2Proof.Machine.execDrvhdr s
  | .wrhdr => Sys2Proof.Machine.execWrhdr s
  | .decrle => Sys2Proof.Machine.execDecrle s
  | .encrle => Sys2Proof.Machine.execEncrle s
  | .decraw => Sys2Proof.Machine.execDecraw s
  | .encraw => Sys2Proof.Machine.execEncraw s
  | .resample => Sys2Proof.Machine.execResample s
  | .convert => Sys2Proof.Machine.execConvert s
  | .srst => Sys2Proof.Machine.execSrst s
  | .rep count => Sys2Proof.Machine.execRep count s
  | .raw count => Sys2Proof.Machine.execRaw count s

end Sys2Proof.Machine
end

