-- ==== Sys2Proof/Machine/HostPort.lean ====
section
/-!
DEFINITION. The host's accesses by state (10_state.md R13, R14, R25), the hardware reset event
(70_reset_and_hazards.md R210, R212), and how an instruction is placed where the step fetches it.
-/

namespace Sys2Proof.Machine

/-- Registers 16 to 51, the two header files (10_state.md R14). -/
def isHeaderRegister (n : Nat) : Bool := decide (16 ≤ n) && decide (n ≤ 51)

/-- The byte a header file register holds; 0 for any other number. -/
def State.headerRegister (s : State) (n : Nat) : Byte :=
  if n < 16 then 0
  else if h : n - 16 < 18 then s.hdrIn[n - 16]
  else if h : n - 34 < 18 then s.hdrOut[n - 34]
  else 0

/-- What a read of register `n` returns, zero-extended (10_state.md R13, R14, R25): CMD reads 0,
ERRINFO reads 0 while BUSY, a number above 51 reads 0. -/
def State.registerValue (s : State) (n : Nat) : Word :=
  match n with
  | 0 => 0
  | 1 => s.status.setWidth 32
  | 2 => if s.busy then 0 else s.errinfo.setWidth 32
  | 3 => s.params.cfg.setWidth 32
  | 4 => s.params.bpp.setWidth 32
  | 5 => s.params.bufBase
  | 6 => s.params.bufLen
  | 7 => s.params.srcBase
  | 8 => s.params.srcW.setWidth 32
  | 9 => s.params.srcH.setWidth 32
  | 10 => s.params.dstBase
  | 11 => s.params.dstW.setWidth 32
  | 12 => s.params.dstH.setWidth 32
  | 13 => s.params.outType.setWidth 32
  | 14 => s.inCount
  | 15 => s.outCount
  | n => (s.headerRegister n).setWidth 32

/-- The host receives the value of a read. -/
def State.reply (s : State) (v : Word) : State := { s with replies := v :: s.replies }

/-- The host receives an unspecified byte, "a fresh free value each time"
(93_implementation_defined.md U1); the stored byte is not touched. Log 16. -/
def State.replyFree (s : State) (place : Nat) : State :=
  { s with
    replies := (Config.freeByte s.draws place).setWidth 32 :: s.replies
    draws := s.draws + 1 }

/-- A host read of register `n` (10_state.md R13, R25): while BUSY a header file register returns an
unspecified value. -/
def State.hostRead (s : State) (n : Nat) : State :=
  if s.busy && isHeaderRegister n then s.replyFree n else s.reply (s.registerValue n)

/-- What a write of `v` to register `n` makes of registers 3 to 13: it "stores `value mod 2^width`
and drops the upper bits" (10_state.md R13); a write to another number changes none of them. -/
def Params.write (p : Params) (n : Nat) (v : Word) : Params :=
  match n with
  | 3 => { p with cfg := v.setWidth 3 }
  | 4 => { p with bpp := v.setWidth 3 }
  | 5 => { p with bufBase := v }
  | 6 => { p with bufLen := v }
  | 7 => { p with srcBase := v }
  | 8 => { p with srcW := v.setWidth 16 }
  | 9 => { p with srcH := v.setWidth 16 }
  | 10 => { p with dstBase := v }
  | 11 => { p with dstW := v.setWidth 16 }
  | 12 => { p with dstH := v.setWidth 16 }
  | 13 => { p with outType := v.setWidth 8 }
  | _ => p

/-- The header file whose first register is `first`, after a write of `v` to register `n`. -/
def Header.write (h : Header) (first n : Nat) (v : Word) : Header :=
  if _ : first ≤ n then
    if hk : n - first < 18 then h.set (n - first) (v.setWidth 8) else h
  else h

/-- A host write of `v` to a register other than CMD (10_state.md R14, R25): in IDLE an RW register
is written and a write to an R register or a number above 51 is dropped; in BUSY and in ERROR every
write is dropped. -/
def State.hostWrite (s : State) (n : Nat) (v : Word) : State :=
  if s.isIdle then
    { s with
      params := s.params.write n v
      hdrIn := s.hdrIn.write 16 n v
      hdrOut := s.hdrOut.write 34 n v }
  else s

/-- A host write of one PB byte (10_state.md R25): stored in IDLE, dropped in BUSY and in ERROR. In
IDLE an address at or above PB_SIZE does not exist (20_memory.md R40; log 9). -/
def State.hostPbWrite (s : State) (a : Nat) (b : Byte) : Host.Outcome State Fault Refusal :=
  if s.isIdle then
    if a < s.pbSize then .next (s.memWrite a [b]) else .fault .pbAddress
  else .next s

/-- A host read of one PB byte (10_state.md R25): the stored byte, zero-extended, or an unspecified
value while BUSY. An address at or above PB_SIZE does not exist (20_memory.md R40; log 9). -/
def State.hostPbRead (s : State) (a : Nat) : Host.Outcome State Fault Refusal :=
  if a < s.pbSize then
    .next (if s.busy then s.replyFree a else s.reply ((s.pbByte a).setWidth 32))
  else .fault .pbAddress

/-- `rst` is asserted and released: a transaction in progress may still take effect
(70_reset_and_hazards.md R212), then the block is in the reset state (R210). -/
def State.resetEvent (s : State) (inFlight : Bool) : State :=
  (if inFlight then s.landInFlight s.seq.pending else s).hardReset

/-! ### Placing an instruction where the step fetches it -/

/-- The host is about to write the command word to CMD. -/
def State.withCommandWord (s : State) (w : Word) : State :=
  { s with agenda := .wr 0 w :: s.agenda }

/-- A DECRLE in its DECODE stage at a chunk boundary, with `bpp` 3 and room for exactly the `count`
pixels of one chunk at the start of a PB of the largest size. Log 13. -/
def State.atChunk (s : State) (count : Nat) : State :=
  { s with
    status := statusBusy
    pbSize := 2 ^ 32
    seq := .run .decrle none (.decodeRle ⟨0, count * 3, 3, 0⟩ .control) }

/-- The control byte stands next in the input stream, followed by the zero bytes of the longest
chunk, and the engine has the next turn of a decode that stands at a chunk boundary. -/
def State.withControlByte (s : State) (c : Byte) : State :=
  { s.atChunk (countField c) with
    agenda := .engine :: s.agenda
    source := .byte c :: (List.replicate (4 * maxChunk) (.byte 0) ++ s.source) }

end Sys2Proof.Machine
end

