-- ==== Sys2Proof/Machine/Events.lean ====
section
/-!
DEFINITION. What one event of the environment does: the host's accesses, the CMD write that fetches
a command, the ports' answers, the reset, a turn of the engine.
-/

namespace Sys2Proof.Machine

/-- A write to CMD (10_state.md R15): the command the word encodes, or an illegal command
(30_encoding.md R61 to R63). -/
def cmdWrite (w : Word) (s : State) : Host.Outcome State Fault Refusal :=
  match decodeCommand w with
  | .ok i => exec i s
  | .error _ => .next s.illegalCommand

/-- One event of the environment (10_state.md R10, R23 to R25). -/
def handle (e : Event) (s : State) : Host.Outcome State Fault Refusal :=
  match e with
  | .wr n v => if n = 0 then cmdWrite v s else .next (s.hostWrite n v)
  | .rd n => .next (s.hostRead n)
  | .pbwr a b => s.hostPbWrite a b
  | .pbrd a => s.hostPbRead a
  | .source ans => .next { s with source := s.source ++ [ans] }
  | .sink ans => .next { s with sink := s.sink ++ [ans] }
  | .rst inFlight => .next (s.resetEvent inFlight)
  | .engine => s.engineTurn

end Sys2Proof.Machine
end

