-- ==== Sys2Proof/Machine/Step.lean ====
section
/-!
DEFINITION. One step of the machine: the environment's next act, or, where it leaves the engine the
turn, one step of the engine.
-/

namespace Sys2Proof.Machine

/-- One step: the first event of the agenda, or a turn of the engine where the agenda is empty. An
engine that cannot move (no command runs, or the port has not answered) leaves the state as it is
(70_reset_and_hazards.md R211, 60_exceptions.md R192; log 7). -/
def step (s : State) : Host.Outcome State Fault Refusal :=
  match s.agenda with
  | [] => s.engineTurn
  | e :: es => handle e { s with agenda := es }

/-- The state with the instruction of `nbits` bits `w` placed where the next step fetches it: a
command word in the host's next CMD write, a control byte next in the input stream of a run-length
decode (log 13, log 14). -/
def State.withFetchWord (s : State) (nbits w : Nat) : State :=
  if nbits = 8 then s.withControlByte (BitVec.ofNat 8 w)
  else s.withCommandWord (BitVec.ofNat 32 w)

end Sys2Proof.Machine
end

