-- ==== Sys2Proof/Safety.lean ====
section
/-!
DEFINITION. The terms claims are stated in: legal operands, the data of run-length streams and of
images, and the invariant of the machine.
-/

namespace Sys2Proof

/-- A command, written to CMD as a word (30_encoding.md R61), as against a chunk. -/
def Instr.isCommand : Instr → Bool
  | .nop => true
  | .rdhdr => true
  | .drvhdr => true
  | .wrhdr => true
  | .decrle => true
  | .encrle => true
  | .decraw => true
  | .encraw => true
  | .resample => true
  | .convert => true
  | .srst => true
  | .rep _ => false
  | .raw _ => false

end Sys2Proof

namespace Sys2Proof.Machine

/-! ### Streams -/

/-- The source answers `Byte(b)` for each byte in order. -/
def bytesOf (bs : List Byte) : List InAnswer := bs.map .byte

/-- The sink answers `Ack` `n` times. -/
def acks (n : Nat) : List OutAnswer := List.replicate n .ack

/-- How many of the answers are `Byte(b)`. -/
def byteCount (q : List InAnswer) : Nat := q.countP (fun a => match a with | .byte _ => true | _ => false)

/-- A chunk of a run-length stream with its pixels, `REP n, px` or `RAW n, px1 ... pxn`
(30_encoding.md R71). -/
inductive ChunkData where
  | rep (count : Nat) (px : Pixel)
  | raw (pxs : List Pixel)
  deriving DecidableEq, Repr

/-- How many pixels the chunk stands for. -/
def ChunkData.count : ChunkData → Nat
  | .rep count _ => count
  | .raw pxs => pxs.length

/-- A legal chunk of `bpp`-byte pixels: 1 to 128 pixels, each of `bpp` bytes (30_encoding.md R66 to
R68). -/
def ChunkData.legal (bpp : Nat) : ChunkData → Prop
  | .rep count px => 1 ≤ count ∧ count ≤ maxChunk ∧ px.length = bpp
  | .raw pxs => 1 ≤ pxs.length ∧ pxs.length ≤ maxChunk ∧ ∀ p ∈ pxs, p.length = bpp

/-- The chunk's bytes on the stream (30_encoding.md R67, R68). -/
def ChunkData.bytes : ChunkData → List Byte
  | .rep count px => BitVec.ofNat 8 (128 + (count - 1)) :: px
  | .raw pxs => BitVec.ofNat 8 (pxs.length - 1) :: pxs.flatten

/-- The bytes the chunk stands for (30_encoding.md R67, R68). -/
def ChunkData.image : ChunkData → List Byte
  | .rep count px => (List.replicate count px).flatten
  | .raw pxs => pxs.flatten

/-- The bytes on the stream of a chunk sequence (30_encoding.md R66, R69). -/
def streamBytes (cs : List ChunkData) : List Byte := cs.flatMap ChunkData.bytes

/-- The bytes a chunk sequence stands for. -/
def streamImage (cs : List ChunkData) : List Byte := cs.flatMap ChunkData.image

/-- A byte sequence cut into pixels of `bpp` bytes (20_memory.md R44). -/
def pixelsOf (bpp : Nat) (bs : List Byte) : List Pixel :=
  (List.range (bs.length / bpp)).map (fun k => (bs.drop (k * bpp)).take bpp)

/-- The staged command an instruction issues: all but NOP, SRST and the chunks (30_encoding.md
R63). -/
def commandOf : Instr → Option Command
  | .nop => none
  | .rdhdr => some .rdhdr
  | .drvhdr => some .drvhdr
  | .wrhdr => some .wrhdr
  | .decrle => some .decrle
  | .encrle => some .encrle
  | .decraw => some .decraw
  | .encraw => some .encraw
  | .resample => some .resample
  | .convert => some .convert
  | .srst => none
  | .rep _ => none
  | .raw _ => none

/-! ### Legal operands -/

/-- Operands RESAMPLE accepts (43_resampler.md R130). -/
def Geometry.legal (g : Geometry) (pbSize : Nat) : Prop :=
  (g.bpp = 3 ∨ g.bpp = 4) ∧
  (1 ≤ g.srcW ∧ g.srcW ≤ 32767) ∧ (1 ≤ g.srcH ∧ g.srcH ≤ 32767) ∧
  (1 ≤ g.dstW ∧ g.dstW ≤ 32767) ∧ (1 ≤ g.dstH ∧ g.dstH ≤ 32767) ∧
  g.sbase + g.srcW * g.srcH * g.bpp ≤ pbSize ∧
  g.dbase + g.dstW * g.dstH * g.bpp ≤ pbSize ∧
  (g.sbase + g.srcW * g.srcH * g.bpp ≤ g.dbase ∨ g.dbase + g.dstW * g.dstH * g.bpp ≤ g.sbase)

/-- The codec buffer lies inside PB (20_memory.md R47). -/
def State.bufInPb (s : State) : Prop :=
  s.params.bufBase.toNat + s.params.bufLen.toNat ≤ s.pbSize

/-- The address is outside `[base, base + len)`. -/
def outside (base len a : Nat) : Prop := a < base ∨ base + len ≤ a

/-- Temporaries of a CONVERT past VALIDATE: sizes that fit their dimensions, and regions RESAMPLE
would accept (44_pipeline.md R151, R157). -/
def Plan.legal (p : Plan) (pbSize : Nat) : Prop :=
  p.srcBytes = p.srcW * p.srcH * p.bpp ∧ p.dstBytes = p.dstW * p.dstH * p.bpp ∧
  p.geometry.legal pbSize

/-! ### What CONVERT makes of a header (44_pipeline.md R151 to R158), from the record's bytes -/

/-- Width in pixels, low byte first (20_memory.md R42). -/
def Header.cols (h : Header) : Nat := h[12].toNat + 256 * h[13].toNat

/-- Height in pixels, low byte first (20_memory.md R42). -/
def Header.rows (h : Header) : Nat := h[14].toNat + 256 * h[15].toNat

/-- Bytes per pixel (44_pipeline.md R151). -/
def Header.pixelBytes (h : Header) : Nat := h[16].toNat / 8

/-- Output width: half, or DST_W (44_pipeline.md R155). -/
def Params.outCols (p : Params) (h : Header) : Nat :=
  if p.cfg.toNat % 2 = 1 then h.cols / 2 else p.dstW.toNat

/-- Output height: half, or DST_H (44_pipeline.md R155). -/
def Params.outRows (p : Params) (h : Header) : Nat :=
  if p.cfg.toNat % 2 = 1 then h.rows / 2 else p.dstH.toNat

/-- Output image-type: preserved, raw or run-length (44_pipeline.md R158). -/
def Params.outImageType (p : Params) (h : Header) : Byte :=
  if p.cfg.toNat / 2 = 0 then h[2] else if p.cfg.toNat / 2 = 1 then 2 else 10

/-- `srcBytes` (44_pipeline.md R156). -/
def Header.sourceLength (h : Header) : Nat := h.cols * h.rows * h.pixelBytes

/-- `dstBytes` (44_pipeline.md R157). -/
def Params.destLength (p : Params) (h : Header) : Nat :=
  p.outCols h * p.outRows h * h.pixelBytes

/-- The header and the registers pass every check of ISSUE and VALIDATE (44_pipeline.md R152, R153,
R155). -/
def convertible (p : Params) (h : Header) (pbSize : Nat) : Prop :=
  p.cfg.toNat / 2 ≠ 3 ∧ (h[2] = 2 ∨ h[2] = 3 ∨ h[2] = 10) ∧ h[1] = 0 ∧
  (h[16] = 24 ∨ h[16] = 32) ∧ 0 < h.width ∧ 0 < h.height ∧
  (1 ≤ p.outCols h ∧ p.outCols h ≤ 32767) ∧ (1 ≤ p.outRows h ∧ p.outRows h ≤ 32767) ∧
  h.sourceLength + p.destLength h ≤ pbSize

/-- The pixel stream `stream` stands for the source image `image` of the header, run-length as the
chunks `cs`, or raw (44_pipeline.md R154, R156). -/
def carries (h : Header) (stream image : List Byte) (cs : List ChunkData) : Prop :=
  image.length = h.sourceLength ∧
  if h[2] = 10 then
    (∀ c ∈ cs, c.legal h.pixelBytes) ∧ streamBytes cs = stream ∧ streamImage cs = image
  else stream = image

/-- The output pixel stream for a source image (44_pipeline.md R154, R157, R159). -/
def convertedBody (p : Params) (h : Header) (image : List Byte) : List Byte :=
  let dest := destBytes (fun a => image.getD a 0)
    ⟨h.pixelBytes, 0, h.cols, h.rows, h.sourceLength, p.outCols h, p.outRows h⟩
  if p.outImageType h = 10 then encodePixels (pixelsOf h.pixelBytes dest) else dest

/-- `o` is the header `h` with image-type, width and height replaced (40_header.md R92). -/
def derivedHeader (h o : Header) (width height : Nat) (imageType : Byte) : Prop :=
  o[2] = imageType ∧ o[12].toNat + 256 * o[13].toNat = width ∧
  o[14].toNat + 256 * o[15].toNat = height ∧
  ∀ (k : Nat) (hk : k < 18), k ≠ 2 → ¬ (12 ≤ k ∧ k ≤ 15) → o[k] = h[k]

/-! ### What a failure leaves of PB and of a chunk -/

/-- Every byte of `[base, base + len)` is a new free value, every other byte is as before
(60_exceptions.md R188; the free value's form is log 1). -/
def freedPb (s t : State) (base len : Nat) : Prop :=
  (∀ k : Nat, k < len → t.pbByte (base + k) = Config.freeByte s.draws (base + k)) ∧
  ∀ a : Nat, outside base len a → t.pbByte a = s.pbByte a

/-- The stream stops inside a chunk, `room` bytes of the buffer being left: before its first pixel is
complete, or in a later pixel of a raw chunk that fits (41_rle_codec.md R103, R104 d). -/
def brokenChunk (bpp room : Nat) (part : List Byte) : Prop :=
  part.length ≤ bpp ∨
  ∃ (count : Nat) (pixels : List Byte), part = BitVec.ofNat 8 (count - 1) :: pixels ∧
    count ≤ maxChunk ∧ bpp ≤ pixels.length ∧ pixels.length < count * bpp ∧ count * bpp ≤ room

/-! ### The invariant -/

/-- A decoder's place: at most `size` bytes emitted, the pixel begun not complete, the rest of a raw
chunk within the buffer (41_rle_codec.md R102, R104). -/
def ChunkPos.legal (d : Decoder) : ChunkPos → Prop
  | .control => d.emitted ≤ d.size
  | .firstPixel _ count got =>
    d.emitted < d.size ∧ 1 ≤ count ∧ count ≤ maxChunk ∧ got.length < d.bpp
  | .rest left => 0 < left ∧ d.emitted + left ≤ d.size

/-- A cursor the running command can be at, given the temporaries, HDR_OUT and PB_SIZE
(10_state.md R26, R27; 20_memory.md R47). -/
def Cursor.legal (cmd : Command) (plan : Option Plan) (hdrOut : Header) (pbSize : Nat) :
    Cursor → Prop
  | .issue => plan = none
  | .hdrRead k => k < 18 ∧ plan = none ∧ (cmd = .rdhdr ∨ cmd = .convert)
  | .validate => plan = none ∧ cmd = .convert
  | .decodeRaw base size done => base + size ≤ pbSize ∧ done ≤ size
  | .decodeRle d pos => (d.bpp = 3 ∨ d.bpp = 4) ∧ d.base + d.size ≤ pbSize ∧ pos.legal d
  | .resample g => g.legal pbSize
  | .derive _ _ _ => True
  | .hdrWrite left => left.length ≤ 18 ∧ left = hdrOut.toList.drop (18 - left.length)
  | .encode _ => True

/-- SEQ and STATUS agree (10_state.md R16, R26): IDLE with BUSY and ERR clear, ERROR with ERR
alone, a running command with BUSY alone and a legal cursor. -/
def State.seqLegal (s : State) : Prop :=
  match s.seq with
  | .idle => s.status = 0b000 ∨ s.status = 0b010
  | .error => s.status = 0b100
  | .run cmd plan cur =>
    s.status = 0b001 ∧ cur.legal cmd plan s.hdrOut s.pbSize ∧
    match plan with
    | none => True
    | some p => cmd = .convert ∧ p.legal s.pbSize

/-- ERRINFO: 0 unless ERR, then a code 1 to 9 and a stage 0 to 6 (10_state.md R17, 30_encoding.md
R77). -/
def State.errinfoLegal (s : State) : Prop :=
  if s.seq = .error then
    1 ≤ (s.errinfo.extractLsb' 0 4).toNat ∧ (s.errinfo.extractLsb' 0 4).toNat ≤ 9 ∧
    (s.errinfo.extractLsb' 4 4).toNat ≤ 6
  else s.errinfo = 0

/-- PB: the parameter in its range, the list in canonical form, every address below PB_SIZE
(00_scope.md R5, 20_memory.md R40). -/
def State.pbLegal (s : State) : Prop :=
  1 ≤ s.pbSize ∧ s.pbSize ≤ 2 ^ 32 ∧ s.pb.wf ∧ ∀ x ∈ s.pb, x.1 < s.pbSize

/-- The draws in use are older than the next one, so that a new free value is a new one. -/
def State.drawsLegal (s : State) : Prop :=
  s.pbDraw < s.draws ∧ ∀ r ∈ s.pbFree, r.draw < s.draws

/-- The invariant every step keeps. -/
def State.Inv (s : State) : Prop :=
  s.seqLegal ∧ s.errinfoLegal ∧ s.pbLegal ∧ s.drawsLegal

/-- A cursor stands in a stage of its command, over the regions its registers or CONVERT's
temporaries give (10_state.md R26, R27; 20_memory.md R47, R48; 30_encoding.md R64). -/
def Cursor.placed (p : Params) (cmd : Command) (plan : Option Plan) : Cursor → Prop
  | .issue => plan = none
  | .hdrRead _ => (cmd = .rdhdr ∨ cmd = .convert) ∧ plan = none
  | .validate => cmd = .convert ∧ plan = none
  | .decodeRaw base size _ =>
    (cmd = .decraw ∧ plan = none ∧ base = p.bufBase.toNat ∧ size = p.bufLen.toNat) ∨
    (cmd = .convert ∧ ∃ q, plan = some q ∧ base = 0 ∧ size = q.srcBytes)
  | .decodeRle d _ =>
    (cmd = .decrle ∧ plan = none ∧ d.base = p.bufBase.toNat ∧ d.size = p.bufLen.toNat) ∨
    (cmd = .convert ∧ ∃ q, plan = some q ∧ d.base = 0 ∧ d.size = q.srcBytes)
  | .resample g =>
    (cmd = .resample ∧ plan = none ∧ g = p.geometry) ∨
    (cmd = .convert ∧ ∃ q, plan = some q ∧ g = q.geometry)
  | .derive _ _ _ => (cmd = .drvhdr ∧ plan = none) ∨ (cmd = .convert ∧ plan ≠ none)
  | .hdrWrite _ => (cmd = .wrhdr ∧ plan = none) ∨ (cmd = .convert ∧ plan ≠ none)
  | .encode _ =>
    ((cmd = .encrle ∨ cmd = .encraw) ∧ plan = none) ∨ (cmd = .convert ∧ plan ≠ none)

/-- The running command stands where it can: its cursor is placed, and CONVERT's temporaries are
those of HDR_IN and the registers. Beside `State.Inv` this is kept by every step. -/
def State.Placed (s : State) : Prop :=
  match s.seq with
  | .idle => True
  | .error => True
  | .run cmd plan cur =>
    cur.placed s.params cmd plan ∧ ∀ q : Plan, plan = some q → q = planOf s.params s.hdrIn

/-! ### Runs of the environment's events -/

/-- The events one after another, stopping at the first fault or refusal. -/
def runEvents : List Event → State → Host.Outcome State Fault Refusal
  | [], s => .next s
  | e :: es, s =>
    match handle e s with
    | .next t => runEvents es t
    | .fault r => .fault r
    | .refused r => .refused r

/-- `WR reg, value` of a number (30_encoding.md R65). -/
def Event.wrNat (reg value : Nat) : Event := .wr reg (BitVec.ofNat 32 value)

/-- The host script of 44_pipeline.md R162 for a header `h` and the temporaries `p`: the conversion
built from standalone commands. -/
def standaloneScript (h : Header) (p : Plan) : List Event :=
  [.wrNat 0 0x01,
   .wrNat 4 p.bpp, .wrNat 5 0, .wrNat 6 p.srcBytes,
   .wrNat 0 (if h[2] = 10 then 0x04 else 0x06),
   .wrNat 7 0, .wrNat 8 p.srcW, .wrNat 9 p.srcH,
   .wrNat 10 p.srcBytes, .wrNat 11 p.dstW, .wrNat 12 p.dstH,
   .wrNat 0 0x08,
   .wr 13 (p.outType.setWidth 32),
   .wrNat 0 0x02, .wrNat 0 0x03,
   .wrNat 5 p.srcBytes, .wrNat 6 p.dstBytes,
   .wrNat 0 (if p.outType = 10 then 0x05 else 0x07)]

end Sys2Proof.Machine
end

