-- ==== Sys2Proof/Certificates/Slice0/Obligations.lean ====
section
/-!
DEFINITION. The statements for the provers, in the order of spec/: encodings, reset and host
access, the step, the commands family by family, the whole machine.
-/

open Sys2Proof Sys2Proof.Machine

/-! ### Encodings -/

/-- Decoding an encoded well-formed instruction gives it back (30_encoding.md R60, R61, R66 to R68).
-/
def Obligations.DecodeOfEncodeIsTheInstruction : Prop :=
  ∀ i : Instr, i.wellFormed = true →
    decodeTableWord (encode i).nbits (encode i).bits = some i

/-- Every word that decodes is the encoding of a well-formed instruction, so no two words decode
alike and reserved encodings are refused (30_encoding.md R60 to R62, R66, R70). -/
def Obligations.DecodedWordIsTheEncoding : Prop :=
  ∀ (nbits w : Nat) (i : Instr), decodeTableWord nbits w = some i →
    i.wellFormed = true ∧ encode i = ⟨nbits, w⟩

/-- The opcode map, every command's word written out, and the opcodes 0x0A to 0xFE reserved
(30_encoding.md R61); beside it a word of each kind of chunk (R67, R68). -/
def Obligations.WordsOfTheTableDecode : Prop :=
  decodeTableWord 32 0x00000000 = some .nop ∧
  decodeTableWord 32 0x00000001 = some .rdhdr ∧
  decodeTableWord 32 0x00000002 = some .drvhdr ∧
  decodeTableWord 32 0x00000003 = some .wrhdr ∧
  decodeTableWord 32 0x00000004 = some .decrle ∧
  decodeTableWord 32 0x00000005 = some .encrle ∧
  decodeTableWord 32 0x00000006 = some .decraw ∧
  decodeTableWord 32 0x00000007 = some .encraw ∧
  decodeTableWord 32 0x00000008 = some .resample ∧
  decodeTableWord 32 0x00000009 = some .convert ∧
  decodeTableWord 32 0x000000FF = some .srst ∧
  (∀ opc : Nat, 0x0A ≤ opc → opc ≤ 0xFE → decodeTableWord 32 opc = none) ∧
  decodeTableWord 8 0b10000010 = some (.rep 3) ∧
  decodeTableWord 8 0b01111111 = some (.raw 128)

/-- A control byte: bit 7 is the kind, bits 6:0 the count minus one (30_encoding.md R66). -/
def Obligations.ControlByteIsKindAndCount : Prop :=
  ∀ c : Byte, decodeChunk c =
    if 128 ≤ c.toNat then .rep (c.toNat % 128 + 1) else .raw (c.toNat % 128 + 1)

/-- A CMD write in IDLE of a word that is none of the eleven commands: the ERROR state with
BadCommand (9) at stage 0, and nothing else of the state changes (30_encoding.md R62). That it takes
one step in either pace, with no BUSY state between, is the model's, log 12. -/
def Obligations.IllegalCommandEntersError : Prop :=
  ∀ (s : State) (w : Word) (es : List Event),
    s.agenda = .wr 0 w :: es → s.isIdle = true →
    ¬ (w.toNat ≤ 9 ∨ w.toNat = 255) →
    step s = .next { s with agenda := es, status := 0b100, errinfo := 0x09, seq := .error }

/-! ### Reset and host access -/

/-- After reset registers 1 to 15 read 0, SEQ is IDLE, no PB byte has a value, and every byte of the
header files is a free value (10_state.md R28, R30; the free values' form is log 1, log 2). -/
def Obligations.ResetState : Prop :=
  (∀ n : Nat, n ≤ 15 → State.reset.registerValue n = 0) ∧
  State.reset.seq = .idle ∧ State.reset.isIdle = true ∧
  (∀ (k : Nat) (h : k < 18), State.reset.hdrIn[k] = Config.freeByte 0 k ∧
    State.reset.hdrOut[k] = Config.freeByte 1 k) ∧
  (∀ a : Nat, State.reset.pbByte a = Config.freeByte 2 a)

/-- The reset event, whatever the block was doing: the reset state again, every byte of the header
files and PB a new free value (70_reset_and_hazards.md R210; log 1). A transaction in progress may
have taken effect: then the streams have moved by that one byte and no more (R212; log 8). -/
def Obligations.HardwareResetFromAnyState : Prop :=
  ∀ (s : State) (inFlight : Bool), ∃ t : State, handle (.rst inFlight) s = .next t ∧
    (∀ n : Nat, n ≤ 15 → t.registerValue n = 0) ∧ t.seq = .idle ∧
    (∀ (k : Nat) (h : k < 18), t.hdrIn[k] = Config.freeByte s.draws k ∧
      t.hdrOut[k] = Config.freeByte (s.draws + 1) k) ∧
    (∀ a : Nat, t.pbByte a = Config.freeByte (s.draws + 2) a) ∧
    t.draws = s.draws + 3 ∧ t.pbSize = s.pbSize ∧ t.agenda = s.agenda ∧ t.replies = s.replies ∧
    t.pace = s.pace ∧
    ((inFlight = false ∨ s.seq.pending = .none) →
      t.source = s.source ∧ t.sink = s.sink ∧ t.out = s.out) ∧
    (inFlight = true → s.seq.pending = .input →
      t.source = s.source.drop 1 ∧ t.sink = s.sink ∧ t.out = s.out) ∧
    (∀ b : Byte, inFlight = true → s.seq.pending = .output b →
      t.source = s.source ∧ t.sink = s.sink.drop 1 ∧ t.out = s.out ++ [b])

/-- The host's write event in IDLE, to a register other than CMD, stores the low bits of the
register's width, which a read zero-extends; a write to an R register or a number above 51 is
dropped; every other register reads as before and the rest of the state stays (10_state.md R13, R14,
R25). -/
def Obligations.HostWriteStoresTheLowBits : Prop :=
  ∀ (s : State) (n : Nat) (v : Word), s.isIdle = true → n ≠ 0 →
    ∃ t : State, handle (.wr n v) s = .next t ∧
      (t.registerValue n =
        if n = 3 ∨ n = 4 then BitVec.ofNat 32 (v.toNat % 2 ^ 3)
        else if n = 5 ∨ n = 6 ∨ n = 7 ∨ n = 10 then v
        else if n = 8 ∨ n = 9 ∨ n = 11 ∨ n = 12 then BitVec.ofNat 32 (v.toNat % 2 ^ 16)
        else if n = 13 ∨ 16 ≤ n ∧ n ≤ 51 then BitVec.ofNat 32 (v.toNat % 2 ^ 8)
        else s.registerValue n) ∧
      (∀ m : Nat, m ≠ n → t.registerValue m = s.registerValue m) ∧
      t = { s with params := t.params, hdrIn := t.hdrIn, hdrOut := t.hdrOut }

/-- In BUSY and in ERROR a host write to a register other than CMD, or to PB, is dropped: the step
only uses the event up (10_state.md R25, 70_reset_and_hazards.md R220). -/
def Obligations.HostWritesAreDroppedOutsideIdle : Prop :=
  ∀ (s : State) (es : List Event), s.isIdle = false →
    (∀ (n : Nat) (v : Word), n ≠ 0 → s.agenda = .wr n v :: es →
      step s = .next { s with agenda := es }) ∧
    (∀ (a : Nat) (b : Byte), s.agenda = .pbwr a b :: es →
      step s = .next { s with agenda := es })

/-- A host read of a register returns the value of the register map, zero-extended: CMD and a number
above 51 read 0, ERRINFO reads 0 while BUSY, a header register while BUSY a new free value. It has
no other effect (10_state.md R13, R14, R25, 20_memory.md R46; the free value's form is log 16). -/
def Obligations.HostReadsHaveNoSideEffect : Prop :=
  ∀ (s : State) (n : Nat),
    (handle (.rd n) s =
      if s.busy = true ∧ 16 ≤ n ∧ n ≤ 51 then
        .next { s with
          replies := (Config.freeByte s.draws n).setWidth 32 :: s.replies
          draws := s.draws + 1 }
      else .next { s with replies := s.registerValue n :: s.replies }) ∧
    (s.registerValue n).toNat =
      if n = 0 then 0
      else if n = 1 then s.status.toNat
      else if n = 2 then (if s.busy = true then 0 else s.errinfo.toNat)
      else if n = 3 then s.params.cfg.toNat
      else if n = 4 then s.params.bpp.toNat
      else if n = 5 then s.params.bufBase.toNat
      else if n = 6 then s.params.bufLen.toNat
      else if n = 7 then s.params.srcBase.toNat
      else if n = 8 then s.params.srcW.toNat
      else if n = 9 then s.params.srcH.toNat
      else if n = 10 then s.params.dstBase.toNat
      else if n = 11 then s.params.dstW.toNat
      else if n = 12 then s.params.dstH.toNat
      else if n = 13 then s.params.outType.toNat
      else if n = 14 then s.inCount.toNat
      else if n = 15 then s.outCount.toNat
      else if n ≤ 33 then (s.hdrIn.toList.getD (n - 16) 0).toNat
      else if n ≤ 51 then (s.hdrOut.toList.getD (n - 34) 0).toNat
      else 0

/-- The host's access to a PB byte below PB_SIZE. In IDLE the byte it writes is what it then reads;
every other byte and the rest of the state stay. A read outside BUSY, in ERROR too, returns the
stored byte, while BUSY a new free value, and changes no stored byte (10_state.md R22, R25; the free
value's form is log 16). -/
def Obligations.HostPbWriteIsReadBack : Prop :=
  (∀ (s : State) (a : Nat) (b : Byte), s.isIdle = true → a < s.pbSize →
    ∃ t : State, handle (.pbwr a b) s = .next t ∧
      t.pbByte a = b ∧ (∀ x : Nat, x ≠ a → t.pbByte x = s.pbByte x) ∧
      t = { s with pb := t.pb } ∧
      handle (.pbrd a) t = .next { t with replies := b.setWidth 32 :: t.replies }) ∧
  (∀ (s : State) (a : Nat), a < s.pbSize →
    (s.busy = false →
      handle (.pbrd a) s = .next { s with replies := (s.pbByte a).setWidth 32 :: s.replies }) ∧
    (s.busy = true →
      handle (.pbrd a) s = .next { s with
        replies := (Config.freeByte s.draws a).setWidth 32 :: s.replies
        draws := s.draws + 1 }))

/-! ### The step -/

/-- A step is the first event of the agenda, or a turn of the engine where the agenda is empty; when
the host's next act is to write a command's word to CMD, the step is `exec` of the command on the
state without that act (10_state.md R10, R15, 30_encoding.md R61; the agenda is log 4). -/
def Obligations.StepRunsTheCommandWritten : Prop :=
  (∀ (s : State) (w : Word) (i : Instr) (es : List Event),
    s.agenda = .wr 0 w :: es → decodeTableWord 32 w.toNat = some i →
    step s = exec i { s with agenda := es }) ∧
  (∀ (s : State) (e : Event) (es : List Event),
    s.agenda = e :: es → step s = handle e { s with agenda := es }) ∧
  (∀ s : State, s.agenda = [] → step s = s.engineTurn)

/-- When a run-length decode stands at a chunk boundary and the source's next answer is a byte, the
engine's step is `exec` of the chunk the byte decodes to, the byte being taken and counted
(30_encoding.md R66, 41_rle_codec.md R102). -/
def Obligations.StepRunsTheChunkTaken : Prop :=
  ∀ (s : State) (cmd : Command) (plan : Option Plan) (d : Decoder) (c : Byte) (q : List InAnswer),
    s.agenda = [] → s.seq = .run cmd plan (.decodeRle d .control) → d.emitted < d.size →
    s.source = .byte c :: q →
    step s = exec (decodeChunk c) { s with source := q, inCount := s.inCount + 1 }

/-- With nothing on the agenda an engine that runs no command, or is held on a port with no answer,
stays as it is (70_reset_and_hazards.md R211, 60_exceptions.md R192; log 7). -/
def Obligations.HeldOrIdleEngineStays : Prop :=
  ∀ s : State, s.agenda = [] →
    (s.seq = .idle ∨ s.seq = .error ∨
      (s.seq.pending = .input ∧ s.source = []) ∨
      (∃ b, s.seq.pending = .output b) ∧ s.sink = []) →
    step s = .next s

/-! ### Control commands and acceptance -/

/-- NOP: DONE is set in IDLE, dropped in BUSY and in ERROR, nothing else changes (45_control.md
R171). -/
def Obligations.NopSetsDoneInIdle : Prop :=
  ∀ s : State,
    (s.isIdle = true → exec .nop s = .next { s with status := 0b010 }) ∧
    (s.isIdle = false → exec .nop s = .next s)

/-- SRST: registers 1 to 15 zero and SEQ IDLE in IDLE and in ERROR, dropped in BUSY; the header
files, PB and the streams are not touched (45_control.md R172). -/
def Obligations.SoftResetClearsTheRegisters : Prop :=
  ∀ s : State,
    (s.busy = true → exec .srst s = .next s) ∧
    (s.busy = false → ∃ t : State, exec .srst s = .next t ∧
      (∀ n : Nat, 1 ≤ n → n ≤ 15 → t.registerValue n = 0) ∧ t.seq = .idle ∧
      (∀ a : Nat, t.pbByte a = s.pbByte a) ∧
      t = { s with
        params := t.params, status := t.status, errinfo := t.errinfo
        inCount := t.inCount, outCount := t.outCount, seq := t.seq })

/-- A CMD write in BUSY is dropped whatever the word, and one in ERROR unless the word is SRST's, an
illegal word included; the same of `exec` of a command (30_encoding.md R63). -/
def Obligations.CommandsAreDroppedOutsideIdle : Prop :=
  (∀ (s : State) (i : Instr), i.isCommand = true →
    (s.busy = true → exec i s = .next s) ∧
    (s.err = true → i ≠ .srst → exec i s = .next s)) ∧
  (∀ (s : State) (w : Word),
    (s.busy = true → handle (.wr 0 w) s = .next s) ∧
    (s.err = true → w ≠ 0x000000FF → handle (.wr 0 w) s = .next s))

/-- In the stepwise pace a staged command is accepted and nothing more: BUSY alone, SEQ at ISSUE
(30_encoding.md R63; the pace is the model's, log 5). -/
def Obligations.AcceptanceShowsBusyAtIssue : Prop :=
  ∀ (s : State) (i : Instr) (cmd : Command), commandOf i = some cmd →
    s.isIdle = true → s.pace = .stepwise →
    exec i s = .next { s with status := 0b001, seq := .run cmd none .issue }

/-- The parameter checks in ISSUE: each raises its error at stage 0 in the order given and changes
nothing else (41_rle_codec.md R101, 42_raw_codec.md R120, 43_resampler.md R130, 44_pipeline.md
R152). -/
def Obligations.ParameterChecksRaiseAtIssue : Prop :=
  ∀ s : State, s.isIdle = true → s.pace = .runAhead →
    (∀ i : Instr, i = .decrle ∨ i = .encrle →
      ((s.params.bpp.toNat ≠ 3 ∧ s.params.bpp.toNat ≠ 4 ∨
          s.params.bufLen.toNat % s.params.bpp.toNat ≠ 0) →
        exec i s = .next { s with status := 0b100, errinfo := 0x07, seq := .error }) ∧
      ((s.params.bpp.toNat = 3 ∨ s.params.bpp.toNat = 4) →
        s.params.bufLen.toNat % s.params.bpp.toNat = 0 → ¬ s.bufInPb →
        exec i s = .next { s with status := 0b100, errinfo := 0x08, seq := .error })) ∧
    (∀ i : Instr, i = .decraw ∨ i = .encraw → ¬ s.bufInPb →
      exec i s = .next { s with status := 0b100, errinfo := 0x08, seq := .error }) ∧
    (let g := s.params.geometry
     let params := (g.bpp = 3 ∨ g.bpp = 4) ∧ (1 ≤ g.srcW ∧ g.srcW ≤ 32767) ∧
       (1 ≤ g.srcH ∧ g.srcH ≤ 32767) ∧ (1 ≤ g.dstW ∧ g.dstW ≤ 32767) ∧
       (1 ≤ g.dstH ∧ g.dstH ≤ 32767)
     (¬ params →
       exec .resample s = .next { s with status := 0b100, errinfo := 0x07, seq := .error }) ∧
     (params → ¬ g.legal s.pbSize →
       exec .resample s = .next { s with status := 0b100, errinfo := 0x08, seq := .error })) ∧
    (s.params.cfg.toNat / 2 = 3 →
      exec .convert s = .next { s with status := 0b100, errinfo := 0x07, seq := .error })

/-! ### Header commands -/

/-- RDHDR with 18 bytes ready: HDR_IN holds them in order, IN_COUNT grows by 18, the stream is left
at its 19th byte, DONE; nothing else changes (40_header.md R91). -/
def Obligations.RdhdrReadsTheRecord : Prop :=
  ∀ (s : State) (h : Header) (q : List InAnswer), s.isIdle = true → s.pace = .runAhead →
    s.source = bytesOf h.toList ++ q →
    exec .rdhdr s = .next { s with
      status := 0b010, seq := .idle, hdrIn := h, source := q, inCount := s.inCount + 18 }

/-- RDHDR, CONVERT's HDR_READ, DECRAW and CONVERT's raw DECODE, met by `End` or `Fail` before their
last byte: TruncatedHeader (0x12) or TruncatedData (0x33) on `End`, IOError (0x11, 0x31) on `Fail`;
IN_COUNT counts the bytes taken; HDR_IN, the codec buffer, or CONVERT's two regions are unspecified;
nothing else changes, HDR_IN holding the header where CONVERT has read it (40_header.md R91,
42_raw_codec.md R121, 44_pipeline.md R151, 60_exceptions.md R183, R186, R188; the free values are
log 1). -/
def Obligations.ShortInputRaises : Prop :=
  ∀ (s : State) (bs : List Byte) (q : List InAnswer) (eos : Bool),
    s.isIdle = true → s.pace = .runAhead →
    s.source = bytesOf bs ++ (if eos then InAnswer.eos else InAnswer.fail) :: q →
    (∀ i : Instr, i = .rdhdr ∨ (i = .convert ∧ s.params.cfg.toNat / 2 ≠ 3) → bs.length < 18 →
      ∃ t : State, exec i s = .next t ∧
      (∀ (k : Nat) (h : k < 18), t.hdrIn[k] = Config.freeByte s.draws k) ∧
      t = { s with
        status := 0b100, errinfo := if eos then 0x12 else 0x11, seq := .error, source := q
        inCount := s.inCount + BitVec.ofNat 32 bs.length
        hdrIn := t.hdrIn, draws := t.draws }) ∧
    (s.bufInPb → bs.length < s.params.bufLen.toNat → ∃ t : State, exec .decraw s = .next t ∧
      freedPb s t s.params.bufBase.toNat s.params.bufLen.toNat ∧
      t = { s with
        status := 0b100, errinfo := if eos then 0x33 else 0x31, seq := .error, source := q
        inCount := s.inCount + BitVec.ofNat 32 bs.length
        pb := t.pb, pbFree := t.pbFree, draws := t.draws }) ∧
    (∀ (h : Header) (pixels : List Byte), bs = h.toList ++ pixels →
      convertible s.params h s.pbSize → h[2] ≠ 10 → pixels.length < h.sourceLength →
      ∃ t : State, exec .convert s = .next t ∧
      freedPb s t 0 (h.sourceLength + s.params.destLength h) ∧
      t = { s with
        status := 0b100, errinfo := if eos then 0x33 else 0x31, seq := .error, source := q
        inCount := s.inCount + BitVec.ofNat 32 bs.length, hdrIn := h
        pb := t.pb, pbFree := t.pbFree, draws := t.draws })

/-- DRVHDR: image-type from OUT_TYPE, width and height from DST_W and DST_H low byte first, the
thirteen other bytes copied from HDR_IN (the spec writes fifteen, its list and its pseudocode give
thirteen: log 24); DONE, nothing else changes, and it cannot fail (40_header.md R92). -/
def Obligations.DrvhdrDerivesTheOutputHeader : Prop :=
  ∀ s : State, s.isIdle = true → s.pace = .runAhead →
    ∃ t : State, exec .drvhdr s = .next t ∧
      t.hdrOut[2] = s.params.outType ∧
      t.hdrOut[12].toNat = s.params.dstW.toNat % 256 ∧
      t.hdrOut[13].toNat = s.params.dstW.toNat / 256 % 256 ∧
      t.hdrOut[14].toNat = s.params.dstH.toNat % 256 ∧
      t.hdrOut[15].toNat = s.params.dstH.toNat / 256 % 256 ∧
      (∀ (k : Nat) (h : k < 18), k ≠ 2 → ¬ (12 ≤ k ∧ k ≤ 15) → t.hdrOut[k] = s.hdrIn[k]) ∧
      t = { s with status := 0b010, seq := .idle, hdrOut := t.hdrOut }

/-- WRHDR with 18 answers `Ack` ready: the 18 bytes of HDR_OUT are appended to the output stream in
order and counted, DONE; nothing else changes (40_header.md R93). -/
def Obligations.WrhdrWritesTheRecord : Prop :=
  ∀ (s : State) (r : List OutAnswer), s.isIdle = true → s.pace = .runAhead →
    s.sink = acks 18 ++ r →
    exec .wrhdr s = .next { s with
      status := 0b010, seq := .idle, sink := r, out := s.out ++ s.hdrOut.toList
      outCount := s.outCount + 18 }

/-- Header round trip, an inference of the spec: what WRHDR emits, fed to RDHDR, leaves HDR_IN equal
to the HDR_OUT it came from, for any 18 bytes (40_header.md R95). -/
def Obligations.HeaderRoundTrip : Prop :=
  ∀ (s t u v : State) (bs : List Byte) (r : List OutAnswer) (q : List InAnswer),
    s.isIdle = true → s.pace = .runAhead → s.sink = acks 18 ++ r →
    exec .wrhdr s = .next t → t.out = s.out ++ bs →
    u.isIdle = true → u.pace = .runAhead → u.source = bytesOf bs ++ q →
    exec .rdhdr u = .next v →
    v.hdrIn = s.hdrOut ∧ v.source = q ∧ v.status = 0b010

/-! ### Raw codec -/

/-- DECRAW with BUF_LEN bytes ready: they are copied to the codec buffer in order and counted, the
rest of the stream is left, DONE; nothing else changes (42_raw_codec.md R121). -/
def Obligations.DecrawCopiesIn : Prop :=
  ∀ (s : State) (bs : List Byte) (q : List InAnswer), s.isIdle = true → s.pace = .runAhead →
    s.bufInPb → bs.length = s.params.bufLen.toNat → s.source = bytesOf bs ++ q →
    ∃ t : State, exec .decraw s = .next t ∧
      (∀ (k : Nat) (h : k < bs.length), t.pbByte (s.params.bufBase.toNat + k) = bs[k]) ∧
      (∀ a : Nat, outside s.params.bufBase.toNat s.params.bufLen.toNat a →
        t.pbByte a = s.pbByte a) ∧
      t = { s with
        status := 0b010, seq := .idle, source := q
        inCount := s.inCount + BitVec.ofNat 32 bs.length, pb := t.pb }

/-- ENCRAW with BUF_LEN answers `Ack` ready: the bytes of the codec buffer are appended to the
output stream in address order and counted, DONE; nothing else changes, PB not at all
(42_raw_codec.md R122). -/
def Obligations.EncrawCopiesOut : Prop :=
  ∀ (s : State) (r : List OutAnswer), s.isIdle = true → s.pace = .runAhead →
    s.bufInPb → s.sink = acks s.params.bufLen.toNat ++ r →
    ∃ t : State, exec .encraw s = .next t ∧
      (∃ bs : List Byte, t.out = s.out ++ bs ∧ bs.length = s.params.bufLen.toNat ∧
        ∀ (k : Nat) (h : k < bs.length), bs[k] = s.pbByte (s.params.bufBase.toNat + k)) ∧
      t = { s with
        status := 0b010, seq := .idle, sink := r, out := t.out
        outCount := s.outCount + s.params.bufLen }

/-- Raw round trip, both ways, an inference of the spec: the bytes ENCRAW emits, fed to DECRAW,
reproduce the codec buffer and are all taken; and DECRAW then ENCRAW of the same buffer reproduces
the stream (42_raw_codec.md R123). -/
def Obligations.RawRoundTrip : Prop :=
  (∀ (s t u v : State) (bs : List Byte) (r : List OutAnswer) (q : List InAnswer),
    s.isIdle = true → s.pace = .runAhead → s.bufInPb → s.sink = acks s.params.bufLen.toNat ++ r →
    exec .encraw s = .next t → t.out = s.out ++ bs →
    u.isIdle = true → u.pace = .runAhead → u.bufInPb → u.params.bufLen = s.params.bufLen →
    u.source = bytesOf bs ++ q → exec .decraw u = .next v →
    v.source = q ∧ ∀ k : Nat, k < s.params.bufLen.toNat →
      v.pbByte (u.params.bufBase.toNat + k) = s.pbByte (s.params.bufBase.toNat + k)) ∧
  (∀ (s t u : State) (bs : List Byte) (q : List InAnswer) (r : List OutAnswer),
    s.isIdle = true → s.pace = .runAhead → s.bufInPb → bs.length = s.params.bufLen.toNat →
    s.source = bytesOf bs ++ q → s.sink = acks bs.length ++ r →
    exec .decraw s = .next t → exec .encraw t = .next u → u.out = s.out ++ bs)

/-! ### Run-length codec -/

/-- DECRLE on a legal chunk sequence that stands for BUF_LEN bytes: the codec buffer holds what it
stands for, exactly its bytes are taken and counted, the rest of the stream is left, DONE; nothing
else changes (41_rle_codec.md R102 to R105). -/
def Obligations.DecrleDecodesEveryLegalStream : Prop :=
  ∀ (s : State) (cs : List ChunkData) (q : List InAnswer), s.isIdle = true → s.pace = .runAhead →
    (s.params.bpp.toNat = 3 ∨ s.params.bpp.toNat = 4) → s.bufInPb →
    (∀ c ∈ cs, c.legal s.params.bpp.toNat) →
    (streamImage cs).length = s.params.bufLen.toNat → s.source = bytesOf (streamBytes cs) ++ q →
    ∃ t : State, exec .decrle s = .next t ∧
      (∀ (k : Nat) (h : k < (streamImage cs).length),
        t.pbByte (s.params.bufBase.toNat + k) = (streamImage cs)[k]) ∧
      (∀ a : Nat, outside s.params.bufBase.toNat s.params.bufLen.toNat a →
        t.pbByte a = s.pbByte a) ∧
      t = { s with
        status := 0b010, seq := .idle, source := q
        inCount := s.inCount + BitVec.ofNat 32 (streamBytes cs).length, pb := t.pb }

/-- A chunk that stands for more pixels than remain: after the chunks before it, its control byte
and its first pixel have been taken, Overrun (0x36) with nothing further taken, whatever follows in
the stream; the codec buffer is unspecified, and where the decode is CONVERT's, its two regions
(41_rle_codec.md R103, R104 c and d, 44_pipeline.md R156, 60_exceptions.md R188; the free values are
log 1). -/
def Obligations.DecrleOverrun : Prop :=
  ∀ (s : State) (cs : List ChunkData) (c : Byte) (px : Pixel) (q : List InAnswer),
    s.isIdle = true → s.pace = .runAhead →
    ((s.params.bpp.toNat = 3 ∨ s.params.bpp.toNat = 4) →
      s.params.bufLen.toNat % s.params.bpp.toNat = 0 → s.bufInPb →
      (∀ x ∈ cs, x.legal s.params.bpp.toNat) → px.length = s.params.bpp.toNat →
      (streamImage cs).length < s.params.bufLen.toNat →
      s.params.bufLen.toNat <
        (streamImage cs).length + (c.toNat % 128 + 1) * s.params.bpp.toNat →
      s.source = bytesOf (streamBytes cs ++ c :: px) ++ q →
      ∃ t : State, exec .decrle s = .next t ∧
        freedPb s t s.params.bufBase.toNat s.params.bufLen.toNat ∧
        t = { s with
          status := 0b100, errinfo := 0x36, seq := .error, source := q
          inCount := s.inCount + BitVec.ofNat 32 (streamBytes cs ++ c :: px).length
          pb := t.pb, pbFree := t.pbFree, draws := t.draws }) ∧
    (∀ h : Header, convertible s.params h s.pbSize → h[2] = 10 →
      (∀ x ∈ cs, x.legal h.pixelBytes) → px.length = h.pixelBytes →
      (streamImage cs).length < h.sourceLength →
      h.sourceLength < (streamImage cs).length + (c.toNat % 128 + 1) * h.pixelBytes →
      s.source = bytesOf (h.toList ++ streamBytes cs ++ c :: px) ++ q →
      ∃ t : State, exec .convert s = .next t ∧
        freedPb s t 0 (h.sourceLength + s.params.destLength h) ∧
        t = { s with
          status := 0b100, errinfo := 0x36, seq := .error, source := q
          inCount := s.inCount + BitVec.ofNat 32 (h.toList ++ streamBytes cs ++ c :: px).length
          hdrIn := h, pb := t.pb, pbFree := t.pbFree, draws := t.draws })

/-- A stream that ends or fails inside a chunk: before its control byte, after it or inside its
first pixel, for either kind and before the Overrun test of that chunk, or in a later pixel of a raw
chunk that fits: TruncatedData (0x33) on `End`, IOError (0x31) on `Fail`, the bytes taken counted;
the codec buffer is unspecified, and where the decode is CONVERT's, its two regions (41_rle_codec.md
R103, R104 b, d and e, 44_pipeline.md R156, 60_exceptions.md R188; the free values are log 1). -/
def Obligations.DecrleTruncatedBeforeFirstPixel : Prop :=
  ∀ (s : State) (cs : List ChunkData) (part : List Byte) (q : List InAnswer) (eos : Bool),
    s.isIdle = true → s.pace = .runAhead →
    ((s.params.bpp.toNat = 3 ∨ s.params.bpp.toNat = 4) →
      s.params.bufLen.toNat % s.params.bpp.toNat = 0 → s.bufInPb →
      (∀ x ∈ cs, x.legal s.params.bpp.toNat) →
      (streamImage cs).length < s.params.bufLen.toNat →
      brokenChunk s.params.bpp.toNat (s.params.bufLen.toNat - (streamImage cs).length) part →
      s.source = bytesOf (streamBytes cs ++ part) ++
        (if eos then InAnswer.eos else InAnswer.fail) :: q →
      ∃ t : State, exec .decrle s = .next t ∧
        freedPb s t s.params.bufBase.toNat s.params.bufLen.toNat ∧
        t = { s with
          status := 0b100, errinfo := if eos then 0x33 else 0x31, seq := .error, source := q
          inCount := s.inCount + BitVec.ofNat 32 (streamBytes cs ++ part).length
          pb := t.pb, pbFree := t.pbFree, draws := t.draws }) ∧
    (∀ h : Header, convertible s.params h s.pbSize → h[2] = 10 →
      (∀ x ∈ cs, x.legal h.pixelBytes) → (streamImage cs).length < h.sourceLength →
      brokenChunk h.pixelBytes (h.sourceLength - (streamImage cs).length) part →
      s.source = bytesOf (h.toList ++ streamBytes cs ++ part) ++
        (if eos then InAnswer.eos else InAnswer.fail) :: q →
      ∃ t : State, exec .convert s = .next t ∧
        freedPb s t 0 (h.sourceLength + s.params.destLength h) ∧
        t = { s with
          status := 0b100, errinfo := if eos then 0x33 else 0x31, seq := .error, source := q
          inCount := s.inCount + BitVec.ofNat 32 (h.toList ++ streamBytes cs ++ part).length
          hdrIn := h, pb := t.pb, pbFree := t.pbFree, draws := t.draws })

/-- A repeat chunk that fits, its control byte taken and its pixel ready: the pixel is written
`count` times from the place the decoder stands at, and the decoder goes on to the next control byte
or, at `size`, past DECODE (30_encoding.md R67, 41_rle_codec.md R102, R104 a). -/
def Obligations.RepChunkRepeatsThePixel : Prop :=
  ∀ (s : State) (cmd : Command) (plan : Option Plan) (d : Decoder) (count : Nat) (px : Pixel)
    (q : List InAnswer),
    s.seq = .run cmd plan (.decodeRle d .control) → s.regionsInPb = true →
    1 ≤ count → count ≤ 128 → 1 ≤ d.bpp → px.length = d.bpp →
    d.emitted + count * d.bpp ≤ d.size → s.source = bytesOf px ++ q →
    ∃ t : State, exec (.rep count) s = .next t ∧
      (∀ (j : Nat) (h : j < px.length) (n : Nat), n < count →
        t.pbByte (d.base + d.emitted + (n * d.bpp + j)) = px[j]) ∧
      (∀ a : Nat, outside (d.base + d.emitted) (count * d.bpp) a → t.pbByte a = s.pbByte a) ∧
      (d.emitted + count * d.bpp < d.size →
        t.status = s.status ∧ t.seq = .run cmd plan
          (.decodeRle { d with emitted := d.emitted + count * d.bpp } .control)) ∧
      (d.emitted + count * d.bpp = d.size →
        (plan = none → t.status = 0b010 ∧ t.seq = .idle) ∧
        (∀ p : Plan, plan = some p →
          t.status = s.status ∧ t.seq = .run cmd plan (.resample p.geometry))) ∧
      t = { s with
        status := t.status, seq := t.seq, source := q
        inCount := s.inCount + BitVec.ofNat 32 d.bpp, pb := t.pb }

/-- A raw chunk that fits, its control byte taken and its pixels ready: they are written one after
another from the place the decoder stands at, and the decoder goes on to the next control byte or,
at `size`, past DECODE (30_encoding.md R68, 41_rle_codec.md R102, R104 a). -/
def Obligations.RawChunkCopiesThePixels : Prop :=
  ∀ (s : State) (cmd : Command) (plan : Option Plan) (d : Decoder) (count : Nat) (bs : List Byte)
    (q : List InAnswer),
    s.seq = .run cmd plan (.decodeRle d .control) → s.regionsInPb = true →
    1 ≤ count → count ≤ 128 → 1 ≤ d.bpp → bs.length = count * d.bpp →
    d.emitted + count * d.bpp ≤ d.size → s.source = bytesOf bs ++ q →
    ∃ t : State, exec (.raw count) s = .next t ∧
      (∀ (j : Nat) (h : j < bs.length), t.pbByte (d.base + d.emitted + j) = bs[j]) ∧
      (∀ a : Nat, outside (d.base + d.emitted) (count * d.bpp) a → t.pbByte a = s.pbByte a) ∧
      (d.emitted + count * d.bpp < d.size →
        t.status = s.status ∧ t.seq = .run cmd plan
          (.decodeRle { d with emitted := d.emitted + count * d.bpp } .control)) ∧
      (d.emitted + count * d.bpp = d.size →
        (plan = none → t.status = 0b010 ∧ t.seq = .idle) ∧
        (∀ p : Plan, plan = some p →
          t.status = s.status ∧ t.seq = .run cmd plan (.resample p.geometry))) ∧
      t = { s with
        status := t.status, seq := t.seq, source := q
        inCount := s.inCount + BitVec.ofNat 32 (count * d.bpp), pb := t.pb }

/-- A chunk executed where no run-length decode stands at a chunk boundary with bytes still to
decode is refused by name (the model's own stop, log 11; 30_encoding.md R66, R69). -/
def Obligations.ChunkOutsideDecodeIsRefused : Prop :=
  ∀ (s : State) (count : Nat),
    (∀ (cmd : Command) (plan : Option Plan) (d : Decoder),
      s.seq = .run cmd plan (.decodeRle d .control) → d.size ≤ d.emitted) →
    exec (.rep count) s = .refused .chunkOutsideDecode ∧
    exec (.raw count) s = .refused .chunkOutsideDecode

/-- ENCRLE with answers `Ack` ready for the whole encoding: the encoding of the codec buffer's
pixels is appended to the output stream and counted, DONE; nothing else changes, PB not at all
(41_rle_codec.md R100, R106). -/
def Obligations.EncrleEncodesTheBuffer : Prop :=
  ∀ (s : State) (r : List OutAnswer), s.isIdle = true → s.pace = .runAhead →
    (s.params.bpp.toNat = 3 ∨ s.params.bpp.toNat = 4) →
    s.params.bufLen.toNat % s.params.bpp.toNat = 0 → s.bufInPb →
    let bytes := encodePixels (pixelsOf s.params.bpp.toNat
      (s.memRead s.params.bufBase.toNat s.params.bufLen.toNat))
    s.sink = acks bytes.length ++ r →
    exec .encrle s = .next { s with
      status := 0b010, seq := .idle, sink := r, out := s.out ++ bytes
      outCount := s.outCount + BitVec.ofNat 32 bytes.length }

/-- What the encoder's output looks like, an inference of the spec: a legal chunk sequence whose
repeat chunks have at least two pixels, that covers the pixels in order without overlap, with the
length bounds of 41_rle_codec.md R111. -/
def Obligations.EncoderOutputIsWellFormed : Prop :=
  ∀ (bpp : Nat) (ps : List Pixel), (∀ p ∈ ps, p.length = bpp) →
    (∃ cs : List ChunkData, streamBytes cs = encodePixels ps ∧ streamImage cs = ps.flatten ∧
      (cs.map ChunkData.count).sum = ps.length ∧
      ∀ c ∈ cs, c.legal bpp ∧ ∀ (count : Nat) (px : Pixel), c = .rep count px → 2 ≤ count) ∧
    (encodePixels ps).length ≤ ps.length * (bpp + 1) ∧
    (ps.length + 127) / 128 * (1 + bpp) ≤ (encodePixels ps).length

/-- Where the encoder's chunks end: one pixel alone is a raw chunk; a run of equal pixels is one
repeat chunk up to 128 and starts afresh after it; a raw chunk that meets an equal pair before the
cap is closed one short, one that meets none goes on to 128 pixels or to the end of the buffer
(41_rle_codec.md R107 to R110). -/
def Obligations.EncoderChunkBoundaries : Prop :=
  (∀ p : Pixel, encodePixels [p] = 0x00 :: p) ∧
  (∀ (p : Pixel) (n : Nat) (rest : List Pixel), 2 ≤ n → n ≤ 128 →
    (n = 128 ∨ rest.head? ≠ some p) →
    encodePixels (List.replicate n p ++ rest) =
      BitVec.ofNat 8 (127 + n) :: p ++ encodePixels rest) ∧
  (∀ (ps : List Pixel) (p : Pixel) (rest : List Pixel), 1 ≤ ps.length → ps.length ≤ 126 →
    (ps ++ [p]).IsChain (· ≠ ·) →
    encodePixels (ps ++ p :: p :: rest) =
      BitVec.ofNat 8 (ps.length - 1) :: ps.flatten ++ encodePixels (p :: p :: rest)) ∧
  (∀ ps rest : List Pixel, ps.length = 128 → ps.IsChain (· ≠ ·) →
    encodePixels (ps ++ rest) = 0x7F :: ps.flatten ++ encodePixels rest) ∧
  (∀ ps : List Pixel, 2 ≤ ps.length → ps.length ≤ 127 → ps.IsChain (· ≠ ·) →
    encodePixels ps = BitVec.ofNat 8 (ps.length - 1) :: ps.flatten)

/-- Run-length round trip, an inference of the spec: the bytes ENCRLE emits for a codec buffer, fed
to DECRLE with the same BPP and BUF_LEN, are taken exactly, DECRLE completes, and its buffer equals
the original byte for byte; the converse does not hold: a legal stream need not be what the encoder
makes of the pixels it stands for (41_rle_codec.md R112). -/
def Obligations.RunLengthRoundTrip : Prop :=
  (∀ (s t u : State) (bs : List Byte) (q : List InAnswer),
    s.isIdle = true → s.pace = .runAhead →
    exec .encrle s = .next t → t.status = 0b010 → t.seq = .idle → t.out = s.out ++ bs →
    u.isIdle = true → u.pace = .runAhead → u.bufInPb →
    u.params.bpp = s.params.bpp → u.params.bufLen = s.params.bufLen →
    u.source = bytesOf bs ++ q →
    ∃ v : State, exec .decrle u = .next v ∧ v.status = 0b010 ∧ v.source = q ∧
      v.inCount = u.inCount + BitVec.ofNat 32 bs.length ∧
      ∀ k : Nat, k < s.params.bufLen.toNat →
        v.pbByte (u.params.bufBase.toNat + k) = s.pbByte (s.params.bufBase.toNat + k)) ∧
  (∀ bpp : Nat, (bpp = 3 ∨ bpp = 4) → ∃ cs : List ChunkData, (∀ c ∈ cs, c.legal bpp) ∧
    encodePixels (pixelsOf bpp (streamImage cs)) ≠ streamBytes cs)

/-- A write failure: the first `Fail` of the sink raises WriteFailed at HDR_WRITE (0x55) or ENCODE
(0x65); the bytes acknowledged before it stay in the output stream, are the beginning of what a
successful run would have produced, and are counted. Nothing else changes; but CONVERT has by then
read and decoded its input, HDR_IN and HDR_OUT hold the input and the derived header, and its two
regions are unspecified (40_header.md R93, 41_rle_codec.md R113, 42_raw_codec.md R122,
44_pipeline.md R159, 60_exceptions.md R183, R187, R188; the free values are log 1). -/
def Obligations.WriteFailureKeepsWhatWasAcknowledged : Prop :=
  ∀ (s : State) (n : Nat) (r : List OutAnswer), s.isIdle = true → s.pace = .runAhead →
    s.sink = acks n ++ .fail :: r →
    let base := s.params.bufBase.toNat
    let size := s.params.bufLen.toNat
    let bpp := s.params.bpp.toNat
    let bytes := encodePixels (pixelsOf bpp (s.memRead base size))
    let failed := fun (sent : List Byte) (code : Byte) => ({ s with
      status := 0b100, errinfo := code, seq := .error, sink := r, out := s.out ++ sent
      outCount := s.outCount + BitVec.ofNat 32 n } : State)
    (n < 18 → exec .wrhdr s = .next (failed (s.hdrOut.toList.take n) 0x55)) ∧
    (s.bufInPb → n < size →
      exec .encraw s = .next (failed ((s.memRead base size).take n) 0x65)) ∧
    ((bpp = 3 ∨ bpp = 4) → size % bpp = 0 → s.bufInPb → n < bytes.length →
      exec .encrle s = .next (failed (bytes.take n) 0x65)) ∧
    (∀ (h : Header) (stream image : List Byte) (cs : List ChunkData) (q : List InAnswer),
      convertible s.params h s.pbSize → carries h stream image cs →
      s.source = bytesOf (h.toList ++ stream) ++ q →
      let body := convertedBody s.params h image
      n < 18 + body.length →
      ∃ t : State, exec .convert s = .next t ∧
        derivedHeader h t.hdrOut (s.params.outCols h) (s.params.outRows h)
          (s.params.outImageType h) ∧
        freedPb s t 0 (h.sourceLength + s.params.destLength h) ∧
        t = { failed ((t.hdrOut.toList ++ body).take n) (if n < 18 then 0x55 else 0x65) with
          hdrIn := h, hdrOut := t.hdrOut, source := q
          inCount := s.inCount + BitVec.ofNat 32 (18 + stream.length)
          pb := t.pb, pbFree := t.pbFree, draws := t.draws })

/-! ### Resampler -/

/-- RESAMPLE with legal operands: every destination byte has the value of the pseudocode, computed
from the source region, every byte outside the destination region is unchanged, DONE; nothing else
changes (43_resampler.md R131 to R135). -/
def Obligations.ResampleComputesTheBilinearValue : Prop :=
  ∀ s : State, s.isIdle = true → s.pace = .runAhead →
    let g := s.params.geometry
    g.legal s.pbSize →
    ∃ t : State, exec .resample s = .next t ∧
      (∀ x y ch : Nat, x < g.dstW → y < g.dstH → ch < g.bpp →
        let dx := 2 * g.dstW
        let dy := 2 * g.dstH
        let nx := (min (max (2 * x * g.srcW - g.dstW : Int) 0) ((g.srcW - 1 : Int) * dx)).toNat
        let ny := (min (max (2 * y * g.srcH - g.dstH : Int) 0) ((g.srcH - 1 : Int) * dy)).toNat
        let x0 := nx / dx
        let fx := nx % dx
        let x1 := min (x0 + 1) (g.srcW - 1)
        let y0 := ny / dy
        let fy := ny % dy
        let y1 := min (y0 + 1) (g.srcH - 1)
        let at' := fun xx yy => (s.pbByte (g.sbase + (xx + yy * g.srcW) * g.bpp + ch)).toNat
        let top := at' x0 y0 * (dx - fx) + at' x1 y0 * fx
        let bot := at' x0 y1 * (dx - fx) + at' x1 y1 * fx
        (t.pbByte (g.dbase + (x + y * g.dstW) * g.bpp + ch)).toNat =
          (top * (dy - fy) + bot * fy) / (dx * dy)) ∧
      (∀ a : Nat, outside g.dbase (g.dstW * g.dstH * g.bpp) a → t.pbByte a = s.pbByte a) ∧
      t = { s with status := 0b010, seq := .idle, pb := t.pb }

/-- Boundary safety, an inference of the spec: for legal operands every sample address is inside the
source region and every write address inside the destination region, both inside PB (43_resampler.md
R137). -/
def Obligations.ResamplerStaysInItsRegions : Prop :=
  ∀ (g : Geometry) (pbSize x y ch : Nat), g.legal pbSize →
    x < g.dstW → y < g.dstH → ch < g.bpp →
    mapNumerator x g.srcW g.dstW ≤ (g.srcW - 1) * (2 * g.dstW) ∧
    mapNumerator y g.srcH g.dstH ≤ (g.srcH - 1) * (2 * g.dstH) ∧
    mapLow x g.srcW g.dstW ≤ mapHigh x g.srcW g.dstW ∧
    mapLow y g.srcH g.dstH ≤ mapHigh y g.srcH g.dstH ∧
    (∀ xx yy : Nat,
      (xx = mapLow x g.srcW g.dstW ∨ xx = mapHigh x g.srcW g.dstW) →
      (yy = mapLow y g.srcH g.dstH ∨ yy = mapHigh y g.srcH g.dstH) →
      xx < g.srcW ∧ yy < g.srcH ∧
      g.sbase ≤ pixAddr g.sbase g.srcW g.bpp xx yy ch ∧
      pixAddr g.sbase g.srcW g.bpp xx yy ch < g.sbase + g.srcBytes) ∧
    g.dbase ≤ pixAddr g.dbase g.dstW g.bpp x y ch ∧
    pixAddr g.dbase g.dstW g.bpp x y ch < g.dbase + g.dstBytes ∧
    g.sbase + g.srcBytes ≤ pbSize ∧ g.dbase + g.dstBytes ≤ pbSize

/-- The neighbour clamp changes no result, an inference of the spec: where it acts the neighbour's
weight is 0, so the blend is the same whatever is read there (43_resampler.md R138). -/
def Obligations.ClampedNeighbourHasNoWeight : Prop :=
  ∀ x srcN dstN : Nat, 1 ≤ srcN → 1 ≤ dstN → srcN ≤ mapLow x srcN dstN + 1 →
    mapLow x srcN dstN = srcN - 1 ∧ mapNumerator x srcN dstN = (srcN - 1) * (2 * dstN) ∧
    mapFrac x srcN dstN = 0 ∧
    ∀ c00 c01 c10 c11 c c' f d : Nat,
      blend c00 c01 c10 c11 0 f (2 * dstN) d = blend c00 c c10 c' 0 f (2 * dstN) d ∧
      blend c00 c01 c10 c11 f 0 d (2 * dstN) = blend c00 c01 c c' f 0 d (2 * dstN)

/-- An inference of the spec: the blended value lies between the smallest and the largest of the
four samples, so the truncation to 8 bits discards no bit (43_resampler.md R136). -/
def Obligations.BlendLiesBetweenTheSamples : Prop :=
  ∀ c00 c01 c10 c11 fx fy dx dy : Nat, fx < dx → fy < dy →
    min (min c00 c01) (min c10 c11) ≤ blend c00 c01 c10 c11 fx fy dx dy ∧
    blend c00 c01 c10 c11 fx fy dx dy ≤ max (max c00 c01) (max c10 c11) ∧
    (c00 ≤ 255 → c01 ≤ 255 → c10 ≤ 255 → c11 ≤ 255 →
      blendSum c00 c01 c10 c11 fx fy dx dy ≤ 255 * (dx * dy))

/-- The special mappings (a) to (g), inferences of the spec: position 0, a source of one, the two
clamps, the same size, half size, and a uniform source (43_resampler.md R139). -/
def Obligations.SpecialMappings : Prop :=
  (∀ srcN dstN : Nat, 1 ≤ srcN → 1 ≤ dstN → mapLow 0 srcN dstN = 0 ∧ mapFrac 0 srcN dstN = 0) ∧
  (∀ x dstN : Nat, 1 ≤ dstN → mapNumerator x 1 dstN = 0) ∧
  (∀ x srcN dstN : Nat, 1 ≤ srcN → 1 ≤ dstN → 2 * x * srcN ≤ dstN →
    mapNumerator x srcN dstN = 0) ∧
  (∀ srcN dstN : Nat, 1 ≤ srcN → 1 ≤ dstN →
    (∀ x : Nat, x < dstN → (srcN - 1) * (2 * dstN) + dstN < 2 * x * srcN →
      2 * srcN < dstN ∧ mapLow x srcN dstN = srcN - 1 ∧ mapFrac x srcN dstN = 0) ∧
    (2 * srcN < dstN → (srcN - 1) * (2 * dstN) + dstN < 2 * (dstN - 1) * srcN)) ∧
  (∀ x n : Nat, 1 ≤ x → x < n → mapLow x n n = x - 1 ∧ mapFrac x n n = n) ∧
  (∀ x n : Nat, 1 ≤ x → x < n → mapLow x (2 * n) n = 2 * x - 1 ∧ mapFrac x (2 * n) n = n) ∧
  (∀ (pb : Nat → Byte) (g : Geometry) (pbSize ch : Nat) (c : Byte), g.legal pbSize → ch < g.bpp →
    (∀ x y : Nat, x < g.srcW → y < g.srcH → pb (pixAddr g.sbase g.srcW g.bpp x y ch) = c) →
    ∀ x y : Nat, x < g.dstW → y < g.dstH → destValue pb g x y ch = c.toNat)

/-! ### Pipeline -/

/-- CONVERT of a supported header and a whole pixel stream, raw or run-length, with room in PB and
answers `Ack` for the whole output: HDR_IN, HDR_OUT, the two PB regions, the output stream and the
counters of 44_pipeline.md R163 (an inference of the spec), DONE; PB above the regions and every
register are unchanged (R151 to R159). -/
def Obligations.ConvertConverts : Prop :=
  ∀ (s : State) (h : Header) (stream image : List Byte) (cs : List ChunkData)
    (q : List InAnswer) (r : List OutAnswer),
    s.isIdle = true → s.pace = .runAhead → s.params.cfg.toNat / 2 ≠ 3 →
    (h[2] = 2 ∨ h[2] = 3 ∨ h[2] = 10) → h[1] = 0 → (h[16] = 24 ∨ h[16] = 32) →
    0 < h.width → 0 < h.height →
    let bpp := h[16].toNat / 8
    let srcW := h[12].toNat + 256 * h[13].toNat
    let srcH := h[14].toNat + 256 * h[15].toNat
    let dstW := if s.params.cfg.toNat % 2 = 1 then srcW / 2 else s.params.dstW.toNat
    let dstH := if s.params.cfg.toNat % 2 = 1 then srcH / 2 else s.params.dstH.toNat
    let outType : Byte := if s.params.cfg.toNat / 2 = 0 then h[2]
      else if s.params.cfg.toNat / 2 = 1 then 2 else 10
    let srcBytes := srcW * srcH * bpp
    let dstBytes := dstW * dstH * bpp
    let g : Geometry := ⟨bpp, 0, srcW, srcH, srcBytes, dstW, dstH⟩
    let dest := destBytes (fun a => image.getD a 0) g
    let body := if outType = 10 then encodePixels (pixelsOf bpp dest) else dest
    1 ≤ dstW → dstW ≤ 32767 → 1 ≤ dstH → dstH ≤ 32767 → srcBytes + dstBytes ≤ s.pbSize →
    image.length = srcBytes →
    (if h[2] = 10 then (∀ c ∈ cs, c.legal bpp) ∧ streamBytes cs = stream ∧ streamImage cs = image
      else stream = image) →
    s.source = bytesOf (h.toList ++ stream) ++ q → s.sink = acks (18 + body.length) ++ r →
    ∃ t : State, exec .convert s = .next t ∧
      t.hdrOut[2] = outType ∧
      t.hdrOut[12].toNat + 256 * t.hdrOut[13].toNat = dstW ∧
      t.hdrOut[14].toNat + 256 * t.hdrOut[15].toNat = dstH ∧
      (∀ (k : Nat) (hk : k < 18), k ≠ 2 → ¬ (12 ≤ k ∧ k ≤ 15) → t.hdrOut[k] = h[k]) ∧
      (∀ (k : Nat) (hk : k < image.length), t.pbByte k = image[k]) ∧
      dest.length = dstBytes ∧
      (∀ (k : Nat) (hk : k < dest.length), t.pbByte (srcBytes + k) = dest[k]) ∧
      (∀ a : Nat, srcBytes + dstBytes ≤ a → t.pbByte a = s.pbByte a) ∧
      t = { s with
        status := 0b010, seq := .idle, hdrIn := h, hdrOut := t.hdrOut, pb := t.pb
        source := q, inCount := s.inCount + BitVec.ofNat 32 (18 + stream.length)
        sink := r, out := s.out ++ t.hdrOut.toList ++ body
        outCount := s.outCount + BitVec.ofNat 32 (18 + body.length) }

/-- CONVERT of a header it refuses: UnsupportedFormat (0x24), then BadParam (0x27) for an output
dimension, then BufferRange (0x28) for no room, all at VALIDATE with the 18 bytes taken and in
HDR_IN; PB, HDR_OUT and the output stream are untouched (44_pipeline.md R151, R153, R155;
60_exceptions.md R188). -/
def Obligations.ConvertRefusesAtValidate : Prop :=
  ∀ (s : State) (h : Header) (q : List InAnswer),
    s.isIdle = true → s.pace = .runAhead → s.params.cfg.toNat / 2 ≠ 3 →
    s.source = bytesOf h.toList ++ q →
    let supported := (h[2] = 2 ∨ h[2] = 3 ∨ h[2] = 10) ∧ h[1] = 0 ∧ (h[16] = 24 ∨ h[16] = 32) ∧
      0 < h.width ∧ 0 < h.height
    let srcW := h[12].toNat + 256 * h[13].toNat
    let srcH := h[14].toNat + 256 * h[15].toNat
    let dstW := if s.params.cfg.toNat % 2 = 1 then srcW / 2 else s.params.dstW.toNat
    let dstH := if s.params.cfg.toNat % 2 = 1 then srcH / 2 else s.params.dstH.toNat
    let dims := 1 ≤ dstW ∧ dstW ≤ 32767 ∧ 1 ≤ dstH ∧ dstH ≤ 32767
    let bpp := h[16].toNat / 8
    let refused := fun (code : Byte) => ({ s with
      status := 0b100, errinfo := code, seq := .error, hdrIn := h, source := q
      inCount := s.inCount + 18 } : State)
    (¬ supported → exec .convert s = .next (refused 0x24)) ∧
    (supported → ¬ dims → exec .convert s = .next (refused 0x27)) ∧
    (supported → dims → s.pbSize < srcW * srcH * bpp + dstW * dstH * bpp →
      exec .convert s = .next (refused 0x28))

/-- Nothing is output before the input is known to be convertible, an inference of the spec: a
CONVERT that ends in any error but WriteFailed leaves the output stream and OUT_COUNT as they were
(44_pipeline.md R160). What each failing stage of CONVERT leaves unspecified: HDR_IN at HDR_READ,
both regions from DECODE on; PB is untouched before DECODE, HDR_OUT before HDR_WRITE
(60_exceptions.md R188; the free values are log 1). -/
def Obligations.ConvertErrorsLeaveTheOutputUntouched : Prop :=
  (∀ s t : State, s.isIdle = true → exec .convert s = .next t →
    t.err = true → (t.errinfo.extractLsb' 0 4).toNat ≠ 5 →
    t.out = s.out ∧ t.outCount = s.outCount ∧ t.sink = s.sink) ∧
  (∀ s t : State, s.isIdle = true → exec .convert s = .next t → t.err = true →
    let stage := (t.errinfo.extractLsb' 4 4).toNat
    let p := planOf s.params t.hdrIn
    (stage = 0 → t.hdrIn = s.hdrIn) ∧
    (stage = 1 → ∀ (k : Nat) (hk : k < 18), t.hdrIn[k] = Config.freeByte s.draws k) ∧
    (stage ≤ 2 → ∀ a : Nat, t.pbByte a = s.pbByte a) ∧
    (stage ≤ 3 → t.hdrOut = s.hdrOut) ∧
    (3 ≤ stage → freedPb s t 0 (p.srcBytes + p.dstBytes)))

/-- CONVERT against the standalone commands, an inference of the spec: for an input that converts,
the host script of 44_pipeline.md R162, run on the same state, leaves the same state but for the
parameter registers, which the script writes and CONVERT does not. -/
def Obligations.ConvertEqualsTheStandaloneScript : Prop :=
  ∀ s t : State, s.isIdle = true → s.pace = .runAhead → 1 ≤ s.pbSize → s.pbSize ≤ 2 ^ 32 →
    exec .convert s = .next t → t.status = 0b010 → t.seq = .idle →
    ∃ u : State,
      runEvents (standaloneScript t.hdrIn (planOf s.params t.hdrIn)) s = .next u ∧
      { u with params := s.params } = t

/-! ### The whole machine -/

/-- The invariant holds after reset, and no cursor is out of place (10_state.md R28). -/
def Obligations.ResetMeetsTheInvariant : Prop := State.reset.Inv ∧ State.reset.Placed

/-- Every step keeps the invariant: STATUS and SEQ agree, ERRINFO is 0 unless ERR, every cursor and
region is legal, PB keeps its canonical form below PB_SIZE, draws are fresh; and beside it that a
running command stands in a stage of its own, over the regions its registers or the header give
(10_state.md R16, R17, R26, R27; 20_memory.md R40, R47; PB's form and the draws are the model's, log
1 and log 15). -/
def Obligations.StepKeepsTheInvariant : Prop :=
  ∀ s t : State, s.Inv → step s = .next t → t.Inv ∧ (s.Placed → t.Placed)

/-- In a state that meets the invariant the engine's turn never stops on a region outside PB: "The
engine never issues an access that breaks the requirement" (20_memory.md R40). -/
def Obligations.EngineNeverLeavesPb : Prop :=
  ∀ s : State, s.Inv → ∃ t : State, s.engineTurn = .next t ∧ t.pbSize = s.pbSize

/-- ERROR is left only by SRST or the hardware reset, and until then ERRINFO stands
(60_exceptions.md R189, 10_state.md R16, R17). -/
def Obligations.ErrorStandsUntilReset : Prop :=
  ∀ s t : State, s.Inv → s.seq = .error → step s = .next t →
    (t.seq = .error ∧ t.status = 0b100 ∧ t.errinfo = s.errinfo) ∨
    (∃ es : List Event, s.agenda = .wr 0 0x000000FF :: es) ∨
    (∃ (f : Bool) (es : List Event), s.agenda = .rst f :: es)

/-- Error entry: an engine step that ends in ERROR shows ERR alone and has recorded the stage SEQ
was in and a code 1 to 8 (60_exceptions.md R186, R181). -/
def Obligations.ErrorEntryRecordsTheStage : Prop :=
  ∀ s : State, s.seq.active = true → s.engineStep.seq = .error →
    s.engineStep.status = 0b100 ∧
    s.engineStep.errinfo.extractLsb' 4 4 = s.seq.stage.number ∧
    1 ≤ (s.engineStep.errinfo.extractLsb' 0 4).toNat ∧
    (s.engineStep.errinfo.extractLsb' 0 4).toNat ≤ 8

/-- No instruction but SRST writes a parameter register or CFG (10_state.md R19), and none changes
PB_SIZE, the agenda, the pace or the replies; no turn of the engine changes any of them. -/
def Obligations.OnlySrstWritesParameters : Prop :=
  (∀ (s t : State) (i : Instr), exec i s = .next t →
    (i ≠ .srst → t.params = s.params) ∧
    t.pbSize = s.pbSize ∧ t.agenda = s.agenda ∧ t.pace = s.pace ∧ t.replies = s.replies) ∧
  (∀ s t : State, s.engineTurn = .next t →
    t.params = s.params ∧ t.pbSize = s.pbSize ∧ t.agenda = s.agenda ∧ t.pace = s.pace ∧
    t.replies = s.replies)

/-- The frame of the header files, completed, held or failed: HDR_IN is changed by RDHDR and CONVERT
alone, HDR_OUT by DRVHDR and CONVERT alone (10_state.md R20, R29, 30_encoding.md R64). The same of a
turn of the engine that goes on with a command, and of CONVERT only in HDR_READ and HDR_WRITE. -/
def Obligations.FrameOfTheHeaderFiles : Prop :=
  (∀ (s t : State) (i : Instr), exec i s = .next t →
    (i ≠ .rdhdr → i ≠ .convert → t.hdrIn = s.hdrIn) ∧
    (i ≠ .drvhdr → i ≠ .convert → t.hdrOut = s.hdrOut)) ∧
  (∀ s t : State, s.Placed → s.engineTurn = .next t →
    (s.seq.active = false → t = s) ∧
    (∀ (cmd : Command) (plan : Option Plan) (cur : Cursor), s.seq = .run cmd plan cur →
      (cmd ≠ .rdhdr → cmd ≠ .convert → t.hdrIn = s.hdrIn) ∧
      (cmd ≠ .drvhdr → cmd ≠ .convert → t.hdrOut = s.hdrOut) ∧
      (cur.stage ≠ .hdrRead → t.hdrIn = s.hdrIn) ∧
      (cur.stage ≠ .hdrWrite → t.hdrOut = s.hdrOut)))

/-- The frame of PB, completed, held or failed: NOP, SRST, the header commands and the encoders
leave every byte; DECRLE and DECRAW every byte outside the codec buffer, RESAMPLE every byte outside
the destination region, CONVERT every byte outside its two regions, a chunk every byte outside the
buffer being decoded, or outside both regions where a CONVERT decodes (10_state.md R29, 20_memory.md
R47, R48, 60_exceptions.md R188). The same of a turn of the engine that goes on with a command. -/
def Obligations.FrameOfThePixelBuffer : Prop :=
  (∀ (s t : State) (i : Instr) (a : Nat), exec i s = .next t →
    let p := planOf s.params t.hdrIn
    (i = .nop ∨ i = .srst ∨ i = .rdhdr ∨ i = .drvhdr ∨ i = .wrhdr ∨ i = .encrle ∨ i = .encraw →
      t.pbByte a = s.pbByte a) ∧
    (i = .decrle ∨ i = .decraw →
      outside s.params.bufBase.toNat s.params.bufLen.toNat a → t.pbByte a = s.pbByte a) ∧
    (i = .resample →
      outside s.params.dstBase.toNat
        (s.params.dstW.toNat * s.params.dstH.toNat * s.params.bpp.toNat) a →
      t.pbByte a = s.pbByte a) ∧
    (i = .convert → outside 0 (p.srcBytes + p.dstBytes) a → t.pbByte a = s.pbByte a) ∧
    (∀ (cmd : Command) (plan : Option Plan) (d : Decoder), i.isCommand = false →
      i.wellFormed = true → s.seq = .run cmd plan (.decodeRle d .control) →
      outside d.base d.size a →
      (∀ c : Plan, plan = some c → outside 0 (c.srcBytes + c.dstBytes) a) →
      t.pbByte a = s.pbByte a)) ∧
  (∀ (s t : State) (cmd : Command) (plan : Option Plan) (cur : Cursor) (a : Nat),
    s.Inv → s.Placed → s.seq = .run cmd plan cur → s.engineTurn = .next t →
    let p := planOf s.params s.hdrIn
    (cmd = .rdhdr ∨ cmd = .drvhdr ∨ cmd = .wrhdr ∨ cmd = .encrle ∨ cmd = .encraw →
      t.pbByte a = s.pbByte a) ∧
    (cmd = .decrle ∨ cmd = .decraw →
      outside s.params.bufBase.toNat s.params.bufLen.toNat a → t.pbByte a = s.pbByte a) ∧
    (cmd = .resample →
      outside s.params.dstBase.toNat
        (s.params.dstW.toNat * s.params.dstH.toNat * s.params.bpp.toNat) a →
      t.pbByte a = s.pbByte a) ∧
    (cmd = .convert → outside 0 (p.srcBytes + p.dstBytes) a → t.pbByte a = s.pbByte a))

/-- The input port: an instruction uses the source's answers up from the first on, none skipped, and
IN_COUNT grows by the number of `Byte` answers among them; commands without the input port use none
(10_state.md R21, R23, 20_memory.md R53, 30_encoding.md R64). SRST alone clears the counter. The
same of a turn of the engine, which uses input only in HDR_READ and DECODE. -/
def Obligations.InputIsTakenInOrderAndCounted : Prop :=
  (∀ (s t : State) (i : Instr), exec i s = .next t → i ≠ .srst →
    ∃ used : List InAnswer, s.source = used ++ t.source ∧
      t.inCount = s.inCount + BitVec.ofNat 32 (byteCount used) ∧
      (i = .nop ∨ i = .drvhdr ∨ i = .wrhdr ∨ i = .encrle ∨ i = .encraw ∨ i = .resample →
        used = [])) ∧
  (∀ s t : State, s.Placed → s.engineTurn = .next t →
    ∃ used : List InAnswer, s.source = used ++ t.source ∧
      t.inCount = s.inCount + BitVec.ofNat 32 (byteCount used) ∧
      (s.seq.active = false → used = []) ∧
      (∀ (cmd : Command) (plan : Option Plan) (cur : Cursor), s.seq = .run cmd plan cur →
        (cmd = .drvhdr ∨ cmd = .wrhdr ∨ cmd = .encrle ∨ cmd = .encraw ∨ cmd = .resample →
          used = []) ∧
        (cur.stage ≠ .hdrRead → cur.stage ≠ .decode → used = [])))

/-- The output port: an instruction only appends to the output stream, OUT_COUNT grows by the number
of bytes appended, and commands without the output port append none (10_state.md R21, R24,
20_memory.md R53, 30_encoding.md R64). SRST alone clears the counter. The same of a turn of the
engine, which offers bytes only in HDR_WRITE and ENCODE. -/
def Obligations.OutputOnlyGrowsAndIsCounted : Prop :=
  (∀ (s t : State) (i : Instr), exec i s = .next t → i ≠ .srst →
    ∃ sent : List Byte, t.out = s.out ++ sent ∧
      t.outCount = s.outCount + BitVec.ofNat 32 sent.length ∧
      (i = .nop ∨ i = .rdhdr ∨ i = .drvhdr ∨ i = .decrle ∨ i = .decraw ∨ i = .resample →
        sent = [] ∧ t.sink = s.sink)) ∧
  (∀ s t : State, s.Placed → s.engineTurn = .next t →
    ∃ sent : List Byte, t.out = s.out ++ sent ∧
      t.outCount = s.outCount + BitVec.ofNat 32 sent.length ∧
      (s.seq.active = false → sent = [] ∧ t.sink = s.sink) ∧
      (∀ (cmd : Command) (plan : Option Plan) (cur : Cursor), s.seq = .run cmd plan cur →
        (cmd = .rdhdr ∨ cmd = .drvhdr ∨ cmd = .decrle ∨ cmd = .decraw ∨ cmd = .resample →
          sent = [] ∧ t.sink = s.sink) ∧
        (cur.stage ≠ .hdrWrite → cur.stage ≠ .encode → sent = [] ∧ t.sink = s.sink)))

/-- Three outcomes of a command: the engine moves until the command has ended or it is held on a
port whose queue of answers is empty, never for ever (60_exceptions.md R192). -/
def Obligations.EveryCommandEndsOrIsHeld : Prop :=
  ∀ s : State,
    s.settle.seq = .idle ∨ s.settle.seq = .error ∨
    (s.settle.seq.pending = .input ∧ s.settle.source = []) ∨
    ((∃ b : Byte, s.settle.seq.pending = .output b) ∧ s.settle.sink = [])

/-- The pace changes no result: a command accepted in the stepwise pace, its engine then moved to
its end or hold, gives the state the run-ahead pace gives at once (70_reset_and_hazards.md R229; log
5). -/
def Obligations.PaceDoesNotChangeTheResult : Prop :=
  ∀ (s t u : State) (i : Instr), i.isCommand = true → s.isIdle = true → s.seq = .idle →
    exec i { s with pace := .stepwise } = .next t → exec i { s with pace := .runAhead } = .next u →
    t.settle = { u with pace := .stepwise }

/-- When an answer comes does not matter: an engine that settles, is then given one more answer by
the source or the sink, and settles again is where it would be had the answer been ready from the
start (10_state.md R23, R24: it holds until answered; 70_reset_and_hazards.md R229; the queues of
answers are the model's, log 4). -/
def Obligations.LateAnswersGiveTheSameResult : Prop :=
  ∀ s : State,
    (∀ a : InAnswer,
      ({ s with source := s.source ++ [a] } : State).settle =
        ({ s.settle with source := s.settle.source ++ [a] } : State).settle) ∧
    (∀ a : OutAnswer,
      ({ s with sink := s.sink ++ [a] } : State).settle =
        ({ s.settle with sink := s.settle.sink ++ [a] } : State).settle)
end

