-- ==== Sys2Proof/Laws/State.lean ====
section
/-!
SUPPORT. One lemma for each field and each named update of State, each true by `rfl`, so that no
proof unfolds a record update; and what `spoil` and `raise` leave alone.
-/

namespace Sys2Proof.Machine

/-! ### A PB write (20_memory.md R40) -/

@[simp] theorem State.memWrite_params (s : State) (a : Nat) (v : List Byte) :
    (s.memWrite a v).params = s.params := rfl
@[simp] theorem State.memWrite_status (s : State) (a : Nat) (v : List Byte) :
    (s.memWrite a v).status = s.status := rfl
@[simp] theorem State.memWrite_errinfo (s : State) (a : Nat) (v : List Byte) :
    (s.memWrite a v).errinfo = s.errinfo := rfl
@[simp] theorem State.memWrite_inCount (s : State) (a : Nat) (v : List Byte) :
    (s.memWrite a v).inCount = s.inCount := rfl
@[simp] theorem State.memWrite_outCount (s : State) (a : Nat) (v : List Byte) :
    (s.memWrite a v).outCount = s.outCount := rfl
@[simp] theorem State.memWrite_hdrIn (s : State) (a : Nat) (v : List Byte) :
    (s.memWrite a v).hdrIn = s.hdrIn := rfl
@[simp] theorem State.memWrite_hdrOut (s : State) (a : Nat) (v : List Byte) :
    (s.memWrite a v).hdrOut = s.hdrOut := rfl
@[simp] theorem State.memWrite_pb (s : State) (a : Nat) (v : List Byte) :
    (s.memWrite a v).pb = s.pb.setBlock a v := rfl
@[simp] theorem State.memWrite_pbFree (s : State) (a : Nat) (v : List Byte) :
    (s.memWrite a v).pbFree = s.pbFree := rfl
@[simp] theorem State.memWrite_pbDraw (s : State) (a : Nat) (v : List Byte) :
    (s.memWrite a v).pbDraw = s.pbDraw := rfl
@[simp] theorem State.memWrite_seq (s : State) (a : Nat) (v : List Byte) :
    (s.memWrite a v).seq = s.seq := rfl
@[simp] theorem State.memWrite_pbSize (s : State) (a : Nat) (v : List Byte) :
    (s.memWrite a v).pbSize = s.pbSize := rfl
@[simp] theorem State.memWrite_agenda (s : State) (a : Nat) (v : List Byte) :
    (s.memWrite a v).agenda = s.agenda := rfl
@[simp] theorem State.memWrite_pace (s : State) (a : Nat) (v : List Byte) :
    (s.memWrite a v).pace = s.pace := rfl
@[simp] theorem State.memWrite_source (s : State) (a : Nat) (v : List Byte) :
    (s.memWrite a v).source = s.source := rfl
@[simp] theorem State.memWrite_sink (s : State) (a : Nat) (v : List Byte) :
    (s.memWrite a v).sink = s.sink := rfl
@[simp] theorem State.memWrite_out (s : State) (a : Nat) (v : List Byte) :
    (s.memWrite a v).out = s.out := rfl
@[simp] theorem State.memWrite_replies (s : State) (a : Nat) (v : List Byte) :
    (s.memWrite a v).replies = s.replies := rfl
@[simp] theorem State.memWrite_draws (s : State) (a : Nat) (v : List Byte) :
    (s.memWrite a v).draws = s.draws := rfl

/-! ### A PB region made unspecified (60_exceptions.md R188) -/

@[simp] theorem State.freePb_params (s : State) (base len : Nat) :
    (s.freePb base len).params = s.params := rfl
@[simp] theorem State.freePb_status (s : State) (base len : Nat) :
    (s.freePb base len).status = s.status := rfl
@[simp] theorem State.freePb_errinfo (s : State) (base len : Nat) :
    (s.freePb base len).errinfo = s.errinfo := rfl
@[simp] theorem State.freePb_inCount (s : State) (base len : Nat) :
    (s.freePb base len).inCount = s.inCount := rfl
@[simp] theorem State.freePb_outCount (s : State) (base len : Nat) :
    (s.freePb base len).outCount = s.outCount := rfl
@[simp] theorem State.freePb_hdrIn (s : State) (base len : Nat) :
    (s.freePb base len).hdrIn = s.hdrIn := rfl
@[simp] theorem State.freePb_hdrOut (s : State) (base len : Nat) :
    (s.freePb base len).hdrOut = s.hdrOut := rfl
@[simp] theorem State.freePb_pb (s : State) (base len : Nat) :
    (s.freePb base len).pb = s.pb.clear base len := rfl
@[simp] theorem State.freePb_pbFree (s : State) (base len : Nat) :
    (s.freePb base len).pbFree = ⟨base, len, s.draws⟩ :: s.pbFree := rfl
@[simp] theorem State.freePb_pbDraw (s : State) (base len : Nat) :
    (s.freePb base len).pbDraw = s.pbDraw := rfl
@[simp] theorem State.freePb_seq (s : State) (base len : Nat) :
    (s.freePb base len).seq = s.seq := rfl
@[simp] theorem State.freePb_pbSize (s : State) (base len : Nat) :
    (s.freePb base len).pbSize = s.pbSize := rfl
@[simp] theorem State.freePb_agenda (s : State) (base len : Nat) :
    (s.freePb base len).agenda = s.agenda := rfl
@[simp] theorem State.freePb_pace (s : State) (base len : Nat) :
    (s.freePb base len).pace = s.pace := rfl
@[simp] theorem State.freePb_source (s : State) (base len : Nat) :
    (s.freePb base len).source = s.source := rfl
@[simp] theorem State.freePb_sink (s : State) (base len : Nat) :
    (s.freePb base len).sink = s.sink := rfl
@[simp] theorem State.freePb_out (s : State) (base len : Nat) :
    (s.freePb base len).out = s.out := rfl
@[simp] theorem State.freePb_replies (s : State) (base len : Nat) :
    (s.freePb base len).replies = s.replies := rfl
@[simp] theorem State.freePb_draws (s : State) (base len : Nat) :
    (s.freePb base len).draws = s.draws + 1 := rfl

/-! ### HDR_IN made unspecified (60_exceptions.md R188) -/

@[simp] theorem State.freeHdrIn_params (s : State) : (s.freeHdrIn).params = s.params := rfl
@[simp] theorem State.freeHdrIn_status (s : State) : (s.freeHdrIn).status = s.status := rfl
@[simp] theorem State.freeHdrIn_errinfo (s : State) : (s.freeHdrIn).errinfo = s.errinfo := rfl
@[simp] theorem State.freeHdrIn_inCount (s : State) : (s.freeHdrIn).inCount = s.inCount := rfl
@[simp] theorem State.freeHdrIn_outCount (s : State) : (s.freeHdrIn).outCount = s.outCount := rfl
@[simp] theorem State.freeHdrIn_hdrIn (s : State) :
    (s.freeHdrIn).hdrIn = Config.freeHeader s.draws := rfl
@[simp] theorem State.freeHdrIn_hdrOut (s : State) : (s.freeHdrIn).hdrOut = s.hdrOut := rfl
@[simp] theorem State.freeHdrIn_pb (s : State) : (s.freeHdrIn).pb = s.pb := rfl
@[simp] theorem State.freeHdrIn_pbFree (s : State) : (s.freeHdrIn).pbFree = s.pbFree := rfl
@[simp] theorem State.freeHdrIn_pbDraw (s : State) : (s.freeHdrIn).pbDraw = s.pbDraw := rfl
@[simp] theorem State.freeHdrIn_seq (s : State) : (s.freeHdrIn).seq = s.seq := rfl
@[simp] theorem State.freeHdrIn_pbSize (s : State) : (s.freeHdrIn).pbSize = s.pbSize := rfl
@[simp] theorem State.freeHdrIn_agenda (s : State) : (s.freeHdrIn).agenda = s.agenda := rfl
@[simp] theorem State.freeHdrIn_pace (s : State) : (s.freeHdrIn).pace = s.pace := rfl
@[simp] theorem State.freeHdrIn_source (s : State) : (s.freeHdrIn).source = s.source := rfl
@[simp] theorem State.freeHdrIn_sink (s : State) : (s.freeHdrIn).sink = s.sink := rfl
@[simp] theorem State.freeHdrIn_out (s : State) : (s.freeHdrIn).out = s.out := rfl
@[simp] theorem State.freeHdrIn_replies (s : State) : (s.freeHdrIn).replies = s.replies := rfl
@[simp] theorem State.freeHdrIn_draws (s : State) : (s.freeHdrIn).draws = s.draws + 1 := rfl

/-! ### Input transactions (10_state.md R21, R23) -/

@[simp] theorem State.afterTake_params (s : State) (t : Taken) :
    (s.afterTake t).params = s.params := rfl
@[simp] theorem State.afterTake_status (s : State) (t : Taken) :
    (s.afterTake t).status = s.status := rfl
@[simp] theorem State.afterTake_errinfo (s : State) (t : Taken) :
    (s.afterTake t).errinfo = s.errinfo := rfl
@[simp] theorem State.afterTake_inCount (s : State) (t : Taken) :
    (s.afterTake t).inCount = s.inCount + BitVec.ofNat 32 t.bytes.length := rfl
@[simp] theorem State.afterTake_outCount (s : State) (t : Taken) :
    (s.afterTake t).outCount = s.outCount := rfl
@[simp] theorem State.afterTake_hdrIn (s : State) (t : Taken) :
    (s.afterTake t).hdrIn = s.hdrIn := rfl
@[simp] theorem State.afterTake_hdrOut (s : State) (t : Taken) :
    (s.afterTake t).hdrOut = s.hdrOut := rfl
@[simp] theorem State.afterTake_pb (s : State) (t : Taken) : (s.afterTake t).pb = s.pb := rfl
@[simp] theorem State.afterTake_pbFree (s : State) (t : Taken) :
    (s.afterTake t).pbFree = s.pbFree := rfl
@[simp] theorem State.afterTake_pbDraw (s : State) (t : Taken) :
    (s.afterTake t).pbDraw = s.pbDraw := rfl
@[simp] theorem State.afterTake_seq (s : State) (t : Taken) : (s.afterTake t).seq = s.seq := rfl
@[simp] theorem State.afterTake_pbSize (s : State) (t : Taken) :
    (s.afterTake t).pbSize = s.pbSize := rfl
@[simp] theorem State.afterTake_agenda (s : State) (t : Taken) :
    (s.afterTake t).agenda = s.agenda := rfl
@[simp] theorem State.afterTake_pace (s : State) (t : Taken) : (s.afterTake t).pace = s.pace := rfl
@[simp] theorem State.afterTake_source (s : State) (t : Taken) :
    (s.afterTake t).source = t.left := rfl
@[simp] theorem State.afterTake_sink (s : State) (t : Taken) : (s.afterTake t).sink = s.sink := rfl
@[simp] theorem State.afterTake_out (s : State) (t : Taken) : (s.afterTake t).out = s.out := rfl
@[simp] theorem State.afterTake_replies (s : State) (t : Taken) :
    (s.afterTake t).replies = s.replies := rfl
@[simp] theorem State.afterTake_draws (s : State) (t : Taken) :
    (s.afterTake t).draws = s.draws := rfl

/-! ### Output transactions (10_state.md R21, R24) -/

@[simp] theorem State.afterPut_params (s : State) (g : Given) :
    (s.afterPut g).params = s.params := rfl
@[simp] theorem State.afterPut_status (s : State) (g : Given) :
    (s.afterPut g).status = s.status := rfl
@[simp] theorem State.afterPut_errinfo (s : State) (g : Given) :
    (s.afterPut g).errinfo = s.errinfo := rfl
@[simp] theorem State.afterPut_inCount (s : State) (g : Given) :
    (s.afterPut g).inCount = s.inCount := rfl
@[simp] theorem State.afterPut_outCount (s : State) (g : Given) :
    (s.afterPut g).outCount = s.outCount + BitVec.ofNat 32 g.sent.length := rfl
@[simp] theorem State.afterPut_hdrIn (s : State) (g : Given) : (s.afterPut g).hdrIn = s.hdrIn := rfl
@[simp] theorem State.afterPut_hdrOut (s : State) (g : Given) :
    (s.afterPut g).hdrOut = s.hdrOut := rfl
@[simp] theorem State.afterPut_pb (s : State) (g : Given) : (s.afterPut g).pb = s.pb := rfl
@[simp] theorem State.afterPut_pbFree (s : State) (g : Given) :
    (s.afterPut g).pbFree = s.pbFree := rfl
@[simp] theorem State.afterPut_pbDraw (s : State) (g : Given) :
    (s.afterPut g).pbDraw = s.pbDraw := rfl
@[simp] theorem State.afterPut_seq (s : State) (g : Given) : (s.afterPut g).seq = s.seq := rfl
@[simp] theorem State.afterPut_pbSize (s : State) (g : Given) :
    (s.afterPut g).pbSize = s.pbSize := rfl
@[simp] theorem State.afterPut_agenda (s : State) (g : Given) :
    (s.afterPut g).agenda = s.agenda := rfl
@[simp] theorem State.afterPut_pace (s : State) (g : Given) : (s.afterPut g).pace = s.pace := rfl
@[simp] theorem State.afterPut_source (s : State) (g : Given) :
    (s.afterPut g).source = s.source := rfl
@[simp] theorem State.afterPut_sink (s : State) (g : Given) : (s.afterPut g).sink = g.left := rfl
@[simp] theorem State.afterPut_out (s : State) (g : Given) :
    (s.afterPut g).out = s.out ++ g.sent := rfl
@[simp] theorem State.afterPut_replies (s : State) (g : Given) :
    (s.afterPut g).replies = s.replies := rfl
@[simp] theorem State.afterPut_draws (s : State) (g : Given) : (s.afterPut g).draws = s.draws := rfl

/-! ### The move to another stage (00_scope.md R7) -/

@[simp] theorem State.moveTo_params (s : State) (cur : Cursor) :
    (s.moveTo cur).params = s.params := rfl
@[simp] theorem State.moveTo_status (s : State) (cur : Cursor) :
    (s.moveTo cur).status = s.status := rfl
@[simp] theorem State.moveTo_errinfo (s : State) (cur : Cursor) :
    (s.moveTo cur).errinfo = s.errinfo := rfl
@[simp] theorem State.moveTo_inCount (s : State) (cur : Cursor) :
    (s.moveTo cur).inCount = s.inCount := rfl
@[simp] theorem State.moveTo_outCount (s : State) (cur : Cursor) :
    (s.moveTo cur).outCount = s.outCount := rfl
@[simp] theorem State.moveTo_hdrIn (s : State) (cur : Cursor) :
    (s.moveTo cur).hdrIn = s.hdrIn := rfl
@[simp] theorem State.moveTo_hdrOut (s : State) (cur : Cursor) :
    (s.moveTo cur).hdrOut = s.hdrOut := rfl
@[simp] theorem State.moveTo_pb (s : State) (cur : Cursor) : (s.moveTo cur).pb = s.pb := rfl
@[simp] theorem State.moveTo_pbFree (s : State) (cur : Cursor) :
    (s.moveTo cur).pbFree = s.pbFree := rfl
@[simp] theorem State.moveTo_pbDraw (s : State) (cur : Cursor) :
    (s.moveTo cur).pbDraw = s.pbDraw := rfl
@[simp] theorem State.moveTo_seq (s : State) (cur : Cursor) :
    (s.moveTo cur).seq = s.seq.moveTo cur := rfl
@[simp] theorem State.moveTo_pbSize (s : State) (cur : Cursor) :
    (s.moveTo cur).pbSize = s.pbSize := rfl
@[simp] theorem State.moveTo_agenda (s : State) (cur : Cursor) :
    (s.moveTo cur).agenda = s.agenda := rfl
@[simp] theorem State.moveTo_pace (s : State) (cur : Cursor) : (s.moveTo cur).pace = s.pace := rfl
@[simp] theorem State.moveTo_source (s : State) (cur : Cursor) :
    (s.moveTo cur).source = s.source := rfl
@[simp] theorem State.moveTo_sink (s : State) (cur : Cursor) : (s.moveTo cur).sink = s.sink := rfl
@[simp] theorem State.moveTo_out (s : State) (cur : Cursor) : (s.moveTo cur).out = s.out := rfl
@[simp] theorem State.moveTo_replies (s : State) (cur : Cursor) :
    (s.moveTo cur).replies = s.replies := rfl
@[simp] theorem State.moveTo_draws (s : State) (cur : Cursor) :
    (s.moveTo cur).draws = s.draws := rfl

/-! ### Acceptance (30_encoding.md R63) -/

@[simp] theorem State.accept_params (s : State) (cmd : Command) :
    (s.accept cmd).params = s.params := rfl
@[simp] theorem State.accept_status (s : State) (cmd : Command) :
    (s.accept cmd).status = statusBusy := rfl
@[simp] theorem State.accept_errinfo (s : State) (cmd : Command) :
    (s.accept cmd).errinfo = s.errinfo := rfl
@[simp] theorem State.accept_inCount (s : State) (cmd : Command) :
    (s.accept cmd).inCount = s.inCount := rfl
@[simp] theorem State.accept_outCount (s : State) (cmd : Command) :
    (s.accept cmd).outCount = s.outCount := rfl
@[simp] theorem State.accept_hdrIn (s : State) (cmd : Command) :
    (s.accept cmd).hdrIn = s.hdrIn := rfl
@[simp] theorem State.accept_hdrOut (s : State) (cmd : Command) :
    (s.accept cmd).hdrOut = s.hdrOut := rfl
@[simp] theorem State.accept_pb (s : State) (cmd : Command) : (s.accept cmd).pb = s.pb := rfl
@[simp] theorem State.accept_pbFree (s : State) (cmd : Command) :
    (s.accept cmd).pbFree = s.pbFree := rfl
@[simp] theorem State.accept_pbDraw (s : State) (cmd : Command) :
    (s.accept cmd).pbDraw = s.pbDraw := rfl
@[simp] theorem State.accept_seq (s : State) (cmd : Command) :
    (s.accept cmd).seq = .run cmd none .issue := rfl
@[simp] theorem State.accept_pbSize (s : State) (cmd : Command) :
    (s.accept cmd).pbSize = s.pbSize := rfl
@[simp] theorem State.accept_agenda (s : State) (cmd : Command) :
    (s.accept cmd).agenda = s.agenda := rfl
@[simp] theorem State.accept_pace (s : State) (cmd : Command) : (s.accept cmd).pace = s.pace := rfl
@[simp] theorem State.accept_source (s : State) (cmd : Command) :
    (s.accept cmd).source = s.source := rfl
@[simp] theorem State.accept_sink (s : State) (cmd : Command) : (s.accept cmd).sink = s.sink := rfl
@[simp] theorem State.accept_out (s : State) (cmd : Command) : (s.accept cmd).out = s.out := rfl
@[simp] theorem State.accept_replies (s : State) (cmd : Command) :
    (s.accept cmd).replies = s.replies := rfl
@[simp] theorem State.accept_draws (s : State) (cmd : Command) :
    (s.accept cmd).draws = s.draws := rfl

/-! ### Completion (30_encoding.md R63) -/

@[simp] theorem State.complete_params (s : State) : (s.complete).params = s.params := rfl
@[simp] theorem State.complete_status (s : State) : (s.complete).status = statusDone := rfl
@[simp] theorem State.complete_errinfo (s : State) : (s.complete).errinfo = s.errinfo := rfl
@[simp] theorem State.complete_inCount (s : State) : (s.complete).inCount = s.inCount := rfl
@[simp] theorem State.complete_outCount (s : State) : (s.complete).outCount = s.outCount := rfl
@[simp] theorem State.complete_hdrIn (s : State) : (s.complete).hdrIn = s.hdrIn := rfl
@[simp] theorem State.complete_hdrOut (s : State) : (s.complete).hdrOut = s.hdrOut := rfl
@[simp] theorem State.complete_pb (s : State) : (s.complete).pb = s.pb := rfl
@[simp] theorem State.complete_pbFree (s : State) : (s.complete).pbFree = s.pbFree := rfl
@[simp] theorem State.complete_pbDraw (s : State) : (s.complete).pbDraw = s.pbDraw := rfl
@[simp] theorem State.complete_seq (s : State) : (s.complete).seq = .idle := rfl
@[simp] theorem State.complete_pbSize (s : State) : (s.complete).pbSize = s.pbSize := rfl
@[simp] theorem State.complete_agenda (s : State) : (s.complete).agenda = s.agenda := rfl
@[simp] theorem State.complete_pace (s : State) : (s.complete).pace = s.pace := rfl
@[simp] theorem State.complete_source (s : State) : (s.complete).source = s.source := rfl
@[simp] theorem State.complete_sink (s : State) : (s.complete).sink = s.sink := rfl
@[simp] theorem State.complete_out (s : State) : (s.complete).out = s.out := rfl
@[simp] theorem State.complete_replies (s : State) : (s.complete).replies = s.replies := rfl
@[simp] theorem State.complete_draws (s : State) : (s.complete).draws = s.draws := rfl

/-! ### The registers of error entry (60_exceptions.md R186) -/

@[simp] theorem State.enterError_params (s : State) (e : ErrorCode) (st : Stage) :
    (s.enterError e st).params = s.params := rfl
@[simp] theorem State.enterError_status (s : State) (e : ErrorCode) (st : Stage) :
    (s.enterError e st).status = statusErr := rfl
@[simp] theorem State.enterError_errinfo (s : State) (e : ErrorCode) (st : Stage) :
    (s.enterError e st).errinfo = errinfoOf e st := rfl
@[simp] theorem State.enterError_inCount (s : State) (e : ErrorCode) (st : Stage) :
    (s.enterError e st).inCount = s.inCount := rfl
@[simp] theorem State.enterError_outCount (s : State) (e : ErrorCode) (st : Stage) :
    (s.enterError e st).outCount = s.outCount := rfl
@[simp] theorem State.enterError_hdrIn (s : State) (e : ErrorCode) (st : Stage) :
    (s.enterError e st).hdrIn = s.hdrIn := rfl
@[simp] theorem State.enterError_hdrOut (s : State) (e : ErrorCode) (st : Stage) :
    (s.enterError e st).hdrOut = s.hdrOut := rfl
@[simp] theorem State.enterError_pb (s : State) (e : ErrorCode) (st : Stage) :
    (s.enterError e st).pb = s.pb := rfl
@[simp] theorem State.enterError_pbFree (s : State) (e : ErrorCode) (st : Stage) :
    (s.enterError e st).pbFree = s.pbFree := rfl
@[simp] theorem State.enterError_pbDraw (s : State) (e : ErrorCode) (st : Stage) :
    (s.enterError e st).pbDraw = s.pbDraw := rfl
@[simp] theorem State.enterError_seq (s : State) (e : ErrorCode) (st : Stage) :
    (s.enterError e st).seq = .error := rfl
@[simp] theorem State.enterError_pbSize (s : State) (e : ErrorCode) (st : Stage) :
    (s.enterError e st).pbSize = s.pbSize := rfl
@[simp] theorem State.enterError_agenda (s : State) (e : ErrorCode) (st : Stage) :
    (s.enterError e st).agenda = s.agenda := rfl
@[simp] theorem State.enterError_pace (s : State) (e : ErrorCode) (st : Stage) :
    (s.enterError e st).pace = s.pace := rfl
@[simp] theorem State.enterError_source (s : State) (e : ErrorCode) (st : Stage) :
    (s.enterError e st).source = s.source := rfl
@[simp] theorem State.enterError_sink (s : State) (e : ErrorCode) (st : Stage) :
    (s.enterError e st).sink = s.sink := rfl
@[simp] theorem State.enterError_out (s : State) (e : ErrorCode) (st : Stage) :
    (s.enterError e st).out = s.out := rfl
@[simp] theorem State.enterError_replies (s : State) (e : ErrorCode) (st : Stage) :
    (s.enterError e st).replies = s.replies := rfl
@[simp] theorem State.enterError_draws (s : State) (e : ErrorCode) (st : Stage) :
    (s.enterError e st).draws = s.draws := rfl

/-! ### SRST (45_control.md R172) -/

@[simp] theorem State.softReset_params (s : State) : (s.softReset).params = Params.zero := rfl
@[simp] theorem State.softReset_status (s : State) : (s.softReset).status = statusNone := rfl
@[simp] theorem State.softReset_errinfo (s : State) : (s.softReset).errinfo = 0 := rfl
@[simp] theorem State.softReset_inCount (s : State) : (s.softReset).inCount = 0 := rfl
@[simp] theorem State.softReset_outCount (s : State) : (s.softReset).outCount = 0 := rfl
@[simp] theorem State.softReset_hdrIn (s : State) : (s.softReset).hdrIn = s.hdrIn := rfl
@[simp] theorem State.softReset_hdrOut (s : State) : (s.softReset).hdrOut = s.hdrOut := rfl
@[simp] theorem State.softReset_pb (s : State) : (s.softReset).pb = s.pb := rfl
@[simp] theorem State.softReset_pbFree (s : State) : (s.softReset).pbFree = s.pbFree := rfl
@[simp] theorem State.softReset_pbDraw (s : State) : (s.softReset).pbDraw = s.pbDraw := rfl
@[simp] theorem State.softReset_seq (s : State) : (s.softReset).seq = .idle := rfl
@[simp] theorem State.softReset_pbSize (s : State) : (s.softReset).pbSize = s.pbSize := rfl
@[simp] theorem State.softReset_agenda (s : State) : (s.softReset).agenda = s.agenda := rfl
@[simp] theorem State.softReset_pace (s : State) : (s.softReset).pace = s.pace := rfl
@[simp] theorem State.softReset_source (s : State) : (s.softReset).source = s.source := rfl
@[simp] theorem State.softReset_sink (s : State) : (s.softReset).sink = s.sink := rfl
@[simp] theorem State.softReset_out (s : State) : (s.softReset).out = s.out := rfl
@[simp] theorem State.softReset_replies (s : State) : (s.softReset).replies = s.replies := rfl
@[simp] theorem State.softReset_draws (s : State) : (s.softReset).draws = s.draws := rfl

/-! ### The hardware reset (70_reset_and_hazards.md R210) -/

@[simp] theorem State.hardReset_params (s : State) : (s.hardReset).params = Params.zero := rfl
@[simp] theorem State.hardReset_status (s : State) : (s.hardReset).status = statusNone := rfl
@[simp] theorem State.hardReset_errinfo (s : State) : (s.hardReset).errinfo = 0 := rfl
@[simp] theorem State.hardReset_inCount (s : State) : (s.hardReset).inCount = 0 := rfl
@[simp] theorem State.hardReset_outCount (s : State) : (s.hardReset).outCount = 0 := rfl
@[simp] theorem State.hardReset_hdrIn (s : State) :
    (s.hardReset).hdrIn = Config.freeHeader s.draws := rfl
@[simp] theorem State.hardReset_hdrOut (s : State) :
    (s.hardReset).hdrOut = Config.freeHeader (s.draws + 1) := rfl
@[simp] theorem State.hardReset_pb (s : State) : (s.hardReset).pb = [] := rfl
@[simp] theorem State.hardReset_pbFree (s : State) : (s.hardReset).pbFree = [] := rfl
@[simp] theorem State.hardReset_pbDraw (s : State) : (s.hardReset).pbDraw = s.draws + 2 := rfl
@[simp] theorem State.hardReset_seq (s : State) : (s.hardReset).seq = .idle := rfl
@[simp] theorem State.hardReset_pbSize (s : State) : (s.hardReset).pbSize = s.pbSize := rfl
@[simp] theorem State.hardReset_agenda (s : State) : (s.hardReset).agenda = s.agenda := rfl
@[simp] theorem State.hardReset_pace (s : State) : (s.hardReset).pace = s.pace := rfl
@[simp] theorem State.hardReset_source (s : State) : (s.hardReset).source = s.source := rfl
@[simp] theorem State.hardReset_sink (s : State) : (s.hardReset).sink = s.sink := rfl
@[simp] theorem State.hardReset_out (s : State) : (s.hardReset).out = s.out := rfl
@[simp] theorem State.hardReset_replies (s : State) : (s.hardReset).replies = s.replies := rfl
@[simp] theorem State.hardReset_draws (s : State) : (s.hardReset).draws = s.draws + 3 := rfl

/-! ### A host read (10_state.md R25) -/

@[simp] theorem State.reply_params (s : State) (v : Word) : (s.reply v).params = s.params := rfl
@[simp] theorem State.reply_status (s : State) (v : Word) : (s.reply v).status = s.status := rfl
@[simp] theorem State.reply_errinfo (s : State) (v : Word) : (s.reply v).errinfo = s.errinfo := rfl
@[simp] theorem State.reply_inCount (s : State) (v : Word) : (s.reply v).inCount = s.inCount := rfl
@[simp] theorem State.reply_outCount (s : State) (v : Word) :
    (s.reply v).outCount = s.outCount := rfl
@[simp] theorem State.reply_hdrIn (s : State) (v : Word) : (s.reply v).hdrIn = s.hdrIn := rfl
@[simp] theorem State.reply_hdrOut (s : State) (v : Word) : (s.reply v).hdrOut = s.hdrOut := rfl
@[simp] theorem State.reply_pb (s : State) (v : Word) : (s.reply v).pb = s.pb := rfl
@[simp] theorem State.reply_pbFree (s : State) (v : Word) : (s.reply v).pbFree = s.pbFree := rfl
@[simp] theorem State.reply_pbDraw (s : State) (v : Word) : (s.reply v).pbDraw = s.pbDraw := rfl
@[simp] theorem State.reply_seq (s : State) (v : Word) : (s.reply v).seq = s.seq := rfl
@[simp] theorem State.reply_pbSize (s : State) (v : Word) : (s.reply v).pbSize = s.pbSize := rfl
@[simp] theorem State.reply_agenda (s : State) (v : Word) : (s.reply v).agenda = s.agenda := rfl
@[simp] theorem State.reply_pace (s : State) (v : Word) : (s.reply v).pace = s.pace := rfl
@[simp] theorem State.reply_source (s : State) (v : Word) : (s.reply v).source = s.source := rfl
@[simp] theorem State.reply_sink (s : State) (v : Word) : (s.reply v).sink = s.sink := rfl
@[simp] theorem State.reply_out (s : State) (v : Word) : (s.reply v).out = s.out := rfl
@[simp] theorem State.reply_replies (s : State) (v : Word) :
    (s.reply v).replies = v :: s.replies := rfl
@[simp] theorem State.reply_draws (s : State) (v : Word) : (s.reply v).draws = s.draws := rfl

/-! ### A host read while BUSY (93_implementation_defined.md U1) -/

@[simp] theorem State.replyFree_params (s : State) (place : Nat) :
    (s.replyFree place).params = s.params := rfl
@[simp] theorem State.replyFree_status (s : State) (place : Nat) :
    (s.replyFree place).status = s.status := rfl
@[simp] theorem State.replyFree_errinfo (s : State) (place : Nat) :
    (s.replyFree place).errinfo = s.errinfo := rfl
@[simp] theorem State.replyFree_inCount (s : State) (place : Nat) :
    (s.replyFree place).inCount = s.inCount := rfl
@[simp] theorem State.replyFree_outCount (s : State) (place : Nat) :
    (s.replyFree place).outCount = s.outCount := rfl
@[simp] theorem State.replyFree_hdrIn (s : State) (place : Nat) :
    (s.replyFree place).hdrIn = s.hdrIn := rfl
@[simp] theorem State.replyFree_hdrOut (s : State) (place : Nat) :
    (s.replyFree place).hdrOut = s.hdrOut := rfl
@[simp] theorem State.replyFree_pb (s : State) (place : Nat) : (s.replyFree place).pb = s.pb := rfl
@[simp] theorem State.replyFree_pbFree (s : State) (place : Nat) :
    (s.replyFree place).pbFree = s.pbFree := rfl
@[simp] theorem State.replyFree_pbDraw (s : State) (place : Nat) :
    (s.replyFree place).pbDraw = s.pbDraw := rfl
@[simp] theorem State.replyFree_seq (s : State) (place : Nat) :
    (s.replyFree place).seq = s.seq := rfl
@[simp] theorem State.replyFree_pbSize (s : State) (place : Nat) :
    (s.replyFree place).pbSize = s.pbSize := rfl
@[simp] theorem State.replyFree_agenda (s : State) (place : Nat) :
    (s.replyFree place).agenda = s.agenda := rfl
@[simp] theorem State.replyFree_pace (s : State) (place : Nat) :
    (s.replyFree place).pace = s.pace := rfl
@[simp] theorem State.replyFree_source (s : State) (place : Nat) :
    (s.replyFree place).source = s.source := rfl
@[simp] theorem State.replyFree_sink (s : State) (place : Nat) :
    (s.replyFree place).sink = s.sink := rfl
@[simp] theorem State.replyFree_out (s : State) (place : Nat) :
    (s.replyFree place).out = s.out := rfl
@[simp] theorem State.replyFree_replies (s : State) (place : Nat) :
    (s.replyFree place).replies = (Config.freeByte s.draws place).setWidth 32 :: s.replies := rfl
@[simp] theorem State.replyFree_draws (s : State) (place : Nat) :
    (s.replyFree place).draws = s.draws + 1 := rfl

/-! ### SEQ -/

@[simp] theorem Sequencer.moveTo_idle (cur : Cursor) : Sequencer.idle.moveTo cur = .idle := rfl
@[simp] theorem Sequencer.moveTo_error (cur : Cursor) : Sequencer.error.moveTo cur = .error := rfl
@[simp] theorem Sequencer.moveTo_run (cmd : Command) (plan : Option Plan) (old cur : Cursor) :
    (Sequencer.run cmd plan old).moveTo cur = .run cmd plan cur := rfl

/-! ### Error entry (60_exceptions.md R186, R188) -/

/-- `spoil` writes nothing but HDR_IN, PB, the record of its free bytes and the draw number. -/
theorem State.spoil_eq (s : State) : s.spoil = { s with
    hdrIn := s.spoil.hdrIn, pb := s.spoil.pb, pbFree := s.spoil.pbFree, draws := s.spoil.draws } := by
  unfold State.spoil
  split <;> try rfl
  split <;> first | rfl | (split <;> rfl)

@[simp] theorem State.spoil_params (s : State) : s.spoil.params = s.params := by rw [s.spoil_eq]
@[simp] theorem State.spoil_status (s : State) : s.spoil.status = s.status := by rw [s.spoil_eq]
@[simp] theorem State.spoil_errinfo (s : State) : s.spoil.errinfo = s.errinfo := by rw [s.spoil_eq]
@[simp] theorem State.spoil_inCount (s : State) : s.spoil.inCount = s.inCount := by rw [s.spoil_eq]
@[simp] theorem State.spoil_outCount (s : State) : s.spoil.outCount = s.outCount := by rw [s.spoil_eq]
@[simp] theorem State.spoil_hdrOut (s : State) : s.spoil.hdrOut = s.hdrOut := by rw [s.spoil_eq]
@[simp] theorem State.spoil_pbDraw (s : State) : s.spoil.pbDraw = s.pbDraw := by rw [s.spoil_eq]
@[simp] theorem State.spoil_seq (s : State) : s.spoil.seq = s.seq := by rw [s.spoil_eq]
@[simp] theorem State.spoil_pbSize (s : State) : s.spoil.pbSize = s.pbSize := by rw [s.spoil_eq]
@[simp] theorem State.spoil_agenda (s : State) : s.spoil.agenda = s.agenda := by rw [s.spoil_eq]
@[simp] theorem State.spoil_pace (s : State) : s.spoil.pace = s.pace := by rw [s.spoil_eq]
@[simp] theorem State.spoil_source (s : State) : s.spoil.source = s.source := by rw [s.spoil_eq]
@[simp] theorem State.spoil_sink (s : State) : s.spoil.sink = s.sink := by rw [s.spoil_eq]
@[simp] theorem State.spoil_out (s : State) : s.spoil.out = s.out := by rw [s.spoil_eq]
@[simp] theorem State.spoil_replies (s : State) : s.spoil.replies = s.replies := by rw [s.spoil_eq]

@[simp] theorem State.raise_params (s : State) (e : ErrorCode) : (s.raise e).params = s.params :=
  s.spoil_params
@[simp] theorem State.raise_status (s : State) (e : ErrorCode) : (s.raise e).status = statusErr :=
  rfl
@[simp] theorem State.raise_errinfo (s : State) (e : ErrorCode) : (s.raise e).errinfo = errinfoOf e s.seq.stage :=
  rfl
@[simp] theorem State.raise_inCount (s : State) (e : ErrorCode) : (s.raise e).inCount = s.inCount :=
  s.spoil_inCount
@[simp] theorem State.raise_outCount (s : State) (e : ErrorCode) : (s.raise e).outCount = s.outCount :=
  s.spoil_outCount
@[simp] theorem State.raise_hdrIn (s : State) (e : ErrorCode) : (s.raise e).hdrIn = s.spoil.hdrIn :=
  rfl
@[simp] theorem State.raise_hdrOut (s : State) (e : ErrorCode) : (s.raise e).hdrOut = s.hdrOut :=
  s.spoil_hdrOut
@[simp] theorem State.raise_pb (s : State) (e : ErrorCode) : (s.raise e).pb = s.spoil.pb := rfl
@[simp] theorem State.raise_pbFree (s : State) (e : ErrorCode) : (s.raise e).pbFree = s.spoil.pbFree :=
  rfl
@[simp] theorem State.raise_pbDraw (s : State) (e : ErrorCode) : (s.raise e).pbDraw = s.pbDraw :=
  s.spoil_pbDraw
@[simp] theorem State.raise_seq (s : State) (e : ErrorCode) : (s.raise e).seq = .error := rfl
@[simp] theorem State.raise_pbSize (s : State) (e : ErrorCode) : (s.raise e).pbSize = s.pbSize :=
  s.spoil_pbSize
@[simp] theorem State.raise_agenda (s : State) (e : ErrorCode) : (s.raise e).agenda = s.agenda :=
  s.spoil_agenda
@[simp] theorem State.raise_pace (s : State) (e : ErrorCode) : (s.raise e).pace = s.pace :=
  s.spoil_pace
@[simp] theorem State.raise_source (s : State) (e : ErrorCode) : (s.raise e).source = s.source :=
  s.spoil_source
@[simp] theorem State.raise_sink (s : State) (e : ErrorCode) : (s.raise e).sink = s.sink :=
  s.spoil_sink
@[simp] theorem State.raise_out (s : State) (e : ErrorCode) : (s.raise e).out = s.out := s.spoil_out
@[simp] theorem State.raise_replies (s : State) (e : ErrorCode) : (s.raise e).replies = s.replies :=
  s.spoil_replies
@[simp] theorem State.raise_draws (s : State) (e : ErrorCode) : (s.raise e).draws = s.spoil.draws :=
  rfl

/-- An error in a stage that spoils nothing changes ERRINFO, STATUS and SEQ only. -/
theorem State.raise_eq_enterError (s : State) (e : ErrorCode) (h : s.spoil = s) :
    s.raise e = s.enterError e s.seq.stage := by rw [State.raise, h]

end Sys2Proof.Machine
end

