-- ==== Sys2Proof/Laws/Memory.lean ====
section
/-!
SUPPORT. PB: what a read gives after a write, a block write and a clear, and that each of them keeps
the canonical form (20_memory.md R40; log 15). No law about reads needs the canonical form.
-/

namespace Sys2Proof.Machine

/-! ### Reads of one byte -/

@[simp] theorem Memory.get?_nil (x : Nat) : Memory.get? [] x = none := rfl

theorem Memory.get?_set (m : Memory) (a x : Nat) (b : Byte) :
    (m.set a b).get? x = if x = a then some b else m.get? x := by
  induction m with
  | nil => simp only [Memory.set, Memory.get?]; split_ifs <;> first | rfl | omega
  | cons y m ih =>
    obtain ⟨k, c⟩ := y
    simp only [Memory.set]
    split_ifs <;> simp only [Memory.get?, ih] <;> split_ifs <;> first | rfl | omega

@[simp] theorem Memory.get?_set_same (m : Memory) (a : Nat) (b : Byte) :
    (m.set a b).get? a = some b := by simp [Memory.get?_set]

theorem Memory.get?_set_other (m : Memory) {a x : Nat} (b : Byte) (h : x ≠ a) :
    (m.set a b).get? x = m.get? x := by simp [Memory.get?_set, h]

@[simp] theorem Memory.setBlock_nil (m : Memory) (a : Nat) : m.setBlock a [] = m := by
  cases m <;> rfl

@[simp] theorem Memory.setBlock_cons (m : Memory) (a : Nat) (b : Byte) (bs : List Byte) :
    m.setBlock a (b :: bs) = (m.set a b).setBlock (a + 1) bs := by cases m <;> rfl

theorem Memory.setBlock_append (m : Memory) (a : Nat) (xs ys : List Byte) :
    m.setBlock a (xs ++ ys) = (m.setBlock a xs).setBlock (a + xs.length) ys := by
  induction xs generalizing m a with
  | nil => simp
  | cons b xs ih =>
    simp only [List.cons_append, Memory.setBlock_cons, ih, List.length_cons]
    congr 1; omega

/-- A block write gives each byte of the block its value and leaves every other byte. -/
theorem Memory.get?_setBlock (m : Memory) (a x : Nat) (v : List Byte) :
    (m.setBlock a v).get? x = if a ≤ x ∧ x < a + v.length then v[x - a]? else m.get? x := by
  induction v generalizing m a with
  | nil => rw [Memory.setBlock_nil, if_neg (by simp)]
  | cons b v ih =>
    rw [Memory.setBlock_cons, ih, Memory.get?_set, List.length_cons]
    obtain h | rfl | h := lt_trichotomy x a
    · rw [if_neg (by omega), if_neg (by omega), if_neg (by omega)]
    · simp
    · obtain ⟨k, rfl⟩ : ∃ k, x = a + 1 + k := ⟨x - a - 1, by omega⟩
      have e1 : a + 1 + k - (a + 1) = k := by omega
      have e2 : a + 1 + k - a = k + 1 := by omega
      rw [if_neg (by omega : ¬ a + 1 + k = a), e1, e2, List.getElem?_cons_succ]
      congr 1
      exact propext (by omega)

/-- Clearing a region takes the value of each byte of it and leaves every other byte. -/
theorem Memory.get?_clear (m : Memory) (base len x : Nat) :
    (m.clear base len).get? x = if base ≤ x ∧ x < base + len then none else m.get? x := by
  induction m with
  | nil => simp [Memory.clear]
  | cons y m ih =>
    obtain ⟨k, c⟩ := y
    simp only [Memory.clear] at ih ⊢
    rw [List.filter_cons]
    split_ifs at ih ⊢ <;> simp_all [Memory.get?]
    all_goals intros; subst_vars; omega

/-! ### The canonical form -/

theorem Memory.mem_set {m : Memory} {a : Nat} {b : Byte} {e : Host.Cell} (h : e ∈ m.set a b) :
    e.1 = a ∨ e ∈ m := by
  induction m with
  | nil => simp_all [Memory.set]
  | cons y m ih =>
    obtain ⟨k, c⟩ := y
    simp only [Memory.set] at h
    split_ifs at h
    · simp only [List.mem_cons] at h ⊢; rcases h with rfl | h | h <;> simp [*]
    · simp only [List.mem_cons] at h ⊢; rcases h with rfl | h <;> simp [*]
    · simp only [List.mem_cons] at h ⊢
      rcases h with rfl | h
      · simp
      · rcases ih h with h | h <;> simp [*]

theorem Memory.wf_set {m : Memory} (h : m.wf) (a : Nat) (b : Byte) : (m.set a b).wf := by
  induction m with
  | nil => simp [Memory.set, Memory.wf]
  | cons y m ih =>
    obtain ⟨k, c⟩ := y
    obtain ⟨h1, h2⟩ := List.pairwise_cons.mp h
    simp only [Memory.set]
    split_ifs with c1 c2
    · refine List.pairwise_cons.mpr ⟨fun e he => ?_, h⟩
      rcases List.mem_cons.mp he with rfl | he
      · exact c1
      · exact lt_trans c1 (h1 e he)
    · subst c2; exact List.pairwise_cons.mpr ⟨h1, h2⟩
    · refine List.pairwise_cons.mpr ⟨fun e he => ?_, ih h2⟩
      rcases Memory.mem_set he with he | he
      · simp only [he]; omega
      · exact h1 e he

theorem Memory.wf_setBlock {m : Memory} (h : m.wf) (a : Nat) (v : List Byte) :
    (m.setBlock a v).wf := by
  induction v generalizing m a with
  | nil => simpa using h
  | cons b v ih => simpa using ih (Memory.wf_set h a b) (a + 1)

theorem Memory.wf_clear {m : Memory} (h : m.wf) (base len : Nat) : (m.clear base len).wf :=
  List.Pairwise.filter _ h

theorem Memory.mem_setBlock {m : Memory} {a : Nat} {v : List Byte} {e : Host.Cell}
    (h : e ∈ m.setBlock a v) : (a ≤ e.1 ∧ e.1 < a + v.length) ∨ e ∈ m := by
  induction v generalizing m a with
  | nil => exact .inr (by simpa using h)
  | cons b v ih =>
    rw [Memory.setBlock_cons] at h
    rw [List.length_cons]
    rcases ih h with h | h
    · exact .inl (by omega)
    · rcases Memory.mem_set h with h | h
      · exact .inl (by omega)
      · exact .inr h

theorem Memory.mem_clear {m : Memory} {base len : Nat} {e : Host.Cell}
    (h : e ∈ m.clear base len) : e ∈ m := List.mem_of_mem_filter h

theorem Memory.get?_eq_none_of_lt {m : Memory} {x : Nat} (h : ∀ e ∈ m, x < e.1) :
    m.get? x = none := by
  induction m with
  | nil => rfl
  | cons y m ih =>
    have := h y (by simp)
    simp only [Memory.get?]
    rw [if_neg (by omega), ih fun e he => h e (by simp [he])]

/-- Memories in canonical form with the same reads are the same data. -/
theorem Memory.ext_of_wf {m n : Memory} (hm : m.wf) (hn : n.wf)
    (h : ∀ x, m.get? x = n.get? x) : m = n := by
  induction m generalizing n with
  | nil =>
    cases n with
    | nil => rfl
    | cons z n => have := h z.1; simp [Memory.get?] at this
  | cons y m ih =>
    cases n with
    | nil => have := h y.1; simp [Memory.get?] at this
    | cons z n =>
      obtain ⟨hm1, hm2⟩ := List.pairwise_cons.mp hm
      obtain ⟨hn1, hn2⟩ := List.pairwise_cons.mp hn
      have key : y.1 = z.1 := by
        rcases lt_trichotomy y.1 z.1 with c | c | c
        · have e := h y.1
          rw [Memory.get?_eq_none_of_lt (m := z :: n)] at e
          · simp [Memory.get?] at e
          · intro e he; rcases List.mem_cons.mp he with rfl | he
            · exact c
            · exact lt_trans c (hn1 e he)
        · exact c
        · have e := h z.1
          rw [Memory.get?_eq_none_of_lt (m := y :: m)] at e
          · simp [Memory.get?] at e
          · intro e he; rcases List.mem_cons.mp he with rfl | he
            · exact c
            · exact lt_trans c (hm1 e he)
      obtain ⟨k, b⟩ := y
      obtain ⟨k', c⟩ := z
      obtain rfl : k = k' := key
      have e := h k
      simp only [Memory.get?, if_true, Option.some.injEq] at e
      subst e
      rw [ih hm2 hn2 fun x => ?_]
      by_cases hx : k = x
      · subst hx
        rw [Memory.get?_eq_none_of_lt hm1, Memory.get?_eq_none_of_lt hn1]
      · have := h x
        simpa [Memory.get?, hx] using this

/-! ### Reads of PB -/

/-- What PB reads after a write: the bytes written, and every other byte as before. -/
theorem State.pbByte_memWrite (s : State) (a x : Nat) (v : List Byte) :
    (s.memWrite a v).pbByte x =
      if h : a ≤ x ∧ x < a + v.length then v[x - a] else s.pbByte x := by
  unfold State.pbByte
  rw [State.memWrite_pb, Memory.get?_setBlock]
  by_cases h : a ≤ x ∧ x < a + v.length
  · rw [if_pos h, dif_pos h, List.getElem?_eq_getElem (by omega)]
  · rw [if_neg h, dif_neg h]; rfl

/-- What PB reads after a region became unspecified: new free values, and every other byte as
before. -/
theorem State.pbByte_freePb (s : State) (base len x : Nat) :
    (s.freePb base len).pbByte x =
      if base ≤ x ∧ x < base + len then Config.freeByte s.draws x else s.pbByte x := by
  unfold State.pbByte
  rw [State.freePb_pb, State.freePb_pbFree, State.freePb_pbDraw, Memory.get?_clear]
  by_cases h : base ≤ x ∧ x < base + len
  · simp [h, freeDraw]
  · rw [if_neg h, if_neg h]; simp only [freeDraw, if_neg h]

/-- PB reads depend on three fields alone. -/
theorem State.pbByte_congr {s t : State} (h1 : t.pb = s.pb) (h2 : t.pbFree = s.pbFree)
    (h3 : t.pbDraw = s.pbDraw) (x : Nat) : t.pbByte x = s.pbByte x := by
  simp only [State.pbByte, h1, h2, h3]

@[simp] theorem State.memRead_length (s : State) (a n : Nat) : (s.memRead a n).length = n := by
  simp [State.memRead]

theorem State.getElem_memRead (s : State) (a n k : Nat) (h : k < (s.memRead a n).length) :
    (s.memRead a n)[k] = s.pbByte (a + k) := by simp [State.memRead]

@[simp] theorem State.memWrite_nil (s : State) (a : Nat) : s.memWrite a [] = s := by
  simp [State.memWrite]

theorem State.memWrite_append (s : State) (a : Nat) (xs ys : List Byte) :
    s.memWrite a (xs ++ ys) = (s.memWrite a xs).memWrite (a + xs.length) ys := by
  simp [State.memWrite, Memory.setBlock_append]

/-- Reading back a block just written. -/
theorem State.memRead_memWrite (s : State) (a : Nat) (v : List Byte) :
    (s.memWrite a v).memRead a v.length = v := by
  refine List.ext_getElem (by simp) fun k h1 h2 => ?_
  rw [State.getElem_memRead, State.pbByte_memWrite, dif_pos (by omega)]
  congr 1; omega

end Sys2Proof.Machine
end

