-- ==== Sys2Proof/Laws/Streams.lean ====
section
/-!
SUPPORT. The ports: what `takeN` gives on a stream of bytes, on one that ends early, and in general,
and the same for `putN` (00_scope.md R7; 10_state.md R23, R24).
-/

namespace Sys2Proof.Machine

/-! ### Answers -/

@[simp] theorem bytesOf_nil : bytesOf [] = [] := rfl
@[simp] theorem bytesOf_cons (b : Byte) (bs : List Byte) :
    bytesOf (b :: bs) = .byte b :: bytesOf bs := rfl
@[simp] theorem bytesOf_append (xs ys : List Byte) :
    bytesOf (xs ++ ys) = bytesOf xs ++ bytesOf ys := by simp [bytesOf]
@[simp] theorem bytesOf_length (bs : List Byte) : (bytesOf bs).length = bs.length := by
  simp [bytesOf]
@[simp] theorem byteCount_nil : byteCount [] = 0 := rfl
@[simp] theorem byteCount_append (p q : List InAnswer) :
    byteCount (p ++ q) = byteCount p + byteCount q := by simp [byteCount]
@[simp] theorem byteCount_bytesOf (bs : List Byte) : byteCount (bytesOf bs) = bs.length := by
  induction bs with
  | nil => rfl
  | cons b bs ih => simpa [byteCount] using ih
@[simp] theorem acks_zero : acks 0 = [] := rfl
theorem acks_succ (n : Nat) : acks (n + 1) = .ack :: acks n := rfl
theorem acks_add (m n : Nat) : acks (m + n) = acks m ++ acks n := by
  simp [acks, List.replicate_append_replicate]
@[simp] theorem acks_length (n : Nat) : (acks n).length = n := by simp [acks]

/-! ### Taking bytes -/

@[simp] theorem takeN_zero (q : List InAnswer) : takeN 0 q = ⟨[], q, .full⟩ := by cases q <;> rfl
@[simp] theorem takeN_succ_nil (n : Nat) : takeN (n + 1) [] = ⟨[], [], .hold⟩ := rfl
@[simp] theorem takeN_succ_eos (n : Nat) (q : List InAnswer) :
    takeN (n + 1) (.eos :: q) = ⟨[], q, .eos⟩ := rfl
@[simp] theorem takeN_succ_fail (n : Nat) (q : List InAnswer) :
    takeN (n + 1) (.fail :: q) = ⟨[], q, .failed⟩ := rfl
theorem takeN_succ_byte (n : Nat) (b : Byte) (q : List InAnswer) :
    takeN (n + 1) (.byte b :: q) =
      ⟨b :: (takeN n q).bytes, (takeN n q).left, (takeN n q).ending⟩ := rfl

/-- Bytes that are ready are taken in order; the rest of the request then meets what follows. -/
theorem takeN_bytesOf_append (bs : List Byte) (n : Nat) (q : List InAnswer) :
    takeN (bs.length + n) (bytesOf bs ++ q) =
      ⟨bs ++ (takeN n q).bytes, (takeN n q).left, (takeN n q).ending⟩ := by
  induction bs with
  | nil => simp
  | cons b bs ih =>
    have e : (b :: bs).length + n = (bs.length + n) + 1 := by simp; omega
    rw [e, bytesOf_cons, List.cons_append, takeN_succ_byte, ih]; rfl

/-- A request that is met in full. -/
theorem takeN_bytesOf (bs : List Byte) (q : List InAnswer) :
    takeN bs.length (bytesOf bs ++ q) = ⟨bs, q, .full⟩ := by
  simpa using takeN_bytesOf_append bs 0 q

/-- A request the source answers `End` (or `Fail`) before its last byte. -/
theorem takeN_short (bs : List Byte) (n : Nat) (q : List InAnswer) (eos : Bool)
    (h : bs.length < n) :
    takeN n (bytesOf bs ++ (if eos then InAnswer.eos else InAnswer.fail) :: q) =
      ⟨bs, q, if eos then .eos else .failed⟩ := by
  obtain ⟨k, rfl⟩ : ∃ k, n = bs.length + (k + 1) := ⟨n - bs.length - 1, by omega⟩
  rw [takeN_bytesOf_append]
  cases eos <;> simp

/-- Everything `takeN` can do: the bytes come from the front of the queue, none skipped; a full
request has its length, a held one has emptied the queue, and a failed one has used one answer more. -/
theorem takeN_cases (n : Nat) (q : List InAnswer) :
    ((takeN n q).ending = .full ∧ (takeN n q).bytes.length = n ∧
      q = bytesOf (takeN n q).bytes ++ (takeN n q).left) ∨
    ((takeN n q).ending = .hold ∧ (takeN n q).bytes.length < n ∧ (takeN n q).left = [] ∧
      q = bytesOf (takeN n q).bytes) ∨
    ((takeN n q).ending = .eos ∧ (takeN n q).bytes.length < n ∧
      q = bytesOf (takeN n q).bytes ++ .eos :: (takeN n q).left) ∨
    ((takeN n q).ending = .failed ∧ (takeN n q).bytes.length < n ∧
      q = bytesOf (takeN n q).bytes ++ .fail :: (takeN n q).left) := by
  induction n generalizing q with
  | zero => simp
  | succ n ih =>
    match q with
    | [] => simp
    | .eos :: q => simp
    | .fail :: q => simp
    | .byte b :: q =>
      rw [takeN_succ_byte]
      simpa using ih q

/-- A request with more answers behind it: what it gives where it was not held is the same, with the
further answers left behind. -/
theorem takeN_append (n : Nat) (q r : List InAnswer) (h : (takeN n q).ending ≠ .hold) :
    takeN n (q ++ r) = ⟨(takeN n q).bytes, (takeN n q).left ++ r, (takeN n q).ending⟩ := by
  induction n generalizing q with
  | zero => simp
  | succ n ih =>
    match q with
    | [] => simp at h
    | .eos :: q => simp
    | .fail :: q => simp
    | .byte b :: q =>
      rw [takeN_succ_byte] at h
      rw [List.cons_append, takeN_succ_byte, takeN_succ_byte, ih q h]

/-- A held request with more answers behind it goes on with them where it stood. -/
theorem takeN_append_of_hold (n : Nat) (q r : List InAnswer) (h : (takeN n q).ending = .hold) :
    takeN n (q ++ r) =
      ⟨(takeN n q).bytes ++ (takeN (n - (takeN n q).bytes.length) r).bytes,
        (takeN (n - (takeN n q).bytes.length) r).left,
        (takeN (n - (takeN n q).bytes.length) r).ending⟩ := by
  induction n generalizing q with
  | zero => simp at h
  | succ n ih =>
    match q with
    | [] => simp
    | .eos :: q => simp at h
    | .fail :: q => simp at h
    | .byte b :: q =>
      rw [takeN_succ_byte] at h
      rw [List.cons_append, takeN_succ_byte, takeN_succ_byte, ih q h]
      simp

/-! ### Giving bytes -/

@[simp] theorem putN_nil (q : List OutAnswer) : putN [] q = ⟨[], [], q, .full⟩ := by
  cases q <;> rfl
@[simp] theorem putN_cons_nil (b : Byte) (bs : List Byte) :
    putN (b :: bs) [] = ⟨[], b :: bs, [], .hold⟩ := rfl
@[simp] theorem putN_cons_fail (b : Byte) (bs : List Byte) (q : List OutAnswer) :
    putN (b :: bs) (.fail :: q) = ⟨[], b :: bs, q, .failed⟩ := rfl
theorem putN_cons_ack (b : Byte) (bs : List Byte) (q : List OutAnswer) :
    putN (b :: bs) (.ack :: q) =
      ⟨b :: (putN bs q).sent, (putN bs q).unsent, (putN bs q).left, (putN bs q).ending⟩ := rfl

/-- Acknowledgements that are ready let as many bytes go; the rest meets what follows. -/
theorem putN_acks_append (xs ys : List Byte) (q : List OutAnswer) :
    putN (xs ++ ys) (acks xs.length ++ q) =
      ⟨xs ++ (putN ys q).sent, (putN ys q).unsent, (putN ys q).left, (putN ys q).ending⟩ := by
  induction xs with
  | nil => simp
  | cons b xs ih =>
    rw [List.length_cons, acks_succ, List.cons_append, List.cons_append, putN_cons_ack, ih]; rfl

/-- All bytes acknowledged. -/
theorem putN_acks (bs : List Byte) (q : List OutAnswer) :
    putN bs (acks bs.length ++ q) = ⟨bs, [], q, .full⟩ := by
  simpa using putN_acks_append bs [] q

/-- The sink answers `Fail` after `n` acknowledgements. -/
theorem putN_short (bs : List Byte) (n : Nat) (q : List OutAnswer) (h : n < bs.length) :
    putN bs (acks n ++ .fail :: q) = ⟨bs.take n, bs.drop n, q, .failed⟩ := by
  have key := putN_acks_append (bs.take n) (bs.drop n) (.fail :: q)
  rw [List.take_append_drop, List.length_take, Nat.min_eq_left h.le] at key
  obtain ⟨b, rest, e⟩ : ∃ b rest, bs.drop n = b :: rest := ⟨_, _, List.drop_eq_getElem_cons h⟩
  rw [key, e]
  simp

/-- Everything `putN` can do: the bytes sent and those not sent are the bytes given, in order. -/
theorem putN_cases (bs : List Byte) (q : List OutAnswer) :
    bs = (putN bs q).sent ++ (putN bs q).unsent ∧
    (((putN bs q).ending = .full ∧ (putN bs q).unsent = [] ∧
        q = acks bs.length ++ (putN bs q).left) ∨
      ((putN bs q).ending = .hold ∧ (putN bs q).unsent ≠ [] ∧ (putN bs q).left = [] ∧
        q = acks (putN bs q).sent.length) ∨
      ((putN bs q).ending = .failed ∧ (putN bs q).unsent ≠ [] ∧
        q = acks (putN bs q).sent.length ++ .fail :: (putN bs q).left)) := by
  induction bs generalizing q with
  | nil => simp
  | cons b bs ih =>
    match q with
    | [] => simp
    | .fail :: q => simp
    | .ack :: q =>
      rw [putN_cons_ack]
      simpa [acks_succ] using ih q

/-- Bytes offered with more answers behind: where they were not held nothing changes. -/
theorem putN_append (bs : List Byte) (q r : List OutAnswer) (h : (putN bs q).ending ≠ .hold) :
    putN bs (q ++ r) =
      ⟨(putN bs q).sent, (putN bs q).unsent, (putN bs q).left ++ r, (putN bs q).ending⟩ := by
  induction bs generalizing q with
  | nil => simp
  | cons b bs ih =>
    match q with
    | [] => simp at h
    | .fail :: q => simp
    | .ack :: q =>
      rw [putN_cons_ack] at h
      rw [List.cons_append, putN_cons_ack, putN_cons_ack, ih q h]

/-- Held bytes with more answers behind go on with them where they stood. -/
theorem putN_append_of_hold (bs : List Byte) (q r : List OutAnswer)
    (h : (putN bs q).ending = .hold) :
    putN bs (q ++ r) =
      ⟨(putN bs q).sent ++ (putN (putN bs q).unsent r).sent, (putN (putN bs q).unsent r).unsent,
        (putN (putN bs q).unsent r).left, (putN (putN bs q).unsent r).ending⟩ := by
  induction bs generalizing q with
  | nil => simp at h
  | cons b bs ih =>
    match q with
    | [] => simp
    | .fail :: q => simp at h
    | .ack :: q =>
      rw [putN_cons_ack] at h
      rw [List.cons_append, putN_cons_ack, putN_cons_ack, ih q h]
      simp

end Sys2Proof.Machine
end

