-- ==== Sys2Proof/Laws/Engine.lean ====
section
/-!
SUPPORT. The engine: the status bits, how a stage goes on by the port's answer, the driver, what
acceptance gives, and what `exec` of each kind of instruction is.
-/

namespace Sys2Proof.Machine

/-! ### STATUS (10_state.md R16) -/

theorem State.isIdle_iff (s : State) : s.isIdle = true ↔ s.busy = false ∧ s.err = false := by
  simp [State.isIdle]

/-- BUSY depends on STATUS alone. -/
theorem State.busy_eq (s : State) : s.busy = s.status.getLsbD 0 := rfl
theorem State.err_eq (s : State) : s.err = s.status.getLsbD 2 := rfl

@[simp] theorem State.busy_accept (s : State) (cmd : Command) : (s.accept cmd).busy = true := by
  simp [State.busy, statusBusy]
@[simp] theorem State.isIdle_complete (s : State) : s.complete.isIdle = true := by
  simp [State.isIdle, State.busy, State.err, statusDone]
@[simp] theorem State.isIdle_raise (s : State) (e : ErrorCode) : (s.raise e).isIdle = false := by
  simp [State.isIdle, State.err, statusErr]
@[simp] theorem State.err_raise (s : State) (e : ErrorCode) : (s.raise e).err = true := by
  simp [State.err, statusErr]
@[simp] theorem State.isIdle_softReset (s : State) : s.softReset.isIdle = true := by
  simp [State.isIdle, State.busy, State.err, statusNone]

/-! ### How a stage goes on (60_exceptions.md R183) -/

@[simp] theorem State.onTaken_full (s : State) (e : ErrorCode) (t : State) (cur : Cursor) :
    s.onTaken .full e t cur = t := rfl
@[simp] theorem State.onTaken_hold (s : State) (e : ErrorCode) (t : State) (cur : Cursor) :
    s.onTaken .hold e t cur = s.moveTo cur := rfl
@[simp] theorem State.onTaken_eos (s : State) (e : ErrorCode) (t : State) (cur : Cursor) :
    s.onTaken .eos e t cur = s.raise e := rfl
@[simp] theorem State.onTaken_failed (s : State) (e : ErrorCode) (t : State) (cur : Cursor) :
    s.onTaken .failed e t cur = s.raise .ioError := rfl
@[simp] theorem State.onGiven_full (s : State) (t : State) (cur : Cursor) :
    s.onGiven .full t cur = t := rfl
@[simp] theorem State.onGiven_hold (s : State) (t : State) (cur : Cursor) :
    s.onGiven .hold t cur = s.moveTo cur := rfl
@[simp] theorem State.onGiven_failed (s : State) (t : State) (cur : Cursor) :
    s.onGiven .failed t cur = s.raise .writeFailed := rfl
@[simp] theorem State.checked_none (s : State) (cur : Cursor) : s.checked none cur = s.moveTo cur :=
  rfl
@[simp] theorem State.checked_some (s : State) (e : ErrorCode) (cur : Cursor) :
    s.checked (some e) cur = s.raise e := rfl

/-! ### The engine's step and the driver -/

theorem State.engineStep_run (s : State) {cmd : Command} {plan : Option Plan} {cur : Cursor}
    (h : s.seq = .run cmd plan cur) : s.engineStep = s.stageStep cmd cur := by
  simp [State.engineStep, h]

theorem State.ready_idle (s : State) (h : s.seq = .idle) : s.ready = false := by
  simp [State.ready, h, Sequencer.active]
theorem State.ready_error (s : State) (h : s.seq = .error) : s.ready = false := by
  simp [State.ready, h, Sequencer.active]

/-- When a running command's engine can move (10_state.md R23, R24). -/
theorem State.ready_run (s : State) {cmd : Command} {plan : Option Plan} {cur : Cursor}
    (h : s.seq = .run cmd plan cur) :
    s.ready = true ↔ cur.pending = .none ∨ (cur.pending = .input ∧ s.source ≠ []) ∨
      ((∃ b, cur.pending = .output b) ∧ s.sink ≠ []) := by
  simp only [State.ready, h, Sequencer.active, Sequencer.pending, Bool.true_and]
  cases cur.pending <;> simp

@[simp] theorem State.drive_zero (s : State) : s.drive 0 = s := rfl

theorem State.drive_succ (s : State) (n : Nat) (h : s.ready = true) :
    s.drive (n + 1) = s.engineStep.drive n := by simp [State.drive, h]

theorem State.drive_of_not_ready (s : State) (n : Nat) (h : s.ready = false) : s.drive n = s := by
  cases n <;> simp [State.drive, h]

theorem State.drive_add (s : State) (m n : Nat) : s.drive (m + n) = (s.drive m).drive n := by
  induction m generalizing s with
  | zero => simp
  | succ m ih =>
    cases h : s.ready
    · rw [s.drive_of_not_ready _ h, s.drive_of_not_ready _ h, s.drive_of_not_ready _ h]
    · have e : m + 1 + n = m + n + 1 := by omega
      rw [e, s.drive_succ _ h, s.drive_succ _ h, ih]

/-- Once the engine has come to a stop, more steps change nothing. -/
theorem State.drive_of_le (s : State) {m n : Nat} (h : m ≤ n) (hs : (s.drive m).ready = false) :
    s.drive n = s.drive m := by
  obtain ⟨k, rfl⟩ := Nat.le.dest h
  rw [s.drive_add, State.drive_of_not_ready _ _ hs]

/-- What every step of a ready engine keeps, the driver keeps. -/
theorem State.drive_keeps (P : State → Prop)
    (hP : ∀ s : State, s.ready = true → P s → P s.engineStep) (n : Nat) (s : State) (hs : P s) :
    P (s.drive n) := by
  induction n generalizing s with
  | zero => exact hs
  | succ n ih =>
    cases h : s.ready
    · rwa [s.drive_of_not_ready _ h]
    · rw [s.drive_succ _ h]; exact ih _ (hP s h hs)

/-- The same for the whole run of a command. -/
theorem State.settle_keeps (P : State → Prop)
    (hP : ∀ s : State, s.ready = true → P s → P s.engineStep) (s : State) (hs : P s) :
    P s.settle := State.drive_keeps P hP _ s hs

/-! ### Issuing (30_encoding.md R63) -/

theorem State.issue_runAhead (s : State) (cmd : Command) (h : s.isIdle = true)
    (hp : s.pace = .runAhead) : s.issue cmd = (s.accept cmd).settle := by
  simp [State.issue, h, hp]

theorem State.issue_stepwise (s : State) (cmd : Command) (h : s.isIdle = true)
    (hp : s.pace = .stepwise) : s.issue cmd = s.accept cmd := by simp [State.issue, h, hp]

theorem State.issue_dropped (s : State) (cmd : Command) (h : s.isIdle = false) :
    s.issue cmd = s := by simp [State.issue, h]

/-- The first engine step after acceptance is ISSUE, and it can always be taken. -/
theorem State.settle_accept (s : State) (cmd : Command) :
    (s.accept cmd).settle =
      ((s.accept cmd).issueStage cmd).drive (3 * s.source.length + s.sink.length + 15) := by
  unfold State.settle
  have h : (s.accept cmd).work = 3 * s.source.length + s.sink.length + 15 + 1 := rfl
  rw [h, State.drive_succ _ _ rfl]
  rfl

/-! ### `exec` -/

/-- A staged command is issued. -/
theorem exec_of_commandOf {i : Instr} {cmd : Command} (h : commandOf i = some cmd) (s : State) :
    exec i s = .next (s.issue cmd) := by
  cases i <;> simp only [commandOf, Option.some.injEq, reduceCtorEq] at h <;> subst h <;> rfl

/-- A command always answers a next state. -/
theorem exec_command_next {i : Instr} (h : i.isCommand = true) (s : State) :
    ∃ t, exec i s = .next t := by
  cases i <;> first | exact ⟨_, rfl⟩ | simp [Instr.isCommand] at h

/-- A chunk at a chunk boundary with bytes still to decode. -/
theorem State.execChunk_control (s : State) (kind : ChunkKind) (count : Nat) {cmd : Command}
    {plan : Option Plan} {d : Decoder} (h : s.seq = .run cmd plan (.decodeRle d .control))
    (hd : d.emitted < d.size) (hr : s.regionsInPb = true) :
    s.execChunk kind count = .next (s.runChunk d kind count) := by
  simp [State.execChunk, h, hd, hr]

/-- What a turn of the engine can answer. -/
theorem State.engineTurn_cases (s : State) :
    (s.ready = false ∧ s.engineTurn = .next s) ∨
    (s.ready = true ∧ s.regionsInPb = true ∧ s.engineTurn = .next s.engineStep) ∨
    (s.ready = true ∧ s.regionsInPb = false ∧ s.engineTurn = .fault .pbRange) := by
  unfold State.engineTurn
  cases s.ready <;> cases s.regionsInPb <;> simp

/-! ### The step -/

theorem step_nil (s : State) (h : s.agenda = []) : step s = s.engineTurn := by simp [step, h]

theorem step_cons (s : State) {e : Event} {es : List Event} (h : s.agenda = e :: es) :
    step s = handle e { s with agenda := es } := by simp [step, h]

end Sys2Proof.Machine
end

