-- ==== Sys2Proof/Laws/Operands.lean ====
section
/-!
SUPPORT. Operands: the checks as propositions, the bytes of a header record after a read and after a
derivation, the pixels of the codec buffer, and what a failing command leaves of PB.
-/

namespace Sys2Proof.Machine

/-! ### Checks -/

theorem bppOk_iff (bpp : Nat) : bppOk bpp = true ↔ bpp = 3 ∨ bpp = 4 := by simp [bppOk]

theorem dimOk_iff (d : Nat) : dimOk d = true ↔ 1 ≤ d ∧ d ≤ 32767 := by simp [dimOk]

/-- What the check of the raw codec can give (42_raw_codec.md R120). -/
theorem State.rawCheck_eq (s : State) :
    (s.bufInPb ∧ s.rawCheck = none) ∨ (¬ s.bufInPb ∧ s.rawCheck = some .bufferRange) := by
  unfold State.rawCheck State.bufInPb
  split_ifs with h
  · exact .inr ⟨by omega, rfl⟩
  · exact .inl ⟨by omega, rfl⟩

/-- What the checks of the run-length codec can give (41_rle_codec.md R101). -/
theorem State.rleCheck_eq (s : State) :
    ((s.params.bpp.toNat = 3 ∨ s.params.bpp.toNat = 4) ∧
        s.params.bufLen.toNat % s.params.bpp.toNat = 0 ∧ s.bufInPb ∧ s.rleCheck = none) ∨
    ((¬ (s.params.bpp.toNat = 3 ∨ s.params.bpp.toNat = 4) ∨
        s.params.bufLen.toNat % s.params.bpp.toNat ≠ 0) ∧ s.rleCheck = some .badParam) ∨
    ((s.params.bpp.toNat = 3 ∨ s.params.bpp.toNat = 4) ∧
        s.params.bufLen.toNat % s.params.bpp.toNat = 0 ∧ ¬ s.bufInPb ∧
        s.rleCheck = some .bufferRange) := by
  have hb := bppOk_iff s.params.bpp.toNat
  unfold State.rleCheck State.bufInPb
  cases h : bppOk s.params.bpp.toNat
  · rw [h] at hb; simp only [Bool.false_eq_true, false_iff] at hb
    exact .inr (.inl ⟨.inl hb, by simp⟩)
  · have hb := hb.mp h
    simp only [Bool.not_true, Bool.false_eq_true, if_false]
    split_ifs with h1 h2
    · exact .inr (.inl ⟨.inr h1, rfl⟩)
    · exact .inr (.inr ⟨hb, by omega, by omega, rfl⟩)
    · exact .inl ⟨hb, by omega, by omega, rfl⟩

/-- RESAMPLE's checks pass exactly on legal operands (43_resampler.md R130). -/
theorem Geometry.check_none_iff (g : Geometry) (pbSize : Nat) :
    g.check pbSize = none ↔ g.legal pbSize := by
  unfold Geometry.check Geometry.legal Geometry.srcBytes Geometry.dstBytes
  split_ifs with h1 h2 h3 h4 h5 <;> simp_all [bppOk, dimOk] <;> omega

/-- A decoded pixel size is not zero. -/
theorem Geometry.legal_pos {g : Geometry} {pbSize : Nat} (h : g.legal pbSize) :
    0 < g.bpp ∧ 0 < g.srcW ∧ 0 < g.srcH ∧ 0 < g.dstW ∧ 0 < g.dstH := by
  obtain ⟨h1, h2, h3, h4, h5, -⟩ := h
  omega

/-! ### Header records -/

/-- A header read puts the bytes taken at their places and leaves the rest (40_header.md R91). -/
theorem Header.getElem_store (h : Header) (k : Nat) (bs : List Byte) (j : Nat) (hj : j < 18) :
    (h.store k bs)[j] = if hb : k ≤ j ∧ j < k + bs.length then bs[j - k] else h[j] := by
  induction bs generalizing h k with
  | nil => rw [dif_neg (by simp)]; rfl
  | cons b bs ih =>
    have hs : (if hk : k < 18 then h.set k b else h)[j] = if j = k then b else h[j] := by
      by_cases hk : k < 18
      · simp only [hk, dite_true, Vector.getElem_set, eq_comm]
      · rw [if_neg (by omega)]; simp only [hk, dite_false]
    rw [Header.store, ih, hs]
    simp only [List.length_cons]
    obtain hlt | rfl | hgt := lt_trichotomy j k
    · rw [dif_neg (by omega), if_neg (by omega), dif_neg (by omega)]
    · rw [dif_neg (by omega), if_pos rfl, dif_pos (by omega)]
      simp
    · by_cases hb : j < k + 1 + bs.length
      · obtain ⟨m, rfl⟩ : ∃ m, j = k + 1 + m := ⟨j - k - 1, by omega⟩
        have e1 : k + 1 + m - (k + 1) = m := by omega
        have e2 : k + 1 + m - k = m + 1 := by omega
        rw [dif_pos (by omega), dif_pos (by omega)]
        simp only [e1, e2, List.getElem_cons_succ]
      · rw [dif_neg (by omega), if_neg (by omega), dif_neg (by omega)]

/-- Reading all 18 bytes of a record gives the record. -/
theorem Header.store_toList (h r : Header) : h.store 0 r.toList = r := by
  refine Vector.ext fun j hj => ?_
  rw [Header.getElem_store, dif_pos (by simp; omega)]
  simp

/-- Every byte of a derived header (40_header.md R92). -/
theorem Header.getElem_derive (h : Header) (width height : Half) (t : Byte) (j : Nat)
    (hj : j < 18) :
    (h.derive width height t)[j] =
      if j = 2 then t else if j = 12 then lo8 width else if j = 13 then hi8 width
      else if j = 14 then lo8 height else if j = 15 then hi8 height else h[j] := by
  simp only [Header.derive, Vector.getElem_set]
  split_ifs <;> first | rfl | omega

theorem lo8_toNat (n : Half) : (lo8 n).toNat = n.toNat % 256 := by simp [lo8]

theorem hi8_toNat (n : Half) : (hi8 n).toNat = n.toNat / 256 % 256 := by
  simp [hi8, Nat.shiftRight_eq_div_pow]

theorem le16_toNat (b0 b1 : Byte) : (le16 b0 b1).toNat = b0.toNat + 256 * b1.toNat := by
  have := b0.isLt
  rw [le16, BitVec.toNat_append, ← Nat.shiftLeft_add_eq_or_of_lt this, Nat.shiftLeft_eq]
  omega

/-! ### Pixels and regions -/

@[simp] theorem State.pixels_length (s : State) (base size bpp : Nat) :
    (s.pixels base size bpp).length = size / bpp := by simp [State.pixels]

theorem State.length_of_mem_pixels (s : State) {base size bpp : Nat} {p : Pixel}
    (h : p ∈ s.pixels base size bpp) : p.length = bpp := by
  simp only [State.pixels, List.mem_map] at h
  obtain ⟨k, -, rfl⟩ := h
  simp

@[simp] theorem destBytes_length (pb : Nat → Byte) (g : Geometry) :
    (destBytes pb g).length = g.dstBytes := by simp [destBytes]

/-- A standalone command that fails in DECODE frees its codec buffer; one that fails elsewhere leaves
PB as it was (60_exceptions.md R188). -/
theorem State.pbByte_raise (s : State) (e : ErrorCode) {cmd : Command} {cur : Cursor}
    (h : s.seq = .run cmd none cur) (x : Nat) :
    (s.raise e).pbByte x =
      match cur with
      | .decodeRaw base size _ => (s.freePb base size).pbByte x
      | .decodeRle d _ => (s.freePb d.base d.size).pbByte x
      | _ => s.pbByte x := by
  have key : (s.raise e).pbByte x = s.spoil.pbByte x :=
    State.pbByte_congr rfl rfl (by simp) x
  rw [key]
  cases s
  simp only at h
  subst h
  cases cur <;> rfl

end Sys2Proof.Machine
end

