-- ==== Sys2Proof/Laws/Convert.lean ====
section
/-!
SUPPORT. CONVERT's operands: the temporaries and the checks of VALIDATE in terms of the header's
bytes and CFG's number, and the derived header (44_pipeline.md R151 to R158, 40_header.md R92).
-/

namespace Sys2Proof.Machine

/-- A positive signed field is its bytes' number, at most 32767 (00_scope.md R6). -/
theorem s16_pos {b0 b1 : Byte} (h : 0 < s16 (le16 b0 b1)) :
    (s16 (le16 b0 b1)).toNat = b0.toNat + 256 * b1.toNat ∧ b0.toNat + 256 * b1.toNat ≤ 32767 := by
  have e := le16_toNat b0 b1
  have lt := (le16 b0 b1).isLt
  rw [s16, BitVec.toInt_eq_toNat_cond] at h ⊢
  split_ifs at h ⊢ <;> omega

theorem Header.width_pos {h : Header} (hw : 0 < h.width) :
    h.width.toNat = h.cols ∧ h.cols ≤ 32767 := s16_pos hw

theorem Header.height_pos {h : Header} (hh : 0 < h.height) :
    h.height.toNat = h.rows ∧ h.rows ≤ 32767 := s16_pos hh

theorem Params.half_iff (p : Params) : p.half = true ↔ p.cfg.toNat % 2 = 1 := by
  rw [Params.half, BitVec.getLsbD, Nat.testBit_zero, decide_eq_true_iff]

theorem Params.otype_toNat (p : Params) : p.otype.toNat = p.cfg.toNat / 2 := by
  have := p.cfg.isLt
  simp only [Params.otype, BitVec.extractLsb'_toNat, Nat.shiftRight_eq_div_pow]
  omega

theorem Params.otype_eq_iff (p : Params) (k : Nat) (hk : k < 4) :
    p.otype = BitVec.ofNat 2 k ↔ p.cfg.toNat / 2 = k := by
  rw [← p.otype_toNat, ← BitVec.toNat_inj, BitVec.toNat_ofNat, Nat.mod_eq_of_lt (by omega)]

/-- The output image-type (44_pipeline.md R158). -/
theorem outputType_eq (p : Params) (h : Header) :
    outputType p.otype h.imageType = p.outImageType h := by
  have h0 := p.otype_eq_iff 0 (by decide)
  have h1 := p.otype_eq_iff 1 (by decide)
  unfold outputType Params.outImageType Header.imageType
  simp only [show (0 : BitVec 2) = BitVec.ofNat 2 0 from rfl,
    show (1 : BitVec 2) = BitVec.ofNat 2 1 from rfl, h0, h1]

/-- CONVERT's temporaries for a header with positive dimensions. -/
theorem planOf_eq (p : Params) {h : Header} (hw : 0 < h.width) (hh : 0 < h.height) :
    planOf p h =
      { bpp := h.pixelBytes, srcW := h.cols, srcH := h.rows, dstW := p.outCols h
        dstH := p.outRows h, srcBytes := h.sourceLength, dstBytes := p.destLength h
        outType := p.outImageType h } := by
  have hp : p.half = true ↔ p.cfg.toNat % 2 = 1 := p.half_iff
  unfold planOf
  rw [(Header.width_pos hw).1, (Header.height_pos hh).1, outputType_eq]
  simp only [Params.outCols, Params.outRows, Header.sourceLength, Params.destLength,
    Header.pixelBytes, Header.bits, hp]

theorem Header.supported_iff (h : Header) :
    h.supported = true ↔ (h[2] = 2 ∨ h[2] = 3 ∨ h[2] = 10) ∧ h[1] = 0 ∧ (h[16] = 24 ∨ h[16] = 32) ∧
      0 < h.width ∧ 0 < h.height := by
  simp [Header.supported, Header.imageType, Header.cmap, Header.bits, and_assoc, or_assoc]

/-- VALIDATE lets pass exactly the convertible (44_pipeline.md R151 to R155). -/
theorem validateCheck_none_iff (p : Params) (h : Header) (pbSize : Nat)
    (hc : p.cfg.toNat / 2 ≠ 3) :
    validateCheck p h pbSize = none ↔ convertible p h pbSize := by
  unfold validateCheck
  cases hs : h.supported
  · simp only [Bool.not_false, if_true, reduceCtorEq, false_iff]
    rintro ⟨-, h1, h2, h3, hw, hh, -⟩
    rw [h.supported_iff.mpr ⟨h1, h2, h3, hw, hh⟩] at hs
    cases hs
  obtain ⟨h1, h2, h3, hw, hh⟩ := h.supported_iff.mp hs
  rw [planOf_eq p hw hh]
  simp only [Bool.not_true, Bool.false_eq_true, if_false]
  cases hd : dimOk (p.outCols h) && dimOk (p.outRows h)
  · simp only [Bool.not_false, if_true, reduceCtorEq, false_iff]
    rintro ⟨-, -, -, -, -, -, k1, k2, -⟩
    rw [(dimOk_iff _).mpr k1, (dimOk_iff _).mpr k2] at hd
    cases hd
  rw [Bool.and_eq_true, dimOk_iff, dimOk_iff] at hd
  simp only [Bool.not_true, Bool.false_eq_true, if_false]
  by_cases hr : pbSize < h.sourceLength + p.destLength h
  · rw [if_pos hr]
    simp only [reduceCtorEq, false_iff]
    rintro ⟨-, -, -, -, -, -, -, -, k⟩
    omega
  · rw [if_neg hr]
    exact ⟨fun _ => ⟨hc, h1, h2, h3, hw, hh, hd.1, hd.2, by omega⟩, fun _ => rfl⟩

/-- The header DRVHDR and CONVERT make (40_header.md R92). -/
theorem derivedHeader_derive (h : Header) (width height : Half) (t : Byte) :
    derivedHeader h (h.derive width height t) width.toNat height.toNat t := by
  have e1 := width.isLt
  have e2 := height.isLt
  refine ⟨?_, ?_, ?_, fun k hk h1 h2 => ?_⟩
  · rw [Header.getElem_derive]; rfl
  · rw [Header.getElem_derive, Header.getElem_derive]
    show (lo8 width).toNat + 256 * (hi8 width).toNat = _
    rw [lo8_toNat, hi8_toNat]; omega
  · rw [Header.getElem_derive, Header.getElem_derive]
    show (lo8 height).toNat + 256 * (hi8 height).toNat = _
    rw [lo8_toNat, hi8_toNat]; omega
  · rw [Header.getElem_derive, if_neg h1, if_neg (by omega), if_neg (by omega), if_neg (by omega),
      if_neg (by omega)]

/-! ### Free regions -/

/-- A region made unspecified is freed (60_exceptions.md R188). -/
theorem freedPb_freePb (s : State) (base len : Nat) : freedPb s (s.freePb base len) base len := by
  refine ⟨fun k hk => ?_, fun a ha => ?_⟩ <;> rw [State.pbByte_freePb]
  · rw [if_pos (by omega)]
  · rw [if_neg (by unfold outside at ha; omega)]

/-- A region freed after writes inside it alone is freed. -/
theorem freedPb_of_frame {s t u : State} {base len : Nat} (h : freedPb t u base len)
    (hd : t.draws = s.draws) (hf : ∀ a, outside base len a → t.pbByte a = s.pbByte a) :
    freedPb s u base len :=
  ⟨fun k hk => by rw [h.1 k hk, hd], fun a ha => (h.2 a ha).trans (hf a ha)⟩

end Sys2Proof.Machine
end

