-- ==== Sys2Proof/Laws/Fixed.lean ====
section
/-!
SUPPORT. What no step of the engine changes: the parameter registers (10_state.md R19), PB_SIZE, the
draw of the last hardware reset, and the environment's agenda, pace and replies.
-/

namespace Sys2Proof.Machine

/-- `t` has the fields of `s` that the engine never writes. -/
structure State.Fixed (s t : State) : Prop where
  params : t.params = s.params
  pbSize : t.pbSize = s.pbSize
  pbDraw : t.pbDraw = s.pbDraw
  agenda : t.agenda = s.agenda
  pace : t.pace = s.pace
  replies : t.replies = s.replies

namespace State.Fixed

theorem refl (s : State) : s.Fixed s := ⟨rfl, rfl, rfl, rfl, rfl, rfl⟩

theorem trans {s t u : State} (h : s.Fixed t) (k : t.Fixed u) : s.Fixed u :=
  ⟨k.1.trans h.1, k.2.trans h.2, k.3.trans h.3, k.4.trans h.4, k.5.trans h.5, k.6.trans h.6⟩

theorem accept (s : State) (cmd : Command) : s.Fixed (s.accept cmd) := ⟨rfl, rfl, rfl, rfl, rfl, rfl⟩
theorem complete (s : State) : s.Fixed s.complete := ⟨rfl, rfl, rfl, rfl, rfl, rfl⟩
theorem moveTo (s : State) (cur : Cursor) : s.Fixed (s.moveTo cur) := ⟨rfl, rfl, rfl, rfl, rfl, rfl⟩
theorem memWrite (s : State) (a : Nat) (v : List Byte) : s.Fixed (s.memWrite a v) :=
  ⟨rfl, rfl, rfl, rfl, rfl, rfl⟩
theorem afterTake (s : State) (t : Taken) : s.Fixed (s.afterTake t) := ⟨rfl, rfl, rfl, rfl, rfl, rfl⟩
theorem afterPut (s : State) (g : Given) : s.Fixed (s.afterPut g) := ⟨rfl, rfl, rfl, rfl, rfl, rfl⟩
theorem raise (s : State) (e : ErrorCode) : s.Fixed (s.raise e) := by constructor <;> simp

theorem checked (s : State) (c : Option ErrorCode) (cur : Cursor) : s.Fixed (s.checked c cur) := by
  cases c
  · exact moveTo s cur
  · exact raise s _

theorem onTaken {s next : State} (h : s.Fixed next) (ending : TakeEnd) (e : ErrorCode)
    (cur : Cursor) : s.Fixed (s.onTaken ending e next cur) := by
  cases ending
  · exact h
  · exact moveTo s cur
  · exact raise s e
  · exact raise s _

theorem onGiven {s next : State} (h : s.Fixed next) (ending : PutEnd) (cur : Cursor) :
    s.Fixed (s.onGiven ending next cur) := by
  cases ending
  · exact h
  · exact moveTo s cur
  · exact raise s _

theorem afterHdrRead (s : State) : s.Fixed s.afterHdrRead := by
  unfold State.afterHdrRead; split
  · exact moveTo s _
  · exact complete s
theorem afterDecode (s : State) : s.Fixed s.afterDecode := by
  unfold State.afterDecode; split
  · exact moveTo s _
  · exact complete s
theorem afterResample (s : State) : s.Fixed s.afterResample := by
  unfold State.afterResample; split
  · exact moveTo s _
  · exact complete s
theorem afterDerive (s : State) : s.Fixed s.afterDerive := by
  unfold State.afterDerive; split
  · exact moveTo s _
  · exact complete s
theorem afterHdrWrite (s : State) : s.Fixed s.afterHdrWrite := by
  unfold State.afterHdrWrite; split
  · exact moveTo s _
  · exact complete s

theorem chunkEnd (s : State) (d : Decoder) : s.Fixed (s.chunkEnd d) := by
  unfold State.chunkEnd; split
  · exact moveTo s _
  · exact afterDecode s

theorem rawRest (s : State) (d : Decoder) (left : Nat) : s.Fixed (s.rawRest d left) :=
  ((afterTake s _).trans (memWrite _ _ _)).trans (onTaken (chunkEnd _ _) _ _ _)

theorem chunkBody (s : State) (d : Decoder) (kind : ChunkKind) (count : Nat) (px : Pixel) :
    s.Fixed (s.chunkBody d kind count px) := by
  unfold State.chunkBody; split
  · exact raise s _
  · cases kind
    · exact (memWrite s _ _).trans (chunkEnd _ _)
    · exact (memWrite s _ _).trans (rawRest _ _ _)

theorem chunkPixel (s : State) (d : Decoder) (kind : ChunkKind) (count : Nat) (got : List Byte) :
    s.Fixed (s.chunkPixel d kind count got) :=
  (afterTake s _).trans (onTaken (chunkBody _ _ _ _ _) _ _ _)

theorem controlStage (s : State) (d : Decoder) : s.Fixed (s.controlStage d) := by
  unfold State.controlStage
  split
  · split
    · exact refl s
    · unfold decodeChunk
      split
      · refine trans ?_ (chunkPixel _ d .rep _ []); exact ⟨rfl, rfl, rfl, rfl, rfl, rfl⟩
      · refine trans ?_ (chunkPixel _ d .raw _ []); exact ⟨rfl, rfl, rfl, rfl, rfl, rfl⟩
    · refine trans ?_ (raise _ _); exact ⟨rfl, rfl, rfl, rfl, rfl, rfl⟩
    · refine trans ?_ (raise _ _); exact ⟨rfl, rfl, rfl, rfl, rfl, rfl⟩
  · exact afterDecode s

theorem issueStage (s : State) (cmd : Command) : s.Fixed (s.issueStage cmd) := by
  cases cmd <;> first | exact moveTo s _ | exact checked s _ _

/-- No step of the engine changes the fields of `State.Fixed`. -/
theorem engineStep (s : State) : s.Fixed s.engineStep := by
  unfold State.engineStep
  split
  · exact refl s
  · exact refl s
  · unfold State.stageStep
    split
    · exact issueStage s _
    · refine trans ?_ (onTaken (afterHdrRead _) _ _ _); exact ⟨rfl, rfl, rfl, rfl, rfl, rfl⟩
    · unfold State.validateStage
      split
      · exact raise s _
      · exact ⟨rfl, rfl, rfl, rfl, rfl, rfl⟩
    · exact ((afterTake s _).trans (memWrite _ _ _)).trans (onTaken (afterDecode _) _ _ _)
    · exact controlStage s _
    · exact chunkPixel s _ _ _ _
    · exact rawRest s _ _
    · exact (memWrite s _ _).trans (afterResample _)
    · refine trans ?_ (afterDerive _); exact ⟨rfl, rfl, rfl, rfl, rfl, rfl⟩
    · exact (afterPut s _).trans (onGiven (afterHdrWrite _) _ _)
    · exact (afterPut s _).trans (onGiven (complete _) _ _)

theorem settle (s : State) : s.Fixed s.settle :=
  State.settle_keeps (fun t => s.Fixed t) (fun t _ h => h.trans (engineStep t)) s (refl s)

theorem issue (s : State) (cmd : Command) : s.Fixed (s.issue cmd) := by
  unfold State.issue
  split
  · split
    · exact (accept s cmd).trans (settle _)
    · exact accept s cmd
  · exact refl s

end State.Fixed

end Sys2Proof.Machine
end

