-- ==== Sys2Proof/Laws/PerInstr.lean ====
section
/-!
SUPPORT. The families of per-instruction statements named in LAWS.json.
-/

/-- The bits of a well-formed instruction's encoding fit the row's width, which is a command word's
or a control byte's (30_encoding.md R60, R66). -/
def Sys2Proof.Laws.EncodingFits.Statement (i : Sys2Proof.Instr) : Prop :=
  i.wellFormed = true →
    ((Sys2Proof.encode i).nbits = 32 ∨ (Sys2Proof.encode i).nbits = 8) ∧
    (Sys2Proof.encode i).bits < 2 ^ (Sys2Proof.encode i).nbits

namespace Sys2Proof.Laws.EncodingFits

theorem nop : Statement .nop := by unfold Statement; decide
theorem rdhdr : Statement .rdhdr := by unfold Statement; decide
theorem drvhdr : Statement .drvhdr := by unfold Statement; decide
theorem wrhdr : Statement .wrhdr := by unfold Statement; decide
theorem decrle : Statement .decrle := by unfold Statement; decide
theorem encrle : Statement .encrle := by unfold Statement; decide
theorem decraw : Statement .decraw := by unfold Statement; decide
theorem encraw : Statement .encraw := by unfold Statement; decide
theorem resample : Statement .resample := by unfold Statement; decide
theorem convert : Statement .convert := by unfold Statement; decide
theorem srst : Statement .srst := by unfold Statement; decide
theorem rep (count : Nat) : Statement (.rep count) := fun _ => ⟨.inr rfl, BitVec.isLt _⟩
theorem raw (count : Nat) : Statement (.raw count) := fun _ => ⟨.inr rfl, BitVec.isLt _⟩

end Sys2Proof.Laws.EncodingFits
end

