-- ==== Sys2Proof/Tests/Slice0.lean ====
section
/-!
SUPPORT. Tests: ill-formed instructions refused, words written out from spec/30_encoding.md, single
instructions against the vectors of spec/95_test_vectors.md, and one witness for the hypotheses of
each obligation that has any.
-/

namespace Sys2Proof.Tests

open Sys2Proof Sys2Proof.Machine

/-! ### Helpers -/

/-- The reset state with zero bytes for the free ones and a small PB. -/
def blank : State :=
  { State.reset with
    hdrIn := Vector.replicate 18 0, hdrOut := Vector.replicate 18 0, pbSize := 96 }

/-- Codec parameters, and the buffer's contents from `base` on. -/
def codec (bpp base len : Nat) (bytes : List Byte) : State :=
  { blank with
    params := { Params.zero with
      bpp := BitVec.ofNat 3 bpp, bufBase := BitVec.ofNat 32 base, bufLen := BitVec.ofNat 32 len }
    pb := Memory.setBlock [] base bytes }

/-- The source has these bytes and then the answers `q`. -/
def fed (s : State) (bs : List Byte) (q : List InAnswer) : State := { s with source := bytesOf bs ++ q }

/-- The sink acknowledges `n` bytes and then answers `r`. -/
def drained (s : State) (n : Nat) (r : List OutAnswer) : State := { s with sink := acks n ++ r }

/-- The outcome is a next state of which `p` holds. -/
def gives (o : Host.Outcome State Fault Refusal) (p : State → Bool) : Bool :=
  match o with
  | .next t => p t
  | .fault _ => false
  | .refused _ => false

/-- A DECODE of `bpp` 3 at a chunk boundary, `emitted` of `size` bytes written from `base` on. -/
def decoding (base size emitted : Nat) : State :=
  { blank with
    status := 0b001, seq := .run .decrle none (.decodeRle ⟨base, size, 3, emitted⟩ .control) }

/-- The state ERROR after an illegal command. -/
def broken : State := { blank with status := 0b100, errinfo := 0x09, seq := .error }

/-- A header: raw type `t`, `w` by `h` pixels of `bits` bits. -/
def header (t w h bits : Nat) : Header :=
  #v[0, 0, BitVec.ofNat 8 t, 0, 0, 0, 0, 0, 0, 0, 0, 0, BitVec.ofNat 8 w, 0, BitVec.ofNat 8 h, 0,
     BitVec.ofNat 8 bits, 8]

/-- The bytes of V-S1's source, 4 by 4 pixels of 4 bytes. -/
def imageS1 : List Byte :=
  let r : List Byte := [0xFF, 0, 0, 0xFF]
  let g : List Byte := [0, 0xFF, 0, 0xFF]
  r ++ r ++ g ++ g ++ r ++ r ++ g ++ g ++ g ++ g ++ g ++ g ++ g ++ g ++ g ++ g

/-! ### Well-formedness (30_encoding.md R66, R71: counts 1 to 128) -/

theorem test_wellFormed_refuses_rep_zero : (Instr.rep 0).wellFormed = false := by decide
theorem test_wellFormed_refuses_rep_long : (Instr.rep 129).wellFormed = false := by decide
theorem test_wellFormed_refuses_raw_zero : (Instr.raw 0).wellFormed = false := by decide
theorem test_wellFormed_refuses_raw_long : (Instr.raw 129).wellFormed = false := by decide

/-! ### Words written out from 30_encoding.md R61 and R66 to R68 -/

theorem test_decode_nop :
    decodeTableWord 32 0b00000000000000000000000000000000 = some .nop := by decide
theorem test_decode_rdhdr :
    decodeTableWord 32 0b00000000000000000000000000000001 = some .rdhdr := by decide
theorem test_decode_drvhdr :
    decodeTableWord 32 0b00000000000000000000000000000010 = some .drvhdr := by decide
theorem test_decode_wrhdr :
    decodeTableWord 32 0b00000000000000000000000000000011 = some .wrhdr := by decide
theorem test_decode_decrle :
    decodeTableWord 32 0b00000000000000000000000000000100 = some .decrle := by decide
theorem test_decode_encrle :
    decodeTableWord 32 0b00000000000000000000000000000101 = some .encrle := by decide
theorem test_decode_decraw :
    decodeTableWord 32 0b00000000000000000000000000000110 = some .decraw := by decide
theorem test_decode_encraw :
    decodeTableWord 32 0b00000000000000000000000000000111 = some .encraw := by decide
theorem test_decode_resample :
    decodeTableWord 32 0b00000000000000000000000000001000 = some .resample := by decide
theorem test_decode_convert :
    decodeTableWord 32 0b00000000000000000000000000001001 = some .convert := by decide
theorem test_decode_srst :
    decodeTableWord 32 0b00000000000000000000000011111111 = some .srst := by decide
/-- R67: `10000010` is a repeat chunk of three (V-E1). -/
theorem test_decode_rep : decodeTableWord 8 0b10000010 = some (.rep 3) := by decide
/-- R67: `11111111` is a repeat chunk of 128 (V-E11). -/
theorem test_decode_rep_longest : decodeTableWord 8 0b11111111 = some (.rep 128) := by decide
/-- R68: `00000000` is a raw chunk of one (V-E2). -/
theorem test_decode_raw : decodeTableWord 8 0b00000000 = some (.raw 1) := by decide
/-- R68: `01111111` is a raw chunk of 128 (V-E15). -/
theorem test_decode_raw_longest : decodeTableWord 8 0b01111111 = some (.raw 128) := by decide
/-- R61: 0x0A, the first reserved opcode, is rejected by name. -/
theorem test_decode_reserved : decodeCommand 0x0000000A = .error .reservedOpcode := rfl
/-- R60: a bit above OPC is rejected by name. -/
theorem test_decode_upper_bits : decodeCommand 0x00000109 = .error .upperBitsSet := rfl
theorem test_decode_other_width : decodeTableWord 16 0 = none := by decide

/-! ### The fetch from reset -/

theorem test_fetch_command :
    step (State.reset.withFetchWord 32 0x00000004) = exec .decrle State.reset := rfl
theorem test_fetch_chunk :
    gives (step (State.reset.withFetchWord 8 0b10000010)) (fun t =>
      t.status == 0b010 && t.pb == Memory.setBlock [] 0 (List.replicate 9 0)
        && t.inCount == 4) = true := by decide

/-! ### Single instructions, from 95_test_vectors.md -/

/-- V-C3: NOP is dropped in ERROR. -/
theorem test_nop_in_error : gives (exec .nop broken) (fun t => t.status == 0b100) = true := by decide

/-- V-H1, its first part: 18 bytes taken, two left. -/
theorem test_rdhdr : gives (exec .rdhdr (fed blank ((header 10 4 4 32).toList ++ [0xDE, 0xAD]) []))
    (fun t => t.status == 0b010 && t.hdrIn == header 10 4 4 32 && t.inCount == 18
      && t.source == bytesOf [0xDE, 0xAD]) = true := by decide

/-- V-H2: 17 bytes and `End`. -/
theorem test_rdhdr_short :
    gives (exec .rdhdr (fed blank (List.replicate 17 0) [.eos]))
      (fun t => t.status == 0b100 && t.errinfo == 0x12 && t.inCount == 17) = true := by decide

/-- V-H5: width low byte first, the other bytes copied. -/
theorem test_drvhdr :
    gives (exec .drvhdr { blank with
        params := { Params.zero with dstW := 0x0140, dstH := 0x00F0, outType := 0x0A }
        hdrIn := #v[0x03, 0x00, 0x02, 0x11, 0x22, 0x33, 0x44, 0x55, 0x66, 0x77, 0x88, 0x99, 0x00,
          0x04, 0x00, 0x03, 0x18, 0x20] })
      (fun t => t.hdrOut == #v[0x03, 0x00, 0x0A, 0x11, 0x22, 0x33, 0x44, 0x55, 0x66, 0x77, 0x88,
        0x99, 0x40, 0x01, 0xF0, 0x00, 0x18, 0x20] && t.status == 0b010) = true := by decide

/-- V-H6, its second part: the sink fails at the fifth byte. -/
theorem test_wrhdr_fails :
    gives (exec .wrhdr (drained { blank with hdrOut := header 2 2 2 32 } 4 [.fail]))
      (fun t => t.errinfo == 0x55 && t.out == [0, 0, 2, 0] && t.outCount == 4) = true := by decide

/-- V-D4: the bytes after the last chunk stay in the stream. -/
theorem test_decrle : gives (exec .decrle (fed (codec 3 4 3 []) [0x80, 0x11, 0x22, 0x33, 0xDE] []))
    (fun t => t.status == 0b010 && t.memRead 4 3 == [0x11, 0x22, 0x33]
      && t.source == bytesOf [0xDE]) = true := by decide

/-- V-D12: Overrun, not TruncatedData. -/
theorem test_decrle_overrun :
    gives (exec .decrle (fed (codec 3 0 6 []) [0x02, 0x11, 0x22, 0x33] [.eos]))
      (fun t => t.errinfo == 0x36 && t.inCount == 4 && t.source == [.eos]) = true := by decide

/-- V-E8: two raw chunks closed one short. -/
theorem test_encrle :
    gives (exec .encrle (drained (codec 3 0 18 [0x11, 0x22, 0x33, 0x44, 0x55, 0x66, 0x44, 0x55, 0x66,
        0x77, 0x88, 0x99, 0xAA, 0xBB, 0xCC, 0xAA, 0xBB, 0xCC]) 16 []))
      (fun t => t.status == 0b010 && t.out == [0x00, 0x11, 0x22, 0x33, 0x81, 0x44, 0x55, 0x66, 0x00,
        0x77, 0x88, 0x99, 0x81, 0xAA, 0xBB, 0xCC]) = true := by decide

/-- V-W1: seven bytes ready, six taken. -/
theorem test_decraw : gives (exec .decraw (fed (codec 0 2 6 []) [1, 2, 3, 4, 5, 6, 7] []))
    (fun t => t.status == 0b010 && t.memRead 2 6 == [1, 2, 3, 4, 5, 6]
      && t.source == bytesOf [7]) = true := by decide

/-- V-W4. -/
theorem test_encraw : gives (exec .encraw (drained (codec 0 2 6 [1, 2, 3, 4, 5, 6]) 6 []))
    (fun t => t.out == [1, 2, 3, 4, 5, 6] && t.outCount == 6 && t.status == 0b010) = true := by
  decide

/-- Registers of a resampling of `bpp` 3 from PB[0] to PB[48]. -/
def resampling (srcW srcH dstW dstH : Nat) (bytes : List Byte) : State :=
  { blank with
    params := { Params.zero with
      bpp := 3, srcW := BitVec.ofNat 16 srcW, srcH := BitVec.ofNat 16 srcH, dstBase := 48
      dstW := BitVec.ofNat 16 dstW, dstH := BitVec.ofNat 16 dstH }
    pb := Memory.setBlock [] 0 bytes }

/-- V-S7: 4 by 1 to 3 by 1, truncation and not rounding. -/
theorem test_resample :
    gives (exec .resample (resampling 4 1 3 1 [0, 0, 0, 10, 20, 30, 20, 40, 60, 30, 60, 90]))
      (fun t => t.memRead 48 9 == [0, 0, 0, 8, 16, 25, 21, 43, 65]) = true := by decide

/-- V-S10: 2 by 2 to 2 by 2. -/
theorem test_resample_same_size :
    gives (exec .resample (resampling 2 2 2 2 [0, 0, 0, 255, 255, 255, 100, 100, 100, 50, 60, 70]))
      (fun t => t.memRead 48 12 == [0, 0, 0, 127, 127, 127, 50, 50, 50, 101, 103, 106]
        && t.status == 0b010) = true := by decide

/-- CFG 0x5 is HALF with RLE, 0x3 is HALF with RAW: the 4 by 4 image of V-S1 in header `h`. -/
def converting (h : Header) (image : List Byte) (n : Nat) (r : List OutAnswer) : State :=
  drained (fed { blank with params := { Params.zero with cfg := 0x3 } } (h.toList ++ image) []) n r

/-- V-S1, halved and written raw, by CONVERT. -/
theorem test_convert :
    gives (exec .convert (converting (header 2 4 4 32) imageS1 34 []))
      (fun t => t.status == 0b010 && t.out == (header 2 2 2 32).toList ++ [0xFF, 0, 0, 0xFF, 0x7F,
        0x7F, 0, 0xFF, 0x7F, 0x7F, 0, 0xFF, 0x3F, 0xBF, 0, 0xFF]) = true := by decide

/-- V-X1: an unsupported image-type. -/
theorem test_convert_unsupported :
    gives (exec .convert (converting (header 1 4 4 32) imageS1 34 []))
      (fun t => t.errinfo == 0x24 && t.inCount == 18 && t.out == []) = true := by decide

/-- V-C5: SRST clears the registers. -/
theorem test_srst : gives (exec .srst { (codec 3 0 9 [1, 2]) with status := 0b010, inCount := 82 })
    (fun t => t.params == Params.zero && t.status == 0 && t.inCount == 0
      && t.memRead 0 2 == [1, 2]) = true := by decide

/-- R67, V-D1's first chunk. -/
theorem test_rep : gives (exec (.rep 3) (fed (decoding 4 18 0) [0x11, 0x22, 0x33] []))
    (fun t => t.memRead 4 9 == [0x11, 0x22, 0x33, 0x11, 0x22, 0x33, 0x11, 0x22, 0x33]
      && t.inCount == 3) = true := by decide

/-- R68, V-D3: a raw chunk of three fills the buffer. -/
theorem test_raw :
    gives (exec (.raw 3) (fed (decoding 4 9 0) [0x11, 0x22, 0x33, 0x44, 0x55, 0x66, 0x77, 0x88, 0x99]
        []))
      (fun t => t.memRead 4 9 == [0x11, 0x22, 0x33, 0x44, 0x55, 0x66, 0x77, 0x88, 0x99]
        && t.status == 0b010) = true := by decide

/-! ### Witnesses: states and operands that meet the hypotheses of each obligation -/

/-- STATUS 0 is IDLE. -/
theorem idle_of {s : State} (h : s.status = 0) : s.isIdle = true := by
  simp [State.isIdle, State.busy, State.err, h]

/-- The pixel A of 95_test_vectors.md. -/
def pixelA : Pixel := [0x11, 0x22, 0x33]
/-- The pixel B. -/
def pixelB : Pixel := [0x44, 0x55, 0x66]

/-- Counts at both ends of their range. -/
theorem witness_DecodeOfEncodeIsTheInstruction :
    Instr.convert.wellFormed = true ∧ (Instr.rep 1).wellFormed = true ∧
    (Instr.rep 128).wellFormed = true ∧ (Instr.raw 1).wellFormed = true ∧
    (Instr.raw 128).wellFormed = true := by decide

theorem witness_DecodedWordIsTheEncoding :
    decodeTableWord 32 0xFF = some .srst ∧ decodeTableWord 8 0xFF = some (.rep 128) ∧
    decodeTableWord 8 0x00 = some (.raw 1) := by decide

/-- Both ends of the reserved opcodes. -/
theorem witness_WordsOfTheTableDecode :
    ∀ opc ∈ [0x0A, 0xFE], 0x0A ≤ opc ∧ opc ≤ 0xFE := by decide

/-- Words next to the legal opcodes, and one with an upper bit set. -/
theorem witness_IllegalCommandEntersError :
    ∀ w ∈ [(0x0A : Word), 0xFE, 0x100, 0x80000000], ∃ s : State, ∃ es : List Event,
      s.agenda = .wr 0 w :: es ∧ s.isIdle = true ∧ ¬ (w.toNat ≤ 9 ∨ w.toNat = 255) := by
  intro w hw
  exact ⟨{ blank with agenda := [.wr 0 w] }, [], rfl, idle_of rfl, by fin_cases hw <;> decide⟩

/-- With no transaction in progress, with one on the input port, with one on the output port. -/
theorem witness_HardwareResetFromAnyState :
    (false = false ∧ blank.seq.pending = .none) ∧
    (true = true ∧ (decoding 0 3 0).seq.pending = .input) ∧
    ∃ s : State, ∃ b : Byte, true = true ∧ s.seq.pending = .output b :=
  ⟨by decide, by decide, { blank with status := 0b001, seq := .run .encraw none (.encode [7]) }, 7,
    rfl, rfl⟩

/-- The first and the last number of each clause, and the numbers next to them. -/
theorem witness_HostWriteStoresTheLowBits :
    blank.isIdle = true ∧
    ∀ n ∈ [1, 2, 3, 4, 5, 7, 8, 9, 10, 11, 12, 13, 14, 15, 16, 33, 34, 51, 52],
      n ≠ 0 ∧ ∃ m : Nat, m ≠ n := by
  refine ⟨rfl, fun n hn => ⟨?_, n + 1, by omega⟩⟩
  revert n; decide

theorem witness_HostWritesAreDroppedOutsideIdle :
    ∃ s t : State, ∃ es : List Event, s.isIdle = false ∧ t.isIdle = false ∧ s.busy = true ∧
      t.err = true ∧ (1 : Nat) ≠ 0 ∧ s.agenda = .wr 1 7 :: es ∧ t.agenda = .pbwr 0 7 :: es :=
  ⟨{ decoding 0 3 0 with agenda := [.wr 1 7] }, { broken with agenda := [.pbwr 0 7] }, [], by decide⟩

theorem witness_HostReadsHaveNoSideEffect :
    ∃ s : State, ∃ n : Nat, s.busy = true ∧ 16 ≤ n ∧ n ≤ 51 := ⟨decoding 0 3 0, 51, by decide⟩

/-- The lowest and the highest PB address, in IDLE, in ERROR and in BUSY. -/
theorem witness_HostPbWriteIsReadBack :
    (blank.isIdle = true ∧ 0 < blank.pbSize ∧ 95 < blank.pbSize ∧ ∃ x : Nat, x ≠ 95) ∧
    (broken.busy = false ∧ 95 < broken.pbSize) ∧
    (decoding 0 3 0).busy = true ∧ 95 < (decoding 0 3 0).pbSize :=
  ⟨⟨rfl, by decide, by decide, 0, by decide⟩, by decide, by decide⟩

theorem witness_StepRunsTheCommandWritten :
    ∃ s : State, ∃ w : Word, ∃ i : Instr, ∃ es : List Event,
      s.agenda = .wr 0 w :: es ∧ decodeTableWord 32 w.toNat = some i ∧ blank.agenda = [] :=
  ⟨{ blank with agenda := [.wr 0 9] }, 9, .convert, [], by decide⟩

theorem witness_StepRunsTheChunkTaken :
    ∃ s : State, ∃ cmd : Command, ∃ plan : Option Plan, ∃ d : Decoder, ∃ c : Byte,
      ∃ q : List InAnswer, s.agenda = [] ∧ s.seq = .run cmd plan (.decodeRle d .control) ∧
      d.emitted < d.size ∧ s.source = .byte c :: q :=
  ⟨fed (decoding 4 9 3) [0x81] [], .decrle, none, ⟨4, 9, 3, 3⟩, 0x81, [], by decide⟩

/-- IDLE, ERROR, held on the input port, held on the output port. -/
theorem witness_HeldOrIdleEngineStays :
    (blank.agenda = [] ∧ blank.seq = .idle) ∧ (broken.agenda = [] ∧ broken.seq = .error) ∧
    ((decoding 0 3 0).agenda = [] ∧ (decoding 0 3 0).seq.pending = .input ∧
      (decoding 0 3 0).source = []) ∧
    ∃ s : State, s.agenda = [] ∧ (∃ b, s.seq.pending = .output b) ∧ s.sink = [] :=
  ⟨by decide, by decide, by decide,
    { blank with status := 0b001, seq := .run .encraw none (.encode [7]) }, rfl, ⟨7, rfl⟩, rfl⟩

theorem witness_NopSetsDoneInIdle :
    blank.isIdle = true ∧ broken.isIdle = false ∧ (decoding 0 3 0).isIdle = false := by decide

theorem witness_SoftResetClearsTheRegisters :
    (decoding 0 3 0).busy = true ∧ broken.busy = false ∧ blank.busy = false := by decide

theorem witness_CommandsAreDroppedOutsideIdle :
    Instr.convert.isCommand = true ∧ (decoding 0 3 0).busy = true ∧ broken.err = true ∧
    Instr.convert ≠ .srst ∧ (0x0A : Word) ≠ 0x000000FF ∧ (0x1FF : Word) ≠ 0x000000FF := by decide

theorem witness_AcceptanceShowsBusyAtIssue :
    ∃ s : State, ∃ i : Instr, ∃ cmd : Command, commandOf i = some cmd ∧ s.isIdle = true ∧
      s.pace = .stepwise := ⟨{ blank with pace := .stepwise }, .rdhdr, .rdhdr, by decide⟩

/-- A state for each clause: a bad BPP, a length that is no multiple, a buffer one byte too long, a
zero and a too large dimension, an overlap, OTYPE 3. -/
theorem witness_ParameterChecksRaiseAtIssue :
    (∀ s ∈ [codec 2 0 6 [], codec 3 0 7 [], codec 3 94 3 [], codec 4 93 4 [], codec 0 96 1 [],
        resampling 0 1 1 1 [], resampling 1 1 1 32768 [], resampling 20 1 1 1 []],
      s.isIdle = true ∧ s.pace = .runAhead) ∧
    (codec 2 0 6 []).params.bpp.toNat ≠ 3 ∧ (codec 2 0 6 []).params.bpp.toNat ≠ 4 ∧
    (codec 3 0 7 []).params.bufLen.toNat % (codec 3 0 7 []).params.bpp.toNat ≠ 0 ∧
    ((codec 3 94 3 []).params.bpp.toNat = 3 ∧
      (codec 3 94 3 []).params.bufLen.toNat % (codec 3 94 3 []).params.bpp.toNat = 0 ∧
      ¬ (codec 3 94 3 []).bufInPb) ∧
    ¬ (codec 0 96 1 []).bufInPb ∧
    ¬ (1 ≤ (resampling 0 1 1 1 []).params.geometry.srcW) ∧
    ¬ ((resampling 1 1 1 32768 []).params.geometry.dstH ≤ 32767) ∧
    (((resampling 20 1 1 1 []).params.geometry.bpp = 3 ∧
        1 ≤ (resampling 20 1 1 1 []).params.geometry.srcW) ∧
      ¬ (resampling 20 1 1 1 []).params.geometry.legal 96) ∧
    ({ Params.zero with cfg := 0x7 } : Params).cfg.toNat / 2 = 3 := by
  unfold State.bufInPb Geometry.legal
  decide

theorem witness_RdhdrReadsTheRecord :
    ∃ s : State, ∃ h : Header, ∃ q : List InAnswer, s.isIdle = true ∧ s.pace = .runAhead ∧
      s.source = bytesOf h.toList ++ q :=
  ⟨fed blank (header 2 4 4 32).toList [.eos], header 2 4 4 32, [.eos], by decide⟩

/-- A CONVERT fed these bytes and then the answers `q`, its sink acknowledging `n` bytes. -/
def converts (cfg : Nat) (bs : List Byte) (q : List InAnswer) (n : Nat) (r : List OutAnswer) : State :=
  drained (fed { blank with params := { Params.zero with cfg := BitVec.ofNat 3 cfg } } bs q) n r

/-- A 2 by 2 image of 32 bits, raw or run-length, halved, can be converted in a PB of 96 bytes. -/
theorem convertible_two (t : Nat) (ht : t ∈ [2, 3, 10]) (bs : List Byte) (q : List InAnswer) (n : Nat)
    (r : List OutAnswer) :
    convertible (converts 1 bs q n r).params (header t 2 2 32) (converts 1 bs q n r).pbSize := by
  show convertible { Params.zero with cfg := BitVec.ofNat 3 1 } (header t 2 2 32) 96
  unfold convertible
  revert t
  decide

/-- No byte at all, and one byte short of the end. -/
theorem witness_ShortInputRaises :
    (∀ bs ∈ [([] : List Byte), List.replicate 17 0], ∀ eos : Bool,
      ∃ s : State, ∃ q : List InAnswer, s.isIdle = true ∧ s.pace = .runAhead ∧
      s.source = bytesOf bs ++ (if eos then InAnswer.eos else InAnswer.fail) :: q ∧
      s.params.cfg.toNat / 2 ≠ 3 ∧ bs.length < 18 ∧ s.bufInPb ∧
      bs.length < s.params.bufLen.toNat) ∧
    (∀ pixels ∈ [([] : List Byte), List.replicate 15 7], ∀ eos : Bool,
      ∃ s : State, ∃ q : List InAnswer, ∃ h : Header, ∃ bs : List Byte,
      s.isIdle = true ∧ s.pace = .runAhead ∧
      s.source = bytesOf bs ++ (if eos then InAnswer.eos else InAnswer.fail) :: q ∧
      bs = h.toList ++ pixels ∧ convertible s.params h s.pbSize ∧ h[2] ≠ 10 ∧
      pixels.length < h.sourceLength) := by
  refine ⟨fun bs hbs eos => ⟨fed (codec 0 78 18 []) bs [if eos then .eos else .fail], [], idle_of rfl,
    rfl, rfl, (by decide : 0 / 2 ≠ 3), ?_, ?_, ?_⟩, fun pixels hp eos =>
    ⟨converts 1 ((header 2 2 2 32).toList ++ pixels) [if eos then .eos else .fail] 0 [], [],
    header 2 2 2 32, _, idle_of rfl, rfl, rfl, rfl, convertible_two 2 (by decide) _ _ _ _, by decide,
    ?_⟩⟩
  · revert bs; decide
  · show 78 + 18 ≤ 96; decide
  · show bs.length < 18; revert bs; decide
  · revert pixels; decide

theorem witness_DrvhdrDerivesTheOutputHeader :
    blank.isIdle = true ∧ blank.pace = .runAhead ∧ (0 : Nat) < 18 ∧ 17 < 18 ∧ (17 : Nat) ≠ 2 ∧
    ¬ (12 ≤ 11 ∧ 11 ≤ 15) ∧ ¬ (12 ≤ 16 ∧ 16 ≤ 15) := by decide

theorem witness_WrhdrWritesTheRecord :
    ∃ s : State, ∃ r : List OutAnswer, s.isIdle = true ∧ s.pace = .runAhead ∧ s.sink = acks 18 ++ r :=
  ⟨drained blank 18 [.fail], [.fail], by decide⟩

theorem witness_HeaderRoundTrip :
    ∃ s t u v : State, ∃ bs : List Byte, ∃ r : List OutAnswer, ∃ q : List InAnswer,
      s.isIdle = true ∧ s.pace = .runAhead ∧ s.sink = acks 18 ++ r ∧
      exec .wrhdr s = .next t ∧ t.out = s.out ++ bs ∧
      u.isIdle = true ∧ u.pace = .runAhead ∧ u.source = bytesOf bs ++ q ∧ exec .rdhdr u = .next v := by
  let s := drained { blank with hdrOut := header 10 4 4 32 } 18 []
  let u := fed blank (header 10 4 4 32).toList [.eos]
  exact ⟨s, s.issue .wrhdr, u, u.issue .rdhdr, (header 10 4 4 32).toList, [], [.eos],
    idle_of rfl, rfl, rfl, rfl, by decide, idle_of rfl, rfl, rfl, rfl⟩

/-- A buffer that ends at the last byte of PB. -/
theorem witness_DecrawCopiesIn :
    ∃ s : State, ∃ bs : List Byte, ∃ q : List InAnswer, s.isIdle = true ∧ s.pace = .runAhead ∧
      s.bufInPb ∧ bs.length = s.params.bufLen.toNat ∧ s.source = bytesOf bs ++ q ∧ 2 < bs.length ∧
      outside s.params.bufBase.toNat s.params.bufLen.toNat 92 :=
  ⟨fed (codec 0 93 3 []) [1, 2, 3] [.eos], [1, 2, 3], [.eos], by
    unfold State.bufInPb outside; decide⟩

theorem witness_EncrawCopiesOut :
    ∃ s : State, ∃ r : List OutAnswer, s.isIdle = true ∧ s.pace = .runAhead ∧ s.bufInPb ∧
      s.sink = acks s.params.bufLen.toNat ++ r :=
  ⟨drained (codec 0 93 3 [1, 2, 3]) 3 [], [], by unfold State.bufInPb; decide⟩

theorem witness_RawRoundTrip :
    (∃ s t u v : State, ∃ bs : List Byte, ∃ r : List OutAnswer, ∃ q : List InAnswer,
      s.isIdle = true ∧ s.pace = .runAhead ∧ s.bufInPb ∧ s.sink = acks s.params.bufLen.toNat ++ r ∧
      exec .encraw s = .next t ∧ t.out = s.out ++ bs ∧
      u.isIdle = true ∧ u.pace = .runAhead ∧ u.bufInPb ∧ u.params.bufLen = s.params.bufLen ∧
      u.source = bytesOf bs ++ q ∧ exec .decraw u = .next v ∧ 2 < s.params.bufLen.toNat) ∧
    (∃ s t u : State, ∃ bs : List Byte, ∃ q : List InAnswer, ∃ r : List OutAnswer,
      s.isIdle = true ∧ s.pace = .runAhead ∧ s.bufInPb ∧ bs.length = s.params.bufLen.toNat ∧
      s.source = bytesOf bs ++ q ∧ s.sink = acks bs.length ++ r ∧
      exec .decraw s = .next t ∧ exec .encraw t = .next u) := by
  let s := drained (codec 0 93 3 [1, 2, 3]) 3 []
  let u := fed (codec 0 5 3 []) [1, 2, 3] []
  let w := drained u 3 []
  exact ⟨⟨s, s.issue .encraw, u, u.issue .decraw, [1, 2, 3], [], [], idle_of rfl, rfl,
      (by decide : 96 ≤ 96), rfl, rfl, by decide, idle_of rfl, rfl, (by decide : 8 ≤ 96), rfl, rfl, rfl,
      by decide⟩,
    w, w.issue .decraw, (w.issue .decraw).issue .encraw, [1, 2, 3], [], [], idle_of rfl, rfl,
    (by decide : 8 ≤ 96), rfl, rfl, rfl, rfl, rfl⟩

/-- V-D1: a repeat chunk, a raw chunk and a repeat chunk. -/
theorem witness_DecrleDecodesEveryLegalStream :
    ∃ s : State, ∃ cs : List ChunkData, ∃ q : List InAnswer, s.isIdle = true ∧ s.pace = .runAhead ∧
      (s.params.bpp.toNat = 3 ∨ s.params.bpp.toNat = 4) ∧ s.bufInPb ∧
      (∀ c ∈ cs, c.legal s.params.bpp.toNat) ∧
      (streamImage cs).length = s.params.bufLen.toNat ∧ s.source = bytesOf (streamBytes cs) ++ q := by
  refine ⟨fed (codec 3 0 18 []) [0x82, 0x11, 0x22, 0x33, 0x00, 0x44, 0x55, 0x66, 0x81, 0x77, 0x88,
    0x99] [.eos], [.rep 3 pixelA, .raw [pixelB], .rep 2 [0x77, 0x88, 0x99]], [.eos], idle_of rfl,
    rfl, .inl rfl, (by decide : 18 ≤ 96), ?_, rfl, rfl⟩
  simp [ChunkData.legal, pixelA, pixelB, maxChunk, codec, fed]

/-- One pixel too many, for either kind of chunk, by DECRLE and by CONVERT. -/
theorem witness_DecrleOverrun :
    ∀ c ∈ [(0x81 : Byte), 0x01], ∃ cs : List ChunkData, ∃ q : List InAnswer,
      (∃ s : State, ∃ px : Pixel, s.isIdle = true ∧ s.pace = .runAhead ∧
        (s.params.bpp.toNat = 3 ∨ s.params.bpp.toNat = 4) ∧
        s.params.bufLen.toNat % s.params.bpp.toNat = 0 ∧ s.bufInPb ∧
        (∀ x ∈ cs, x.legal s.params.bpp.toNat) ∧ px.length = s.params.bpp.toNat ∧
        (streamImage cs).length < s.params.bufLen.toNat ∧
        s.params.bufLen.toNat <
          (streamImage cs).length + (c.toNat % 128 + 1) * s.params.bpp.toNat ∧
        s.source = bytesOf (streamBytes cs ++ c :: px) ++ q) ∧
      (∃ s : State, ∃ px : Pixel, ∃ h : Header, s.isIdle = true ∧ s.pace = .runAhead ∧
        convertible s.params h s.pbSize ∧ h[2] = 10 ∧ (∀ x ∈ cs, x.legal h.pixelBytes) ∧
        px.length = h.pixelBytes ∧ (streamImage cs).length < h.sourceLength ∧
        h.sourceLength < (streamImage cs).length + (c.toNat % 128 + 1) * h.pixelBytes ∧
        s.source = bytesOf (h.toList ++ streamBytes cs ++ c :: px) ++ q) := by
  intro c hc
  refine ⟨[.rep 3 [1, 2, 3, 4]], [], ⟨fed (codec 4 0 16 []) ([0x82, 1, 2, 3, 4] ++ c :: [5, 6, 7, 8])
      [], [5, 6, 7, 8], idle_of rfl, rfl, .inr rfl, (by decide : 16 % 4 = 0), (by decide : 16 ≤ 96), ?_,
      rfl, (by decide : 12 < 16), ?_, rfl⟩,
    ⟨converts 1 ((header 10 2 2 32).toList ++ [0x82, 1, 2, 3, 4] ++ c :: [5, 6, 7, 8]) [] 0 [],
      [5, 6, 7, 8], header 10 2 2 32, idle_of rfl, rfl, convertible_two 10 (by decide) _ _ _ _, rfl, ?_,
      rfl, (by decide), ?_, ?_⟩⟩
  · simp [ChunkData.legal, maxChunk, codec, fed]
  · show 16 < 12 + (c.toNat % 128 + 1) * 4; revert c; decide
  · simp [ChunkData.legal, maxChunk, header, Header.pixelBytes]
  · show 16 < 12 + (c.toNat % 128 + 1) * 4; revert c; decide
  · simp [converts, drained, fed, streamBytes, ChunkData.bytes]

/-- Before the control byte, after it, one byte short of the first pixel, at the second pixel of a raw
chunk of two and one byte short of its end, by DECRLE and by CONVERT. -/
theorem witness_DecrleTruncatedBeforeFirstPixel :
    ∀ part ∈ [([] : List Byte), [0x81], [0x81, 1, 2, 3], [0x01, 1, 2, 3, 4],
        [0x01, 1, 2, 3, 4, 5, 6, 7]], ∀ eos : Bool,
      ∃ cs : List ChunkData, ∃ q : List InAnswer,
      (∃ s : State, s.isIdle = true ∧ s.pace = .runAhead ∧
        (s.params.bpp.toNat = 3 ∨ s.params.bpp.toNat = 4) ∧
        s.params.bufLen.toNat % s.params.bpp.toNat = 0 ∧ s.bufInPb ∧
        (∀ x ∈ cs, x.legal s.params.bpp.toNat) ∧ (streamImage cs).length < s.params.bufLen.toNat ∧
        brokenChunk s.params.bpp.toNat (s.params.bufLen.toNat - (streamImage cs).length) part ∧
        s.source = bytesOf (streamBytes cs ++ part) ++
          (if eos then InAnswer.eos else InAnswer.fail) :: q) ∧
      (∃ s : State, ∃ h : Header, s.isIdle = true ∧ s.pace = .runAhead ∧
        convertible s.params h s.pbSize ∧ h[2] = 10 ∧ (∀ x ∈ cs, x.legal h.pixelBytes) ∧
        (streamImage cs).length < h.sourceLength ∧
        brokenChunk h.pixelBytes (h.sourceLength - (streamImage cs).length) part ∧
        s.source = bytesOf (h.toList ++ streamBytes cs ++ part) ++
          (if eos then InAnswer.eos else InAnswer.fail) :: q) := by
  intro part hp eos
  have hb : brokenChunk 4 (16 - 8) part := by
    fin_cases hp
    · exact .inl (by decide)
    · exact .inl (by decide)
    · exact .inl (by decide)
    · exact .inr ⟨2, _, rfl, by decide, by decide, by decide, by decide⟩
    · exact .inr ⟨2, _, rfl, by decide, by decide, by decide, by decide⟩
  refine ⟨[.rep 2 [1, 2, 3, 4]], [], ⟨fed (codec 4 0 16 []) ([0x81, 1, 2, 3, 4] ++ part)
      [if eos then .eos else .fail], idle_of rfl, rfl, .inr rfl, (by decide : 16 % 4 = 0),
      (by decide : 16 ≤ 96), ?_, (by decide : 8 < 16), hb, rfl⟩,
    ⟨converts 1 ((header 10 2 2 32).toList ++ [0x81, 1, 2, 3, 4] ++ part)
      [if eos then .eos else .fail] 0 [], header 10 2 2 32, idle_of rfl, rfl,
      convertible_two 10 (by decide) _ _ _ _, rfl, ?_, by decide, hb, ?_⟩⟩
  · simp [ChunkData.legal, maxChunk, codec, fed]
  · simp [ChunkData.legal, maxChunk, header, Header.pixelBytes]
  · simp [converts, drained, fed, streamBytes, ChunkData.bytes]

/-- A chunk that ends the buffer and one that does not, with and without CONVERT's temporaries. -/
theorem witness_RepChunkRepeatsThePixel :
    ∀ size ∈ [6, 9], ∀ plan ∈ [(none : Option Plan), some ⟨3, 2, 1, 1, 1, 6, 3, 2⟩],
      ∃ s : State, ∃ cmd : Command, ∃ d : Decoder, ∃ count : Nat, ∃ px : Pixel,
      ∃ q : List InAnswer, s.seq = .run cmd plan (.decodeRle d .control) ∧ s.regionsInPb = true ∧
      1 ≤ count ∧ count ≤ 128 ∧ 1 ≤ d.bpp ∧ px.length = d.bpp ∧
      d.emitted + count * d.bpp ≤ d.size ∧ s.source = bytesOf px ++ q ∧ d.size = size := by
  intro size hs plan hp
  refine ⟨{ fed blank pixelA [] with
      status := 0b001, seq := .run .convert plan (.decodeRle ⟨0, size, 3, 0⟩ .control) }, .convert,
    ⟨0, size, 3, 0⟩, 2, pixelA, [], rfl, ?_, by decide, by decide, by show 1 ≤ 3; decide, rfl, ?_, rfl,
    rfl⟩
  · revert plan size; decide
  · show 0 + 2 * 3 ≤ size; revert size; decide

theorem witness_RawChunkCopiesThePixels :
    ∀ size ∈ [6, 9], ∀ plan ∈ [(none : Option Plan), some ⟨3, 2, 1, 1, 1, 6, 3, 2⟩],
      ∃ s : State, ∃ cmd : Command, ∃ d : Decoder, ∃ count : Nat, ∃ bs : List Byte,
      ∃ q : List InAnswer, s.seq = .run cmd plan (.decodeRle d .control) ∧ s.regionsInPb = true ∧
      1 ≤ count ∧ count ≤ 128 ∧ 1 ≤ d.bpp ∧ bs.length = count * d.bpp ∧
      d.emitted + count * d.bpp ≤ d.size ∧ s.source = bytesOf bs ++ q ∧ d.size = size := by
  intro size hs plan hp
  refine ⟨{ fed blank (pixelA ++ pixelB) [] with
      status := 0b001, seq := .run .convert plan (.decodeRle ⟨0, size, 3, 0⟩ .control) }, .convert,
    ⟨0, size, 3, 0⟩, 2, pixelA ++ pixelB, [], rfl, ?_, by decide, by decide, by show 1 ≤ 3; decide, rfl,
    ?_, rfl, rfl⟩
  · revert plan size; decide
  · show 0 + 2 * 3 ≤ size; revert size; decide

/-- No command runs; a decode whose buffer is full. -/
theorem witness_ChunkOutsideDecodeIsRefused :
    ∀ s ∈ [blank, decoding 0 3 3], ∀ (cmd : Command) (plan : Option Plan) (d : Decoder),
      s.seq = .run cmd plan (.decodeRle d .control) → d.size ≤ d.emitted := by
  intro s hs cmd plan d h
  simp only [List.mem_cons, List.not_mem_nil, or_false] at hs
  rcases hs with rfl | rfl
  · simp [blank, State.reset] at h
  · simp only [decoding, Sequencer.run.injEq, Cursor.decodeRle.injEq] at h
    rw [← h.2.2.1]

theorem witness_EncrleEncodesTheBuffer :
    ∃ s : State, ∃ r : List OutAnswer, s.isIdle = true ∧ s.pace = .runAhead ∧
      (s.params.bpp.toNat = 3 ∨ s.params.bpp.toNat = 4) ∧
      s.params.bufLen.toNat % s.params.bpp.toNat = 0 ∧ s.bufInPb ∧
      s.sink = acks (encodePixels (pixelsOf s.params.bpp.toNat
        (s.memRead s.params.bufBase.toNat s.params.bufLen.toNat))).length ++ r :=
  ⟨drained (codec 3 0 6 (pixelA ++ pixelA)) 4 [], [], by unfold State.bufInPb; decide⟩

theorem witness_EncoderOutputIsWellFormed :
    ∀ p ∈ [pixelA, pixelB, pixelB], p.length = 3 := by decide

/-- Pixels of which no two neighbours are equal. -/
def alternating (n : Nat) : List Pixel :=
  (List.range n).map fun k => if k % 2 = 0 then pixelA else pixelB

theorem alternating_isChain (n : Nat) : (alternating n).IsChain (· ≠ ·) := by
  rw [alternating, List.isChain_iff_getElem]
  intro k hk
  simp only [List.getElem_map, List.getElem_range]
  rcases Nat.mod_two_eq_zero_or_one k with h | h
  · rw [if_pos h, if_neg (by omega)]; decide
  · rw [if_neg (by omega), if_pos (by omega)]; decide

/-- The shortest and the longest run and raw chunk of each clause. -/
theorem witness_EncoderChunkBoundaries :
    ((2 ≤ 2 ∧ 2 ≤ 128 ∧ [pixelB].head? ≠ some pixelA) ∧ (2 ≤ 128 ∧ 128 ≤ 128 ∧ 128 = 128)) ∧
    (1 ≤ [pixelA].length ∧ [pixelA].length ≤ 126 ∧ ([pixelA] ++ [pixelB]).IsChain (· ≠ ·)) ∧
    (∃ ps : List Pixel, ps.length = 128 ∧ ps.IsChain (· ≠ ·)) ∧
    (∀ n ∈ [2, 127], ∃ ps : List Pixel, ps.length = n ∧ 2 ≤ ps.length ∧ ps.length ≤ 127 ∧
      ps.IsChain (· ≠ ·)) := by
  refine ⟨by decide, ⟨by decide, by decide, by decide⟩,
    ⟨alternating 128, by simp [alternating], alternating_isChain _⟩, fun n hn => ?_⟩
  refine ⟨alternating n, by simp [alternating], ?_, ?_, alternating_isChain _⟩ <;>
    simp only [alternating, List.length_map, List.length_range] <;> revert n <;> decide

theorem witness_RunLengthRoundTrip :
    ∃ s t u : State, ∃ bs : List Byte, ∃ q : List InAnswer, s.isIdle = true ∧ s.pace = .runAhead ∧
      exec .encrle s = .next t ∧ t.status = 0b010 ∧ t.seq = .idle ∧ t.out = s.out ++ bs ∧
      u.isIdle = true ∧ u.pace = .runAhead ∧ u.bufInPb ∧ u.params.bpp = s.params.bpp ∧
      u.params.bufLen = s.params.bufLen ∧ u.source = bytesOf bs ++ q ∧ 5 < s.params.bufLen.toNat := by
  let s := drained (codec 3 0 6 (pixelA ++ pixelA)) 4 []
  exact ⟨s, s.issue .encrle, fed (codec 3 30 6 []) (0x81 :: pixelA) [], 0x81 :: pixelA, [],
    idle_of rfl, rfl, rfl, by decide, by decide, by decide, idle_of rfl, rfl, (by decide : 36 ≤ 96), rfl, rfl, rfl, by decide⟩

/-- A failure at the first byte and at the last; of CONVERT also at the last header byte and at the
first body byte. -/
theorem witness_WriteFailureKeepsWhatWasAcknowledged :
    (∀ n ∈ [0, 3], ∃ s : State, ∃ r : List OutAnswer, s.isIdle = true ∧ s.pace = .runAhead ∧
      s.sink = acks n ++ .fail :: r ∧ n < 18 ∧ s.bufInPb ∧ n < s.params.bufLen.toNat ∧
      s.params.bpp.toNat = 3 ∧ s.params.bufLen.toNat % s.params.bpp.toNat = 0 ∧
      n < (encodePixels (pixelsOf s.params.bpp.toNat
        (s.memRead s.params.bufBase.toNat s.params.bufLen.toNat))).length) ∧
    (∀ n ∈ [0, 17, 18, 21], ∃ s : State, ∃ r : List OutAnswer, ∃ h : Header,
      ∃ stream image : List Byte, ∃ cs : List ChunkData, ∃ q : List InAnswer,
      s.isIdle = true ∧ s.pace = .runAhead ∧ s.sink = acks n ++ .fail :: r ∧
      convertible s.params h s.pbSize ∧ carries h stream image cs ∧
      s.source = bytesOf (h.toList ++ stream) ++ q ∧
      n < 18 + (convertedBody s.params h image).length) := by
  refine ⟨fun n hn => ⟨drained (codec 3 0 6 (pixelA ++ pixelA)) n [.fail], [], idle_of rfl, rfl, rfl,
    ?_, (by decide : 6 ≤ 96), ?_, rfl, (by decide : 6 % 3 = 0), ?_⟩, fun n hn =>
    ⟨converts 1 ((header 2 2 2 32).toList ++ List.replicate 16 7) [] n [.fail], [], header 2 2 2 32,
    List.replicate 16 7, List.replicate 16 7, [], [], idle_of rfl, rfl, rfl,
    convertible_two 2 (by decide) _ _ _ _, ⟨by decide, rfl⟩, rfl, ?_⟩⟩
  · revert n; decide
  · revert n; decide
  · revert n; decide
  · show n < 18 + (convertedBody { Params.zero with cfg := BitVec.ofNat 3 1 } (header 2 2 2 32)
      (List.replicate 16 7)).length
    revert n; decide

/-- A destination region that ends with PB: 4 by 1 to 16 by 1. -/
theorem witness_ResampleComputesTheBilinearValue :
    ∃ s : State, s.isIdle = true ∧ s.pace = .runAhead ∧ s.params.geometry.legal s.pbSize ∧
      15 < s.params.geometry.dstW ∧ 0 < s.params.geometry.dstH ∧ 2 < s.params.geometry.bpp ∧
      outside s.params.geometry.dbase 48 47 :=
  ⟨resampling 4 1 16 1 [], by unfold Geometry.legal outside; decide⟩

/-- The last destination byte of operands at the largest width. -/
theorem witness_ResamplerStaysInItsRegions :
    (⟨3, 0, 32767, 1, 98301, 32767, 1⟩ : Geometry).legal 196602 ∧ 32766 < 32767 ∧ 2 < 3 := by
  unfold Geometry.legal; decide

/-- The clamp acts at the last position of V-S6 and on a source of one. -/
theorem witness_ClampedNeighbourHasNoWeight :
    (1 ≤ 4 ∧ 1 ≤ 12 ∧ 4 ≤ mapLow 11 4 12 + 1) ∧ (1 ≤ 1 ∧ 1 ≤ 1 ∧ 1 ≤ mapLow 0 1 1 + 1) := by decide

theorem witness_BlendLiesBetweenTheSamples : 0 < 2 ∧ 1 < 2 ∧ 255 ≤ 255 := by decide

/-- Values for each mapping: the lower clamp at its bound, the upper clamp acting, the sizes equal and
halved at the last position, a uniform source. -/
theorem witness_SpecialMappings :
    (1 ≤ 4 ∧ 1 ≤ 8 ∧ 2 * 1 * 4 ≤ 8) ∧ (11 < 12 ∧ (4 - 1) * (2 * 12) + 12 < 2 * 11 * 4) ∧
    (2 * 4 < 12) ∧ (1 ≤ 3 ∧ 3 < 4) ∧
    (∃ pb : Nat → Byte, ∃ g : Geometry, ∃ pbSize ch : Nat, ∃ c : Byte, g.legal pbSize ∧ ch < g.bpp ∧
      (∀ x y : Nat, x < g.srcW → y < g.srcH → pb (pixAddr g.sbase g.srcW g.bpp x y ch) = c) ∧
      1 < g.dstW ∧ 1 < g.dstH) :=
  ⟨by decide, by decide, by decide, by decide, fun _ => 9, ⟨3, 0, 2, 2, 12, 2, 2⟩, 24, 2, 9, by
    unfold Geometry.legal; decide, by decide, fun _ _ _ _ => rfl, by decide, by decide⟩

/-- A run-length file of 2 by 1 pixels to 1 by 1, and a raw one of 1 by 1 kept. -/
theorem witness_ConvertConverts :
    (∃ s : State, ∃ h : Header, ∃ stream image : List Byte, ∃ cs : List ChunkData,
      ∃ q : List InAnswer, ∃ r : List OutAnswer, s.isIdle = true ∧ s.pace = .runAhead ∧
      s.params.cfg.toNat = 0 ∧ h[2] = 10 ∧ h[1] = 0 ∧ h[16] = 24 ∧ 0 < h.width ∧ 0 < h.height ∧
      h[12].toNat + 256 * h[13].toNat = 2 ∧ h[14].toNat + 256 * h[15].toNat = 1 ∧
      s.params.dstW.toNat = 1 ∧ s.params.dstH.toNat = 1 ∧ 6 + 3 ≤ s.pbSize ∧ image.length = 6 ∧
      (∀ c ∈ cs, c.legal 3) ∧ streamBytes cs = stream ∧ streamImage cs = image ∧
      s.source = bytesOf (h.toList ++ stream) ++ q ∧
      s.sink = acks (18 + (encodePixels (pixelsOf 3 (destBytes (fun a => image.getD a 0)
        ⟨3, 0, 2, 1, 6, 1, 1⟩))).length) ++ r) ∧
    (∃ s : State, ∃ h : Header, ∃ image : List Byte, ∃ q : List InAnswer, ∃ r : List OutAnswer,
      s.isIdle = true ∧ s.pace = .runAhead ∧ s.params.cfg.toNat = 1 ∧ h[2] = 2 ∧ h[1] = 0 ∧
      h[16] = 32 ∧ 0 < h.width ∧ 0 < h.height ∧ h[12].toNat + 256 * h[13].toNat = 2 ∧
      h[14].toNat + 256 * h[15].toNat = 2 ∧ 1 ≤ 2 / 2 ∧ 16 + 4 ≤ s.pbSize ∧ image.length = 16 ∧
      s.source = bytesOf (h.toList ++ image) ++ q ∧
      s.sink = acks (18 + (destBytes (fun a => image.getD a 0) ⟨4, 0, 2, 2, 16, 1, 1⟩).length) ++ r) := by
  refine ⟨⟨drained (fed { blank with params := { Params.zero with dstW := 1, dstH := 1 } }
      ((header 10 2 1 24).toList ++ 0x81 :: pixelA) []) 22 [], header 10 2 1 24, 0x81 :: pixelA,
      pixelA ++ pixelA, [.rep 2 pixelA], [], [], rfl, rfl, rfl, rfl, rfl, rfl, by decide, by decide, rfl,
      rfl, rfl, rfl, by decide, rfl, ?_, rfl, rfl, rfl, by decide⟩,
    ⟨drained (fed { blank with params := { Params.zero with cfg := 1 } }
      ((header 2 2 2 32).toList ++ List.replicate 16 7) []) 22 [], header 2 2 2 32,
      List.replicate 16 7, [], [], rfl, rfl, rfl, rfl, rfl, rfl, by decide, by decide, rfl, rfl,
      by decide, by decide, rfl, rfl, by decide⟩⟩
  simp [ChunkData.legal, pixelA, maxChunk]

/-- V-X1, V-X7 and V-X10: each clause with its header; PB has 96 bytes. -/
theorem witness_ConvertRefusesAtValidate :
    ∀ h ∈ [header 1 4 4 32, header 2 1 4 32, header 2 8 8 24], ∃ s : State, ∃ q : List InAnswer,
      s.isIdle = true ∧ s.pace = .runAhead ∧ s.params.cfg.toNat / 2 ≠ 3 ∧
      s.source = bytesOf h.toList ++ q ∧
      (¬ (h[2] = 2 ∨ h[2] = 3 ∨ h[2] = 10) ∨
        (h.supported = true ∧ (h[12].toNat + 256 * h[13].toNat) / 2 < 1) ∨
        (h.supported = true ∧ 1 ≤ (h[12].toNat + 256 * h[13].toNat) / 2 ∧
          s.pbSize < 8 * 8 * 3 + 4 * 4 * 3)) := by
  intro h hh
  refine ⟨fed { blank with params := { Params.zero with cfg := 0x5 } } h.toList [], [],
    idle_of rfl, rfl, (by decide : 5 / 2 ≠ 3), rfl, ?_⟩
  fin_cases hh
  · exact .inl (by decide)
  · exact .inr (.inl (by decide))
  · exact .inr (.inr (by decide))

/-- V-X11's kind: the pixel stream ends early. And an error in each stage CONVERT can fail in. -/
theorem witness_ConvertErrorsLeaveTheOutputUntouched :
    (∃ s t : State, s.isIdle = true ∧ exec .convert s = .next t ∧ t.err = true ∧
      (t.errinfo.extractLsb' 0 4).toNat ≠ 5) ∧
    ∀ x ∈ [(0, converts 7 [] [] 0 []), (1, converts 1 [] [.eos] 0 []),
        (2, converts 1 (header 1 2 2 32).toList [] 0 []),
        (3, converts 1 (header 2 2 2 32).toList [.fail] 0 []),
        (5, converts 1 ((header 2 2 2 32).toList ++ List.replicate 16 7) [] 0 [.fail]),
        (6, converts 1 ((header 2 2 2 32).toList ++ List.replicate 16 7) [] 18 [.fail])],
      x.2.isIdle = true ∧ gives (exec .convert x.2) (fun t =>
        t.err && (t.errinfo.extractLsb' 4 4).toNat == x.1) = true := by
  constructor
  · let s := converts 1 ((header 2 2 2 32).toList ++ [1, 2]) [.eos] 0 []
    exact ⟨s, s.issue .convert, idle_of rfl, rfl, by decide, by decide⟩
  · decide

theorem witness_ConvertEqualsTheStandaloneScript :
    ∃ s t : State, s.isIdle = true ∧ s.pace = .runAhead ∧ 1 ≤ s.pbSize ∧ s.pbSize ≤ 2 ^ 32 ∧
      exec .convert s = .next t ∧ t.status = 0b010 ∧ t.seq = .idle := by
  let s := drained (fed { blank with params := { Params.zero with cfg := 1 } }
    ((header 2 2 2 32).toList ++ List.replicate 16 7) []) 22 []
  exact ⟨s, s.issue .convert, idle_of rfl, rfl, by decide, by decide, rfl, by decide, by decide⟩

/-- A run-length decode in progress meets the invariant. -/
theorem decoding_inv : ({ decoding 4 9 3 with agenda := [.engine] } : State).Inv := by
  refine ⟨⟨rfl, ⟨.inl rfl, (by decide : 13 ≤ 96), (by decide : 3 ≤ 9)⟩, trivial⟩, ?_,
    ⟨by decide, by decide, List.Pairwise.nil, by simp [decoding, blank, State.reset]⟩,
    by decide, by simp [decoding, blank, State.reset]⟩
  unfold State.errinfoLegal
  rw [if_neg (by decide)]
  rfl

/-- The state ERROR meets the invariant. -/
theorem broken_inv : broken.Inv := by
  refine ⟨rfl, ?_, ⟨by decide, by decide, List.Pairwise.nil, by simp [broken, blank, State.reset]⟩,
    by decide, by simp [broken, blank, State.reset]⟩
  unfold State.errinfoLegal
  rw [if_pos (by decide)]
  decide

/-- A DECRLE at a chunk boundary, over the buffer its registers name. -/
def decodingPlaced : State :=
  { codec 3 4 9 [] with
    status := 0b001, seq := .run .decrle none (.decodeRle ⟨4, 9, 3, 3⟩ .control), source := [.byte 0x81] }

theorem decodingPlaced_inv : decodingPlaced.Inv := by
  refine ⟨⟨rfl, ⟨.inl rfl, (by decide : 13 ≤ 96), (by decide : 3 ≤ 9)⟩, trivial⟩, ?_,
    ⟨by decide, by decide, List.Pairwise.nil, by simp [decodingPlaced, codec, blank, State.reset]⟩,
    by decide, by simp [decodingPlaced, codec, blank, State.reset]⟩
  unfold State.errinfoLegal
  rw [if_neg (by decide)]
  rfl

theorem decodingPlaced_placed : decodingPlaced.Placed :=
  ⟨.inl ⟨rfl, rfl, rfl, rfl⟩, fun _ h => by cases h⟩

theorem witness_StepKeepsTheInvariant :
    ∃ s t : State, s.Inv ∧ step s = .next t ∧ s.Placed :=
  ⟨_, _, decodingPlaced_inv, rfl, decodingPlaced_placed⟩

theorem witness_EngineNeverLeavesPb : ∃ s : State, s.Inv ∧ s.seq.active = true :=
  ⟨_, decoding_inv, rfl⟩

theorem witness_ErrorStandsUntilReset :
    ∃ s t : State, s.Inv ∧ s.seq = .error ∧ step s = .next t := ⟨_, _, broken_inv, rfl, rfl⟩

/-- The stream ends inside a decode. -/
theorem witness_ErrorEntryRecordsTheStage :
    ∃ s : State, s.seq.active = true ∧ s.engineStep.seq = .error :=
  ⟨fed (decoding 4 9 3) [] [.eos], by decide⟩

theorem witness_OnlySrstWritesParameters :
    (∃ s t : State, ∃ i : Instr, exec i s = .next t ∧ i ≠ .srst) ∧
    ∃ s t : State, s.engineTurn = .next t ∧ s.ready = true :=
  ⟨⟨blank, _, .rdhdr, rfl, by decide⟩, decodingPlaced, _, rfl, by decide⟩

theorem witness_FrameOfTheHeaderFiles :
    (∃ s t u : State, ∃ i j : Instr, exec i s = .next t ∧ i ≠ .rdhdr ∧ i ≠ .convert ∧
      exec j s = .next u ∧ j ≠ .drvhdr ∧ j ≠ .convert) ∧
    (∃ s t : State, ∃ cmd : Command, ∃ plan : Option Plan, ∃ cur : Cursor, s.Placed ∧
      s.engineTurn = .next t ∧ s.seq = .run cmd plan cur ∧ cmd ≠ .rdhdr ∧ cmd ≠ .drvhdr ∧
      cmd ≠ .convert ∧ cur.stage ≠ .hdrRead ∧ cur.stage ≠ .hdrWrite) ∧
    (∃ s t : State, s.Placed ∧ s.engineTurn = .next t ∧ s.seq.active = false) :=
  ⟨⟨blank, _, _, .wrhdr, .rdhdr, rfl, by decide, by decide, rfl, by decide, by decide⟩,
    ⟨decodingPlaced, _, _, _, _, decodingPlaced_placed, rfl, rfl, by decide, by decide, by decide,
      by decide, by decide⟩, blank, _, trivial, rfl, rfl⟩

/-- The bytes next to the codec buffer, to the destination region and to CONVERT's two regions, for
`exec`, for a chunk and for a turn of the engine. -/
theorem witness_FrameOfThePixelBuffer :
    (∃ s t u v : State, exec .decraw s = .next t ∧ exec .resample s = .next u ∧
      exec .convert s = .next v ∧
      outside s.params.bufBase.toNat s.params.bufLen.toNat 3 ∧
      outside s.params.bufBase.toNat s.params.bufLen.toNat 10 ∧
      outside s.params.dstBase.toNat
        (s.params.dstW.toNat * s.params.dstH.toNat * s.params.bpp.toNat) 10 ∧
      outside 0 ((planOf s.params v.hdrIn).srcBytes + (planOf s.params v.hdrIn).dstBytes) 10) ∧
    (∃ s t : State, ∃ i : Instr, ∃ cmd : Command, ∃ d : Decoder, exec i s = .next t ∧
      i.isCommand = false ∧ i.wellFormed = true ∧ s.seq = .run cmd none (.decodeRle d .control) ∧
      outside d.base d.size 3 ∧ outside d.base d.size 13) ∧
    (∃ s t : State, ∃ cmd : Command, ∃ plan : Option Plan, ∃ cur : Cursor, s.Inv ∧ s.Placed ∧
      s.seq = .run cmd plan cur ∧ s.engineTurn = .next t ∧ cmd = .decrle ∧
      outside s.params.bufBase.toNat s.params.bufLen.toNat 13) :=
  ⟨⟨codec 3 4 6 [], _, _, _, rfl, rfl, rfl, .inl (by decide), .inr (by decide), .inr (by decide),
      .inr (by decide)⟩,
    ⟨fed decodingPlaced pixelA [], _, .rep 2, .decrle, ⟨4, 9, 3, 3⟩, rfl, rfl, rfl, rfl,
      .inl (by decide), .inr (by decide)⟩,
    decodingPlaced, _, _, _, _, decodingPlaced_inv, decodingPlaced_placed, rfl, rfl, rfl,
    .inr (by decide)⟩

theorem witness_InputIsTakenInOrderAndCounted :
    (∃ s t : State, ∃ i : Instr, exec i s = .next t ∧ i ≠ .srst) ∧
    ∃ s t : State, ∃ cmd : Command, ∃ plan : Option Plan, ∃ cur : Cursor, s.Placed ∧
      s.engineTurn = .next t ∧ s.seq = .run cmd plan cur ∧ cmd = .encraw ∧
      cur.stage ≠ .hdrRead ∧ cur.stage ≠ .decode :=
  ⟨⟨fed blank [1, 2] [.eos], _, .rdhdr, rfl, by decide⟩,
    { drained blank 1 [] with status := 0b001, seq := .run .encraw none (.encode [7, 8]) }, _, .encraw,
    none, .encode [7, 8], ⟨.inl ⟨.inr rfl, rfl⟩, fun _ h => by cases h⟩, rfl, rfl, rfl, by decide,
    by decide⟩

theorem witness_OutputOnlyGrowsAndIsCounted :
    (∃ s t : State, ∃ i : Instr, exec i s = .next t ∧ i ≠ .srst) ∧
    ∃ s t : State, ∃ cmd : Command, ∃ plan : Option Plan, ∃ cur : Cursor, s.Placed ∧
      s.engineTurn = .next t ∧ s.seq = .run cmd plan cur ∧ cmd = .decrle ∧
      cur.stage ≠ .hdrWrite ∧ cur.stage ≠ .encode :=
  ⟨⟨drained blank 4 [.fail], _, .wrhdr, rfl, by decide⟩,
    decodingPlaced, _, _, _, _, decodingPlaced_placed, rfl, rfl, rfl, by decide, by decide⟩

theorem witness_PaceDoesNotChangeTheResult :
    ∃ s t u : State, ∃ i : Instr, i.isCommand = true ∧ s.isIdle = true ∧ s.seq = .idle ∧
      exec i { s with pace := .stepwise } = .next t ∧ exec i { s with pace := .runAhead } = .next u :=
  ⟨fed blank [1, 2] [.eos], _, _, .rdhdr, rfl, rfl, rfl, rfl, rfl⟩

end Sys2Proof.Tests
end

section
/-!
The family 20_memory.md: in a state that meets the invariant every region the engine may still
touch lies inside PB, so that a turn of the engine is never stopped (R40, R47).
-/

namespace Sys2Proof.Machine

/-- The two regions of legal operands lie inside PB (20_memory.md R47). -/
theorem Geometry.regions_le_of_legal {g : Geometry} {pbSize : Nat} (h : g.legal pbSize) :
    g.sbase + g.srcBytes ≤ pbSize ∧ g.dbase + g.dstBytes ≤ pbSize := by
  obtain ⟨-, -, -, -, -, hsrc, hdst, -⟩ := h
  exact ⟨hsrc, hdst⟩

/-- CONVERT puts the destination behind the source, so the end of its destination region is the
bound on both (20_memory.md R48). -/
theorem Plan.inPb_of_legal {p : Plan} {pbSize : Nat} (h : p.legal pbSize) :
    p.inPb pbSize = true := by
  obtain ⟨-, hdst, hg⟩ := h
  have hle : p.srcBytes + p.geometry.dstBytes ≤ pbSize := (Geometry.regions_le_of_legal hg).2
  have hlen : p.dstBytes = p.geometry.dstBytes := hdst
  exact decide_eq_true (hlen ▸ hle)

theorem Cursor.inPb_of_legal {cur : Cursor} {cmd : Command} {plan : Option Plan} {hdrOut : Header}
    {pbSize : Nat} (h : cur.legal cmd plan hdrOut pbSize) : cur.inPb pbSize = true := by
  cases cur with
  | decodeRaw base size done =>
    obtain ⟨hle, -⟩ := h
    exact decide_eq_true hle
  | decodeRle d pos =>
    obtain ⟨-, hle, -⟩ := h
    exact decide_eq_true hle
  | resample g =>
    obtain ⟨hsrc, hdst⟩ := Geometry.regions_le_of_legal h
    simp [Cursor.inPb, hsrc, hdst]
  | issue | hdrRead _ | validate | derive _ _ _ | hdrWrite _ | encode _ => rfl

/-- The guard of a turn passes wherever SEQ is legal. -/
theorem State.regionsInPb_of_seqLegal {s : State} (h : s.seqLegal) : s.regionsInPb = true := by
  unfold State.seqLegal at h
  unfold State.regionsInPb
  match hseq : s.seq with
  | .idle | .error => rfl
  | .run cmd none cur =>
    rw [hseq] at h
    obtain ⟨-, hcur, -⟩ := h
    exact Cursor.inPb_of_legal hcur
  | .run cmd (some p) cur =>
    rw [hseq] at h
    obtain ⟨-, hcur, -, hplan⟩ := h
    simp [Cursor.inPb_of_legal hcur, Plan.inPb_of_legal hplan]

/-- With the regions inside PB a turn is a next state: the engine's step, or no step at all. -/
theorem State.engineTurn_next_of_regionsInPb {s : State} (h : s.regionsInPb = true) :
    ∃ t : State, s.engineTurn = .next t ∧ s.Fixed t := by
  rcases s.engineTurn_cases with ⟨-, hturn⟩ | ⟨-, -, hturn⟩ | ⟨-, hout, -⟩
  · exact ⟨s, hturn, State.Fixed.refl s⟩
  · exact ⟨s.engineStep, hturn, State.Fixed.engineStep s⟩
  · rw [h] at hout
    cases hout

/-- Settles O50: a legal SEQ keeps every region inside PB, so the guard of a turn passes, and no
step of the engine changes PB_SIZE. -/
theorem engineNeverLeavesPb : Obligations.EngineNeverLeavesPb := by
  intro s hinv
  obtain ⟨hseq, -⟩ := hinv
  obtain ⟨t, hturn, hfixed⟩ :=
    State.engineTurn_next_of_regionsInPb (State.regionsInPb_of_seqLegal hseq)
  exact ⟨t, hturn, hfixed.pbSize⟩

end Sys2Proof.Machine
end

section
/-!
The family 30_encoding.md, the encodings: decoder and encoder are inverse on well-formed
instructions (R60, R61, R66 to R68, R70), and what follows for the words of the opcode map and for
a CMD write that is no command (R62).
-/

namespace Sys2Proof

/-! ### Command words (30_encoding.md R60, R61) -/

theorem zeroField_eq_zero_iff (w : Word) : zeroField w = 0 ↔ w.toNat < 256 := by
  have hlt : w.toNat < 2 ^ 32 := w.isLt
  rw [zeroField, ← BitVec.toNat_inj, BitVec.extractLsb'_toNat, Nat.shiftRight_eq_div_pow]
  change w.toNat / 2 ^ 8 % 2 ^ 24 = 0 ↔ w.toNat < 256
  omega

theorem opcodeField_setWidth (opc : Byte) : opcodeField (opc.setWidth 32) = opc :=
  BitVec.eq_of_toNat_eq (by simpa [opcodeField] using opc.isLt)

theorem setWidth_opcodeField {w : Word} (h : w.toNat < 256) : (opcodeField w).setWidth 32 = w :=
  BitVec.eq_of_toNat_eq (by simp [opcodeField]; omega)

theorem commandWord_eq (opc : Byte) : commandWord opc = ⟨32, opc.toNat⟩ :=
  congrArg (Encoded.mk 32) (BitVec.toNat_setWidth_of_le (by omega))

/-- The words that decode to a command are the opcodes of the map, zero-extended. -/
theorem decodeCommand_eq_ok_iff (w : Word) (i : Instr) :
    decodeCommand w = .ok i ↔ ∃ opc : Byte, w = opc.setWidth 32 ∧ decodeOpcode opc = some i := by
  constructor
  · intro h
    unfold decodeCommand at h
    split at h
    next hz =>
      refine ⟨opcodeField w, (setWidth_opcodeField ((zeroField_eq_zero_iff w).1 hz)).symm, ?_⟩
      split at h
      next j hj => rw [hj, Except.ok.inj h]
      next => cases h
    next => cases h
  · rintro ⟨opc, rfl, hopc⟩
    have hz : zeroField (opc.setWidth 32) = 0 := (zeroField_eq_zero_iff _).2 (by simp; omega)
    simp [decodeCommand, hz, opcodeField_setWidth, hopc]

/-- The encoder is written from the opcode map: an opcode's command is encoded by it. -/
theorem encode_of_decodeOpcode {opc : Byte} {i : Instr} (h : decodeOpcode opc = some i) :
    i.wellFormed = true ∧ encode i = commandWord opc := by
  unfold decodeOpcode at h
  split at h <;> simp only [Option.some.injEq, reduceCtorEq] at h
  all_goals
    rename_i hopc
    subst h
    exact ⟨rfl, by rw [commandWord_eq opc, hopc]; rfl⟩

/-! ### Control bytes (30_encoding.md R66 to R68) -/

theorem chunkCountOk_iff (count : Nat) : chunkCountOk count = true ↔ 1 ≤ count ∧ count ≤ 128 := by
  rw [chunkCountOk, maxChunk, Bool.and_eq_true, decide_eq_true_iff, decide_eq_true_iff]

theorem kindField_eq (c : Byte) : kindField c = decide (128 ≤ c.toNat) :=
  BitVec.msb_eq_decide c

theorem countField_eq (c : Byte) : countField c = c.toNat % 128 + 1 := by
  rw [countField, BitVec.toNat_and]
  exact congrArg (· + 1) (Nat.and_two_pow_sub_one_eq_mod c.toNat 7)

/-- Bit 7 of a control byte and its bits 6:0 do not overlap, so their union is a sum. -/
theorem controlByte_rep_toNat {count : Nat} (h : count ≤ 128) :
    (controlByte true count).toNat = 128 + (count - 1) := by
  have hlt : count - 1 < 2 ^ 7 := by omega
  have hmod : (count - 1) % 256 = count - 1 := by omega
  simpa [controlByte, hmod] using (Nat.two_pow_add_eq_or_of_lt hlt 1).symm

theorem controlByte_raw_toNat {count : Nat} (h : count ≤ 128) :
    (controlByte false count).toNat = count - 1 := by
  have hmod : (count - 1) % 256 = count - 1 := by omega
  simp [controlByte, hmod]

theorem decodeChunk_eq (c : Byte) :
    decodeChunk c =
      if 128 ≤ c.toNat then .rep (c.toNat % 128 + 1) else .raw (c.toNat % 128 + 1) := by
  simp [decodeChunk, kindField_eq, countField_eq]

/-- Settles O4: KIND is whether the byte is 128 or more, COUNT its remainder by 128, plus one. -/
theorem controlByteIsKindAndCount : Obligations.ControlByteIsKindAndCount := decodeChunk_eq

theorem decodeChunk_controlByte_rep {count : Nat} (h : chunkCountOk count = true) :
    decodeChunk (controlByte true count) = .rep count := by
  obtain ⟨hpos, hle⟩ := (chunkCountOk_iff count).1 h
  rw [decodeChunk_eq, controlByte_rep_toNat hle, if_pos (by omega)]
  exact congrArg Instr.rep (by omega)

theorem decodeChunk_controlByte_raw {count : Nat} (h : chunkCountOk count = true) :
    decodeChunk (controlByte false count) = .raw count := by
  obtain ⟨hpos, hle⟩ := (chunkCountOk_iff count).1 h
  rw [decodeChunk_eq, controlByte_raw_toNat hle, if_neg (by omega)]
  exact congrArg Instr.raw (by omega)

/-- Every control byte is that of a legal chunk (30_encoding.md R70). -/
theorem encode_decodeChunk (c : Byte) :
    (decodeChunk c).wellFormed = true ∧ encode (decodeChunk c) = ⟨8, c.toNat⟩ := by
  have hcount : chunkCountOk (c.toNat % 128 + 1) = true := (chunkCountOk_iff _).2 (by omega)
  have hle : c.toNat % 128 + 1 ≤ 128 := by omega
  have hlt : c.toNat < 256 := c.isLt
  rw [decodeChunk_eq]
  split
  next hrep =>
    exact ⟨hcount, congrArg (Encoded.mk 8) ((controlByte_rep_toNat hle).trans (by omega))⟩
  next hraw =>
    exact ⟨hcount, congrArg (Encoded.mk 8) ((controlByte_raw_toNat hle).trans (by omega))⟩

/-! ### Rows of the opcode table -/

/-- A 32-bit row is a command word. -/
theorem decodeTableWord_command (w : Word) (i : Instr) :
    decodeTableWord 32 w.toNat = some i ↔ decodeCommand w = .ok i := by
  have hlt : w.toNat < 2 ^ 32 := w.isLt
  rw [decodeTableWord, if_pos ⟨rfl, hlt⟩, BitVec.ofNat_toNat, BitVec.setWidth_eq]
  cases decodeCommand w <;> simp

/-- An 8-bit row is a control byte, and every byte is one. -/
theorem decodeTableWord_chunk (c : Byte) : decodeTableWord 8 c.toNat = some (decodeChunk c) := by
  have hlt : c.toNat < 2 ^ 8 := c.isLt
  rw [decodeTableWord, if_neg (by omega), if_pos ⟨rfl, hlt⟩, BitVec.ofNat_toNat, BitVec.setWidth_eq]

/-- What decodes at all is a command word or a control byte. -/
theorem decodeTableWord_cases {nbits w : Nat} {i : Instr} (h : decodeTableWord nbits w = some i) :
    (∃ opc : Byte, nbits = 32 ∧ w = opc.toNat ∧ decodeOpcode opc = some i) ∨
    (∃ c : Byte, nbits = 8 ∧ w = c.toNat ∧ decodeChunk c = i) := by
  by_cases h32 : nbits = 32 ∧ w < 2 ^ 32
  · obtain ⟨rfl, hlt⟩ := h32
    have hw : (BitVec.ofNat 32 w).toNat = w := Nat.mod_eq_of_lt hlt
    rw [← hw, decodeTableWord_command, decodeCommand_eq_ok_iff] at h
    obtain ⟨opc, hopc, hi⟩ := h
    refine .inl ⟨opc, rfl, ?_, hi⟩
    rw [← hw, hopc, BitVec.toNat_setWidth_of_le (by omega)]
  · by_cases h8 : nbits = 8 ∧ w < 2 ^ 8
    · obtain ⟨rfl, hlt⟩ := h8
      have hw : (BitVec.ofNat 8 w).toNat = w := Nat.mod_eq_of_lt hlt
      rw [← hw, decodeTableWord_chunk] at h
      exact .inr ⟨BitVec.ofNat 8 w, rfl, hw.symm, Option.some.inj h⟩
    · rw [decodeTableWord, if_neg h32, if_neg h8] at h
      cases h

theorem decodeTableWord_commandWord {opc : Byte} {i : Instr} (h : decodeOpcode opc = some i) :
    decodeTableWord (commandWord opc).nbits (commandWord opc).bits = some i :=
  (decodeTableWord_command _ _).2 ((decodeCommand_eq_ok_iff _ _).2 ⟨opc, rfl, h⟩)

/-- Settles O1: a command by its row of the opcode map, a chunk by its control byte. -/
theorem decodeOfEncodeIsTheInstruction : Obligations.DecodeOfEncodeIsTheInstruction := by
  intro i hi
  cases i with
  | rep count =>
    exact (decodeTableWord_chunk _).trans (congrArg some (decodeChunk_controlByte_rep hi))
  | raw count =>
    exact (decodeTableWord_chunk _).trans (congrArg some (decodeChunk_controlByte_raw hi))
  | nop | rdhdr | drvhdr | wrhdr | decrle | encrle | decraw | encraw | resample | convert | srst =>
    exact decodeTableWord_commandWord rfl

/-- Settles O2: a word that decodes is an opcode of the map or a control byte, and either is
encoded back. -/
theorem decodedWordIsTheEncoding : Obligations.DecodedWordIsTheEncoding := by
  intro nbits w i h
  rcases decodeTableWord_cases h with ⟨opc, rfl, rfl, hopc⟩ | ⟨c, rfl, rfl, rfl⟩
  · exact commandWord_eq opc ▸ encode_of_decodeOpcode hopc
  · exact encode_decodeChunk c

/-! ### The opcode map (30_encoding.md R61, R62) -/

/-- The command words in use. -/
theorem encode_command_bits {i : Instr} (h : (encode i).nbits = 32) :
    (encode i).bits ≤ 9 ∨ (encode i).bits = 255 := by
  cases i with
  | rep count | raw count => cases h
  | nop | rdhdr | drvhdr | wrhdr | decrle | encrle | decraw | encraw | resample | convert | srst =>
    decide

/-- A word that is none of the eleven command words does not decode. -/
theorem decodeTableWord_eq_none {w : Nat} (h : ¬ (w ≤ 9 ∨ w = 255)) :
    decodeTableWord 32 w = none := by
  refine Option.eq_none_iff_forall_ne_some.2 fun i hi => h ?_
  obtain ⟨-, henc⟩ := decodedWordIsTheEncoding 32 w i hi
  simpa [henc] using encode_command_bits (i := i) (by rw [henc])

/-- Settles O3: the words of the table by O1, the reserved opcodes by O2. -/
theorem wordsOfTheTableDecode : Obligations.WordsOfTheTableDecode := by
  have hdec := decodeOfEncodeIsTheInstruction
  exact ⟨hdec .nop rfl, hdec .rdhdr rfl, hdec .drvhdr rfl, hdec .wrhdr rfl, hdec .decrle rfl,
    hdec .encrle rfl, hdec .decraw rfl, hdec .encraw rfl, hdec .resample rfl, hdec .convert rfl,
    hdec .srst rfl, fun opc hlo hhi => decodeTableWord_eq_none (by omega), hdec (.rep 3) rfl,
    hdec (.raw 128) rfl⟩

end Sys2Proof

namespace Sys2Proof.Machine

/-- A CMD write of a word that is no command does what an illegal command does. -/
theorem cmdWrite_of_illegal {w : Word} (h : ¬ (w.toNat ≤ 9 ∨ w.toNat = 255)) (s : State) :
    cmdWrite w s = .next s.illegalCommand := by
  unfold cmdWrite
  split
  next i hi =>
    rw [← decodeTableWord_command, decodeTableWord_eq_none h] at hi
    cases hi
  next => rfl

/-- Settles O5: the step takes the CMD write, whose word is no command, so IDLE gives error entry
with BadCommand at ISSUE. -/
theorem illegalCommandEntersError : Obligations.IllegalCommandEntersError := by
  intro s w es hag hidle hw
  have hidle' : ({ s with agenda := es } : State).isIdle = true := hidle
  calc step s = cmdWrite w { s with agenda := es } := step_cons s hag
    _ = .next ({ s with agenda := es } : State).illegalCommand := cmdWrite_of_illegal hw _
    _ = _ := by rw [State.illegalCommand, if_pos hidle']; rfl

end Sys2Proof.Machine
end

section
/-!
The family 30_encoding.md, the chunks: a chunk that fits takes its pixels, writes what it stands for
and hands DECODE on (R66 to R69; 41_rle_codec.md R102, R104 a), and nothing else gives a chunk a
meaning.
-/

namespace Sys2Proof.Machine

/-! ### After a chunk or DECODE -/

theorem State.afterDecode_of_plan_none (s : State) {cmd : Command} {cur : Cursor}
    (h : s.seq = .run cmd none cur) : s.afterDecode = s.complete := by
  simp [State.afterDecode, h, Sequencer.plan]

theorem State.afterDecode_of_plan_some (s : State) {cmd : Command} {p : Plan} {cur : Cursor}
    (h : s.seq = .run cmd (some p) cur) : s.afterDecode = s.moveTo (.resample p.geometry) := by
  simp [State.afterDecode, h, Sequencer.plan]

/-- The end of a chunk moves SEQ, and STATUS where it completes the command. -/
theorem State.chunkEnd_frame (s : State) (d : Decoder) :
    s.chunkEnd d = { s with status := (s.chunkEnd d).status, seq := (s.chunkEnd d).seq } := by
  unfold State.chunkEnd State.afterDecode
  split
  · rfl
  · split <;> rfl

theorem State.chunkEnd_pbByte (s : State) (d : Decoder) (a : Nat) :
    (s.chunkEnd d).pbByte a = s.pbByte a := by
  rw [s.chunkEnd_frame d]; rfl

/-- Short of `size` the decoder stands at the next control byte. -/
theorem State.chunkEnd_of_lt (s : State) {d : Decoder} {cmd : Command} {plan : Option Plan}
    {cur : Cursor} (hseq : s.seq = .run cmd plan cur) (hlt : d.emitted < d.size) :
    (s.chunkEnd d).status = s.status ∧
      (s.chunkEnd d).seq = .run cmd plan (.decodeRle d .control) := by
  simp [State.chunkEnd, hlt, hseq, Sequencer.moveTo]

/-- At `size` DECODE has ended: a decode command is complete, CONVERT resamples. -/
theorem State.chunkEnd_of_eq (s : State) {d : Decoder} {cmd : Command} {plan : Option Plan}
    {cur : Cursor} (hseq : s.seq = .run cmd plan cur) (heq : d.emitted = d.size) :
    (plan = none → (s.chunkEnd d).status = 0b010 ∧ (s.chunkEnd d).seq = .idle) ∧
    (∀ p : Plan, plan = some p → (s.chunkEnd d).status = s.status ∧
      (s.chunkEnd d).seq = .run cmd plan (.resample p.geometry)) := by
  rw [State.chunkEnd, if_neg (by omega)]
  constructor
  · rintro rfl
    rw [s.afterDecode_of_plan_none hseq]
    exact ⟨rfl, rfl⟩
  · rintro p rfl
    rw [s.afterDecode_of_plan_some hseq]
    simp [hseq, Sequencer.moveTo]

/-! ### Taking the pixels -/

theorem State.runChunk_ready (s : State) (d : Decoder) (kind : ChunkKind) (count : Nat)
    {px : Pixel} {q : List InAnswer} (hpx : px.length = d.bpp) (hs : s.source = bytesOf px ++ q) :
    s.runChunk d kind count = (s.afterTake ⟨px, q, .full⟩).chunkBody d kind count px := by
  have htake : takeN d.bpp s.source = ⟨px, q, .full⟩ := by rw [← hpx, hs, takeN_bytesOf]
  simp [State.runChunk, State.chunkPixel, htake]

theorem State.rawRest_ready (s : State) (d : Decoder) {bs : List Byte} {q : List InAnswer}
    (hs : s.source = bytesOf bs ++ q) :
    s.rawRest d bs.length =
      ((s.afterTake ⟨bs, q, .full⟩).memWrite (d.base + d.emitted) bs).chunkEnd
        { d with emitted := d.emitted + bs.length } := by
  simp [State.rawRest, hs, takeN_bytesOf]

/-- Two requests met one after the other, their bytes written one after the other, are one. -/
theorem State.memWrite_afterTake_append (s : State) (a : Nat) (xs ys : List Byte)
    (p q : List InAnswer) :
    (((s.afterTake ⟨xs, p, .full⟩).memWrite a xs).afterTake ⟨ys, q, .full⟩).memWrite
        (a + xs.length) ys =
      (s.afterTake ⟨xs ++ ys, q, .full⟩).memWrite a (xs ++ ys) := by
  simp [State.afterTake, State.memWrite, Memory.setBlock_append, BitVec.ofNat_add, BitVec.add_assoc]

/-! ### A chunk that fits -/

/-- The state after a chunk whose bytes `taken` have been taken, `image` being what it stands for. -/
def State.afterChunk (s : State) (d : Decoder) (taken : List Byte) (q : List InAnswer)
    (image : List Byte) : State :=
  ((s.afterTake ⟨taken, q, .full⟩).memWrite (d.base + d.emitted) image).chunkEnd
    { d with emitted := d.emitted + image.length }

theorem State.runChunk_rep (s : State) (d : Decoder) {count : Nat} {px : Pixel}
    {q : List InAnswer} (hpx : px.length = d.bpp) (hfit : d.emitted + count * d.bpp ≤ d.size)
    (hs : s.source = bytesOf px ++ q) :
    s.runChunk d .rep count = s.afterChunk d px q (List.replicate count px).flatten := by
  rw [s.runChunk_ready d .rep count hpx hs, State.chunkBody, if_neg (by omega)]
  simp [State.afterChunk, hpx]

theorem State.runChunk_raw (s : State) (d : Decoder) {count : Nat} {bs : List Byte}
    {q : List InAnswer} (hpos : 1 ≤ count) (hbs : bs.length = count * d.bpp)
    (hfit : d.emitted + count * d.bpp ≤ d.size) (hs : s.source = bytesOf bs ++ q) :
    s.runChunk d .raw count = s.afterChunk d bs q bs := by
  obtain ⟨n, rfl⟩ : ∃ n, count = n + 1 := ⟨count - 1, by omega⟩
  obtain ⟨px, rest, rfl, hpx⟩ : ∃ px rest, bs = px ++ rest ∧ px.length = d.bpp :=
    ⟨bs.take d.bpp, bs.drop d.bpp, (List.take_append_drop _ _).symm,
      List.length_take_of_le (by rw [hbs, Nat.succ_mul]; omega)⟩
  have hrest : n * d.bpp = rest.length := by
    rw [List.length_append, Nat.succ_mul] at hbs; omega
  rw [bytesOf_append, List.append_assoc] at hs
  rw [s.runChunk_ready d .raw _ hpx hs, State.chunkBody, if_neg (by omega)]
  simp only [Nat.add_sub_cancel, hrest]
  rw [State.rawRest_ready _ _ (q := q) (by simp)]
  have hplace : d.base + (d.emitted + d.bpp) = d.base + d.emitted + px.length := by omega
  have hend : d.emitted + d.bpp + rest.length = d.emitted + (px ++ rest).length := by
    rw [List.length_append]; omega
  simp only [hplace, hend]
  rw [State.memWrite_afterTake_append, State.afterChunk]

/-- PB inside the chunk's place: the bytes it stands for. -/
theorem State.afterChunk_pbByte (s : State) (d : Decoder) (taken : List Byte) (q : List InAnswer)
    (image : List Byte) {j : Nat} (hj : j < image.length) :
    (s.afterChunk d taken q image).pbByte (d.base + d.emitted + j) = image[j] := by
  rw [State.afterChunk, State.chunkEnd_pbByte, State.pbByte_memWrite, dif_pos (by omega)]
  simp only [Nat.add_sub_cancel_left]

section
variable (s : State) {cmd : Command} {plan : Option Plan} (d : Decoder) (taken : List Byte)
  (q : List InAnswer) {image : List Byte} {len : Nat} (hlen : image.length = len)
include hlen

theorem State.afterChunk_pbByte_outside (a : Nat) (ha : outside (d.base + d.emitted) len a) :
    (s.afterChunk d taken q image).pbByte a = s.pbByte a := by
  have hout : ¬ (d.base + d.emitted ≤ a ∧ a < d.base + d.emitted + image.length) := by
    rcases ha with h | h <;> omega
  rw [State.afterChunk, State.chunkEnd_pbByte, State.pbByte_memWrite, dif_neg hout]
  exact State.pbByte_congr rfl rfl rfl a

theorem State.afterChunk_of_lt (hseq : s.seq = .run cmd plan (.decodeRle d .control))
    (hlt : d.emitted + len < d.size) :
    (s.afterChunk d taken q image).status = s.status ∧
      (s.afterChunk d taken q image).seq =
        .run cmd plan (.decodeRle { d with emitted := d.emitted + len } .control) := by
  subst hlen
  exact State.chunkEnd_of_lt _ hseq hlt

theorem State.afterChunk_of_eq (hseq : s.seq = .run cmd plan (.decodeRle d .control))
    (heq : d.emitted + len = d.size) :
    (plan = none → (s.afterChunk d taken q image).status = 0b010 ∧
      (s.afterChunk d taken q image).seq = .idle) ∧
    (∀ p : Plan, plan = some p → (s.afterChunk d taken q image).status = s.status ∧
      (s.afterChunk d taken q image).seq = .run cmd plan (.resample p.geometry)) := by
  subst hlen
  exact State.chunkEnd_of_eq _ hseq heq

end

theorem State.afterChunk_frame (s : State) (d : Decoder) (taken : List Byte) (q : List InAnswer)
    (image : List Byte) {n : Nat} (hn : taken.length = n) :
    s.afterChunk d taken q image = { s with
      status := (s.afterChunk d taken q image).status
      seq := (s.afterChunk d taken q image).seq, source := q
      inCount := s.inCount + BitVec.ofNat 32 n
      pb := (s.afterChunk d taken q image).pb } := by
  subst hn
  rw [State.afterChunk, State.chunkEnd_frame]
  rfl

/-- Byte `j` of copy `n` of a repeated pixel is the pixel's byte `j`. -/
theorem getElem?_flatten_replicate {px : Pixel} {count n j : Nat} (hn : n < count)
    (hj : j < px.length) :
    (List.replicate count px).flatten[n * px.length + j]? = px[j]? := by
  induction count generalizing n with
  | zero => omega
  | succ count ih =>
    rw [List.replicate_succ, List.flatten_cons]
    cases n with
    | zero => simpa using List.getElem?_append_left hj
    | succ n =>
      rw [Nat.succ_mul, List.getElem?_append_right (by omega)]
      have hsub : n * px.length + px.length + j - px.length = n * px.length + j := by omega
      rw [hsub]
      exact ih (by omega)

/-- Settles O31: the chunk runs to `State.afterChunk` with `count` copies of its pixel as image. -/
theorem repChunkRepeatsThePixel : Obligations.RepChunkRepeatsThePixel := by
  intro s cmd plan d count px q hseq hpb hpos _ hbpp hpx hfit hs
  have hlt : d.emitted < d.size := by
    have := Nat.mul_pos hpos hbpp
    omega
  have hlen : (List.replicate count px).flatten.length = count * d.bpp := by simp [hpx]
  refine ⟨s.afterChunk d px q (List.replicate count px).flatten, ?_, ?_,
    s.afterChunk_pbByte_outside d px q hlen, s.afterChunk_of_lt d px q hlen hseq,
    s.afterChunk_of_eq d px q hlen hseq, s.afterChunk_frame d px q _ hpx⟩
  · exact (s.execChunk_control .rep count hseq hlt hpb).trans
      (congrArg _ (s.runChunk_rep d hpx hfit hs))
  · intro j hj n hn
    rw [← hpx]
    have hbyte := getElem?_flatten_replicate hn hj
    rw [List.getElem?_eq_getElem hj, List.getElem?_eq_some_iff] at hbyte
    obtain ⟨hin, hbyte⟩ := hbyte
    rw [s.afterChunk_pbByte d px q _ hin, hbyte]

/-- Settles O32: the chunk runs to `State.afterChunk` with its own pixels as image. -/
theorem rawChunkCopiesThePixels : Obligations.RawChunkCopiesThePixels := by
  intro s cmd plan d count bs q hseq hpb hpos _ hbpp hbs hfit hs
  have hlt : d.emitted < d.size := by
    have := Nat.mul_pos hpos hbpp
    omega
  refine ⟨s.afterChunk d bs q bs, ?_, fun j hj => s.afterChunk_pbByte d bs q bs hj,
    s.afterChunk_pbByte_outside d bs q hbs, s.afterChunk_of_lt d bs q hbs hseq,
    s.afterChunk_of_eq d bs q hbs hseq, s.afterChunk_frame d bs q _ hbs⟩
  exact (s.execChunk_control .raw count hseq hlt hpb).trans
    (congrArg _ (s.runChunk_raw d hpos hbs hfit hs))

/-! ### Where a chunk has a meaning -/

theorem State.execChunk_refused (s : State) (kind : ChunkKind) (count : Nat)
    (h : ∀ (cmd : Command) (plan : Option Plan) (d : Decoder),
      s.seq = .run cmd plan (.decodeRle d .control) → d.size ≤ d.emitted) :
    s.execChunk kind count = .refused .chunkOutsideDecode := by
  unfold State.execChunk
  split
  next cmd plan d hseq =>
    have := h cmd plan d hseq
    rw [if_neg (by omega)]
  next => rfl

/-- Settles O33: both kinds of chunk are refused outside DECODE's boundaries. -/
theorem chunkOutsideDecodeIsRefused : Obligations.ChunkOutsideDecodeIsRefused :=
  fun s count h => ⟨s.execChunk_refused .rep count h, s.execChunk_refused .raw count h⟩

/-! ### The engine's step at a chunk boundary -/

/-- `exec` of the chunk a control byte stands for, at a chunk boundary. -/
theorem exec_decodeChunk (s : State) (c : Byte) {cmd : Command} {plan : Option Plan} {d : Decoder}
    (h : s.seq = .run cmd plan (.decodeRle d .control)) (hd : d.emitted < d.size) :
    exec (decodeChunk c) s =
      if s.regionsInPb then .next (s.runChunkOf d (decodeChunk c)) else .fault .pbRange := by
  unfold decodeChunk
  split
  · simp [exec, execRep, State.execChunk, h, hd, State.runChunkOf]
  · simp [exec, execRaw, State.execChunk, h, hd, State.runChunkOf]

/-- Settles O13: the engine is ready, its step takes the control byte, and the test of the regions
is the one `exec` makes, as the byte taken changes neither SEQ nor PB_SIZE. -/
theorem stepRunsTheChunkTaken : Obligations.StepRunsTheChunkTaken := by
  intro s cmd plan d c q hag hseq hd hs
  have hready : s.ready = true :=
    (s.ready_run hseq).2 (.inr (.inl ⟨by simp [Cursor.pending, Cursor.offers, Cursor.wanted, hd],
      by simp [hs]⟩))
  have hstep : s.engineStep =
      ({ s with source := q, inCount := s.inCount + 1 } : State).runChunkOf d (decodeChunk c) := by
    rw [s.engineStep_run hseq]
    simp [State.stageStep, State.controlStage, hd, hs]
  rw [step_nil s hag, State.engineTurn, if_pos hready, hstep,
    exec_decodeChunk { s with source := q, inCount := s.inCount + 1 } c hseq hd]
  rfl

end Sys2Proof.Machine
end

section
/-!
The run of a command under the pace `runAhead`: when the engine can move, the driver over one stage,
and what each stage that uses a port gives on answers that are ready (30_encoding.md R63;
60_exceptions.md R183).
-/

namespace Sys2Proof.Machine

/-! ### When the engine can move (10_state.md R23, R24) -/

section
variable {s : State} {cmd : Command} {plan : Option Plan} {cur : Cursor}
  (h : s.seq = .run cmd plan cur)
include h

theorem State.ready_of_source (ho : cur.offers = []) (hs : cur.wanted = 0 ∨ s.source ≠ []) :
    s.ready = true := by
  rw [s.ready_run h]
  by_cases hw : cur.wanted = 0
  · exact .inl (by simp [Cursor.pending, ho, hw])
  · exact .inr (.inl ⟨by simp [Cursor.pending, ho, hw], hs.resolve_left hw⟩)

theorem State.ready_of_sink (hw : cur.wanted = 0) (hs : s.sink ≠ []) : s.ready = true := by
  rw [s.ready_run h]
  match ho : cur.offers with
  | [] => exact .inl (by simp [Cursor.pending, ho, hw])
  | b :: _ => exact .inr (.inr ⟨⟨b, by simp [Cursor.pending, ho]⟩, hs⟩)

/-- One step of the driver is the stage the cursor is in. -/
theorem State.drive_step {t : State} (hr : s.ready = true) (hstage : s.stageStep cmd cur = t)
    (n : Nat) : s.drive (n + 1) = t.drive n := by
  rw [s.drive_succ n hr, s.engineStep_run h, hstage]

end

theorem State.drive_trans {s t u : State} {m n : Nat} (hm : s.drive m = t) (hn : t.drive n = u) :
    s.drive (m + n) = u := by
  rw [s.drive_add, hm, hn]

theorem bytesOf_append_ne_nil {bs : List Byte} (h : 0 < bs.length) (q : List InAnswer) :
    bytesOf bs ++ q ≠ [] := by
  refine List.ne_nil_of_length_pos ?_
  rw [List.length_append, bytesOf_length]
  omega

theorem bytesOf_append_cons_ne_nil (bs : List Byte) (ans : InAnswer) (q : List InAnswer) :
    bytesOf bs ++ ans :: q ≠ [] :=
  List.append_ne_nil_of_right_ne_nil _ (List.cons_ne_nil _ _)

theorem acks_append_ne_nil (n : Nat) (ans : OutAnswer) (r : List OutAnswer) :
    acks n ++ ans :: r ≠ [] :=
  List.append_ne_nil_of_right_ne_nil _ (List.cons_ne_nil _ _)

/-! ### From `exec` to the driver -/

/-- A command runs to the state where the driver comes to a stop within the steps it has. -/
theorem exec_eq_of_drive {i : Instr} {cmd : Command} {s t : State} {n : Nat}
    (hi : commandOf i = some cmd) (hidle : s.isIdle = true) (hpace : s.pace = .runAhead)
    (hn : n ≤ 3 * s.source.length + s.sink.length + 15)
    (hdrive : ((s.accept cmd).issueStage cmd).drive n = t) (hstop : t.ready = false) :
    exec i s = .next t := by
  subst hdrive
  rw [exec_of_commandOf hi, s.issue_runAhead cmd hidle hpace, s.settle_accept,
    State.drive_of_le _ hn hstop]

/-- A command of one stage after ISSUE, which ends it. -/
theorem exec_eq_of_stage {i : Instr} {cmd : Command} {s t : State} {cur : Cursor}
    (hi : commandOf i = some cmd) (hidle : s.isIdle = true) (hpace : s.pace = .runAhead)
    (hissue : (s.accept cmd).issueStage cmd = (s.accept cmd).moveTo cur)
    (hready : ((s.accept cmd).moveTo cur).ready = true)
    (hstage : ((s.accept cmd).moveTo cur).stageStep cmd cur = t) (hstop : t.ready = false) :
    exec i s = .next t := by
  refine exec_eq_of_drive hi hidle hpace (n := 1) (by omega) ?_ hstop
  rw [hissue, State.drive_step rfl hready hstage 0, State.drive_zero]

/-! ### ISSUE of a command whose checks pass -/

theorem State.rawCheck_of_bufInPb {s : State} (h : s.bufInPb) : s.rawCheck = none :=
  (s.rawCheck_eq.resolve_right fun ⟨hout, _⟩ => hout h).2

theorem State.rleCheck_of_legal {s : State} (hbpp : s.params.bpp.toNat = 3 ∨ s.params.bpp.toNat = 4)
    (hlen : s.params.bufLen.toNat % s.params.bpp.toNat = 0) (h : s.bufInPb) :
    s.rleCheck = none := by
  rcases s.rleCheck_eq with ⟨-, -, -, hc⟩ | ⟨hbad, -⟩ | ⟨-, -, hout, -⟩
  · exact hc
  · exact absurd hbad (by tauto)
  · exact absurd h hout

theorem State.convertCheck_of_otype {s : State} (h : s.params.cfg.toNat / 2 ≠ 3) :
    s.convertCheck = none :=
  if_neg fun hc => h ((s.params.otype_eq_iff 3 (by decide)).mp hc)

theorem State.issueStage_decraw {s : State} (h : s.bufInPb) :
    (s.accept .decraw).issueStage .decraw = (s.accept .decraw).moveTo
      (.decodeRaw s.params.bufBase.toNat s.params.bufLen.toNat 0) :=
  congrArg (fun c => (s.accept .decraw).checked c _)
    (State.rawCheck_of_bufInPb (s := s.accept .decraw) h)

theorem State.issueStage_encraw {s : State} (h : s.bufInPb) :
    (s.accept .encraw).issueStage .encraw = (s.accept .encraw).moveTo
      (.encode (s.memRead s.params.bufBase.toNat s.params.bufLen.toNat)) :=
  congrArg (fun c => (s.accept .encraw).checked c _)
    (State.rawCheck_of_bufInPb (s := s.accept .encraw) h)

theorem State.issueStage_encrle {s : State}
    (hbpp : s.params.bpp.toNat = 3 ∨ s.params.bpp.toNat = 4)
    (hlen : s.params.bufLen.toNat % s.params.bpp.toNat = 0) (h : s.bufInPb) :
    (s.accept .encrle).issueStage .encrle = (s.accept .encrle).moveTo
      (.encode (s.rleBytes s.params.bufBase.toNat s.params.bufLen.toNat s.params.bpp.toNat)) :=
  congrArg (fun c => (s.accept .encrle).checked c _)
    (State.rleCheck_of_legal (s := s.accept .encrle) hbpp hlen h)

/-- CONVERT with a legal CFG.OTYPE goes on to HDR_READ (44_pipeline.md R152). -/
theorem State.issueStage_convert {s : State} (h : s.params.cfg.toNat / 2 ≠ 3) :
    (s.accept .convert).issueStage .convert = (s.accept .convert).moveTo (.hdrRead 0) :=
  congrArg (fun c => (s.accept .convert).checked c _)
    (State.convertCheck_of_otype (s := s.accept .convert) h)

/-! ### Stages that take bytes -/

/-- The answer that ends a stream early, and the error it raises (60_exceptions.md R183). -/
theorem State.onTaken_short (s next : State) (eos : Bool) (e : ErrorCode) (cur : Cursor) :
    s.onTaken (if eos then .eos else .failed) e next cur =
      s.raise (if eos then e else .ioError) := by
  cases eos <;> rfl

theorem State.hdrReadStage_full (s : State) {h : Header} {q : List InAnswer}
    (hs : s.source = bytesOf h.toList ++ q) :
    s.hdrReadStage 0 = ({ s with
      hdrIn := h, source := q, inCount := s.inCount + 18 } : State).afterHdrRead := by
  have htake : takeN 18 s.source = ⟨h.toList, q, .full⟩ := by
    rw [hs, ← takeN_bytesOf h.toList q, Vector.length_toList]
  simp [State.hdrReadStage, htake, Header.store_toList, State.afterTake]

section
variable (s : State) {bs : List Byte} {q : List InAnswer} {eos : Bool}
  (hs : s.source = bytesOf bs ++ (if eos then InAnswer.eos else InAnswer.fail) :: q)
include hs

theorem State.hdrReadStage_short (hlen : bs.length < 18) :
    s.hdrReadStage 0 =
      ({ s.afterTake ⟨bs, q, if eos then .eos else .failed⟩ with
        hdrIn := s.hdrIn.store 0 bs } : State).raise
          (if eos then .truncatedHeader else .ioError) := by
  simp [State.hdrReadStage, hs, takeN_short bs 18 q eos hlen, State.onTaken_short]

theorem State.decodeRawStage_short (base : Nat) {size : Nat} (hlen : bs.length < size) :
    s.decodeRawStage base size 0 =
      ((s.afterTake ⟨bs, q, if eos then .eos else .failed⟩).memWrite base bs).raise
        (if eos then .truncatedData else .ioError) := by
  simp [State.decodeRawStage, hs, takeN_short bs size q eos hlen, State.onTaken_short]

end

/-! ### Stages that offer bytes -/

/-- The frame of a `PutN` that got `n` acknowledgements (10_state.md R21, R24). -/
theorem State.afterPut_take (s : State) {bs unsent : List Byte} {n : Nat} {r : List OutAnswer}
    {e : PutEnd} (hn : n ≤ bs.length) :
    s.afterPut ⟨bs.take n, unsent, r, e⟩ = { s with
      sink := r, out := s.out ++ bs.take n, outCount := s.outCount + BitVec.ofNat 32 n } := by
  simp [State.afterPut, Nat.min_eq_left hn]

theorem State.hdrWriteStage_full (s : State) (h : Header) {r : List OutAnswer}
    (hs : s.sink = acks 18 ++ r) :
    s.hdrWriteStage h.toList = ({ s with
      sink := r, out := s.out ++ h.toList
      outCount := s.outCount + 18 } : State).afterHdrWrite := by
  have hput : putN h.toList s.sink = ⟨h.toList, [], r, .full⟩ := by
    rw [hs, ← putN_acks h.toList r, Vector.length_toList]
  simp [State.hdrWriteStage, hput, State.afterPut]

section
variable (s : State) {left : List Byte} {n : Nat} {r : List OutAnswer}
  (hs : s.sink = acks n ++ .fail :: r) (hn : n < left.length)
include hs hn

theorem State.hdrWriteStage_failed :
    s.hdrWriteStage left = ({ s with
      sink := r, out := s.out ++ left.take n
      outCount := s.outCount + BitVec.ofNat 32 n } : State).raise .writeFailed := by
  simp only [State.hdrWriteStage, hs, putN_short left n r hn, State.onGiven_failed,
    State.afterPut_take _ hn.le]

theorem State.encodeStage_failed :
    s.encodeStage left = ({ s with
      sink := r, out := s.out ++ left.take n
      outCount := s.outCount + BitVec.ofNat 32 n } : State).raise .writeFailed := by
  simp only [State.encodeStage, hs, putN_short left n r hn, State.onGiven_failed,
    State.afterPut_take _ hn.le]

end

/-! ### What a failure leaves of PB and of HDR_IN (60_exceptions.md R188) -/

theorem Config.getElem_freeHeader (d k : Nat) (h : k < 18) :
    (Config.freeHeader d)[k] = Config.freeByte d k := by
  interval_cases k <;> rfl

theorem State.pbByte_memWrite_outside (s : State) {base len a x : Nat} {v : List Byte}
    (hlo : base ≤ a) (hhi : a + v.length ≤ base + len) (hx : outside base len x) :
    (s.memWrite a v).pbByte x = s.pbByte x := by
  rw [State.pbByte_memWrite, dif_neg (by unfold outside at hx; omega)]

/-- The frame of an error in a stage that spoils nothing. -/
theorem State.raise_of_spoil_self {s : State} {e : ErrorCode} {code : Byte} (hspoil : s.spoil = s)
    (hcode : errinfoOf e s.seq.stage = code) :
    s.raise e = { s with status := 0b100, errinfo := code, seq := .error } := by
  subst hcode
  exact s.raise_eq_enterError e hspoil

/-- The frame of an error in a stage that frees HDR_IN. -/
theorem State.raise_of_freeHdrIn {s : State} {e : ErrorCode} {code : Byte}
    (hspoil : s.spoil = s.freeHdrIn) (hcode : errinfoOf e s.seq.stage = code) :
    s.raise e = { s with
      status := 0b100, errinfo := code, seq := .error
      hdrIn := (s.raise e).hdrIn, draws := (s.raise e).draws } := by
  subst hcode
  rw [State.raise, hspoil]
  rfl

/-- The frame of an error in a stage that frees a region of PB. -/
theorem State.raise_of_freePb {s : State} {base len : Nat} {e : ErrorCode} {code : Byte}
    (hspoil : s.spoil = s.freePb base len) (hcode : errinfoOf e s.seq.stage = code) :
    s.raise e = { s with
      status := 0b100, errinfo := code, seq := .error
      pb := (s.raise e).pb, pbFree := (s.raise e).pbFree, draws := (s.raise e).draws } := by
  subst hcode
  rw [State.raise, hspoil]
  rfl

/-- A region that the failing stage frees, after writes inside it alone, is freed. -/
theorem freedPb_raise {s t : State} {base len : Nat} (e : ErrorCode)
    (hspoil : t.spoil = t.freePb base len) (hd : t.draws = s.draws)
    (hf : ∀ a, outside base len a → t.pbByte a = s.pbByte a) :
    freedPb s (t.raise e) base len := by
  have hraise : ∀ a, (t.raise e).pbByte a = (t.freePb base len).pbByte a := fun a => by
    rw [State.raise, hspoil]; rfl
  obtain ⟨hin, hout⟩ := freedPb_of_frame (freedPb_freePb t base len) hd hf
  exact ⟨fun k hk => (hraise _).trans (hin k hk), fun a ha => (hraise a).trans (hout a ha)⟩

end Sys2Proof.Machine
end

section
/-!
The family 40_header.md, the header commands on ports that are ready (R91 to R93).
-/

namespace Sys2Proof.Machine

/-- Settles O20: HDR_READ takes all 18 bytes and ends the command. -/
theorem rdhdrReadsTheRecord : Obligations.RdhdrReadsTheRecord := by
  intro s h q hidle hpace hs
  have hsource : s.source ≠ [] := hs ▸ bytesOf_append_ne_nil (by simp) q
  exact exec_eq_of_stage (cur := .hdrRead 0) rfl hidle hpace rfl
    (State.ready_of_source rfl rfl (.inr hsource)) (State.hdrReadStage_full _ hs)
    (State.ready_idle _ rfl)

/-- Settles O22: HDR_WRITE derives the record, byte by byte as `Header.getElem_derive` says, and
uses no port. -/
theorem drvhdrDerivesTheOutputHeader : Obligations.DrvhdrDerivesTheOutputHeader := by
  intro s hidle hpace
  refine ⟨_, exec_eq_of_stage rfl hidle hpace rfl (State.ready_of_source rfl rfl (.inl rfl)) rfl
    (State.ready_idle _ rfl), Header.getElem_derive .., ?_, ?_, ?_, ?_, ?_, rfl⟩
  · exact (congrArg _ (Header.getElem_derive ..)).trans (lo8_toNat _)
  · exact (congrArg _ (Header.getElem_derive ..)).trans (hi8_toNat _)
  · exact (congrArg _ (Header.getElem_derive ..)).trans (lo8_toNat _)
  · exact (congrArg _ (Header.getElem_derive ..)).trans (hi8_toNat _)
  · obtain ⟨-, -, -, hcopy⟩ :=
      derivedHeader_derive s.hdrIn s.params.dstW s.params.dstH s.params.outType
    exact hcopy

/-- Settles O23: HDR_WRITE offers the 18 bytes, all are acknowledged, and the command ends. -/
theorem wrhdrWritesTheRecord : Obligations.WrhdrWritesTheRecord := by
  intro s r hidle hpace hs
  have hsink : s.sink ≠ [] := hs ▸ List.cons_ne_nil _ _
  exact exec_eq_of_stage (cur := .hdrWrite s.hdrOut.toList) rfl hidle hpace rfl
    (State.ready_of_sink rfl rfl hsink) (State.hdrWriteStage_full _ s.hdrOut hs)
    (State.ready_idle _ rfl)

end Sys2Proof.Machine
end

section
/-!
DECODE of a run-length stream, chunk by chunk: the driver over a sequence of legal chunks that fills
the codec buffer (41_rle_codec.md R102 to R105).
-/

namespace Sys2Proof.Machine

/-! ### Chunks and their images -/

theorem length_flatten_of_length_eq {pxs : List Pixel} {bpp : Nat}
    (h : ∀ p ∈ pxs, p.length = bpp) : pxs.flatten.length = pxs.length * bpp := by
  rw [List.length_flatten, List.map_congr_left h]
  simp

theorem ChunkData.image_length {c : ChunkData} {bpp : Nat} (h : c.legal bpp) :
    c.image.length = c.count * bpp := by
  cases c with
  | rep count px =>
    obtain ⟨-, -, hpx⟩ := h
    simp [ChunkData.image, ChunkData.count, hpx]
  | raw pxs =>
    obtain ⟨-, -, hpx⟩ := h
    exact length_flatten_of_length_eq hpx

theorem ChunkData.count_pos {c : ChunkData} {bpp : Nat} (h : c.legal bpp) : 1 ≤ c.count := by
  cases c <;> exact h.1

theorem ChunkData.image_pos {c : ChunkData} {bpp : Nat} (h : c.legal bpp) (hbpp : 0 < bpp) :
    0 < c.image.length := by
  rw [c.image_length h]
  exact Nat.mul_pos (c.count_pos h) hbpp

theorem ChunkData.bytes_pos (c : ChunkData) : 0 < c.bytes.length := by
  cases c <;> simp [ChunkData.bytes]

/-- A stream has at least as many bytes as chunks. -/
theorem length_le_streamBytes (cs : List ChunkData) : cs.length ≤ (streamBytes cs).length := by
  induction cs with
  | nil => simp
  | cons c cs ih =>
    have := c.bytes_pos
    simp only [streamBytes, List.flatMap_cons, List.length_append, List.length_cons] at ih ⊢
    omega

@[simp] theorem streamBytes_cons (c : ChunkData) (cs : List ChunkData) :
    streamBytes (c :: cs) = c.bytes ++ streamBytes cs := rfl
@[simp] theorem streamImage_cons (c : ChunkData) (cs : List ChunkData) :
    streamImage (c :: cs) = c.image ++ streamImage cs := rfl

/-! ### One chunk -/

theorem State.afterTake_afterTake (s : State) (xs ys : List Byte) (p q : List InAnswer) :
    (s.afterTake ⟨xs, p, .full⟩).afterTake ⟨ys, q, .full⟩ = s.afterTake ⟨xs ++ ys, q, .full⟩ := by
  simp [State.afterTake, BitVec.ofNat_add, BitVec.add_assoc]

theorem State.controlStage_byte (s : State) {d : Decoder} {b : Byte} {q : List InAnswer}
    (hlt : d.emitted < d.size) (hs : s.source = .byte b :: q) :
    s.controlStage d = (s.afterTake ⟨[b], q, .full⟩).runChunkOf d (decodeChunk b) := by
  simp [State.controlStage, hlt, hs, State.afterTake]

theorem decodeChunk_rep {count : Nat} (h1 : 1 ≤ count) (h2 : count ≤ maxChunk) :
    decodeChunk (BitVec.ofNat 8 (128 + (count - 1))) = .rep count := by
  unfold maxChunk at h2
  rw [decodeChunk_eq, BitVec.toNat_ofNat, if_pos (by omega)]
  congr 1
  omega

theorem decodeChunk_raw {count : Nat} (h1 : 1 ≤ count) (h2 : count ≤ maxChunk) :
    decodeChunk (BitVec.ofNat 8 (count - 1)) = .raw count := by
  unfold maxChunk at h2
  rw [decodeChunk_eq, BitVec.toNat_ofNat, if_neg (by omega)]
  congr 1
  omega

/-- A legal chunk that fits, control byte and all, writes its image. -/
theorem State.controlStage_chunk (s : State) {d : Decoder} {c : ChunkData} {q : List InAnswer}
    (hc : c.legal d.bpp) (hbpp : 0 < d.bpp) (hfit : d.emitted + c.image.length ≤ d.size)
    (hs : s.source = bytesOf c.bytes ++ q) :
    s.controlStage d = s.afterChunk d c.bytes q c.image := by
  have hpos := c.image_pos hc hbpp
  rw [c.image_length hc] at hfit
  rw [c.image_length hc] at hpos
  cases c with
  | rep count px =>
    obtain ⟨h1, h2, hpx⟩ := hc
    rw [ChunkData.count] at hfit hpos
    rw [s.controlStage_byte (by omega) hs, decodeChunk_rep h1 h2]
    change State.runChunk _ d .rep count = _
    rw [State.runChunk_rep (q := q) _ d hpx hfit rfl, State.afterChunk, State.afterTake_afterTake]
    rfl
  | raw pxs =>
    obtain ⟨h1, h2, hpx⟩ := hc
    rw [ChunkData.count] at hfit hpos
    rw [s.controlStage_byte (by omega) hs, decodeChunk_raw h1 h2]
    change State.runChunk _ d .raw pxs.length = _
    rw [State.runChunk_raw (q := q) _ d h1 (length_flatten_of_length_eq hpx) hfit rfl,
      State.afterChunk, State.afterTake_afterTake]
    rfl

/-- The same as a step of the driver. -/
theorem State.drive_chunk {s : State} {cmd : Command} {plan : Option Plan} {d : Decoder}
    {c : ChunkData} {q : List InAnswer} (hseq : s.seq = .run cmd plan (.decodeRle d .control))
    (hc : c.legal d.bpp) (hbpp : 0 < d.bpp) (hfit : d.emitted + c.image.length ≤ d.size)
    (hs : s.source = bytesOf c.bytes ++ q) (n : Nat) :
    s.drive (n + 1) = (s.afterChunk d c.bytes q c.image).drive n := by
  refine State.drive_step hseq (State.ready_of_source hseq rfl (.inr ?_))
    (s.controlStage_chunk hc hbpp hfit hs) n
  rw [hs]
  exact bytesOf_append_ne_nil c.bytes_pos q

/-! ### A stream of chunks -/

/-- The cursor DECODE stood at does not matter for what follows it. -/
theorem State.afterDecode_moveTo (s : State) (cur : Cursor) :
    (s.moveTo cur).afterDecode = s.afterDecode := by
  cases hseq : s.seq with
  | idle | error => simp [State.afterDecode, State.moveTo, State.complete, hseq, Sequencer.plan]
  | run cmd plan old =>
    cases plan <;>
      simp [State.afterDecode, State.moveTo, State.complete, hseq, Sequencer.plan, Sequencer.moveTo]

/-- Two transfers from the stream to adjacent places are one, the move to a cursor between them
aside. -/
theorem State.transfer_append (s : State) (cur : Cursor) (a : Nat) (xs ys v w : List Byte)
    (p q : List InAnswer) :
    ((((s.afterTake ⟨xs, p, .full⟩).memWrite a v).moveTo cur).afterTake ⟨ys, q, .full⟩).memWrite
        (a + v.length) w =
      ((s.afterTake ⟨xs ++ ys, q, .full⟩).memWrite a (v ++ w)).moveTo cur := by
  simp [State.afterTake, State.memWrite, State.moveTo, Memory.setBlock_append, BitVec.ofNat_add,
    BitVec.add_assoc]

/-- A sequence of legal chunks whose image fills the buffer: one engine step each, and DECODE has
ended. -/
theorem State.drive_decodeRle {cmd : Command} {plan : Option Plan} {q : List InAnswer}
    (c : ChunkData) (cs : List ChunkData) {s : State} {d : Decoder}
    (hseq : s.seq = .run cmd plan (.decodeRle d .control))
    (hlegal : ∀ c' ∈ c :: cs, c'.legal d.bpp) (hbpp : 0 < d.bpp)
    (hfill : d.emitted + (streamImage (c :: cs)).length = d.size)
    (hs : s.source = bytesOf (streamBytes (c :: cs)) ++ q) :
    s.drive (c :: cs).length =
      ((s.afterTake ⟨streamBytes (c :: cs), q, .full⟩).memWrite (d.base + d.emitted)
        (streamImage (c :: cs))).afterDecode := by
  induction cs generalizing c s d with
  | nil =>
    simp only [streamImage, streamBytes, List.flatMap_singleton] at hfill hs ⊢
    have hend : ¬ d.emitted + c.image.length < d.size := by omega
    rw [List.length_singleton, State.drive_chunk hseq (hlegal c (by simp)) hbpp (by omega) hs 0,
      State.drive_zero, State.afterChunk, State.chunkEnd, if_neg hend]
  | cons c' cs ih =>
    have hpos := c'.image_pos (hlegal c' (by simp)) hbpp
    rw [streamImage_cons, List.length_append] at hfill
    have hlt : d.emitted + c.image.length < d.size := by
      rw [streamImage_cons, List.length_append] at hfill
      omega
    rw [streamBytes_cons, bytesOf_append, List.append_assoc] at hs
    rw [List.length_cons, State.drive_chunk hseq (hlegal c (by simp)) hbpp (by omega) hs,
      State.afterChunk, State.chunkEnd, if_pos hlt,
      ih c' (d := { d with emitted := d.emitted + c.image.length }) (by simp [hseq])
        (fun c'' hc => hlegal c'' (List.mem_cons_of_mem c hc)) hbpp
        ((Nat.add_assoc _ _ _).trans hfill) rfl]
    dsimp only
    rw [← Nat.add_assoc d.base, State.transfer_append, State.afterDecode_moveTo]
    rfl

end Sys2Proof.Machine
end

section
/-!
CONVERT up to HDR_WRITE: ISSUE, HDR_READ and VALIDATE of a header it can convert, DECODE of a stream
that carries the image, RESAMPLE and the derived header (44_pipeline.md R151 to R158).
-/

namespace Sys2Proof.Machine

/-! ### The temporaries of a header that passes VALIDATE -/

section
variable {p : Params} {h : Header} {pbSize : Nat} (hc : convertible p h pbSize)
include hc

theorem convertible.otype_ne : p.cfg.toNat / 2 ≠ 3 := hc.1

theorem convertible.plan_eq : planOf p h =
    { bpp := h.pixelBytes, srcW := h.cols, srcH := h.rows, dstW := p.outCols h
      dstH := p.outRows h, srcBytes := h.sourceLength, dstBytes := p.destLength h
      outType := p.outImageType h } := by
  obtain ⟨-, -, -, -, hw, hh, -⟩ := hc
  exact planOf_eq p hw hh

theorem convertible.pixelBytes_eq : h.pixelBytes = 3 ∨ h.pixelBytes = 4 := by
  obtain ⟨-, -, -, hbits, -⟩ := hc
  unfold Header.pixelBytes
  rcases hbits with hb | hb <;> rw [hb] <;> decide

theorem convertible.plan_legal : (planOf p h).legal pbSize := by
  have hbpp := hc.pixelBytes_eq
  rw [hc.plan_eq]
  obtain ⟨-, -, -, -, hw, hh, hcols, hrows, hroom⟩ := hc
  obtain ⟨hwc, hwle⟩ := Header.width_pos hw
  obtain ⟨hhr, hhle⟩ := Header.height_pos hh
  have hsrc : 0 + h.sourceLength ≤ pbSize := by omega
  exact ⟨rfl, rfl, hbpp, ⟨by dsimp only [Plan.geometry]; omega, hwle⟩,
    ⟨by dsimp only [Plan.geometry]; omega, hhle⟩, hcols, hrows, hsrc, hroom,
    .inl (Nat.zero_add _).le⟩

theorem convertible.sourceLength_pos : 0 < h.sourceLength := by
  obtain ⟨hsrc, -, hg⟩ := hc.plan_legal
  obtain ⟨hb, hw, hh, -⟩ := Geometry.legal_pos hg
  have hlen : (planOf p h).srcBytes = h.sourceLength :=
    congrArg Plan.srcBytes hc.plan_eq
  rw [← hlen, hsrc]
  exact Nat.mul_pos (Nat.mul_pos hw hh) hb

end

theorem carries.length_eq {h : Header} {stream image : List Byte} {cs : List ChunkData}
    (hcar : carries h stream image cs) : image.length = h.sourceLength := hcar.1

/-! ### HDR_READ and VALIDATE -/

/-- CONVERT at the beginning of DECODE, the header `h` taken and `q` left on the stream. -/
def State.atDecode (s : State) (h : Header) (q : List InAnswer) : State :=
  { s with
    status := statusBusy, hdrIn := h, source := q, inCount := s.inCount + 18
    seq := .run .convert (some (planOf s.params h))
      (if h.imageType = 10 then
        .decodeRle ⟨0, (planOf s.params h).srcBytes, (planOf s.params h).bpp, 0⟩ .control
      else .decodeRaw 0 (planOf s.params h).srcBytes 0) }

theorem State.validateStage_convertible (s : State)
    (hc : convertible s.params s.hdrIn s.pbSize) :
    s.validateStage = { s with
      seq := .run .convert (some (planOf s.params s.hdrIn))
        (if s.hdrIn.imageType = 10 then
          .decodeRle ⟨0, (planOf s.params s.hdrIn).srcBytes, (planOf s.params s.hdrIn).bpp, 0⟩
            .control
        else .decodeRaw 0 (planOf s.params s.hdrIn).srcBytes 0) } := by
  simp [State.validateStage, (validateCheck_none_iff _ _ _ hc.otype_ne).mpr hc]

theorem State.drive_to_decode (s : State) {h : Header} {q : List InAnswer}
    (hc : convertible s.params h s.pbSize) (hs : s.source = bytesOf h.toList ++ q) :
    ((s.accept .convert).issueStage .convert).drive 2 = s.atDecode h q := by
  have hsource : s.source ≠ [] := hs ▸ bytesOf_append_ne_nil (by simp) q
  have hready : ((s.accept .convert).moveTo (.hdrRead 0)).ready = true :=
    State.ready_of_source rfl rfl (.inr hsource)
  rw [State.issueStage_convert hc.otype_ne, State.drive_step (cmd := .convert) (cur := .hdrRead 0)
    rfl hready (State.hdrReadStage_full _ hs) 1]
  exact State.drive_step (cmd := .convert) (cur := .validate) rfl
    (State.ready_of_source rfl rfl (.inl rfl)) (State.validateStage_convertible _ hc) 0

/-! ### DECODE -/

theorem State.decodeRawStage_full (s : State) (base : Nat) {size : Nat} {bs : List Byte}
    {q : List InAnswer} (hlen : bs.length = size) (hs : s.source = bytesOf bs ++ q) :
    s.decodeRawStage base size 0 =
      ((s.afterTake ⟨bs, q, .full⟩).memWrite base bs).afterDecode := by
  subst hlen
  simp [State.decodeRawStage, hs, takeN_bytesOf]

/-- CONVERT at the end of DECODE: `stream` has been taken and the source region holds `image`. -/
def State.decoded (s : State) (h : Header) (stream image : List Byte) (q : List InAnswer) : State :=
  (((s.atDecode h q).afterTake ⟨stream, q, .full⟩).memWrite 0 image).moveTo
    (.resample (planOf s.params h).geometry)

/-- DECODE of a stream that carries the image, raw or run-length, in at most as many steps as the
stream has bytes. -/
theorem State.drive_decode (s : State) {h : Header} {stream image : List Byte}
    {cs : List ChunkData} (q : List InAnswer) (hc : convertible s.params h s.pbSize)
    (hcar : carries h stream image cs) :
    ∃ n, n ≤ stream.length ∧
      (s.atDecode h (bytesOf stream ++ q)).drive n = s.decoded h stream image q := by
  have hpos := hc.sourceLength_pos
  have hbpp := hc.pixelBytes_eq
  have hplan := hc.plan_eq
  obtain ⟨hlen, hcar⟩ := hcar
  by_cases htype : h[2] = 10
  · rw [if_pos htype] at hcar
    obtain ⟨hlegal, rfl, rfl⟩ := hcar
    have hseq : (s.atDecode h (bytesOf (streamBytes cs) ++ q)).seq =
        .run .convert (some (planOf s.params h))
          (.decodeRle ⟨0, h.sourceLength, h.pixelBytes, 0⟩ .control) := by
      simp [State.atDecode, Header.imageType, htype, hplan]
    cases cs with
    | nil => exact absurd hlen hpos.ne
    | cons c cs =>
      refine ⟨(c :: cs).length, length_le_streamBytes _, ?_⟩
      rw [State.drive_decodeRle c cs hseq hlegal (by dsimp only; omega)
        ((Nat.zero_add _).trans hlen) rfl]
      rfl
  · rw [if_neg htype] at hcar
    subst hcar
    have hseq : (s.atDecode h (bytesOf stream ++ q)).seq =
        .run .convert (some (planOf s.params h)) (.decodeRaw 0 h.sourceLength 0) := by
      simpa [State.atDecode, Header.imageType, hplan] using htype
    refine ⟨1, by omega, ?_⟩
    rw [State.drive_step hseq (State.ready_of_source hseq rfl
      (.inr (bytesOf_append_ne_nil (by omega) q))) (State.decodeRawStage_full _ 0 hlen rfl) 0]
    rfl

/-! ### RESAMPLE and the derived header -/

/-- RESAMPLE and the first half of HDR_WRITE have run: the destination region and HDR_OUT are
written, and HDR_OUT is to be offered. -/
def State.toHdrWrite (s : State) (p : Plan) : State :=
  { s.memWrite p.srcBytes (destBytes s.pbByte p.geometry) with
    hdrOut := s.hdrIn.derive (BitVec.ofNat 16 p.dstW) (BitVec.ofNat 16 p.dstH) p.outType
    seq := .run .convert (some p) (.hdrWrite
      (s.hdrIn.derive (BitVec.ofNat 16 p.dstW) (BitVec.ofNat 16 p.dstH) p.outType).toList) }

theorem State.drive_resample_derive (s : State) {p : Plan}
    (hseq : s.seq = .run .convert (some p) (.resample p.geometry)) :
    s.drive 2 = s.toHdrWrite p := by
  have hresample : s.stageStep .convert (.resample p.geometry) =
      (s.memWrite p.srcBytes (destBytes s.pbByte p.geometry)).moveTo
        (.derive (BitVec.ofNat 16 p.dstW) (BitVec.ofNat 16 p.dstH) p.outType) := by
    simp [State.stageStep, State.resampleStage, State.afterResample, hseq, Sequencer.plan,
      Plan.geometry]
  rw [State.drive_step hseq (State.ready_of_source hseq rfl (.inl rfl)) hresample 1]
  have hderive : ((s.memWrite p.srcBytes (destBytes s.pbByte p.geometry)).moveTo
      (.derive (BitVec.ofNat 16 p.dstW) (BitVec.ofNat 16 p.dstH) p.outType)).seq =
      .run .convert (some p)
        (.derive (BitVec.ofNat 16 p.dstW) (BitVec.ofNat 16 p.dstH) p.outType) := by
    simp [hseq]
  refine State.drive_step hderive (State.ready_of_source hderive rfl (.inl rfl)) ?_ 0
  simp [State.stageStep, State.deriveStage, State.afterDerive, hseq, Sequencer.plan,
    Sequencer.moveTo, State.moveTo]

/-! ### The image and the header at HDR_WRITE -/

/-- CONVERT where HDR_WRITE offers its first byte. -/
def State.atHdrWrite (s : State) (h : Header) (stream image : List Byte) (q : List InAnswer) :
    State := (s.decoded h stream image q).toHdrWrite (planOf s.params h)

/-- CONVERT comes to HDR_WRITE in few enough steps. -/
theorem State.drive_to_hdrWrite (s : State) {h : Header} {stream image : List Byte}
    {cs : List ChunkData} {q : List InAnswer} (hc : convertible s.params h s.pbSize)
    (hcar : carries h stream image cs) (hs : s.source = bytesOf (h.toList ++ stream) ++ q) :
    ∃ n, n + 2 ≤ 3 * s.source.length + s.sink.length + 15 ∧
      ((s.accept .convert).issueStage .convert).drive n = s.atHdrWrite h stream image q := by
  obtain ⟨n, hn, hdecode⟩ := s.drive_decode q hc hcar
  have hlen : s.source.length = 18 + (stream.length + q.length) := by simp [hs]
  rw [bytesOf_append, List.append_assoc] at hs
  exact ⟨2 + n + 2, by omega, State.drive_trans
    (State.drive_trans (s.drive_to_decode hc hs) hdecode) (State.drive_resample_derive _ rfl)⟩

end Sys2Proof.Machine
end

section
/-!
The output pixel stream of CONVERT: the resampler reads its source region alone, so the body
`State.convertBody` offers is `convertedBody` of the image (43_resampler.md R131 to R133,
44_pipeline.md R157 to R159).
-/

namespace Sys2Proof.Machine

/-! ### Samples lie in the source region -/

theorem mapLow_lt (x dstN : Nat) {srcN : Nat} (hs : 0 < srcN) : mapLow x srcN dstN < srcN := by
  have hnum : mapNumerator x srcN dstN ≤ (srcN - 1) * (2 * dstN) := by
    unfold mapNumerator clampi
    have hcast : (((srcN - 1) * (2 * dstN) : Nat) : Int) = ((srcN : Int) - 1) * (2 * dstN) := by
      push_cast [hs]
      rfl
    rw [← hcast]
    omega
  have hle : mapLow x srcN dstN ≤ srcN - 1 := Nat.div_le_of_le_mul (by rwa [Nat.mul_comm])
  omega

theorem mapHigh_lt (x dstN : Nat) {srcN : Nat} (hs : 0 < srcN) : mapHigh x srcN dstN < srcN := by
  unfold mapHigh
  omega

/-- A channel of a pixel of a region lies in the region (20_memory.md R44). -/
theorem pixAddr_lt (base : Nat) {w ht bpp x y ch : Nat} (hx : x < w) (hy : y < ht)
    (hch : ch < bpp) :
    base ≤ pixAddr base w bpp x y ch ∧ pixAddr base w bpp x y ch < base + w * ht * bpp := by
  have hrow : x + y * w < w * ht := by
    have := Nat.mul_le_mul_right w (Nat.succ_le_of_lt hy)
    rw [Nat.succ_mul, Nat.mul_comm ht] at this
    omega
  have hpix := Nat.mul_le_mul_right bpp (Nat.succ_le_of_lt hrow)
  rw [Nat.succ_mul] at hpix
  unfold pixAddr
  omega

/-- The destination region is a function of the source region alone. -/
theorem destBytes_congr {f f' : Nat → Byte} {g : Geometry} {pbSize : Nat} (hg : g.legal pbSize)
    (h : ∀ a, g.sbase ≤ a → a < g.sbase + g.srcBytes → f a = f' a) :
    destBytes f g = destBytes f' g := by
  obtain ⟨hb, hsw, hsh, -⟩ := Geometry.legal_pos hg
  have hsample : ∀ x y ch, x < g.srcW → y < g.srcH → ch < g.bpp →
      sample f g x y ch = sample f' g x y ch := fun x y ch hx hy hch => by
    obtain ⟨hlo, hhi⟩ := pixAddr_lt g.sbase hx hy hch
    rw [sample, sample, h _ hlo hhi]
  refine List.map_congr_left fun j _ => congrArg _ ?_
  have hch := Nat.mod_lt j hb
  have hx0 := mapLow_lt (j / g.bpp % g.dstW) g.dstW hsw
  have hx1 := mapHigh_lt (j / g.bpp % g.dstW) g.dstW hsw
  have hy0 := mapLow_lt (j / g.bpp / g.dstW) g.dstH hsh
  have hy1 := mapHigh_lt (j / g.bpp / g.dstW) g.dstH hsh
  simp only [destValue, hsample _ _ _ hx0 hy0 hch, hsample _ _ _ hx1 hy0 hch,
    hsample _ _ _ hx0 hy1 hch, hsample _ _ _ hx1 hy1 hch]

/-! ### The pixels of the codec buffer -/

/-- The pixels ENCRLE encodes are those of the buffer's bytes (41_rle_codec.md R100). -/
theorem State.pixels_eq_pixelsOf (s : State) (base size bpp : Nat) :
    s.pixels base size bpp = pixelsOf bpp (s.memRead base size) := by
  unfold State.pixels pixelsOf
  rw [State.memRead_length]
  refine List.map_congr_left fun k hk => List.ext_getElem ?_ fun j h1 h2 => ?_
  · have hfit := Nat.mul_le_of_le_div _ _ _ (Nat.succ_le_of_lt (List.mem_range.mp hk))
    rw [Nat.succ_mul] at hfit
    simp only [State.memRead_length, List.length_take, List.length_drop]
    omega
  · simp only [State.getElem_memRead, List.getElem_take, List.getElem_drop, Nat.add_assoc]

/-! ### CONVERT at HDR_WRITE -/

/-- PB at the end of DECODE, in the source region. -/
theorem State.decoded_pbByte (s : State) (h : Header) (stream : List Byte) {image : List Byte}
    (q : List InAnswer) {a : Nat} (ha : a < image.length) :
    (s.decoded h stream image q).pbByte a = image.getD a 0 := by
  rw [List.getD_eq_getElem _ _ ha]
  change (State.memWrite _ 0 image).pbByte a = _
  rw [State.pbByte_memWrite, dif_pos (by omega)]
  rfl

section
variable (s : State) {h : Header} (stream : List Byte) {image : List Byte} (q : List InAnswer)
  (hc : convertible s.params h s.pbSize) (hlen : image.length = h.sourceLength)
include hc

theorem State.atHdrWrite_derivedHeader :
    derivedHeader h (s.atHdrWrite h stream image q).hdrOut (s.params.outCols h)
      (s.params.outRows h) (s.params.outImageType h) := by
  have hplan := hc.plan_eq
  obtain ⟨-, -, -, -, -, -, ⟨-, hcols⟩, ⟨-, hrows⟩, -⟩ := hc
  have hd := derivedHeader_derive h (BitVec.ofNat 16 (s.params.outCols h))
    (BitVec.ofNat 16 (s.params.outRows h)) (s.params.outImageType h)
  rw [BitVec.toNat_ofNat, BitVec.toNat_ofNat, Nat.mod_eq_of_lt (by omega),
    Nat.mod_eq_of_lt (by omega)] at hd
  rw [State.atHdrWrite, hplan]
  exact hd

include hlen

/-- RESAMPLE reads the image alone. -/
theorem State.decoded_destBytes :
    destBytes (s.decoded h stream image q).pbByte (planOf s.params h).geometry =
      destBytes (fun a => image.getD a 0) (planOf s.params h).geometry := by
  obtain ⟨hsrc, -, hg⟩ := hc.plan_legal
  refine destBytes_congr hg fun a _ ha => s.decoded_pbByte h stream q ?_
  have hsrc' : (planOf s.params h).srcBytes = h.sourceLength :=
    congrArg Plan.srcBytes hc.plan_eq
  change a < 0 + (planOf s.params h).srcW * (planOf s.params h).srcH * (planOf s.params h).bpp at ha
  omega

/-- The destination region holds the resampled image. -/
theorem State.atHdrWrite_memRead :
    (s.atHdrWrite h stream image q).memRead (planOf s.params h).srcBytes
        (planOf s.params h).dstBytes =
      destBytes (fun a => image.getD a 0) (planOf s.params h).geometry := by
  obtain ⟨-, hdst, -⟩ := hc.plan_legal
  have hread := (s.decoded h stream image q).memRead_memWrite (planOf s.params h).srcBytes
    (destBytes (s.decoded h stream image q).pbByte (planOf s.params h).geometry)
  rw [destBytes_length] at hread
  rw [← s.decoded_destBytes stream q hc hlen, hdst]
  exact hread

theorem State.atHdrWrite_convertBody :
    (s.atHdrWrite h stream image q).convertBody (planOf s.params h) =
      convertedBody s.params h image := by
  rw [State.convertBody, State.rleBytes, State.pixels_eq_pixelsOf,
    s.atHdrWrite_memRead stream q hc hlen, hc.plan_eq]
  rfl

/-- Outside its two regions CONVERT has left PB as it was. -/
theorem State.atHdrWrite_pbByte {a : Nat}
    (ha : outside 0 (h.sourceLength + s.params.destLength h) a) :
    (s.atHdrWrite h stream image q).pbByte a = s.pbByte a := by
  have hplan := hc.plan_eq
  have hdest : (destBytes (s.decoded h stream image q).pbByte
      (planOf s.params h).geometry).length = s.params.destLength h := by
    rw [destBytes_length, hplan]
    rfl
  have hsrc : (planOf s.params h).srcBytes = h.sourceLength := congrArg Plan.srcBytes hplan
  change (State.memWrite _ (planOf s.params h).srcBytes (destBytes _ _)).pbByte a = _
  rw [State.pbByte_memWrite_outside _ (Nat.zero_le _) (by omega) ha]
  change (State.memWrite _ 0 image).pbByte a = _
  rw [State.pbByte_memWrite_outside _ (Nat.zero_le _) (by omega) ha]
  rfl

end

end Sys2Proof.Machine
end

section
/-!
The families 40_header.md to 44_pipeline.md, ports that fail: a stream that ends or fails early in
HDR_READ and in a raw DECODE, and a sink that fails in HDR_WRITE and in ENCODE (60_exceptions.md
R183, R186 to R188).
-/

namespace Sys2Proof.Machine

/-! ### A stream that stops early -/

/-- The two commands that read a header, with the first stage of both. -/
theorem readsHeader_cases {s : State} {i : Instr}
    (hi : i = .rdhdr ∨ (i = .convert ∧ s.params.cfg.toNat / 2 ≠ 3)) :
    ∃ cmd : Command, commandOf i = some cmd ∧
      (s.accept cmd).issueStage cmd = (s.accept cmd).moveTo (.hdrRead 0) := by
  rcases hi with rfl | ⟨rfl, hotype⟩
  · exact ⟨.rdhdr, rfl, rfl⟩
  · exact ⟨.convert, rfl, State.issueStage_convert hotype⟩

/-- ERRINFO of a header read that stops early (10_state.md R17, 60_exceptions.md R181). -/
theorem errinfoOf_hdrRead_short (eos : Bool) :
    errinfoOf (if eos then .truncatedHeader else .ioError) .hdrRead =
      if eos then 0x12 else 0x11 := by
  cases eos <;> decide

/-- ERRINFO of a decode that stops early. -/
theorem errinfoOf_decode_short (eos : Bool) :
    errinfoOf (if eos then .truncatedData else .ioError) .decode = if eos then 0x33 else 0x31 := by
  cases eos <;> decide

/-- IN_COUNT after a header and `n` bytes more (10_state.md R21). -/
theorem add_eighteen_add (c : Word) (n : Nat) :
    c + 18 + BitVec.ofNat 32 n = c + BitVec.ofNat 32 (18 + n) := by
  rw [BitVec.ofNat_add, ← BitVec.add_assoc]
  rfl

section
variable {s : State} {bs : List Byte} {q : List InAnswer} {eos : Bool}
  (hidle : s.isIdle = true) (hpace : s.pace = .runAhead)
  (hs : s.source = bytesOf bs ++ (if eos then InAnswer.eos else InAnswer.fail) :: q)
include hidle hpace hs

theorem exec_readsHeader_short {i : Instr}
    (hi : i = .rdhdr ∨ (i = .convert ∧ s.params.cfg.toNat / 2 ≠ 3)) (hlen : bs.length < 18) :
    ∃ t : State, exec i s = .next t ∧
      (∀ (k : Nat) (h : k < 18), t.hdrIn[k] = Config.freeByte s.draws k) ∧
      t = { s with
        status := 0b100, errinfo := if eos then 0x12 else 0x11, seq := .error, source := q
        inCount := s.inCount + BitVec.ofNat 32 bs.length
        hdrIn := t.hdrIn, draws := t.draws } := by
  obtain ⟨cmd, hcmd, hissue⟩ := readsHeader_cases hi
  have hsource : s.source ≠ [] := hs ▸ bytesOf_append_cons_ne_nil _ _ _
  refine ⟨_, exec_eq_of_stage hcmd hidle hpace hissue
    (State.ready_of_source rfl rfl (.inr hsource)) (State.hdrReadStage_short _ hs hlen)
    (State.ready_error _ rfl), fun k hk => Config.getElem_freeHeader s.draws k hk,
    State.raise_of_freeHdrIn rfl (errinfoOf_hdrRead_short eos)⟩

theorem exec_decraw_short (hbuf : s.bufInPb) (hlen : bs.length < s.params.bufLen.toNat) :
    ∃ t : State, exec .decraw s = .next t ∧
      freedPb s t s.params.bufBase.toNat s.params.bufLen.toNat ∧
      t = { s with
        status := 0b100, errinfo := if eos then 0x33 else 0x31, seq := .error, source := q
        inCount := s.inCount + BitVec.ofNat 32 bs.length
        pb := t.pb, pbFree := t.pbFree, draws := t.draws } := by
  have hsource : s.source ≠ [] := hs ▸ bytesOf_append_cons_ne_nil _ _ _
  refine ⟨_, exec_eq_of_stage rfl hidle hpace (State.issueStage_decraw hbuf)
    (State.ready_of_source rfl rfl (.inr hsource))
    (State.decodeRawStage_short ((s.accept .decraw).moveTo _) hs _ hlen)
    (State.ready_error _ rfl), freedPb_raise _ rfl rfl fun a ha => ?_,
    State.raise_of_freePb rfl (errinfoOf_decode_short eos)⟩
  rw [State.pbByte_memWrite_outside _ le_rfl (by omega) ha]
  rfl

theorem exec_convert_short {h : Header} {pixels : List Byte} (hbs : bs = h.toList ++ pixels)
    (hc : convertible s.params h s.pbSize) (hraw : h[2] ≠ 10)
    (hlen : pixels.length < h.sourceLength) :
    ∃ t : State, exec .convert s = .next t ∧
      freedPb s t 0 (h.sourceLength + s.params.destLength h) ∧
      t = { s with
        status := 0b100, errinfo := if eos then 0x33 else 0x31, seq := .error, source := q
        inCount := s.inCount + BitVec.ofNat 32 bs.length, hdrIn := h
        pb := t.pb, pbFree := t.pbFree, draws := t.draws } := by
  have hplan := hc.plan_eq
  subst hbs
  rw [bytesOf_append, List.append_assoc] at hs
  have hseq : ∀ q', (s.atDecode h q').seq =
      .run .convert (some (planOf s.params h)) (.decodeRaw 0 h.sourceLength 0) := fun q' => by
    simpa [State.atDecode, Header.imageType, hplan] using hraw
  have hstep := State.drive_step (hseq _) (State.ready_of_source (hseq _) rfl
    (.inr (bytesOf_append_cons_ne_nil _ _ _)))
    (State.decodeRawStage_short (s.atDecode h _) (q := q) (eos := eos) rfl 0 hlen) 0
  have hspoil : ∀ (q' : List InAnswer) (t : Taken),
      (((s.atDecode h q').afterTake t).memWrite 0 pixels).spoil =
      (((s.atDecode h q').afterTake t).memWrite 0 pixels).freePb 0
        (h.sourceLength + s.params.destLength h) := fun q' t => by
    simp [State.spoil, hseq, hplan]
  refine ⟨_, exec_eq_of_drive rfl hidle hpace (by omega)
    (State.drive_trans (s.drive_to_decode hc hs) hstep) (State.ready_error _ rfl),
    freedPb_raise _ (hspoil _ _) rfl fun a ha => ?_, ?_⟩
  · rw [State.pbByte_memWrite_outside _ le_rfl (by omega) ha]
    rfl
  · rw [List.length_append, Vector.length_toList, ← add_eighteen_add]
    refine State.raise_of_freePb (hspoil _ _) ?_
    rw [State.memWrite_seq, State.afterTake_seq, hseq]
    exact errinfoOf_decode_short eos

end

/-- Settles O21: the stage takes what is there, then raises the error of the answer it met. -/
theorem shortInputRaises : Obligations.ShortInputRaises :=
  fun _ _ _ _ hidle hpace hs =>
    ⟨fun _ hi hlen => exec_readsHeader_short hidle hpace hs hi hlen,
      fun hbuf hlen => exec_decraw_short hidle hpace hs hbuf hlen,
      fun _ _ hbs hc hraw hlen => exec_convert_short hidle hpace hs hbs hc hraw hlen⟩

/-! ### A sink that fails (60_exceptions.md R187) -/

theorem errinfoOf_hdrWrite_failed : errinfoOf .writeFailed .hdrWrite = 0x55 := by decide

theorem errinfoOf_encode_failed : errinfoOf .writeFailed .encode = 0x65 := by decide

/-- The state after a write failure: `sent` is in the output stream, `r` is left of the sink. -/
def State.writeFailed (s : State) (n : Nat) (r : List OutAnswer) (sent : List Byte) (code : Byte) :
    State :=
  { s with
    status := 0b100, errinfo := code, seq := .error, sink := r, out := s.out ++ sent
    outCount := s.outCount + BitVec.ofNat 32 n }

section
variable {s : State} {n : Nat} {r : List OutAnswer} (hidle : s.isIdle = true)
  (hpace : s.pace = .runAhead) (hs : s.sink = acks n ++ .fail :: r)
include hidle hpace hs

theorem exec_wrhdr_failed (hn : n < 18) :
    exec .wrhdr s = .next (s.writeFailed n r (s.hdrOut.toList.take n) 0x55) := by
  have hsink : s.sink ≠ [] := hs ▸ acks_append_ne_nil _ _ _
  exact exec_eq_of_stage rfl hidle hpace rfl (State.ready_of_sink rfl rfl hsink)
    ((State.hdrWriteStage_failed ((s.accept .wrhdr).moveTo _) (left := s.hdrOut.toList) hs
      (by simpa using hn)).trans (State.raise_of_spoil_self rfl errinfoOf_hdrWrite_failed))
    (State.ready_error _ rfl)

/-- A standalone encode command whose sink fails after `n` bytes. -/
theorem exec_encode_failed {i : Instr} {cmd : Command} {left : List Byte}
    (hi : commandOf i = some cmd)
    (hissue : (s.accept cmd).issueStage cmd = (s.accept cmd).moveTo (.encode left))
    (hn : n < left.length) :
    exec i s = .next (s.writeFailed n r (left.take n) 0x65) := by
  have hsink : s.sink ≠ [] := hs ▸ acks_append_ne_nil _ _ _
  exact exec_eq_of_stage hi hidle hpace hissue (State.ready_of_sink rfl rfl hsink)
    ((State.encodeStage_failed ((s.accept cmd).moveTo (.encode left)) hs hn).trans
      (State.raise_of_spoil_self rfl errinfoOf_encode_failed)) (State.ready_error _ rfl)

theorem exec_encraw_failed (hbuf : s.bufInPb) (hn : n < s.params.bufLen.toNat) :
    exec .encraw s = .next (s.writeFailed n r
      ((s.memRead s.params.bufBase.toNat s.params.bufLen.toNat).take n) 0x65) :=
  exec_encode_failed hidle hpace hs rfl (State.issueStage_encraw hbuf) (by simpa using hn)

theorem exec_encrle_failed (hbpp : s.params.bpp.toNat = 3 ∨ s.params.bpp.toNat = 4)
    (hmod : s.params.bufLen.toNat % s.params.bpp.toNat = 0) (hbuf : s.bufInPb)
    (hn : n < (encodePixels (pixelsOf s.params.bpp.toNat
      (s.memRead s.params.bufBase.toNat s.params.bufLen.toNat))).length) :
    exec .encrle s = .next (s.writeFailed n r
      ((encodePixels (pixelsOf s.params.bpp.toNat
        (s.memRead s.params.bufBase.toNat s.params.bufLen.toNat))).take n) 0x65) := by
  rw [← State.pixels_eq_pixelsOf] at hn ⊢
  exact exec_encode_failed hidle hpace hs rfl (State.issueStage_encrle hbpp hmod hbuf) hn

end

/-! ### A sink that fails CONVERT -/

theorem State.afterHdrWrite_of_plan_some (s : State) {cmd : Command} {p : Plan} {cur : Cursor}
    (h : s.seq = .run cmd (some p) cur) :
    s.afterHdrWrite = s.moveTo (.encode (s.convertBody p)) := by
  simp [State.afterHdrWrite, h, Sequencer.plan]

/-- HDR_WRITE and ENCODE of CONVERT, the sink failing after `n` of the bytes they offer: the error
is raised in the stage that offers byte `n`. -/
theorem State.drive_write_failed {s : State} {p : Plan} {n : Nat} {r : List OutAnswer}
    (hseq : s.seq = .run .convert (some p) (.hdrWrite s.hdrOut.toList))
    (hs : s.sink = acks n ++ .fail :: r) (hn : n < 18 + (s.convertBody p).length) :
    ∃ m, m ≤ 2 ∧ s.drive m = ({ s with
      sink := r, out := s.out ++ (s.hdrOut.toList ++ s.convertBody p).take n
      outCount := s.outCount + BitVec.ofNat 32 n
      seq := .run .convert (some p)
        (if n < 18 then .hdrWrite s.hdrOut.toList else .encode (s.convertBody p)) } : State).raise
          .writeFailed := by
  have hlen : s.hdrOut.toList.length = 18 := s.hdrOut.length_toList
  have hready : s.ready = true := State.ready_of_sink hseq rfl (hs ▸ acks_append_ne_nil _ _ _)
  by_cases hlt : n < 18
  · refine ⟨1, by omega, ?_⟩
    rw [State.drive_step hseq hready (s.hdrWriteStage_failed hs (by omega)) 0, State.drive_zero,
      if_pos hlt, ← hseq, List.take_append_of_le_length (by omega)]
  · obtain ⟨k, rfl⟩ : ∃ k, n = 18 + k := ⟨n - 18, by omega⟩
    rw [acks_add, List.append_assoc] at hs
    have hhdr := (s.hdrWriteStage_full s.hdrOut hs).trans (State.afterHdrWrite_of_plan_some _ hseq)
    refine ⟨2, le_rfl, ?_⟩
    rw [State.drive_step hseq hready hhdr 1]
    have hseq' : (({ s with
        sink := acks k ++ .fail :: r, out := s.out ++ s.hdrOut.toList
        outCount := s.outCount + 18 } : State).moveTo (.encode (s.convertBody p))).seq =
        .run .convert (some p) (.encode (s.convertBody p)) := by simp [hseq]
    refine (State.drive_step hseq' (State.ready_of_sink hseq' rfl (acks_append_ne_nil _ _ _))
      (State.encodeStage_failed _ (n := k) (r := r) rfl (by omega)) 0).trans ?_
    have htake := List.take_length_add_append (l₁ := s.hdrOut.toList) (l₂ := s.convertBody p) k
    rw [hlen] at htake
    rw [State.drive_zero, if_neg hlt, htake, ← add_eighteen_add, ← List.append_assoc, ← hseq']
    rfl

/-- CONVERT in HDR_WRITE or in ENCODE frees both its regions. -/
theorem State.spoil_of_output {s : State} {cmd : Command} {p : Plan} {c : Prop} [Decidable c]
    {left body : List Byte}
    (h : s.seq = .run cmd (some p) (if c then .hdrWrite left else .encode body)) :
    s.spoil = s.freePb 0 (p.srcBytes + p.dstBytes) := by
  rw [State.spoil, h]
  by_cases hc : c
  · rw [if_pos hc]
  · rw [if_neg hc]

/-- ERRINFO of a write failure, by the stage it is raised in. -/
theorem errinfoOf_output {s : State} {cmd : Command} {plan : Option Plan} {c : Prop} [Decidable c]
    {left body : List Byte}
    (h : s.seq = .run cmd plan (if c then .hdrWrite left else .encode body)) :
    errinfoOf .writeFailed s.seq.stage = if c then 0x55 else 0x65 := by
  rw [h]
  by_cases hc : c
  · rw [if_pos hc, if_pos hc]
    exact errinfoOf_hdrWrite_failed
  · rw [if_neg hc, if_neg hc]
    exact errinfoOf_encode_failed

theorem exec_convert_failed {s : State} {n : Nat} {r : List OutAnswer} (hidle : s.isIdle = true)
    (hpace : s.pace = .runAhead) (hs : s.sink = acks n ++ .fail :: r) {h : Header}
    {stream image : List Byte} {cs : List ChunkData} {q : List InAnswer}
    (hc : convertible s.params h s.pbSize) (hcar : carries h stream image cs)
    (hsource : s.source = bytesOf (h.toList ++ stream) ++ q)
    (hn : n < 18 + (convertedBody s.params h image).length) :
    ∃ t : State, exec .convert s = .next t ∧
      derivedHeader h t.hdrOut (s.params.outCols h) (s.params.outRows h)
        (s.params.outImageType h) ∧
      freedPb s t 0 (h.sourceLength + s.params.destLength h) ∧
      t = { s.writeFailed n r ((t.hdrOut.toList ++ convertedBody s.params h image).take n)
          (if n < 18 then 0x55 else 0x65) with
        hdrIn := h, hdrOut := t.hdrOut, source := q
        inCount := s.inCount + BitVec.ofNat 32 (18 + stream.length)
        pb := t.pb, pbFree := t.pbFree, draws := t.draws } := by
  have hlen := hcar.length_eq
  have hplan := hc.plan_eq
  have hbody := s.atHdrWrite_convertBody stream q hc hlen
  obtain ⟨m₁, hm₁, hdrive₁⟩ := s.drive_to_hdrWrite hc hcar hsource
  obtain ⟨m₂, hm₂, hdrive₂⟩ :=
    State.drive_write_failed (s := s.atHdrWrite h stream image q) rfl hs (hbody ▸ hn)
  rw [hbody] at hdrive₂
  refine ⟨_, exec_eq_of_drive rfl hidle hpace (by omega) (State.drive_trans hdrive₁ hdrive₂)
    (State.ready_error _ rfl), ?_,
    freedPb_raise _ ((State.spoil_of_output rfl).trans (by rw [hplan])) rfl
      fun a ha => s.atHdrWrite_pbByte stream q hc hlen ha, ?_⟩
  · rw [State.raise_hdrOut]
    exact s.atHdrWrite_derivedHeader stream q hc
  · rw [State.raise_hdrOut, ← add_eighteen_add]
    exact State.raise_of_freePb (State.spoil_of_output rfl) (errinfoOf_output rfl)

/-- Settles O38: the failing stage keeps what was acknowledged, and CONVERT has by then the whole
output before it. -/
theorem writeFailureKeepsWhatWasAcknowledged :
    Obligations.WriteFailureKeepsWhatWasAcknowledged :=
  fun _ _ _ hidle hpace hs =>
    ⟨exec_wrhdr_failed hidle hpace hs, exec_encraw_failed hidle hpace hs,
      exec_encrle_failed hidle hpace hs,
      fun _ _ _ _ _ hc hcar hsource hn => exec_convert_failed hidle hpace hs hc hcar hsource hn⟩

end Sys2Proof.Machine
end

section
/-!
The families 41_rle_codec.md to 44_pipeline.md, ISSUE: a parameter check that fails raises at stage
0 and touches nothing else (R101, R120, R130, R152; 60_exceptions.md R185, R186).
-/

namespace Sys2Proof.Machine

/-! ### What a check that fails raises -/

theorem State.rawCheck_of_not_bufInPb {s : State} (h : ¬ s.bufInPb) :
    s.rawCheck = some .bufferRange :=
  (s.rawCheck_eq.resolve_left fun ⟨hin, _⟩ => h hin).2

theorem State.rleCheck_badParam {s : State}
    (h : s.params.bpp.toNat ≠ 3 ∧ s.params.bpp.toNat ≠ 4 ∨
      s.params.bufLen.toNat % s.params.bpp.toNat ≠ 0) : s.rleCheck = some .badParam := by
  rcases s.rleCheck_eq with ⟨hbpp, hlen, -⟩ | ⟨-, hc⟩ | ⟨hbpp, hlen, -⟩
  · tauto
  · exact hc
  · tauto

theorem State.rleCheck_bufferRange {s : State}
    (hbpp : s.params.bpp.toNat = 3 ∨ s.params.bpp.toNat = 4)
    (hlen : s.params.bufLen.toNat % s.params.bpp.toNat = 0) (h : ¬ s.bufInPb) :
    s.rleCheck = some .bufferRange := by
  rcases s.rleCheck_eq with ⟨-, -, hin, -⟩ | ⟨hbad, -⟩ | ⟨-, -, -, hc⟩
  · exact absurd hin h
  · tauto
  · exact hc

/-- The operands RESAMPLE checks first: the pixel size and the four dimensions (43_resampler.md
R130). -/
def Geometry.paramsOk (g : Geometry) : Prop :=
  (g.bpp = 3 ∨ g.bpp = 4) ∧ (1 ≤ g.srcW ∧ g.srcW ≤ 32767) ∧ (1 ≤ g.srcH ∧ g.srcH ≤ 32767) ∧
    (1 ≤ g.dstW ∧ g.dstW ≤ 32767) ∧ (1 ≤ g.dstH ∧ g.dstH ≤ 32767)

theorem Geometry.paramsOk_iff (g : Geometry) :
    g.paramsOk ↔ bppOk g.bpp = true ∧
      (dimOk g.srcW && dimOk g.srcH && dimOk g.dstW && dimOk g.dstH) = true := by
  simp only [Geometry.paramsOk, bppOk_iff, Bool.and_eq_true, dimOk_iff, and_assoc]

theorem Geometry.check_badParam {g : Geometry} (pbSize : Nat) (h : ¬ g.paramsOk) :
    g.check pbSize = some .badParam := by
  rw [g.paramsOk_iff] at h
  unfold Geometry.check
  cases hbpp : bppOk g.bpp
  · simp
  · have hdim := Bool.eq_false_of_not_eq_true fun hdim => h ⟨hbpp, hdim⟩
    simp [hdim]

/-- With those in range, what is left to fail is the regions. -/
theorem Geometry.check_bufferRange {g : Geometry} {pbSize : Nat} (h : g.paramsOk)
    (hillegal : ¬ g.legal pbSize) : g.check pbSize = some .bufferRange := by
  obtain ⟨hbpp, hdim⟩ := g.paramsOk_iff.mp h
  have hcheck : g.check pbSize = none ∨ g.check pbSize = some .bufferRange := by
    unfold Geometry.check
    rw [hbpp, hdim]
    simp only [Bool.not_true, Bool.false_eq_true, if_false]
    split_ifs
    · exact .inr rfl
    · exact .inr rfl
    · exact .inl rfl
    · exact .inr rfl
  exact hcheck.resolve_left (mt (g.check_none_iff pbSize).mp hillegal)

theorem State.convertCheck_badParam {s : State} (h : s.params.cfg.toNat / 2 = 3) :
    s.convertCheck = some .badParam :=
  if_pos ((s.params.otype_eq_iff 3 (by decide)).mpr h)

/-! ### The command that meets it -/

theorem errinfoOf_badParam_issue : errinfoOf .badParam .issue = 0x07 := by decide

theorem errinfoOf_bufferRange_issue : errinfoOf .bufferRange .issue = 0x08 := by decide

/-- ISSUE of a command whose check fails: ERRINFO, STATUS and SEQ, and nothing else. -/
theorem exec_check_failed {i : Instr} {cmd : Command} {s : State} {check : Option ErrorCode}
    {cur : Cursor} {e : ErrorCode} {code : Byte} (hi : commandOf i = some cmd)
    (hidle : s.isIdle = true) (hpace : s.pace = .runAhead)
    (hissue : (s.accept cmd).issueStage cmd = (s.accept cmd).checked check cur)
    (hcheck : check = some e) (hcode : errinfoOf e .issue = code) :
    exec i s = .next { s with status := 0b100, errinfo := code, seq := .error } := by
  subst hcheck
  exact exec_eq_of_drive hi hidle hpace (n := 0) (Nat.zero_le _)
    (hissue.trans (State.raise_of_spoil_self (e := e) rfl hcode)) (State.ready_error _ rfl)

section
variable {s : State} (hidle : s.isIdle = true) (hpace : s.pace = .runAhead) {e : ErrorCode}
  {code : Byte} (hcode : errinfoOf e .issue = code)
include hidle hpace hcode

theorem exec_rle_check_failed {i : Instr} (hi : i = .decrle ∨ i = .encrle)
    (hcheck : s.rleCheck = some e) :
    exec i s = .next { s with status := 0b100, errinfo := code, seq := .error } := by
  rcases hi with rfl | rfl
  · exact exec_check_failed (cmd := .decrle) rfl hidle hpace rfl hcheck hcode
  · exact exec_check_failed (cmd := .encrle) rfl hidle hpace rfl hcheck hcode

theorem exec_raw_check_failed {i : Instr} (hi : i = .decraw ∨ i = .encraw)
    (hcheck : s.rawCheck = some e) :
    exec i s = .next { s with status := 0b100, errinfo := code, seq := .error } := by
  rcases hi with rfl | rfl
  · exact exec_check_failed (cmd := .decraw) rfl hidle hpace rfl hcheck hcode
  · exact exec_check_failed (cmd := .encraw) rfl hidle hpace rfl hcheck hcode

theorem exec_resample_check_failed (hcheck : s.params.geometry.check s.pbSize = some e) :
    exec .resample s = .next { s with status := 0b100, errinfo := code, seq := .error } :=
  exec_check_failed (cmd := .resample) rfl hidle hpace rfl hcheck hcode

theorem exec_convert_check_failed (hcheck : s.convertCheck = some e) :
    exec .convert s = .next { s with status := 0b100, errinfo := code, seq := .error } :=
  exec_check_failed (cmd := .convert) rfl hidle hpace rfl hcheck hcode

end

/-- Settles O19: the check that fails decides the error, and the command ends in ISSUE. -/
theorem parameterChecksRaiseAtIssue : Obligations.ParameterChecksRaiseAtIssue := by
  intro s hidle hpace
  refine ⟨fun i hi => ⟨fun hbad => ?_, fun hbpp hlen hbuf => ?_⟩, fun i hi hbuf => ?_,
    ⟨fun hparams => ?_, fun hparams hillegal => ?_⟩, fun hotype => ?_⟩
  · exact exec_rle_check_failed hidle hpace errinfoOf_badParam_issue hi
      (State.rleCheck_badParam hbad)
  · exact exec_rle_check_failed hidle hpace errinfoOf_bufferRange_issue hi
      (State.rleCheck_bufferRange hbpp hlen hbuf)
  · exact exec_raw_check_failed hidle hpace errinfoOf_bufferRange_issue hi
      (State.rawCheck_of_not_bufInPb hbuf)
  · exact exec_resample_check_failed hidle hpace errinfoOf_badParam_issue
      (Geometry.check_badParam s.pbSize hparams)
  · exact exec_resample_check_failed hidle hpace errinfoOf_bufferRange_issue
      (Geometry.check_bufferRange hparams hillegal)
  · exact exec_convert_check_failed hidle hpace errinfoOf_badParam_issue
      (State.convertCheck_badParam hotype)

end Sys2Proof.Machine
end

section
/-!
The family 41_rle_codec.md, the encoder: where its chunks end, as equations of `encodePixels`
(R106 to R110), and ENCRLE on a sink that takes the whole encoding.
-/

namespace Sys2Proof.Machine

/-! ### The outer loop -/

theorem length_sub_one_le_rawLength (len : Nat) (prev : Pixel) (ps : List Pixel) :
    len - 1 ≤ rawLength len prev ps := by
  induction ps generalizing len prev with
  | nil => exact Nat.sub_le _ _
  | cons p ps ih =>
    rw [rawLength]
    split_ifs
    · have := ih (len + 1) p
      omega
    · exact le_rfl
    · exact Nat.sub_le _ _

theorem length_le_repLength (len : Nat) (prev : Pixel) (ps : List Pixel) :
    len ≤ repLength len prev ps := by
  induction ps generalizing len prev with
  | nil => exact le_rfl
  | cons p ps ih =>
    rw [repLength]
    split_ifs
    · have := ih (len + 1) p
      omega
    · exact le_rfl

/-- Every chunk stands for at least one pixel (41_rle_codec.md R111). -/
theorem nextChunk_pos (p : Pixel) (ps : List Pixel) : 1 ≤ (nextChunk p ps).2 := by
  cases ps with
  | nil => exact le_rfl
  | cons q ps =>
    rw [nextChunk]
    split_ifs
    · exact length_sub_one_le_rawLength 2 q ps
    · exact (Nat.le_succ 1).trans (length_le_repLength 2 q ps)

/-- Rounds beyond one for each pixel add nothing. -/
theorem encodeChunks_eq_encodePixels {fuel : Nat} {ps : List Pixel} (h : ps.length ≤ fuel) :
    encodeChunks fuel ps = encodePixels ps := by
  unfold encodePixels
  induction fuel using Nat.strong_induction_on generalizing ps with
  | _ fuel ih =>
    cases ps with
    | nil => cases fuel <;> rfl
    | cons p ps =>
      obtain ⟨n, rfl⟩ : ∃ n, fuel = n + 1 := ⟨fuel - 1, by simp at h; omega⟩
      have hpos := nextChunk_pos p ps
      have hrest : ((p :: ps).drop (nextChunk p ps).2).length ≤ ps.length := by
        simp only [List.length_drop, List.length_cons]
        omega
      rw [List.length_cons] at h
      rw [encodeChunks, List.length_cons, encodeChunks, ih n (by omega) (by omega),
        ih ps.length (by omega) hrest]

theorem encodePixels_cons (p : Pixel) (ps : List Pixel) :
    encodePixels (p :: ps) =
      chunkBytes (nextChunk p ps).1 (nextChunk p ps).2 p (p :: ps) ++
        encodePixels ((p :: ps).drop (nextChunk p ps).2) := by
  have hpos := nextChunk_pos p ps
  rw [encodePixels, List.length_cons, encodeChunks, encodeChunks_eq_encodePixels]
  simp only [List.length_drop, List.length_cons]
  omega

@[simp] theorem encodePixels_nil : encodePixels [] = [] := rfl

/-! ### One chunk -/

theorem controlByte_rep_eq {count : Nat} (hpos : 1 ≤ count) (hle : count ≤ 128) :
    controlByte true count = BitVec.ofNat 8 (127 + count) := by
  refine BitVec.eq_of_toNat_eq ?_
  rw [controlByte_rep_toNat hle, BitVec.toNat_ofNat]
  omega

theorem controlByte_raw_eq (count : Nat) :
    controlByte false count = BitVec.ofNat 8 (count - 1) := BitVec.zero_or

/-- A repeat chunk over the first `count` pixels. -/
theorem encodePixels_of_rep {p : Pixel} {ps : List Pixel} {count : Nat}
    (h : nextChunk p ps = (.rep, count)) :
    encodePixels (p :: ps) =
      controlByte true count :: p ++ encodePixels ((p :: ps).drop count) := by
  rw [encodePixels_cons, h]
  rfl

/-- A raw chunk over the pixels `p :: ps`. -/
theorem encodePixels_of_raw {p : Pixel} {ps rest : List Pixel}
    (h : nextChunk p (ps ++ rest) = (.raw, (p :: ps).length)) :
    encodePixels (p :: ps ++ rest) =
      BitVec.ofNat 8 ((p :: ps).length - 1) :: (p :: ps).flatten ++ encodePixels rest := by
  have hpixels : p :: (ps ++ rest) = p :: ps ++ rest := rfl
  rw [List.cons_append, encodePixels_cons, h, hpixels, List.drop_left, chunkBytes, List.take_left,
    controlByte_raw_eq]

/-! ### How far a chunk grows (41_rle_codec.md R107 to R110) -/

/-- A run of equal pixels is taken up to the cap, the run's end or the end of the buffer. -/
theorem repLength_replicate {p : Pixel} {rest : List Pixel} {len m : Nat}
    (hle : len + m ≤ maxChunk) (hend : len + m = maxChunk ∨ rest.head? ≠ some p) :
    repLength len p (List.replicate m p ++ rest) = len + m := by
  induction m generalizing len with
  | zero =>
    cases rest with
    | nil => rfl
    | cons q rest =>
      have hstop : ¬ (len < maxChunk ∧ q = p) := fun ⟨hlt, hq⟩ =>
        hend.elim (fun hcap => by omega) fun hne => hne (congrArg some hq)
      exact if_neg hstop
  | succ m ih =>
    rw [List.replicate_succ, List.cons_append, repLength, if_pos ⟨by omega, rfl⟩,
      ih (by omega) (by rwa [Nat.add_right_comm])]
    omega

/-- Pixels each of which differs from the one before are taken into a raw chunk, up to the cap. -/
theorem rawLength_append {len : Nat} {prev : Pixel} {ps : List Pixel} (rest : List Pixel)
    (hchain : (prev :: ps).IsChain (· ≠ ·)) (hle : len + ps.length ≤ maxChunk) :
    rawLength len prev (ps ++ rest) = rawLength (len + ps.length) (ps.getLastD prev) rest := by
  induction ps generalizing len prev with
  | nil => rfl
  | cons p ps ih =>
    obtain ⟨hne, hchain⟩ := List.isChain_cons_cons.mp hchain
    rw [List.length_cons] at hle ⊢
    rw [List.cons_append, rawLength, if_pos (by omega), if_pos hne.symm, ih hchain (by omega),
      List.getLastD_cons, Nat.add_right_comm, Nat.add_assoc]

theorem rawLength_cap (prev : Pixel) (ps : List Pixel) :
    rawLength maxChunk prev ps = maxChunk := by
  cases ps with
  | nil => rfl
  | cons p ps => exact if_neg (lt_irrefl _)

/-- A pixel that no equal one follows begins a raw chunk, of one pixel at the end of the buffer. -/
theorem nextChunk_raw {p : Pixel} {ps : List Pixel} (h : ps.head? ≠ some p) :
    nextChunk p ps = (.raw, rawLength 1 p ps) := by
  cases ps with
  | nil => rfl
  | cons q ps =>
    have hne : q ≠ p := fun hq => h (congrArg some hq)
    rw [nextChunk, rawLength, if_pos hne, if_pos (by decide), if_pos hne]

/-- The chunk that begins with `p :: ps`, each of them different from the one before. -/
theorem nextChunk_of_isChain {p : Pixel} {ps : List Pixel} (rest : List Pixel)
    (hchain : (p :: ps).IsChain (· ≠ ·)) (hle : 1 + ps.length ≤ maxChunk)
    (hrest : ps = [] → rest.head? ≠ some p) :
    nextChunk p (ps ++ rest) = (.raw, rawLength (1 + ps.length) (ps.getLastD p) rest) := by
  rw [← rawLength_append rest hchain hle]
  refine nextChunk_raw ?_
  cases ps with
  | nil => exact hrest rfl
  | cons q ps =>
    obtain ⟨hne, -⟩ := List.isChain_cons_cons.mp hchain
    exact fun hq => hne (Option.some.inj hq).symm

theorem encodePixels_replicate {p : Pixel} {n : Nat} {rest : List Pixel} (h2 : 2 ≤ n)
    (h128 : n ≤ 128) (hend : n = 128 ∨ rest.head? ≠ some p) :
    encodePixels (List.replicate n p ++ rest) =
      BitVec.ofNat 8 (127 + n) :: p ++ encodePixels rest := by
  obtain ⟨m, rfl⟩ : ∃ m, n = 2 + m := ⟨n - 2, by omega⟩
  have hpixels : List.replicate (2 + m) p ++ rest = p :: p :: (List.replicate m p ++ rest) := by
    rw [Nat.add_comm]
    rfl
  have hchunk : nextChunk p (p :: (List.replicate m p ++ rest)) = (.rep, 2 + m) := by
    rw [nextChunk, if_neg (not_not_intro rfl), repLength_replicate h128 hend]
  rw [← controlByte_rep_eq (by omega) h128, hpixels, encodePixels_of_rep hchunk, ← hpixels,
    List.drop_left' (List.length_replicate)]

/-- An equal pair `p, p` met before the cap closes the raw chunk one short (41_rle_codec.md
R109). -/
theorem encodePixels_raw_then_pair {ps : List Pixel} {p : Pixel} (rest : List Pixel)
    (h1 : 1 ≤ ps.length) (h126 : ps.length ≤ 126) (hchain : (ps ++ [p]).IsChain (· ≠ ·)) :
    encodePixels (ps ++ p :: p :: rest) =
      BitVec.ofNat 8 (ps.length - 1) :: ps.flatten ++ encodePixels (p :: p :: rest) := by
  cases ps with
  | nil => exact absurd h1 (by decide)
  | cons a ps =>
    refine encodePixels_of_raw ?_
    rw [List.length_cons] at h126 ⊢
    have hlt : 1 + (ps ++ [p]).length < maxChunk := by
      rw [List.length_append, List.length_singleton, maxChunk]
      omega
    have hpixels : ps ++ p :: p :: rest = ps ++ [p] ++ p :: rest := by simp
    rw [hpixels, nextChunk_of_isChain (ps := ps ++ [p]) _ hchain hlt.le (by simp),
      List.getLastD_concat, rawLength, if_pos hlt, if_neg (not_not_intro rfl), List.length_append,
      List.length_singleton]
    exact congrArg (Prod.mk _) (by omega)

theorem encodePixels_raw_cap {ps : List Pixel} (rest : List Pixel) (h128 : ps.length = 128)
    (hchain : ps.IsChain (· ≠ ·)) :
    encodePixels (ps ++ rest) = 0x7F :: ps.flatten ++ encodePixels rest := by
  cases ps with
  | nil => cases h128
  | cons a ps =>
    have hlen : 1 + ps.length = maxChunk := (Nat.add_comm _ _).trans h128
    have hne : ps ≠ [] := by
      rintro rfl
      cases h128
    have hchunk : nextChunk a (ps ++ rest) = (.raw, (a :: ps).length) := by
      rw [nextChunk_of_isChain rest hchain hlen.le (fun h => absurd h hne), hlen, rawLength_cap,
        h128]
      rfl
    rw [encodePixels_of_raw hchunk, h128]
    rfl

theorem encodePixels_raw_end {ps : List Pixel} (h1 : 1 ≤ ps.length) (h127 : ps.length ≤ 127)
    (hchain : ps.IsChain (· ≠ ·)) :
    encodePixels ps = BitVec.ofNat 8 (ps.length - 1) :: ps.flatten := by
  cases ps with
  | nil => exact absurd h1 (by decide)
  | cons a ps =>
    have hle : 1 + ps.length ≤ maxChunk := by
      rw [List.length_cons] at h127
      unfold maxChunk
      omega
    have hchunk : nextChunk a (ps ++ []) = (.raw, (a :: ps).length) := by
      rw [nextChunk_of_isChain [] hchain hle (by simp), rawLength, Nat.add_comm]
      rfl
    simpa using encodePixels_of_raw hchunk

/-- Settles O36: one chunk of `encodePixels` for each way it can end. -/
theorem encoderChunkBoundaries : Obligations.EncoderChunkBoundaries :=
  ⟨fun p => by
      simpa using encodePixels_raw_end (ps := [p]) le_rfl (by simp) (List.isChain_singleton p),
    fun _ _ _ h2 h128 hend => encodePixels_replicate h2 h128 hend,
    fun _ _ rest h1 h126 hchain => encodePixels_raw_then_pair rest h1 h126 hchain,
    fun _ rest h128 hchain => encodePixels_raw_cap rest h128 hchain,
    fun _ h2 h127 hchain => encodePixels_raw_end (by omega) h127 hchain⟩

/-! ### ENCRLE -/

/-- The engine can move in ENCODE where the sink has an answer for every byte. -/
theorem State.ready_encode {s : State} {cmd : Command} {plan : Option Plan} {left : List Byte}
    {r : List OutAnswer} (hseq : s.seq = .run cmd plan (.encode left))
    (hs : s.sink = acks left.length ++ r) : s.ready = true := by
  cases left with
  | nil => exact State.ready_of_source hseq rfl (.inl rfl)
  | cons b left => exact State.ready_of_sink hseq rfl (hs ▸ by simp [acks_succ])

theorem State.encodeStage_full (s : State) {left : List Byte} {r : List OutAnswer}
    (hs : s.sink = acks left.length ++ r) :
    s.encodeStage left = ({ s with
      sink := r, out := s.out ++ left
      outCount := s.outCount + BitVec.ofNat 32 left.length } : State).complete := by
  simp [State.encodeStage, hs, putN_acks, State.afterPut]

/-- A standalone encode command whose sink takes all bytes. -/
theorem exec_encode_full {i : Instr} {cmd : Command} {s : State} {left : List Byte}
    {r : List OutAnswer} (hidle : s.isIdle = true) (hpace : s.pace = .runAhead)
    (hi : commandOf i = some cmd)
    (hissue : (s.accept cmd).issueStage cmd = (s.accept cmd).moveTo (.encode left))
    (hs : s.sink = acks left.length ++ r) :
    exec i s = .next { s with
      status := 0b010, seq := .idle, sink := r, out := s.out ++ left
      outCount := s.outCount + BitVec.ofNat 32 left.length } :=
  exec_eq_of_stage hi hidle hpace hissue (State.ready_encode rfl hs)
    (State.encodeStage_full ((s.accept cmd).moveTo (.encode left)) hs) (State.ready_idle _ rfl)

/-- Settles O34: ENCODE is the one stage after ISSUE, and the sink takes all it offers. -/
theorem encrleEncodesTheBuffer : Obligations.EncrleEncodesTheBuffer := by
  intro s r hidle hpace hbpp hmod hbuf bytes hs
  refine exec_encode_full hidle hpace rfl ?_ hs
  rw [State.issueStage_encrle hbpp hmod hbuf, State.rleBytes, State.pixels_eq_pixelsOf]

end Sys2Proof.Machine
end

section
/-!
The family 41_rle_codec.md, the decoder: DECRLE on a stream that fills the codec buffer, and DECODE,
DECRLE's or CONVERT's, stopped by a chunk after legal ones (R102 to R105; 44_pipeline.md R156;
60_exceptions.md R183, R188).
-/

namespace Sys2Proof.Machine

/-! ### From chunk to chunk -/

theorem State.afterTake_nil (s : State) : s.afterTake ⟨[], s.source, .full⟩ = s := by
  simp [State.afterTake]

theorem State.moveTo_moveTo (s : State) (cur cur' : Cursor) :
    (s.moveTo cur).moveTo cur' = s.moveTo cur' := by
  cases hseq : s.seq <;> simp [State.moveTo, hseq, Sequencer.moveTo]

theorem State.moveTo_self {s : State} {cmd : Command} {plan : Option Plan} {cur : Cursor}
    (hseq : s.seq = .run cmd plan cur) : s.moveTo cur = s := by
  rw [State.moveTo, hseq, Sequencer.moveTo_run, ← hseq]

/-- The decoder after `n` bytes more. -/
def Decoder.advance (d : Decoder) (n : Nat) : Decoder := { d with emitted := d.emitted + n }

/-- DECODE at a chunk boundary, `d` having gone on over the chunks `cs`, with `rest` on the
stream. -/
def State.atBoundary (s : State) (d : Decoder) (cs : List ChunkData) (rest : List InAnswer) :
    State :=
  ((s.afterTake ⟨streamBytes cs, rest, .full⟩).memWrite (d.base + d.emitted)
    (streamImage cs)).moveTo (.decodeRle (d.advance (streamImage cs).length) .control)

theorem State.atBoundary_seq {s : State} {cmd : Command} {plan : Option Plan} {cur : Cursor}
    (hseq : s.seq = .run cmd plan cur) (d : Decoder) (cs : List ChunkData)
    (rest : List InAnswer) :
    (s.atBoundary d cs rest).seq =
      .run cmd plan (.decodeRle (d.advance (streamImage cs).length) .control) := by
  simp [State.atBoundary, hseq]

/-- A sequence of legal chunks whose image leaves room in the buffer: one engine step each, and the
decoder stands at the next control byte. -/
theorem State.drive_chunks {cmd : Command} {plan : Option Plan} {rest : List InAnswer}
    (cs : List ChunkData) {s : State} {d : Decoder}
    (hseq : s.seq = .run cmd plan (.decodeRle d .control))
    (hlegal : ∀ c ∈ cs, c.legal d.bpp) (hbpp : 0 < d.bpp)
    (hroom : d.emitted + (streamImage cs).length < d.size)
    (hs : s.source = bytesOf (streamBytes cs) ++ rest) :
    s.drive cs.length = s.atBoundary d cs rest := by
  induction cs generalizing s d with
  | nil =>
    subst hs
    exact ((congrArg (State.moveTo · _) s.afterTake_nil).trans (State.moveTo_self hseq)).symm
  | cons c cs ih =>
    rw [streamImage_cons, List.length_append, ← Nat.add_assoc] at hroom
    have hlt : d.emitted + c.image.length < d.size := by omega
    rw [streamBytes_cons, bytesOf_append, List.append_assoc] at hs
    rw [List.length_cons, State.drive_chunk hseq (hlegal c (by simp)) hbpp hlt.le hs,
      State.afterChunk, State.chunkEnd, if_pos hlt,
      ih (d := d.advance c.image.length) (by simp [hseq, Decoder.advance])
        (fun c' hc => hlegal c' (List.mem_cons_of_mem c hc)) hbpp hroom rfl]
    dsimp only [State.atBoundary, Decoder.advance]
    rw [← Nat.add_assoc d.base, State.transfer_append, State.moveTo_moveTo, Nat.add_assoc d.emitted,
      ← List.length_append]
    rfl

/-! ### DECRLE on a stream that fills the buffer -/

/-- A sequence of legal chunks that fills the buffer, the empty one for the empty buffer too. -/
theorem State.drive_decodeRle_fill {cmd : Command} {plan : Option Plan} {q : List InAnswer}
    (cs : List ChunkData) {s : State} {d : Decoder}
    (hseq : s.seq = .run cmd plan (.decodeRle d .control))
    (hlegal : ∀ c ∈ cs, c.legal d.bpp) (hbpp : 0 < d.bpp)
    (hfill : d.emitted + (streamImage cs).length = d.size)
    (hs : s.source = bytesOf (streamBytes cs) ++ q) :
    ∃ n, n ≤ cs.length + 1 ∧ s.drive n =
      ((s.afterTake ⟨streamBytes cs, q, .full⟩).memWrite (d.base + d.emitted)
        (streamImage cs)).afterDecode := by
  cases cs with
  | nil =>
    subst hs
    have hend : ¬ d.emitted < d.size := Nat.not_lt.mpr hfill.ge
    have hwanted : (Cursor.decodeRle d .control).wanted = 0 := if_neg hend
    have hstage : s.stageStep cmd (.decodeRle d .control) = s.afterDecode := if_neg hend
    exact ⟨1, le_rfl, (State.drive_step hseq (State.ready_of_source hseq rfl (.inl hwanted))
      hstage 0).trans (congrArg State.afterDecode s.afterTake_nil.symm)⟩
  | cons c cs =>
    exact ⟨(c :: cs).length, Nat.le_succ _, State.drive_decodeRle c cs hseq hlegal hbpp hfill hs⟩

/-- The decoder DECRLE starts with (41_rle_codec.md R102). -/
def Params.decoder (p : Params) : Decoder := ⟨p.bufBase.toNat, p.bufLen.toNat, p.bpp.toNat, 0⟩

/-- DECRLE at the beginning of DECODE. -/
def State.atDecrle (s : State) : State :=
  (s.accept .decrle).moveTo (.decodeRle s.params.decoder .control)

theorem State.issueStage_decrle {s : State}
    (hbpp : s.params.bpp.toNat = 3 ∨ s.params.bpp.toNat = 4)
    (hlen : s.params.bufLen.toNat % s.params.bpp.toNat = 0) (h : s.bufInPb) :
    (s.accept .decrle).issueStage .decrle = s.atDecrle :=
  congrArg (fun c => (s.accept .decrle).checked c _)
    (State.rleCheck_of_legal (s := s.accept .decrle) hbpp hlen h)

/-- An image is a whole number of pixels. -/
theorem streamImage_length_mod {bpp : Nat} {cs : List ChunkData} (h : ∀ c ∈ cs, c.legal bpp) :
    (streamImage cs).length % bpp = 0 := by
  induction cs with
  | nil => exact Nat.zero_mod bpp
  | cons c cs ih =>
    rw [streamImage_cons, List.length_append, c.image_length (h c (by simp)),
      Nat.mul_add_mod_self_right]
    exact ih fun c' hc => h c' (List.mem_cons_of_mem c hc)

theorem State.pbByte_memWrite_add (s : State) (a : Nat) {v : List Byte} {k : Nat}
    (hk : k < v.length) : (s.memWrite a v).pbByte (a + k) = v[k] := by
  rw [State.pbByte_memWrite, dif_pos ⟨Nat.le_add_right _ _, Nat.add_lt_add_left hk a⟩]
  simp only [Nat.add_sub_cancel_left]

/-- Settles O28: the driver over the chunks, whose image is written as one block. -/
theorem decrleDecodesEveryLegalStream : Obligations.DecrleDecodesEveryLegalStream := by
  intro s cs q hidle hpace hbpp hbuf hlegal hlen hs
  have hmod := hlen ▸ streamImage_length_mod hlegal
  have hcount := length_le_streamBytes cs
  have hsource : s.source.length = (streamBytes cs).length + q.length := by simp [hs]
  obtain ⟨n, hn, hdrive⟩ := State.drive_decodeRle_fill (s := s.atDecrle) cs rfl hlegal
    (show 0 < s.params.bpp.toNat by omega) ((Nat.zero_add _).trans hlen) hs
  refine ⟨_, exec_eq_of_drive rfl hidle hpace (by omega)
    ((congrArg (State.drive n) (State.issueStage_decrle hbpp hmod hbuf)).trans hdrive)
    (State.ready_idle _ rfl),
    fun k hk => State.pbByte_memWrite_add _ s.params.bufBase.toNat hk,
    fun a ha => State.pbByte_memWrite_outside _ (le_refl s.params.bufBase.toNat)
      (Nat.add_le_add_left hlen.le _) ha, rfl⟩

/-! ### A chunk that stops DECODE -/

/-- With `room` bytes of the buffer left, the chunk at the front of the answers `rest` raises `e`:
its bytes `taken` have been taken, `q` is left, and what it wrote is within the room. -/
def ChunkFails (bpp room : Nat) (taken : List Byte) (rest q : List InAnswer) (e : ErrorCode) :
    Prop :=
  ∀ (s : State) (d : Decoder), d.bpp = bpp → d.emitted + room = d.size → s.source = rest →
    ∃ written : List Byte, written.length ≤ room ∧
      s.controlStage d =
        ((s.afterTake ⟨taken, q, .full⟩).memWrite (d.base + d.emitted) written).raise e

/-- Whatever its kind, the chunk of a control byte is run with the byte's count. -/
theorem State.runChunkOf_decodeChunk (c : Byte) : ∃ kind : ChunkKind, ∀ (s : State) (d : Decoder),
    s.runChunkOf d (decodeChunk c) = s.runChunk d kind (c.toNat % 128 + 1) := by
  rw [decodeChunk_eq]
  split
  · exact ⟨.rep, fun _ _ => rfl⟩
  · exact ⟨.raw, fun _ _ => rfl⟩

theorem State.chunkBody_overrun (s : State) {d : Decoder} (kind : ChunkKind) {count : Nat}
    (px : Pixel) (h : d.size < d.emitted + count * d.bpp) :
    s.chunkBody d kind count px = s.raise .overrun := if_pos h

/-- The Overrun test comes after the first pixel and before anything is written (41_rle_codec.md
R104 c). -/
theorem chunkFails_overrun {bpp room : Nat} {c : Byte} {px : Pixel} (q : List InAnswer)
    (hpx : px.length = bpp) (hroom : 0 < room) (hover : room < (c.toNat % 128 + 1) * bpp) :
    ChunkFails bpp room (c :: px) (bytesOf (c :: px) ++ q) q .overrun := by
  rintro s d rfl hsize hs
  obtain ⟨kind, hkind⟩ := State.runChunkOf_decodeChunk c
  refine ⟨[], Nat.zero_le _, ?_⟩
  rw [s.controlStage_byte (by omega) hs, hkind, State.runChunk_ready (q := q) _ d _ _ hpx rfl,
    State.chunkBody_overrun _ _ _ (by omega), State.afterTake_afterTake, State.memWrite_nil]
  rfl

section
variable (q : List InAnswer) (eos : Bool)

/-- The stream stops at a control byte's place. -/
theorem State.controlStage_short {s : State} {d : Decoder} (hlt : d.emitted < d.size)
    (hs : s.source = (if eos then InAnswer.eos else InAnswer.fail) :: q) :
    s.controlStage d = (s.afterTake ⟨[], q, .full⟩).raise
      (if eos then .truncatedData else .ioError) := by
  cases eos <;> simp [State.controlStage, hlt, hs, State.afterTake]

/-- The stream stops inside a chunk's first pixel, before its kind is looked at (41_rle_codec.md
R103). -/
theorem State.runChunk_short {s : State} {d : Decoder} {bs : List Byte} (kind : ChunkKind)
    (count : Nat) (hlen : bs.length < d.bpp)
    (hs : s.source = bytesOf bs ++ (if eos then InAnswer.eos else InAnswer.fail) :: q) :
    s.runChunk d kind count = (s.afterTake ⟨bs, q, .full⟩).raise
      (if eos then .truncatedData else .ioError) := by
  simp [State.runChunk, State.chunkPixel, hs, takeN_short bs d.bpp q eos hlen, State.onTaken_short,
    State.afterTake]

/-- The stream stops in a later pixel of a raw chunk; what came of it has been written. -/
theorem State.rawRest_short {s : State} {d : Decoder} {left : Nat} {bs : List Byte}
    (hlen : bs.length < left)
    (hs : s.source = bytesOf bs ++ (if eos then InAnswer.eos else InAnswer.fail) :: q) :
    s.rawRest d left = ((s.afterTake ⟨bs, q, .full⟩).memWrite (d.base + d.emitted) bs).raise
      (if eos then .truncatedData else .ioError) := by
  simp [State.rawRest, hs, takeN_short bs left q eos hlen, State.onTaken_short, State.afterTake]

/-- A raw chunk that fits, cut short past its first pixel. -/
theorem State.runChunk_raw_short {s : State} {d : Decoder} {count : Nat} {bs : List Byte}
    (hpx : d.bpp ≤ bs.length) (hlen : bs.length < count * d.bpp)
    (hfit : d.emitted + count * d.bpp ≤ d.size)
    (hs : s.source = bytesOf bs ++ (if eos then InAnswer.eos else InAnswer.fail) :: q) :
    s.runChunk d .raw count =
      ((s.afterTake ⟨bs, q, .full⟩).memWrite (d.base + d.emitted) bs).raise
        (if eos then .truncatedData else .ioError) := by
  obtain ⟨px, rest, rfl, hlen_px⟩ : ∃ px rest, bs = px ++ rest ∧ px.length = d.bpp :=
    ⟨bs.take d.bpp, bs.drop d.bpp, (List.take_append_drop _ _).symm, List.length_take_of_le hpx⟩
  have hrest : rest.length < (count - 1) * d.bpp := by
    rw [List.length_append] at hlen
    rw [Nat.sub_one_mul]
    omega
  rw [bytesOf_append, List.append_assoc] at hs
  rw [s.runChunk_ready d .raw count hlen_px hs, State.chunkBody, if_neg (by omega),
    State.rawRest_short q eos hrest rfl]
  rw [← hlen_px, ← Nat.add_assoc, State.memWrite_afterTake_append]

/-- The ways the stream can stop inside a chunk (41_rle_codec.md R103, R104 b, d, e). -/
theorem chunkFails_broken {bpp room : Nat} {part : List Byte} (hroom : 0 < room)
    (hbroken : brokenChunk bpp room part) :
    ChunkFails bpp room part
      (bytesOf part ++ (if eos then InAnswer.eos else InAnswer.fail) :: q) q
      (if eos then .truncatedData else .ioError) := by
  rintro s d rfl hsize hs
  have hlt : d.emitted < d.size := by omega
  rcases hbroken with hshort | ⟨count, pixels, rfl, hmax, hpx, hlen, hfit⟩
  · refine ⟨[], Nat.zero_le _, ?_⟩
    rw [State.memWrite_nil]
    cases part with
    | nil => exact State.controlStage_short q eos hlt hs
    | cons c pixels =>
      obtain ⟨kind, hkind⟩ := State.runChunkOf_decodeChunk c
      rw [s.controlStage_byte hlt hs, hkind, State.runChunk_short q eos _ _ hshort rfl,
        State.afterTake_afterTake]
      rfl
  · refine ⟨pixels, by omega, ?_⟩
    have hpos : 1 ≤ count := Nat.pos_of_mul_pos_right (Nat.zero_lt_of_lt hlen)
    rw [s.controlStage_byte hlt hs, decodeChunk_raw hpos hmax]
    refine (State.runChunk_raw_short q eos hpx hlen (by omega) rfl).trans ?_
    rw [State.afterTake_afterTake]
    rfl

end

/-! ### DECODE that a chunk stops -/

/-- Where in its stream a run-length DECODE stood does not matter to the error it raises. -/
theorem State.raise_moveTo_decodeRle {s : State} {cmd : Command} {plan : Option Plan}
    {d d' : Decoder} {pos pos' : ChunkPos} (e : ErrorCode)
    (hseq : s.seq = .run cmd plan (.decodeRle d pos)) (hbase : d'.base = d.base)
    (hsize : d'.size = d.size) : (s.moveTo (.decodeRle d' pos')).raise e = s.raise e := by
  cases plan <;>
    simp [State.raise, State.spoil, State.enterError, State.freePb, State.moveTo, hseq,
      Sequencer.stage, Cursor.stage, hbase, hsize]

/-- Legal chunks, then one that fails: what all of them wrote is within the buffer. -/
theorem State.drive_chunkFails {cmd : Command} {plan : Option Plan} {cs : List ChunkData}
    {taken : List Byte} {rest q : List InAnswer} {e : ErrorCode} {s : State} {d : Decoder}
    (hseq : s.seq = .run cmd plan (.decodeRle d .control))
    (hlegal : ∀ c ∈ cs, c.legal d.bpp) (hbpp : 0 < d.bpp)
    (hroom : d.emitted + (streamImage cs).length < d.size)
    (hfail : ChunkFails d.bpp (d.size - (d.emitted + (streamImage cs).length)) taken rest q e)
    (hs : s.source = bytesOf (streamBytes cs) ++ rest) (hrest : rest ≠ []) :
    ∃ written : List Byte, written.length ≤ d.size - d.emitted ∧
      s.drive (cs.length + 1) = ((s.afterTake ⟨streamBytes cs ++ taken, q, .full⟩).memWrite
        (d.base + d.emitted) written).raise e := by
  have hchunks := State.drive_chunks cs hseq hlegal hbpp hroom hs
  have hseq' := State.atBoundary_seq hseq d cs rest
  obtain ⟨written, hwritten, hstage⟩ := hfail (s.atBoundary d cs rest)
    (d.advance (streamImage cs).length) rfl (Nat.add_sub_of_le hroom.le) rfl
  refine ⟨streamImage cs ++ written, by rw [List.length_append]; omega,
    State.drive_trans hchunks ((State.drive_step hseq' (State.ready_of_source hseq' rfl
      (.inr hrest)) hstage 0).trans ?_)⟩
  dsimp only [State.atBoundary, Decoder.advance]
  rw [State.drive_zero, ← Nat.add_assoc, State.transfer_append]
  exact State.raise_moveTo_decodeRle e hseq rfl rfl

section
variable {s : State} {cs : List ChunkData} {taken : List Byte} {rest q : List InAnswer}
  {e : ErrorCode} {code : Byte} (hidle : s.isIdle = true) (hpace : s.pace = .runAhead)
  (hcode : errinfoOf e .decode = code) (hrest : rest ≠ [])
include hidle hpace hcode hrest

theorem exec_decrle_chunkFails (hbpp : s.params.bpp.toNat = 3 ∨ s.params.bpp.toNat = 4)
    (hmod : s.params.bufLen.toNat % s.params.bpp.toNat = 0) (hbuf : s.bufInPb)
    (hlegal : ∀ c ∈ cs, c.legal s.params.bpp.toNat)
    (hroom : (streamImage cs).length < s.params.bufLen.toNat)
    (hfail : ChunkFails s.params.bpp.toNat (s.params.bufLen.toNat - (streamImage cs).length) taken
      rest q e)
    (hs : s.source = bytesOf (streamBytes cs) ++ rest) :
    ∃ t : State, exec .decrle s = .next t ∧
      freedPb s t s.params.bufBase.toNat s.params.bufLen.toNat ∧
      t = { s with
        status := 0b100, errinfo := code, seq := .error, source := q
        inCount := s.inCount + BitVec.ofNat 32 (streamBytes cs ++ taken).length
        pb := t.pb, pbFree := t.pbFree, draws := t.draws } := by
  have hcount := length_le_streamBytes cs
  have hsource : s.source.length = (streamBytes cs).length + rest.length := by simp [hs]
  have hplace : 0 + (streamImage cs).length = (streamImage cs).length := Nat.zero_add _
  obtain ⟨written, hwritten, hdrive⟩ := State.drive_chunkFails (s := s.atDecrle) rfl hlegal
    (show 0 < s.params.bpp.toNat by omega) (hplace.trans_lt hroom) (hplace.symm ▸ hfail) hs hrest
  refine ⟨_, exec_eq_of_drive rfl hidle hpace (by omega)
    ((congrArg (State.drive _) (State.issueStage_decrle hbpp hmod hbuf)).trans hdrive)
    (State.ready_error _ rfl), freedPb_raise e rfl rfl fun a ha => ?_,
    State.raise_of_freePb rfl hcode⟩
  exact State.pbByte_memWrite_outside _ (le_refl s.params.bufBase.toNat)
    (Nat.add_le_add_left hwritten _) ha

theorem exec_convert_chunkFails {h : Header} (hc : convertible s.params h s.pbSize)
    (hrle : h[2] = 10) (hlegal : ∀ c ∈ cs, c.legal h.pixelBytes)
    (hroom : (streamImage cs).length < h.sourceLength)
    (hfail : ChunkFails h.pixelBytes (h.sourceLength - (streamImage cs).length) taken rest q e)
    (hs : s.source = bytesOf (h.toList ++ streamBytes cs) ++ rest) :
    ∃ t : State, exec .convert s = .next t ∧
      freedPb s t 0 (h.sourceLength + s.params.destLength h) ∧
      t = { s with
        status := 0b100, errinfo := code, seq := .error, source := q
        inCount := s.inCount + BitVec.ofNat 32 (h.toList ++ streamBytes cs ++ taken).length
        hdrIn := h, pb := t.pb, pbFree := t.pbFree, draws := t.draws } := by
  have hplan := hc.plan_eq
  have hbpp := hc.pixelBytes_eq
  have hcount := length_le_streamBytes cs
  have hsource : s.source.length = 18 + ((streamBytes cs).length + rest.length) := by simp [hs]
  have hplace : 0 + (streamImage cs).length = (streamImage cs).length := Nat.zero_add _
  rw [bytesOf_append, List.append_assoc] at hs
  have hseq : ∀ q', (s.atDecode h q').seq = .run .convert (some (planOf s.params h))
      (.decodeRle ⟨0, h.sourceLength, h.pixelBytes, 0⟩ .control) := fun q' => by
    simp [State.atDecode, Header.imageType, hrle, hplan]
  obtain ⟨written, hwritten, hdrive⟩ := State.drive_chunkFails (hseq _) hlegal
    (show 0 < h.pixelBytes by omega) (hplace.trans_lt hroom) (hplace.symm ▸ hfail) rfl hrest
  have hspoil : ∀ (q' : List InAnswer) (t : Taken),
      (((s.atDecode h q').afterTake t).memWrite (0 + 0) written).spoil =
      (((s.atDecode h q').afterTake t).memWrite (0 + 0) written).freePb 0
        (h.sourceLength + s.params.destLength h) := fun q' t => by
    simp [State.spoil, hseq, hplan]
  refine ⟨_, exec_eq_of_drive rfl hidle hpace (by omega)
    (State.drive_trans (s.drive_to_decode hc hs) hdrive) (State.ready_error _ rfl),
    freedPb_raise e (hspoil _ _) rfl fun a ha => ?_, ?_⟩
  · exact State.pbByte_memWrite_outside _ (Nat.zero_le _) (by dsimp only at hwritten ⊢; omega) ha
  · rw [List.append_assoc, List.length_append, Vector.length_toList, ← add_eighteen_add]
    refine State.raise_of_freePb (hspoil _ _) ?_
    rw [State.memWrite_seq, State.afterTake_seq, hseq]
    exact hcode

end

theorem errinfoOf_overrun_decode : errinfoOf .overrun .decode = 0x36 := by decide

/-- Settles O29: the chunk after the legal ones fails the Overrun test. -/
theorem decrleOverrun : Obligations.DecrleOverrun := by
  intro s cs c px q hidle hpace
  have hrest : bytesOf (c :: px) ++ q ≠ [] := bytesOf_append_ne_nil (by simp) q
  refine ⟨fun hbpp hmod hbuf hlegal hpx hroom hover hs => ?_,
    fun h hc hrle hlegal hpx hroom hover hs => ?_⟩
  · rw [bytesOf_append, List.append_assoc] at hs
    exact exec_decrle_chunkFails hidle hpace errinfoOf_overrun_decode hrest hbpp hmod hbuf hlegal
      hroom (chunkFails_overrun q hpx (by omega) (by omega)) hs
  · rw [bytesOf_append, List.append_assoc] at hs
    exact exec_convert_chunkFails hidle hpace errinfoOf_overrun_decode hrest hc hrle hlegal hroom
      (chunkFails_overrun q hpx (by omega) (by omega)) hs

/-- Settles O30: the stream stops inside the chunk after the legal ones. -/
theorem decrleTruncatedBeforeFirstPixel : Obligations.DecrleTruncatedBeforeFirstPixel := by
  intro s cs part q eos hidle hpace
  have hrest := bytesOf_append_cons_ne_nil part (if eos then InAnswer.eos else InAnswer.fail) q
  refine ⟨fun hbpp hmod hbuf hlegal hroom hbroken hs => ?_,
    fun h hc hrle hlegal hroom hbroken hs => ?_⟩
  · rw [bytesOf_append, List.append_assoc] at hs
    exact exec_decrle_chunkFails hidle hpace (errinfoOf_decode_short eos) hrest hbpp hmod hbuf
      hlegal hroom (chunkFails_broken q eos (by omega) hbroken) hs
  · rw [bytesOf_append, List.append_assoc] at hs
    exact exec_convert_chunkFails hidle hpace (errinfoOf_decode_short eos) hrest hc hrle hlegal
      hroom (chunkFails_broken q eos (by omega) hbroken) hs

end Sys2Proof.Machine
end

section
/-!
The family 42_raw_codec.md: DECRAW and ENCRAW on ports that have an answer for every byte of the
codec buffer (R121, R122).
-/

namespace Sys2Proof.Machine

/-- The engine can move at the start of a raw DECODE where the source has every byte ready; it needs
no answer where there is no byte to take. -/
theorem State.ready_decodeRaw {s : State} {cmd : Command} {plan : Option Plan} {base size : Nat}
    {bs : List Byte} {q : List InAnswer} (hseq : s.seq = .run cmd plan (.decodeRaw base size 0))
    (hlen : bs.length = size) (hs : s.source = bytesOf bs ++ q) : s.ready = true := by
  refine State.ready_of_source hseq rfl ?_
  obtain hzero | hpos := Nat.eq_zero_or_pos size
  · exact .inl hzero
  · exact .inr (hs ▸ bytesOf_append_ne_nil (hlen ▸ hpos) q)

/-- Settles O25: DECODE is the one stage after ISSUE, and it writes the bytes taken as one block. -/
theorem decrawCopiesIn : Obligations.DecrawCopiesIn := by
  intro s bs q hidle hpace hbuf hlen hs
  refine ⟨_, exec_eq_of_stage rfl hidle hpace (State.issueStage_decraw hbuf)
    (State.ready_decodeRaw rfl hlen hs)
    (State.decodeRawStage_full ((s.accept .decraw).moveTo _) _ hlen hs) (State.ready_idle _ rfl),
    fun k hk => State.pbByte_memWrite_add _ s.params.bufBase.toNat hk,
    fun a ha => State.pbByte_memWrite_outside _ (le_refl s.params.bufBase.toNat)
      (Nat.add_le_add_left hlen.le _) ha, rfl⟩

/-- Settles O26: ENCODE is the one stage after ISSUE, and the sink takes the whole buffer. -/
theorem encrawCopiesOut : Obligations.EncrawCopiesOut := by
  intro s r hidle hpace hbuf hs
  have hlen := s.memRead_length s.params.bufBase.toNat s.params.bufLen.toNat
  refine ⟨_, exec_encode_full hidle hpace rfl (State.issueStage_encraw hbuf) (hlen.symm ▸ hs),
    ⟨_, rfl, hlen, fun k hk => s.getElem_memRead _ _ k hk⟩, ?_⟩
  rw [hlen, BitVec.ofNat_toNat, BitVec.setWidth_eq]

end Sys2Proof.Machine
end

section
/-!
The family 43_resampler.md, the values: the blend of four bytes is a byte, the byte of a destination
pixel's channel in the destination region, and RESAMPLE with legal operands (R131 to R136).
-/

namespace Sys2Proof.Machine

/-! ### The blend of four bytes is a byte (43_resampler.md R136) -/

/-- Two samples weighted with `d - f` and `f` are at most the bound on both, weighted with `d`. -/
theorem weightedSum_le {a b m f d : Nat} (ha : a ≤ m) (hb : b ≤ m) (hf : f ≤ d) :
    a * (d - f) + b * f ≤ m * d :=
  calc a * (d - f) + b * f ≤ m * (d - f) + m * f :=
        Nat.add_le_add (Nat.mul_le_mul_right _ ha) (Nat.mul_le_mul_right _ hb)
    _ = m * d := by rw [← Nat.mul_add, Nat.sub_add_cancel hf]

/-- A bound on the four samples bounds their blend. -/
theorem blend_le {c00 c01 c10 c11 m fx fy dx dy : Nat} (h00 : c00 ≤ m) (h01 : c01 ≤ m)
    (h10 : c10 ≤ m) (h11 : c11 ≤ m) (hx : fx ≤ dx) (hy : fy ≤ dy) :
    blend c00 c01 c10 c11 fx fy dx dy ≤ m := by
  have hsum : blendSum c00 c01 c10 c11 fx fy dx dy ≤ m * dx * dy :=
    weightedSum_le (weightedSum_le h00 h01 hx) (weightedSum_le h10 h11 hx) hy
  exact Nat.div_le_of_le_mul (by rwa [Nat.mul_comm, ← Nat.mul_assoc])

theorem sample_le (pb : Nat → Byte) (g : Geometry) (x y ch : Nat) : sample pb g x y ch ≤ 255 :=
  Nat.le_of_lt_succ (pb (pixAddr g.sbase g.srcW g.bpp x y ch)).isLt

theorem mapFrac_lt (x srcN : Nat) {dstN : Nat} (hd : 0 < dstN) :
    mapFrac x srcN dstN < 2 * dstN := Nat.mod_lt _ (by omega)

/-- Truncation to 8 bits discards no bit of a destination value (43_resampler.md R134, R136). -/
theorem destValue_le (pb : Nat → Byte) {g : Geometry} (hw : 0 < g.dstW) (hh : 0 < g.dstH)
    (x y ch : Nat) : destValue pb g x y ch ≤ 255 :=
  blend_le (sample_le ..) (sample_le ..) (sample_le ..) (sample_le ..) (mapFrac_lt x g.srcW hw).le
    (mapFrac_lt y g.srcH hh).le

/-! ### The place of a pixel's channel in the destination region (20_memory.md R44) -/

/-- The number of channel `ch` of pixel `(x, y)` in the destination region, in address order. -/
def Geometry.destIndex (g : Geometry) (x y ch : Nat) : Nat := (x + y * g.dstW) * g.bpp + ch

section
variable {g : Geometry} {x y ch : Nat}

theorem Geometry.destIndex_lt (hx : x < g.dstW) (hy : y < g.dstH) (hch : ch < g.bpp) :
    g.destIndex x y ch < g.dstBytes := by
  have hlt := (pixAddr_lt 0 hx hy hch).2
  rwa [pixAddr, Nat.zero_add, Nat.zero_add] at hlt

theorem Geometry.destIndex_mod (hch : ch < g.bpp) : g.destIndex x y ch % g.bpp = ch := by
  rw [Geometry.destIndex, Nat.mul_add_mod_self_right, Nat.mod_eq_of_lt hch]

theorem Geometry.destIndex_div (hch : ch < g.bpp) :
    g.destIndex x y ch / g.bpp = x + y * g.dstW := by
  rw [Geometry.destIndex, Nat.add_comm, Nat.add_mul_div_right _ _ (Nat.zero_lt_of_lt hch),
    Nat.div_eq_of_lt hch, Nat.zero_add]

/-- The destination region lists the values of the pixels' channels. -/
theorem getElem_destBytes_destIndex (pb : Nat → Byte) (hx : x < g.dstW) (hch : ch < g.bpp)
    (hlt : g.destIndex x y ch < (destBytes pb g).length) :
    (destBytes pb g)[g.destIndex x y ch] = BitVec.ofNat 8 (destValue pb g x y ch) := by
  have hcol : (x + y * g.dstW) % g.dstW = x := by
    rw [Nat.add_mul_mod_self_right, Nat.mod_eq_of_lt hx]
  have hrow : (x + y * g.dstW) / g.dstW = y := by
    rw [Nat.add_mul_div_right _ _ (Nat.zero_lt_of_lt hx), Nat.div_eq_of_lt hx, Nat.zero_add]
  simp only [destBytes, List.getElem_map, List.getElem_range, Geometry.destIndex_div hch,
    Geometry.destIndex_mod hch, hcol, hrow]

/-- The byte RESAMPLE writes for a pixel's channel is the value itself. -/
theorem toNat_getElem_destBytes (pb : Nat → Byte) (hx : x < g.dstW) (hy : y < g.dstH)
    (hch : ch < g.bpp) (hlt : g.destIndex x y ch < (destBytes pb g).length) :
    (destBytes pb g)[g.destIndex x y ch].toNat = destValue pb g x y ch := by
  have hle := destValue_le pb (Nat.zero_lt_of_lt hx) (Nat.zero_lt_of_lt hy) x y ch
  rw [getElem_destBytes_destIndex pb hx hch hlt, BitVec.toNat_ofNat, Nat.mod_eq_of_lt (by omega)]

end

/-! ### RESAMPLE with legal operands -/

theorem State.issueStage_resample {s : State} (h : s.params.geometry.legal s.pbSize) :
    (s.accept .resample).issueStage .resample =
      (s.accept .resample).moveTo (.resample s.params.geometry) :=
  congrArg (fun c => (s.accept .resample).checked c _)
    ((Geometry.check_none_iff _ s.pbSize).mpr h)

/-- RESAMPLE is the one stage after ISSUE and completes the command. -/
theorem exec_resample_of_legal {s : State} (hidle : s.isIdle = true) (hpace : s.pace = .runAhead)
    (hg : s.params.geometry.legal s.pbSize) :
    exec .resample s = .next { s.memWrite s.params.geometry.dbase
      (destBytes s.pbByte s.params.geometry) with status := 0b010, seq := .idle } :=
  exec_eq_of_stage rfl hidle hpace (State.issueStage_resample hg)
    (State.ready_of_source rfl rfl (.inl rfl)) rfl (State.ready_idle _ rfl)

/-- Settles O39: the destination region is written as a whole, and its byte at a pixel's channel is
the blend, in which the 8 bits lose nothing. -/
theorem resampleComputesTheBilinearValue : Obligations.ResampleComputesTheBilinearValue := by
  intro s hidle hpace g hg
  refine ⟨_, exec_resample_of_legal hidle hpace hg, fun x y ch hx hy hch => ?_, fun a ha => ?_, rfl⟩
  · have hlt : g.destIndex x y ch < (destBytes s.pbByte g).length := by
      rw [destBytes_length]
      exact Geometry.destIndex_lt hx hy hch
    -- The pseudocode of R131, written out, is `destValue`.
    change (State.pbByte _ (g.dbase + (x + y * g.dstW) * g.bpp + ch)).toNat =
      destValue s.pbByte g x y ch
    rw [Nat.add_assoc]
    exact (congrArg BitVec.toNat (State.pbByte_memWrite_add s g.dbase hlt)).trans
      (toNat_getElem_destBytes s.pbByte hx hy hch hlt)
  · have hlen := destBytes_length s.pbByte g
    exact State.pbByte_memWrite_outside s le_rfl (Nat.add_le_add_left hlen.le _) ha

end Sys2Proof.Machine
end

section
/-!
The family 44_pipeline.md: CONVERT of a supported header and a whole pixel stream, which converts
(R163), and CONVERT of a header that VALIDATE refuses (R151, R153, R155).
-/

namespace Sys2Proof.Machine

/-! ### A sink that takes the whole output -/

/-- HDR_WRITE and ENCODE of CONVERT, the sink acknowledging every byte, complete the command. -/
theorem State.drive_write_full {s : State} {p : Plan} {r : List OutAnswer}
    (hseq : s.seq = .run .convert (some p) (.hdrWrite s.hdrOut.toList))
    (hs : s.sink = acks (18 + (s.convertBody p).length) ++ r) :
    s.drive 2 = ({ s with
      sink := r, out := s.out ++ s.hdrOut.toList ++ s.convertBody p
      outCount := s.outCount + BitVec.ofNat 32 (18 + (s.convertBody p).length) } :
        State).complete := by
  rw [acks_add, List.append_assoc] at hs
  have hhdr := (s.hdrWriteStage_full s.hdrOut hs).trans (State.afterHdrWrite_of_plan_some _ hseq)
  have hready : s.ready = true := State.ready_of_sink hseq rfl (hs ▸ List.cons_ne_nil _ _)
  rw [State.drive_step hseq hready hhdr 1, ← add_eighteen_add]
  have hseq' : (({ s with
      sink := acks (s.convertBody p).length ++ r, out := s.out ++ s.hdrOut.toList
      outCount := s.outCount + 18 } : State).moveTo (.encode (s.convertBody p))).seq =
      .run .convert (some p) (.encode (s.convertBody p)) := by simp [hseq]
  exact State.drive_step hseq' (State.ready_encode hseq' rfl) (State.encodeStage_full _ rfl) 0

/-! ### PB at the end of CONVERT -/

section
variable (s : State) {h : Header} (stream : List Byte) {image : List Byte} (q : List InAnswer)
  (hc : convertible s.params h s.pbSize) (hlen : image.length = h.sourceLength)
include hc hlen

/-- The resampler leaves the source region as DECODE wrote it. -/
theorem State.atHdrWrite_pbByte_source {k : Nat} (hk : k < image.length) :
    (s.atHdrWrite h stream image q).pbByte k = image[k] := by
  have hsrc : (planOf s.params h).srcBytes = h.sourceLength := congrArg Plan.srcBytes hc.plan_eq
  change (State.memWrite _ (planOf s.params h).srcBytes _).pbByte k = _
  rw [State.pbByte_memWrite, dif_neg (by omega), s.decoded_pbByte h stream q hk,
    List.getD_eq_getElem _ _ hk]

/-- The destination region, directly after the source region, holds the resampled image. -/
theorem State.atHdrWrite_pbByte_dest {k : Nat}
    (hk : k < (destBytes (fun a => image.getD a 0) (planOf s.params h).geometry).length) :
    (s.atHdrWrite h stream image q).pbByte ((planOf s.params h).srcBytes + k) =
      (destBytes (fun a => image.getD a 0) (planOf s.params h).geometry)[k] := by
  simp only [← s.atHdrWrite_memRead stream q hc hlen, State.getElem_memRead]

end

/-! ### CONVERT converts -/

/-- The end of CONVERT: from HDR_WRITE on, only the sink and the output stream have changed. -/
def State.converted (s : State) (h : Header) (stream image : List Byte) (q : List InAnswer)
    (r : List OutAnswer) : State :=
  ({ s.atHdrWrite h stream image q with
    sink := r
    out := s.out ++ (s.atHdrWrite h stream image q).hdrOut.toList ++
      convertedBody s.params h image
    outCount := s.outCount +
      BitVec.ofNat 32 (18 + (convertedBody s.params h image).length) } : State).complete

theorem exec_convert_converted {s : State} {h : Header} {stream image : List Byte}
    {cs : List ChunkData} {q : List InAnswer} {r : List OutAnswer} (hidle : s.isIdle = true)
    (hpace : s.pace = .runAhead) (hc : convertible s.params h s.pbSize)
    (hcar : carries h stream image cs) (hsource : s.source = bytesOf (h.toList ++ stream) ++ q)
    (hsink : s.sink = acks (18 + (convertedBody s.params h image).length) ++ r) :
    exec .convert s = .next (s.converted h stream image q r) := by
  have hbody := s.atHdrWrite_convertBody stream q hc hcar.length_eq
  obtain ⟨n, hn, hdrive⟩ := s.drive_to_hdrWrite hc hcar hsource
  have hwrite := State.drive_write_full (s := s.atHdrWrite h stream image q) (r := r) rfl
    (hbody.symm ▸ hsink)
  rw [hbody] at hwrite
  exact exec_eq_of_drive rfl hidle hpace hn (State.drive_trans hdrive hwrite)
    (State.ready_idle _ rfl)

/-- Settles O44: CONVERT runs through its stages to the end, HDR_OUT is the derived header, and PB
holds the image and behind it the resampled image. -/
theorem convertConverts : Obligations.ConvertConverts := by
  intro s h stream image cs q r hidle hpace hotype htype hcmap hbits hw hh bpp srcW srcH dstW dstH
    outType srcBytes dstBytes g dest body hcols₁ hcols₂ hrows₁ hrows₂ hroom hlen hcar hsource hsink
  have hc : convertible s.params h s.pbSize :=
    ⟨hotype, htype, hcmap, hbits, hw, hh, ⟨hcols₁, hcols₂⟩, ⟨hrows₁, hrows₂⟩, hroom⟩
  obtain ⟨hout, houtCols, houtRows, hcopy⟩ :=
    s.atHdrWrite_derivedHeader stream (image := image) q hc
  have hdest : ∀ (k : Nat) (hk : k < dest.length),
      (s.atHdrWrite h stream image q).pbByte (srcBytes + k) = dest[k] := fun k hk => by
    have hread := s.atHdrWrite_pbByte_dest stream q hc hlen (k := k)
    simp only [hc.plan_eq] at hread
    exact hread hk
  refine ⟨_, exec_convert_converted hidle hpace hc ⟨hlen, hcar⟩ hsource hsink, hout, houtCols,
    houtRows, hcopy, fun k hk => s.atHdrWrite_pbByte_source stream q hc hlen hk,
    destBytes_length _ g, hdest,
    fun a ha => s.atHdrWrite_pbByte stream q hc hlen (.inr ((Nat.zero_add _).trans_le ha)), ?_⟩
  rw [← add_eighteen_add]
  rfl

/-! ### What VALIDATE refuses -/

theorem validateCheck_unsupported (p : Params) {h : Header} (pbSize : Nat)
    (hs : ¬ h.supported = true) : validateCheck p h pbSize = some .unsupportedFormat := by
  simp [validateCheck, hs]

/-- The checks left for a supported header: the output dimensions, then the room in PB. -/
theorem validateCheck_supported (p : Params) {h : Header} (pbSize : Nat)
    (hs : h.supported = true) :
    validateCheck p h pbSize =
      if !(dimOk (p.outCols h) && dimOk (p.outRows h)) then some .badParam
      else if pbSize < h.sourceLength + p.destLength h then some .bufferRange
      else none := by
  obtain ⟨-, -, -, hw, hh⟩ := h.supported_iff.mp hs
  simp [validateCheck, hs, planOf_eq p hw hh]

theorem errinfoOf_unsupportedFormat_validate : errinfoOf .unsupportedFormat .validate = 0x24 := by
  decide

theorem errinfoOf_badParam_validate : errinfoOf .badParam .validate = 0x27 := by decide

theorem errinfoOf_bufferRange_validate : errinfoOf .bufferRange .validate = 0x28 := by decide

/-- CONVERT at VALIDATE, the header `h` taken and `q` left on the stream. -/
def State.atValidate (s : State) (h : Header) (q : List InAnswer) : State :=
  { s with
    status := statusBusy, hdrIn := h, source := q, inCount := s.inCount + 18
    seq := .run .convert none .validate }

theorem State.drive_to_validate (s : State) {h : Header} {q : List InAnswer}
    (hotype : s.params.cfg.toNat / 2 ≠ 3) (hs : s.source = bytesOf h.toList ++ q) :
    ((s.accept .convert).issueStage .convert).drive 1 = s.atValidate h q := by
  have hsource : s.source ≠ [] := hs ▸ bytesOf_append_ne_nil (by simp) q
  have hready : ((s.accept .convert).moveTo (.hdrRead 0)).ready = true :=
    State.ready_of_source rfl rfl (.inr hsource)
  rw [State.issueStage_convert hotype, State.drive_step (cmd := .convert) (cur := .hdrRead 0)
    rfl hready (State.hdrReadStage_full _ hs) 0]
  rfl

/-- A check of VALIDATE that fails ends CONVERT there and spoils nothing (60_exceptions.md R188). -/
theorem exec_convert_validate_failed {s : State} {h : Header} {q : List InAnswer}
    {e : ErrorCode} {code : Byte} (hidle : s.isIdle = true) (hpace : s.pace = .runAhead)
    (hotype : s.params.cfg.toNat / 2 ≠ 3) (hs : s.source = bytesOf h.toList ++ q)
    (hcheck : validateCheck s.params h s.pbSize = some e) (hcode : errinfoOf e .validate = code) :
    exec .convert s = .next { s with
      status := 0b100, errinfo := code, seq := .error, hdrIn := h, source := q
      inCount := s.inCount + 18 } := by
  have hstage : (s.atValidate h q).validateStage = (s.atValidate h q).raise e := by
    simp [State.validateStage, State.atValidate, hcheck]
  have hraise := State.drive_step (cmd := .convert) (cur := .validate) rfl
    (State.ready_of_source rfl rfl (.inl rfl))
    (hstage.trans (State.raise_of_spoil_self rfl hcode)) 0
  exact exec_eq_of_drive rfl hidle hpace (by omega)
    (State.drive_trans (s.drive_to_validate hotype hs) hraise) (State.ready_error _ rfl)

/-- Settles O45: each refusal is the first check of VALIDATE that fails. -/
theorem convertRefusesAtValidate : Obligations.ConvertRefusesAtValidate := by
  intro s h q hidle hpace hotype hs supported srcW srcH dstW dstH dims bpp refused
  have hdims : dims ↔ (dimOk (s.params.outCols h) && dimOk (s.params.outRows h)) = true := by
    rw [Bool.and_eq_true, dimOk_iff, dimOk_iff, and_assoc]
    rfl
  refine ⟨fun hno => ?_, fun hyes hbad => ?_, fun hyes hdim hroom => ?_⟩
  · exact exec_convert_validate_failed hidle hpace hotype hs
      (validateCheck_unsupported _ _ (mt h.supported_iff.mp hno))
      errinfoOf_unsupportedFormat_validate
  · refine exec_convert_validate_failed hidle hpace hotype hs ?_ errinfoOf_badParam_validate
    rw [validateCheck_supported _ _ (h.supported_iff.mpr hyes),
      Bool.eq_false_of_not_eq_true (mt hdims.mpr hbad)]
    rfl
  · refine exec_convert_validate_failed hidle hpace hotype hs ?_ errinfoOf_bufferRange_validate
    rw [validateCheck_supported _ _ (h.supported_iff.mpr hyes), hdims.mp hdim]
    exact if_pos hroom

end Sys2Proof.Machine
end

section
/-!
The family 45_control.md: the control commands, which complete in the act of being accepted
(R170). NOP sets DONE (R171), SRST zeroes registers 1 to 15 (R172).
-/

namespace Sys2Proof.Machine

/-! ### NOP (45_control.md R171) -/

theorem exec_nop_of_isIdle {s : State} (h : s.isIdle = true) :
    exec .nop s = .next { s with status := statusDone } :=
  congrArg Host.Outcome.next (if_pos h)

theorem exec_nop_of_not_isIdle {s : State} (h : s.isIdle = false) : exec .nop s = .next s :=
  congrArg Host.Outcome.next (if_neg (Bool.eq_false_iff.mp h))

/-- Settles O15: the test of IDLE decides between the write of STATUS and no change. -/
theorem nopSetsDoneInIdle : Obligations.NopSetsDoneInIdle :=
  fun _ => ⟨exec_nop_of_isIdle, exec_nop_of_not_isIdle⟩

/-! ### SRST (45_control.md R172) -/

theorem exec_srst_of_busy {s : State} (h : s.busy = true) : exec .srst s = .next s :=
  congrArg Host.Outcome.next (if_pos h)

theorem exec_srst_of_not_busy {s : State} (h : s.busy = false) :
    exec .srst s = .next s.softReset :=
  congrArg Host.Outcome.next (if_neg (Bool.eq_false_iff.mp h))

@[simp] theorem State.busy_softReset (s : State) : s.softReset.busy = false :=
  (s.softReset.isIdle_iff.mp s.isIdle_softReset).1

/-- One case per register number: ERRINFO is read as stored, for BUSY is clear, and every other
register reads the 0 written to it. -/
theorem State.registerValue_softReset (s : State) {n : Nat} (hn : n ≤ 15) :
    s.softReset.registerValue n = 0 := by
  interval_cases n <;> simp [State.registerValue, statusNone, Params.zero]

@[simp] theorem State.pbByte_softReset (s : State) (a : Nat) : s.softReset.pbByte a = s.pbByte a :=
  rfl

/-- Settles O16: outside BUSY the next state is `softReset`, which writes registers 1 to 15 and SEQ
and nothing else. -/
theorem softResetClearsTheRegisters : Obligations.SoftResetClearsTheRegisters := by
  refine fun s => ⟨exec_srst_of_busy, fun hbusy => ⟨s.softReset, exec_srst_of_not_busy hbusy,
    fun n _ hn => s.registerValue_softReset hn, s.softReset_seq, s.pbByte_softReset, ?_⟩⟩
  rfl

end Sys2Proof.Machine
end

section
/-!
The family 60_exceptions.md, ERROR: no event but SRST's CMD write and the hardware reset changes
SEQ, STATUS or ERRINFO (R189).
-/

namespace Sys2Proof.Machine

/-- The one command word of SRST (30_encoding.md R61). -/
theorem eq_of_decodeCommand_srst {w : Word} (h : decodeCommand w = .ok .srst) : w = 0xFF := by
  obtain ⟨opc, rfl, hopc⟩ := (decodeCommand_eq_ok_iff w .srst).1 h
  obtain ⟨-, henc⟩ := encode_of_decodeOpcode hopc
  have hword : commandWord 0xFF = commandWord opc := henc
  rw [commandWord_eq, commandWord_eq, Encoded.mk.injEq, BitVec.toNat_inj] at hword
  rw [← hword.2]
  rfl

section
variable {s t : State} (herror : s.seq = .error) (hidle : s.isIdle = false)
include herror hidle

/-- In ERROR no instruction but SRST has an effect: a command is dropped, and a chunk is refused. -/
theorem exec_next_of_error {i : Instr} (hi : i ≠ .srst) (h : exec i s = .next t) : t = s := by
  match hcmd : commandOf i with
  | some cmd =>
    rw [exec_of_commandOf hcmd, s.issue_dropped cmd hidle] at h
    exact (Host.Outcome.next.inj h).symm
  | none =>
    have hchunk (kind : ChunkKind) (count : Nat) : s.execChunk kind count ≠ .next t := by
      rw [s.execChunk_refused kind count (by simp [herror])]
      simp
    cases i with
    | nop => exact (Host.Outcome.next.inj ((exec_nop_of_not_isIdle hidle).symm.trans h)).symm
    | srst => exact absurd rfl hi
    | rep count => exact absurd h (hchunk .rep count)
    | raw count => exact absurd h (hchunk .raw count)
    | rdhdr | drvhdr | wrhdr | decrle | encrle | decraw | encraw | resample | convert => cases hcmd

theorem cmdWrite_next_of_error {w : Word} (h : cmdWrite w s = .next t) : t = s ∨ w = 0xFF := by
  unfold cmdWrite at h
  split at h
  next i hdecode =>
    by_cases hi : i = .srst
    · exact .inr (eq_of_decodeCommand_srst (hi ▸ hdecode))
    · exact .inl (exec_next_of_error herror hidle hi h)
  next => exact .inl (by simpa [State.illegalCommand, hidle, eq_comm] using h)

/-- What an event leaves of ERROR (10_state.md R25): accesses of the host are dropped or answered,
answers of the ports are queued, and the engine has no turn. -/
theorem handle_next_of_error {e : Event} (h : handle e s = .next t) :
    (t.seq = s.seq ∧ t.status = s.status ∧ t.errinfo = s.errinfo) ∨ e = .wr 0 0xFF ∨
      ∃ f : Bool, e = .rst f := by
  cases e with
  | wr n v =>
    by_cases hn : n = 0
    · subst hn
      rcases cmdWrite_next_of_error herror hidle h with rfl | rfl
      · exact .inl ⟨rfl, rfl, rfl⟩
      · exact .inr (.inl rfl)
    · simp only [handle, hn, if_false, State.hostWrite, hidle, Bool.false_eq_true,
        Host.Outcome.next.injEq] at h
      subst h
      exact .inl ⟨rfl, rfl, rfl⟩
  | rd n =>
    cases h
    unfold State.hostRead
    split <;> exact .inl ⟨rfl, rfl, rfl⟩
  | pbwr a b =>
    simp only [handle, State.hostPbWrite, hidle, Bool.false_eq_true, if_false,
      Host.Outcome.next.injEq] at h
    subst h
    exact .inl ⟨rfl, rfl, rfl⟩
  | pbrd a =>
    simp only [handle, State.hostPbRead] at h
    split at h <;> cases h
    split <;> exact .inl ⟨rfl, rfl, rfl⟩
  | source ans | sink ans => cases h; exact .inl ⟨rfl, rfl, rfl⟩
  | rst f => exact .inr (.inr ⟨f, rfl⟩)
  | engine =>
    rw [handle, State.engineTurn, s.ready_error herror] at h
    cases h
    exact .inl ⟨rfl, rfl, rfl⟩

end

/-- Settles O51: by the invariant STATUS shows ERR alone, so the state is not IDLE, and the event
the step handles leaves ERROR as it is. -/
theorem errorStandsUntilReset : Obligations.ErrorStandsUntilReset := by
  intro s t hinv herror hstep
  obtain ⟨hseq, -⟩ := hinv
  rw [State.seqLegal, herror] at hseq
  have hidle : s.isIdle = false := by simp [State.isIdle, State.err, hseq]
  match hag : s.agenda with
  | [] =>
    rw [step_nil s hag, State.engineTurn, s.ready_error herror] at hstep
    cases hstep
    exact .inl ⟨herror, hseq, rfl⟩
  | e :: es =>
    rw [step_cons s hag] at hstep
    obtain ⟨hs, hst, herr⟩ | rfl | ⟨f, rfl⟩ :=
      handle_next_of_error (s := { s with agenda := es }) herror hidle hstep
    · exact .inl ⟨hs.trans herror, hst.trans hseq, herr⟩
    · exact .inr (.inl ⟨es, rfl⟩)
    · exact .inr (.inr ⟨f, es, rfl⟩)

end Sys2Proof.Machine
end

section
/-!
One step of the engine, said once for every stage and every state: what the stage may write, the
errors it can raise, and that it ends, goes on, or is held on a port without an answer
(10_state.md R23, R24, R26; 60_exceptions.md R181, R192).
-/

namespace Sys2Proof.Machine

/-! ### What a stage may do -/

/-- The errors a stage can raise (60_exceptions.md R181). -/
@[simp] def Cursor.errors : Cursor → List ErrorCode
  | .issue => [.badParam, .bufferRange]
  | .hdrRead _ => [.ioError, .truncatedHeader]
  | .validate => [.unsupportedFormat, .badParam, .bufferRange]
  | .decodeRaw _ _ _ => [.ioError, .truncatedData]
  | .decodeRle _ _ => [.ioError, .truncatedData, .overrun]
  | .resample _ => []
  | .derive _ _ _ => []
  | .hdrWrite _ => [.writeFailed]
  | .encode _ => [.writeFailed]

/-- A decoder inside its buffer; any other cursor (41_rle_codec.md R102, R104). -/
def Cursor.chunkLegal : Cursor → Prop
  | .decodeRle d pos => pos.legal d
  | .issue | .hdrRead _ | .validate | .decodeRaw _ _ _ | .resample _ | .derive _ _ _ | .hdrWrite _
  | .encode _ => True

/-- The byte of PB is outside the region the stage may write (20_memory.md R47). -/
def Cursor.leaves : Cursor → Nat → Prop
  | .decodeRaw base size _, a => outside base size a
  | .decodeRle d _, a => outside d.base d.size a
  | .resample g, a => outside g.dbase g.dstBytes a
  | .issue, _ | .hdrRead _, _ | .validate, _ | .derive _ _ _, _ | .hdrWrite _, _
  | .encode _, _ => True

/-- How many steps without an input byte may lie between a cursor and the end of its command. -/
@[simp] def Cursor.rank : Cursor → Nat
  | .issue => 9
  | .hdrRead _ => 8
  | .validate => 7
  | .decodeRaw _ _ _ => 6
  | .decodeRle _ (.firstPixel _ _ _) => 6
  | .decodeRle _ (.rest _) => 6
  | .decodeRle _ .control => 5
  | .resample _ => 4
  | .derive _ _ _ => 3
  | .hdrWrite _ => 2
  | .encode _ => 1

/-- `v` is `s` after port transactions and writes of the stage `cur` is in, SEQ being unmoved. -/
structure State.Works (cur : Cursor) (s v : State) : Prop where
  fixed : s.Fixed v
  seq : v.seq = s.seq
  status : v.status = s.status
  draws : v.draws = s.draws
  source : v.source.length ≤ s.source.length
  hdrIn : cur.stage ≠ .hdrRead → v.hdrIn = s.hdrIn
  hdrOut : cur.stage ≠ .hdrWrite → v.hdrOut = s.hdrOut
  output : cur.stage ≠ .hdrWrite → cur.stage ≠ .encode →
    v.out = s.out ∧ v.outCount = s.outCount ∧ v.sink = s.sink
  pb : cur.chunkLegal → ∀ a, cur.leaves a → v.pbByte a = s.pbByte a

/-- A step from the cursor `cur` of `s`, where the stage made `v` of `s`, to another stage or to the
next chunk: it keeps the order of the stages, it cannot be repeated for ever, and what is placed
stays placed. -/
structure State.Leads (s : State) (cmd : Command) (cur : Cursor) (v : State) (cmd' : Command)
    (plan' : Option Plan) (cur' : Cursor) : Prop where
  rank : v.source.length + cur'.rank < s.source.length + cur.rank
  stage : cur.stage.number.toNat ≤ cur'.stage.number.toNat
  command : cmd = .convert → cmd' = .convert
  chunkLegal : cur'.chunkLegal
  placed : s.Placed → ({ v with seq := .run cmd' plan' cur' } : State).Placed

/-- Everything one step of the engine can do from a cursor. -/
inductive State.StepsTo (s : State) (cmd : Command) (cur : Cursor) : State → Prop
  | failed {v : State} {e : ErrorCode} (hw : s.Works cur v) (he : e ∈ cur.errors) :
    s.StepsTo cmd cur (v.raise e)
  | ended {v : State} (hw : s.Works cur v) : s.StepsTo cmd cur v.complete
  | held {v : State} {cur' : Cursor} (hw : s.Works cur v)
    (hready : (v.moveTo cur').ready = false) : s.StepsTo cmd cur (v.moveTo cur')
  | moved {v : State} {cmd' : Command} {plan' : Option Plan} {cur' : Cursor} (hw : s.Works cur v)
    (hlead : s.Leads cmd cur v cmd' plan' cur') :
    s.StepsTo cmd cur { v with seq := .run cmd' plan' cur' }

/-! ### The transactions and writes of a stage -/

theorem takeN_length_le (n : Nat) (q : List InAnswer) :
    (takeN n q).bytes.length ≤ n ∧ (takeN n q).left.length ≤ q.length := by
  rcases takeN_cases n q with ⟨-, hb, hq⟩ | ⟨-, hb, hleft, -⟩ | ⟨-, hb, hq⟩ | ⟨-, hb, hq⟩
  case inr.inl => exact ⟨hb.le, by simp [hleft]⟩
  all_goals
    have hlen := congrArg List.length hq
    simp only [List.length_append, bytesOf_length, List.length_cons] at hlen
    omega

namespace State.Works

variable {cur : Cursor} {s u v : State}

theorem refl (cur : Cursor) (s : State) : s.Works cur s :=
  ⟨State.Fixed.refl s, rfl, rfl, rfl, le_rfl, fun _ => rfl, fun _ => rfl,
    fun _ _ => ⟨rfl, rfl, rfl⟩, fun _ _ _ => rfl⟩

theorem trans (h : s.Works cur u) (k : u.Works cur v) : s.Works cur v where
  fixed := h.fixed.trans k.fixed
  seq := k.seq.trans h.seq
  status := k.status.trans h.status
  draws := k.draws.trans h.draws
  source := k.source.trans h.source
  hdrIn hc := (k.hdrIn hc).trans (h.hdrIn hc)
  hdrOut hc := (k.hdrOut hc).trans (h.hdrOut hc)
  output hc hc' := by
    obtain ⟨h1, h2, h3⟩ := h.output hc hc'
    obtain ⟨k1, k2, k3⟩ := k.output hc hc'
    exact ⟨k1.trans h1, k2.trans h2, k3.trans h3⟩
  pb hc a ha := (k.pb hc a ha).trans (h.pb hc a ha)

theorem take (cur : Cursor) (s : State) (n : Nat) : s.Works cur (s.afterTake (takeN n s.source)) :=
  { refl cur s with fixed := .afterTake s _, source := (takeN_length_le n s.source).2 }

theorem put (s : State) (g : Given) (hcur : cur.stage = .hdrWrite ∨ cur.stage = .encode) :
    s.Works cur (s.afterPut g) :=
  { refl cur s with
    fixed := .afterPut s g
    output := fun h h' => (hcur.elim h h').elim }

theorem memWrite (s : State) {a : Nat} {bs : List Byte}
    (h : cur.chunkLegal → ∀ x, cur.leaves x → outside a bs.length x) :
    s.Works cur (s.memWrite a bs) :=
  { refl cur s with
    fixed := .memWrite s a bs
    pb := fun hc x hx => s.pbByte_memWrite_outside le_rfl le_rfl (h hc x hx) }

theorem setHdrIn (s : State) (h : Header) (hcur : cur.stage = .hdrRead) :
    s.Works cur { s with hdrIn := h } :=
  { refl cur s with fixed := ⟨rfl, rfl, rfl, rfl, rfl, rfl⟩, hdrIn := fun hc => absurd hcur hc }

theorem setHdrOut (s : State) (h : Header) (hcur : cur.stage = .hdrWrite) :
    s.Works cur { s with hdrOut := h } :=
  { refl cur s with fixed := ⟨rfl, rfl, rfl, rfl, rfl, rfl⟩, hdrOut := fun hc => absurd hcur hc }

/-- One answer of the source is used up. -/
theorem answer {a : InAnswer} {q : List InAnswer} (cur : Cursor) (hs : s.source = a :: q)
    (n : Word) : s.Works cur { s with source := q, inCount := n } :=
  { refl cur s with fixed := ⟨rfl, rfl, rfl, rfl, rfl, rfl⟩, source := by simp [hs] }

end State.Works

/-! ### Cursors -/

/-- Only CONVERT has temporaries (10_state.md R27 d). -/
theorem Cursor.command_of_placed_some {cur : Cursor} {params : Params} {cmd : Command} {p : Plan}
    (h : cur.placed params cmd (some p)) : cmd = .convert := by
  cases cur with
  | issue | hdrRead _ | validate => simp [Cursor.placed] at h
  | decodeRaw _ _ _ | decodeRle _ _ | resample _ | derive _ _ _ | hdrWrite _ | encode _ =>
    simp_all [Cursor.placed]

/-- Where the temporaries say what comes after a stage, what comes is placed (44_pipeline.md R157 to
R159). -/
theorem State.Placed.moveTo {s v : State} {cmd : Command} {plan : Option Plan} {cur cur' : Cursor}
    (hseq : s.seq = .run cmd plan cur) (hw : s.Works cur v)
    (hplaced : cur.placed s.params cmd plan → cur'.placed s.params cmd plan) (h : s.Placed) :
    ({ v with seq := .run cmd plan cur' } : State).Placed := by
  unfold State.Placed at h
  rw [hseq] at h
  obtain ⟨hcur, hplan⟩ := h
  refine ⟨by rw [hw.fixed.params]; exact hplaced hcur, fun q hq => ?_⟩
  have hstage : cur.stage ≠ .hdrRead := fun hstage => by
    cases cur <;> cases hstage
    exact absurd (hcur.2.symm.trans hq) (by simp)
  rw [hw.fixed.params, hw.hdrIn hstage]
  exact hplan q hq

/-! ### How a stage ends -/

theorem State.not_ready_of_source {s : State} {cmd : Command} {plan : Option Plan} {cur : Cursor}
    (h : s.seq = .run cmd plan cur) (ho : cur.offers = []) (hw : 0 < cur.wanted)
    (hs : s.source = []) : s.ready = false := by
  simp [State.ready, h, Sequencer.pending, Cursor.pending, ho, hw.ne', hs]

theorem State.not_ready_of_sink {s : State} {cmd : Command} {plan : Option Plan} {cur : Cursor}
    (h : s.seq = .run cmd plan cur) (ho : cur.offers ≠ []) (hs : s.sink = []) :
    s.ready = false := by
  obtain ⟨b, bs, hb⟩ := List.exists_cons_of_ne_nil ho
  simp [State.ready, h, Sequencer.pending, Cursor.pending, hb, hs]

namespace State.StepsTo

section
variable {s v : State} {cmd : Command} {plan : Option Plan} {cur : Cursor}
  (hseq : s.seq = .run cmd plan cur) (hw : s.Works cur v)
include hseq hw

theorem moveTo {cur' : Cursor} (hrank : v.source.length + cur'.rank < s.source.length + cur.rank)
    (hstage : cur.stage.number.toNat ≤ cur'.stage.number.toNat) (hlegal : cur'.chunkLegal)
    (hplaced : cur.placed s.params cmd plan → cur'.placed s.params cmd plan) :
    s.StepsTo cmd cur (v.moveTo cur') := by
  have ht : v.moveTo cur' = { v with seq := .run cmd plan cur' } := by
    rw [State.moveTo, hw.seq, hseq, Sequencer.moveTo_run]
  rw [ht]
  exact .moved hw ⟨hrank, hstage, id, hlegal, .moveTo hseq hw hplaced⟩

/-- A stage's end where CONVERT goes on at a cursor its temporaries give, and a standalone command
is complete. -/
theorem byPlan {t : State} {next : Plan → Cursor} (hnone : plan = none → t = v.complete)
    (hsome : ∀ p, plan = some p → t = v.moveTo (next p)) (hrank : ∀ p, (next p).rank < cur.rank)
    (hstage : ∀ p, cur.stage.number.toNat ≤ (next p).stage.number.toNat)
    (hlegal : ∀ p, (next p).chunkLegal)
    (hplaced : ∀ p, (next p).placed s.params .convert (some p)) : s.StepsTo cmd cur t := by
  cases plan with
  | none => rw [hnone rfl]; exact .ended hw
  | some p =>
    rw [hsome p rfl]
    refine moveTo hseq hw (by have := hw.source; have := hrank p; omega) (hstage p) (hlegal p)
      fun hcur => ?_
    rw [Cursor.command_of_placed_some hcur]
    exact hplaced p

/-- The end of a stage that takes bytes: held, it stands where it waits for the rest of them. -/
theorem onTaken {next : State} {e : ErrorCode} {cur' : Cursor} {n : Nat} {q : List InAnswer}
    (hsource : v.source = (takeN n q).left) (he : e ∈ cur.errors) (hio : .ioError ∈ cur.errors)
    (hoffers : cur'.offers = []) (hwanted : cur'.wanted = n - (takeN n q).bytes.length)
    (hnext : (takeN n q).bytes.length = n → s.StepsTo cmd cur next) :
    s.StepsTo cmd cur (v.onTaken (takeN n q).ending e next cur') := by
  rcases takeN_cases n q with ⟨hend, hlen, -⟩ | ⟨hend, hlen, hleft, -⟩ | ⟨hend, -⟩ | ⟨hend, -⟩ <;>
    rw [hend]
  · exact hnext hlen
  · refine .held hw (State.not_ready_of_source (cmd := cmd) (plan := plan) ?_ hoffers (by omega)
      (hsource.trans hleft))
    rw [State.moveTo_seq, hw.seq, hseq, Sequencer.moveTo_run]
  · exact .failed hw he
  · exact .failed hw hio

/-- The end of a stage that offers bytes. -/
theorem onGiven {next : State} {cur' : Cursor} {bs : List Byte} {q : List OutAnswer}
    (hsink : v.sink = (putN bs q).left) (he : .writeFailed ∈ cur.errors)
    (hoffers : cur'.offers = (putN bs q).unsent) (hnext : s.StepsTo cmd cur next) :
    s.StepsTo cmd cur (v.onGiven (putN bs q).ending next cur') := by
  obtain ⟨-, ⟨hend, -⟩ | ⟨hend, hunsent, hleft, -⟩ | ⟨hend, -⟩⟩ := putN_cases bs q <;> rw [hend]
  · exact hnext
  · refine .held hw (State.not_ready_of_sink (cmd := cmd) (plan := plan) ?_ (hoffers ▸ hunsent)
      (hsink.trans hleft))
    rw [State.moveTo_seq, hw.seq, hseq, Sequencer.moveTo_run]
  · exact .failed hw he

end

/-! ### ISSUE -/

section
variable {s : State} {cmd : Command} {plan : Option Plan} (hseq : s.seq = .run cmd plan .issue)
include hseq

theorem firstStage {cur' : Cursor} (hrank : cur'.rank < 9) (hlegal : cur'.chunkLegal)
    (hplaced : cur'.placed s.params cmd none) : s.StepsTo cmd .issue (s.moveTo cur') := by
  refine moveTo hseq (.refl _ s) (Nat.add_lt_add_left hrank _) (Nat.zero_le _) hlegal
    fun hplan => ?_
  rw [show plan = none from hplan]
  exact hplaced

theorem checked {check : Option ErrorCode} {cur' : Cursor}
    (hcheck : ∀ e, check = some e → e = .badParam ∨ e = .bufferRange) (hrank : cur'.rank < 9)
    (hlegal : cur'.chunkLegal) (hplaced : cur'.placed s.params cmd none) :
    s.StepsTo cmd .issue (s.checked check cur') := by
  cases check with
  | none => exact firstStage hseq hrank hlegal hplaced
  | some e => exact .failed (.refl _ s) (by simpa [Cursor.errors] using hcheck e rfl)

end

end State.StepsTo

theorem State.rawCheck_some {s : State} {e : ErrorCode} (h : s.rawCheck = some e) :
    e = .badParam ∨ e = .bufferRange := by
  rcases s.rawCheck_eq with ⟨-, hc⟩ | ⟨-, hc⟩ <;> simp_all

theorem State.rleCheck_some {s : State} {e : ErrorCode} (h : s.rleCheck = some e) :
    e = .badParam ∨ e = .bufferRange := by
  rcases s.rleCheck_eq with ⟨-, -, -, hc⟩ | ⟨-, hc⟩ | ⟨-, -, -, hc⟩ <;> simp_all

theorem Geometry.check_some {g : Geometry} {pbSize : Nat} {e : ErrorCode}
    (h : g.check pbSize = some e) : e = .badParam ∨ e = .bufferRange := by
  unfold Geometry.check at h
  split_ifs at h <;> simp_all

theorem State.convertCheck_some {s : State} {e : ErrorCode} (h : s.convertCheck = some e) :
    e = .badParam ∨ e = .bufferRange := by
  unfold State.convertCheck at h
  split_ifs at h
  simp_all

theorem validateCheck_some {p : Params} {h : Header} {pbSize : Nat} {e : ErrorCode}
    (hc : validateCheck p h pbSize = some e) : e ∈ Cursor.validate.errors := by
  simp only [validateCheck] at hc
  split_ifs at hc <;> simp_all

theorem State.issueStage_stepsTo {s : State} {cmd : Command} {plan : Option Plan}
    (hseq : s.seq = .run cmd plan .issue) : s.StepsTo cmd .issue (s.issueStage cmd) := by
  cases cmd with
  | rdhdr => exact .firstStage hseq (by simp) trivial ⟨.inl rfl, rfl⟩
  | drvhdr => exact .firstStage hseq (by simp) trivial (.inl ⟨rfl, rfl⟩)
  | wrhdr => exact .firstStage hseq (by simp) trivial (.inl ⟨rfl, rfl⟩)
  | decrle =>
    exact .checked hseq (fun _ => State.rleCheck_some) (by simp) (Nat.zero_le _)
      (.inl ⟨rfl, rfl, rfl, rfl⟩)
  | encrle =>
    exact .checked hseq (fun _ => State.rleCheck_some) (by simp) trivial (.inl ⟨.inl rfl, rfl⟩)
  | decraw =>
    exact .checked hseq (fun _ => State.rawCheck_some) (by simp) trivial
      (.inl ⟨rfl, rfl, rfl, rfl⟩)
  | encraw =>
    exact .checked hseq (fun _ => State.rawCheck_some) (by simp) trivial (.inl ⟨.inr rfl, rfl⟩)
  | resample =>
    exact .checked hseq (fun _ => Geometry.check_some) (by simp) trivial (.inl ⟨rfl, rfl, rfl⟩)
  | convert =>
    exact .checked hseq (fun _ => State.convertCheck_some) (by simp) trivial ⟨.inr rfl, rfl⟩

/-! ### HDR_READ, VALIDATE -/

theorem State.hdrReadStage_stepsTo {s : State} {cmd : Command} {plan : Option Plan} {k : Nat}
    (hseq : s.seq = .run cmd plan (.hdrRead k)) :
    s.StepsTo cmd (.hdrRead k) (s.hdrReadStage k) := by
  have hw := (State.Works.take (.hdrRead k) s (18 - k)).trans
    (.setHdrIn _ (s.hdrIn.store k (takeN (18 - k) s.source).bytes) rfl)
  refine .onTaken hseq hw rfl (by simp) (by simp) rfl (Nat.sub_sub _ _ _).symm fun _ => ?_
  unfold State.afterHdrRead
  split
  next hcmd =>
    have hconvert : cmd = .convert := by
      rw [hw.seq, hseq] at hcmd
      exact Option.some.inj hcmd
    exact .moveTo hseq hw (Nat.add_lt_add_of_le_of_lt hw.source (by simp))
      (by simp [Cursor.stage, Stage.number]) trivial fun ⟨_, hplan⟩ => ⟨hconvert, hplan⟩
  next => exact .ended hw

theorem State.validateStage_stepsTo {s : State} (cmd : Command) :
    s.StepsTo cmd .validate s.validateStage := by
  unfold State.validateStage
  split
  next hcheck => exact .failed (.refl _ s) (validateCheck_some hcheck)
  next =>
    refine .moved (.refl _ s) ?_
    have hplan : ∀ q, some (planOf s.params s.hdrIn) = some q → q = planOf s.params s.hdrIn :=
      fun q hq => (Option.some.inj hq).symm
    split
    · exact ⟨Nat.add_lt_add_left (by simp) _, by simp [Cursor.stage, Stage.number], fun _ => rfl,
        Nat.zero_le _, fun _ => ⟨.inr ⟨rfl, _, rfl, rfl, rfl⟩, hplan⟩⟩
    · exact ⟨Nat.add_lt_add_left (by simp) _, by simp [Cursor.stage, Stage.number], fun _ => rfl,
        trivial, fun _ => ⟨.inr ⟨rfl, _, rfl, rfl, rfl⟩, hplan⟩⟩

/-! ### DECODE -/

theorem State.StepsTo.afterDecode {s v : State} {cmd : Command} {plan : Option Plan} {cur : Cursor}
    (hseq : s.seq = .run cmd plan cur) (hw : s.Works cur v) (hstage : cur.stage = .decode) :
    s.StepsTo cmd cur v.afterDecode := by
  have hv := hw.seq.trans hseq
  refine .byPlan (next := fun p => .resample p.geometry) hseq hw ?_ ?_ (fun _ => ?_) (fun _ => ?_)
    (fun _ => trivial) fun p => .inr ⟨rfl, p, rfl, rfl⟩
  · rintro rfl; exact v.afterDecode_of_plan_none hv
  · rintro p rfl; exact v.afterDecode_of_plan_some hv
  · match cur, hstage with
    | .decodeRaw _ _ _, _ | .decodeRle _ .control, _ | .decodeRle _ (.firstPixel _ _ _), _
    | .decodeRle _ (.rest _), _ => simp
  · rw [hstage]
    simp [Cursor.stage, Stage.number]

theorem State.decodeRawStage_stepsTo {s : State} {cmd : Command} {plan : Option Plan}
    {base size done : Nat} (hseq : s.seq = .run cmd plan (.decodeRaw base size done)) :
    s.StepsTo cmd (.decodeRaw base size done) (s.decodeRawStage base size done) := by
  have hlen := (takeN_length_le (size - done) s.source).1
  have hw := (State.Works.take (.decodeRaw base size done) s (size - done)).trans
    (.memWrite (a := base + done) (bs := (takeN (size - done) s.source).bytes) _
      fun _ x hx => by simp only [Cursor.leaves, outside] at hx ⊢; omega)
  exact .onTaken hseq hw rfl (by simp) (by simp) rfl (Nat.sub_sub _ _ _).symm
    fun _ => .afterDecode hseq hw rfl

/-! Inside a step that begins at `pos` in the decode of `d₀`: the decoder has come to `d`, over the
same buffer, and enough has been taken that a chunk boundary, of rank 5, is nearer to the end. -/

section
variable {s v : State} {cmd : Command} {plan : Option Plan} {d₀ d : Decoder} {pos : ChunkPos}
  (hseq : s.seq = .run cmd plan (.decodeRle d₀ pos)) (hw : s.Works (.decodeRle d₀ pos) v)
  (hbase : d.base = d₀.base) (hsize : d.size = d₀.size)
  (hrank : v.source.length + 5 < s.source.length + (Cursor.decodeRle d₀ pos).rank)
include hseq hw hbase hsize hrank

theorem State.chunkEnd_stepsTo : s.StepsTo cmd (.decodeRle d₀ pos) (v.chunkEnd d) := by
  unfold State.chunkEnd
  split
  next hlt =>
    refine .moveTo hseq hw hrank le_rfl hlt.le fun hcur => ?_
    simpa only [Cursor.placed, hbase, hsize] using hcur
  next => exact .afterDecode hseq hw rfl

theorem State.rawRest_stepsTo {left : Nat} (hfit : pos.legal d₀ → d.emitted + left ≤ d.size) :
    s.StepsTo cmd (.decodeRle d₀ pos) (v.rawRest d left) := by
  obtain ⟨hlen, hleft⟩ := takeN_length_le left v.source
  have hw' := (hw.trans (.take _ v left)).trans
    (.memWrite (a := d.base + d.emitted) (bs := (takeN left v.source).bytes) _ fun hlegal x hx => by
      have := hfit hlegal
      simp only [Cursor.leaves, outside] at hx ⊢
      omega)
  exact .onTaken hseq hw' rfl (by simp) (by simp) rfl rfl fun _ =>
    State.chunkEnd_stepsTo hseq hw' hbase hsize
      (lt_of_le_of_lt (Nat.add_le_add_right hleft 5) hrank)

theorem State.chunkBody_stepsTo (kind : ChunkKind) {count : Nat} {px : Pixel}
    (hlegal : pos.legal d₀ → px.length = d.bpp ∧ 1 ≤ count) :
    s.StepsTo cmd (.decodeRle d₀ pos) (v.chunkBody d kind count px) := by
  unfold State.chunkBody
  split
  next => exact .failed hw (by simp)
  next hfit =>
    cases kind with
    | rep =>
      refine State.chunkEnd_stepsTo hseq (hw.trans (.memWrite _ fun h x hx => ?_)) hbase hsize hrank
      obtain ⟨hpx, -⟩ := hlegal h
      simp only [Cursor.leaves, outside, List.length_flatten, List.map_replicate,
        List.sum_replicate, smul_eq_mul, hpx] at hx ⊢
      omega
    | raw =>
      have hcount (h : pos.legal d₀) : d.bpp + (count - 1) * d.bpp = count * d.bpp := by
        obtain ⟨n, rfl⟩ : ∃ n, count = n + 1 := ⟨count - 1, by have := (hlegal h).2; omega⟩
        rw [Nat.succ_mul, Nat.add_comm]
        rfl
      refine State.rawRest_stepsTo hseq (hw.trans (.memWrite _ fun h x hx => ?_))
        (d := { d with emitted := d.emitted + d.bpp }) hbase hsize hrank
        fun h => by have := hcount h; dsimp only; omega
      have := hcount h
      obtain ⟨hpx, -⟩ := hlegal h
      simp only [Cursor.leaves, outside, hpx] at hx ⊢
      omega

theorem State.chunkPixel_stepsTo (kind : ChunkKind) {count : Nat} {got : List Byte}
    (hlegal : pos.legal d₀ → got.length ≤ d.bpp ∧ 1 ≤ count) :
    s.StepsTo cmd (.decodeRle d₀ pos) (v.chunkPixel d kind count got) := by
  have hleft := (takeN_length_le (d.bpp - got.length) v.source).2
  have hw' := hw.trans (.take _ v (d.bpp - got.length))
  refine .onTaken hseq hw' rfl (by simp) (by simp) rfl
    (by simp only [Cursor.wanted, List.length_append]; omega) fun hfull => ?_
  refine State.chunkBody_stepsTo hseq hw' hbase hsize
    (lt_of_le_of_lt (Nat.add_le_add_right hleft 5) hrank) kind fun h => ?_
  obtain ⟨hgot, hcount⟩ := hlegal h
  exact ⟨by rw [List.length_append]; omega, hcount⟩

end

theorem State.controlStage_stepsTo {s : State} {cmd : Command} {plan : Option Plan} {d : Decoder}
    (hseq : s.seq = .run cmd plan (.decodeRle d .control)) :
    s.StepsTo cmd (.decodeRle d .control) (s.controlStage d) := by
  unfold State.controlStage
  split
  next hlt =>
    split
    next hs =>
      have hready : s.ready = false :=
        State.not_ready_of_source hseq rfl (by simp [Cursor.wanted, hlt]) hs
      rw [← State.moveTo_self hseq] at hready
      have hheld := State.StepsTo.held (cmd := cmd) (.refl (.decodeRle d .control) s) hready
      rwa [State.moveTo_self hseq] at hheld
    next c q hs =>
      obtain ⟨kind, hrun⟩ := State.runChunkOf_decodeChunk c
      rw [hrun]
      exact State.chunkPixel_stepsTo hseq (.answer _ hs _) rfl rfl (by simp [hs]) kind
        fun _ => ⟨Nat.zero_le _, by omega⟩
    next q hs => exact .failed (.answer _ hs _) (by simp)
    next q hs => exact .failed (.answer _ hs _) (by simp)
  next => exact .afterDecode hseq (.refl _ s) rfl

/-! ### RESAMPLE, HDR_WRITE, ENCODE -/

theorem State.resampleStage_stepsTo {s : State} {cmd : Command} {plan : Option Plan} {g : Geometry}
    (hseq : s.seq = .run cmd plan (.resample g)) :
    s.StepsTo cmd (.resample g) (s.resampleStage g) := by
  refine .byPlan
    (next := fun p => .derive (BitVec.ofNat 16 p.dstW) (BitVec.ofNat 16 p.dstH) p.outType) hseq
    (.memWrite s (a := g.dbase) (bs := destBytes s.pbByte g) fun _ x hx => by
      rwa [destBytes_length])
    ?_ ?_ (fun _ => by simp) (fun _ => by simp [Cursor.stage, Stage.number])
    (fun _ => trivial)
    fun p => .inr ⟨rfl, Option.some_ne_none p⟩
  · rintro rfl; simp [State.resampleStage, State.afterResample, hseq, Sequencer.plan]
  · rintro p rfl; simp [State.resampleStage, State.afterResample, hseq, Sequencer.plan]

theorem State.deriveStage_stepsTo {s : State} {cmd : Command} {plan : Option Plan}
    {width height : Half} {imageType : Byte}
    (hseq : s.seq = .run cmd plan (.derive width height imageType)) :
    s.StepsTo cmd (.derive width height imageType) (s.deriveStage width height imageType) := by
  refine .byPlan (next := fun _ => .hdrWrite (s.hdrIn.derive width height imageType).toList) hseq
    (.setHdrOut s (s.hdrIn.derive width height imageType) rfl)
    ?_ ?_ (fun _ => by simp) (fun _ => by simp [Cursor.stage, Stage.number])
    (fun _ => trivial)
    fun p => .inr ⟨rfl, Option.some_ne_none p⟩
  · rintro rfl; simp [State.deriveStage, State.afterDerive, hseq, Sequencer.plan]
  · rintro p rfl; simp [State.deriveStage, State.afterDerive, hseq, Sequencer.plan]

theorem State.hdrWriteStage_stepsTo {s : State} {cmd : Command} {plan : Option Plan}
    {left : List Byte} (hseq : s.seq = .run cmd plan (.hdrWrite left)) :
    s.StepsTo cmd (.hdrWrite left) (s.hdrWriteStage left) := by
  have hw : s.Works (.hdrWrite left) (s.afterPut (putN left s.sink)) := .put s _ (.inl rfl)
  refine .onGiven hseq hw rfl (by simp) rfl (.byPlan
    (next := fun p => .encode ((s.afterPut (putN left s.sink)).convertBody p)) hseq hw
    ?_ ?_ (fun _ => by simp) (fun _ => by simp [Cursor.stage, Stage.number])
    (fun _ => trivial)
    fun p => .inr ⟨rfl, Option.some_ne_none p⟩)
  · rintro rfl; simp [State.afterHdrWrite, hseq, Sequencer.plan]
  · rintro p rfl; exact State.afterHdrWrite_of_plan_some _ hseq

theorem State.encodeStage_stepsTo {s : State} {cmd : Command} {plan : Option Plan}
    {left : List Byte} (hseq : s.seq = .run cmd plan (.encode left)) :
    s.StepsTo cmd (.encode left) (s.encodeStage left) :=
  have hw : s.Works (.encode left) (s.afterPut (putN left s.sink)) := .put s _ (.inr rfl)
  .onGiven hseq hw rfl (by simp) rfl (.ended hw)

/-! ### The engine's step -/

/-- Every step of a running command is one of `State.StepsTo`. -/
theorem State.engineStep_stepsTo {s : State} {cmd : Command} {plan : Option Plan} {cur : Cursor}
    (hseq : s.seq = .run cmd plan cur) : s.StepsTo cmd cur s.engineStep := by
  rw [s.engineStep_run hseq]
  match cur with
  | .issue => exact State.issueStage_stepsTo hseq
  | .hdrRead k => exact State.hdrReadStage_stepsTo hseq
  | .validate => exact State.validateStage_stepsTo cmd
  | .decodeRaw base size done => exact State.decodeRawStage_stepsTo hseq
  | .decodeRle d .control => exact State.controlStage_stepsTo hseq
  | .decodeRle d (.firstPixel kind count got) =>
    exact State.chunkPixel_stepsTo hseq (.refl _ s) rfl rfl (by simp) kind
      fun ⟨_, hcount, _, hgot⟩ => ⟨hgot.le, hcount⟩
  | .decodeRle d (.rest left) =>
    exact State.rawRest_stepsTo hseq (.refl _ s) rfl rfl (by simp) fun ⟨_, hfit⟩ => hfit
  | .resample g => exact State.resampleStage_stepsTo hseq
  | .derive width height imageType => exact State.deriveStage_stepsTo hseq
  | .hdrWrite left => exact State.hdrWriteStage_stepsTo hseq
  | .encode left => exact State.encodeStage_stepsTo hseq

end Sys2Proof.Machine
end

section
/-!
The family 60_exceptions.md, error entry and the outcomes of a command: an error of the engine is a
`raise` in the stage SEQ is in (R181, R186), and the engine comes to an end or to a hold (R192).
-/

namespace Sys2Proof.Machine

/-! ### Error entry (60_exceptions.md R186) -/

theorem errinfoOf_stage (e : ErrorCode) (st : Stage) :
    (errinfoOf e st).extractLsb' 4 4 = st.number :=
  BitVec.extractLsb'_append_eq_left

theorem errinfoOf_code (e : ErrorCode) (st : Stage) :
    (errinfoOf e st).extractLsb' 0 4 = e.number :=
  BitVec.extractLsb'_append_eq_right

/-- BadCommand is raised at acceptance alone (60_exceptions.md R181). -/
theorem Cursor.number_of_mem_errors {cur : Cursor} {e : ErrorCode} (h : e ∈ cur.errors) :
    1 ≤ e.number.toNat ∧ e.number.toNat ≤ 8 := by
  cases e with
  | badCommand => cases cur <;> simp at h
  | ioError | truncatedHeader | truncatedData | unsupportedFormat | writeFailed | overrun | badParam
  | bufferRange => decide

/-- Settles O52: of what a step can do only a `raise` leaves ERROR behind, and the stage has not
moved SEQ before it. -/
theorem errorEntryRecordsTheStage : Obligations.ErrorEntryRecordsTheStage := by
  intro s hactive herror
  match hseq : s.seq with
  | .idle | .error =>
    rw [hseq] at hactive
    cases hactive
  | .run cmd plan cur =>
    have hstep := State.engineStep_stepsTo hseq
    generalize s.engineStep = t at hstep herror ⊢
    cases hstep with
    | @failed v e hw he =>
      rw [State.raise_errinfo, errinfoOf_stage, errinfoOf_code, hw.seq, hseq]
      exact ⟨rfl, rfl, Cursor.number_of_mem_errors he⟩
    | ended => cases herror
    | held hw =>
      rw [State.moveTo_seq, hw.seq, hseq] at herror
      cases herror
    | moved => cases herror

/-! ### The engine comes to a stop (60_exceptions.md R192) -/

/-- A bound on the steps the engine has still to take. -/
def State.remaining (s : State) : Nat :=
  match s.seq with
  | .idle => 0
  | .error => 0
  | .run _ _ cur => s.source.length + cur.rank

theorem State.remaining_run {s : State} {cmd : Command} {plan : Option Plan} {cur : Cursor}
    (h : s.seq = .run cmd plan cur) : s.remaining = s.source.length + cur.rank := by
  simp [State.remaining, h]

theorem Cursor.rank_pos (cur : Cursor) : 0 < cur.rank ∧ cur.rank ≤ 9 := by
  match cur with
  | .issue | .hdrRead _ | .validate | .decodeRaw _ _ _ | .decodeRle _ .control
  | .decodeRle _ (.firstPixel _ _ _) | .decodeRle _ (.rest _) | .resample _ | .derive _ _ _
  | .hdrWrite _ | .encode _ => simp

theorem State.seq_run_of_ready {s : State} (h : s.ready = true) :
    ∃ cmd plan cur, s.seq = .run cmd plan cur := by
  match hseq : s.seq with
  | .idle => rw [s.ready_idle hseq] at h; cases h
  | .error => rw [s.ready_error hseq] at h; cases h
  | .run cmd plan cur => exact ⟨cmd, plan, cur, rfl⟩

/-- A step brings the engine to a stop or nearer to it. -/
theorem State.StepsTo.remaining_lt {s t : State} {cmd : Command} {plan : Option Plan} {cur : Cursor}
    (hseq : s.seq = .run cmd plan cur) (h : s.StepsTo cmd cur t) :
    t.ready = false ∨ t.remaining < s.remaining := by
  cases h with
  | failed => exact .inl (State.ready_error _ rfl)
  | ended => exact .inl (State.ready_idle _ rfl)
  | held _ hready => exact .inl hready
  | moved _ hlead =>
    rw [State.remaining_run hseq]
    exact .inr hlead.rank

theorem State.drive_stops {n : Nat} {s : State} (h : s.remaining ≤ n) :
    (s.drive n).ready = false := by
  induction n generalizing s with
  | zero =>
    rw [State.drive_zero, Bool.eq_false_iff]
    intro hready
    obtain ⟨cmd, plan, cur, hseq⟩ := State.seq_run_of_ready hready
    rw [State.remaining_run hseq] at h
    have := cur.rank_pos
    omega
  | succ n ih =>
    cases hready : s.ready with
    | false => rwa [s.drive_of_not_ready _ hready]
    | true =>
      obtain ⟨cmd, plan, cur, hseq⟩ := State.seq_run_of_ready hready
      rw [s.drive_succ n hready]
      rcases (State.engineStep_stepsTo hseq).remaining_lt hseq with hstop | hlt
      · rwa [State.drive_of_not_ready _ _ hstop]
      · exact ih (by omega)

/-- The model's `work` is enough (60_exceptions.md R192). -/
theorem State.settle_not_ready (s : State) : s.settle.ready = false := by
  refine State.drive_stops ?_
  unfold State.remaining State.work
  match s.seq with
  | .idle | .error => exact Nat.zero_le _
  | .run _ _ cur =>
    have := cur.rank_pos
    dsimp only
    omega

/-- Where the engine cannot move (10_state.md R23, R24). -/
theorem State.stopped_of_not_ready {s : State} (h : s.ready = false) :
    s.seq = .idle ∨ s.seq = .error ∨ (s.seq.pending = .input ∧ s.source = []) ∨
      ((∃ b : Byte, s.seq.pending = .output b) ∧ s.sink = []) := by
  match hseq : s.seq with
  | .idle => exact .inl rfl
  | .error => exact .inr (.inl rfl)
  | .run cmd plan cur =>
    have hnot := (s.ready_run hseq).not.mp (Bool.eq_false_iff.mp h)
    match hpending : cur.pending with
    | .none => simp [hpending] at hnot
    | .input => simpa [hpending, Sequencer.pending] using hnot
    | .output b => simpa [hpending, Sequencer.pending] using hnot

/-- Settles O58: the engine has stopped where `settle` ends. -/
theorem everyCommandEndsOrIsHeld : Obligations.EveryCommandEndsOrIsHeld :=
  fun s => State.stopped_of_not_ready s.settle_not_ready

end Sys2Proof.Machine
end

section
/-!
The family 60_exceptions.md, what a failing CONVERT leaves (44_pipeline.md R160; R188): a predicate
of the states a CONVERT runs through, kept by every step of the engine, and what an error makes of
such a state.
-/

namespace Sys2Proof.Machine

/-- Where CONVERT's temporaries give the bytes of PB a stage writes, they lie in the two regions
(20_memory.md R48). -/
theorem State.Placed.leaves {s : State} {plan : Option Plan} {cur : Cursor} (h : s.Placed)
    (hseq : s.seq = .run .convert plan cur) {a : Nat}
    (ha : outside 0 ((planOf s.params s.hdrIn).srcBytes + (planOf s.params s.hdrIn).dstBytes) a) :
    cur.leaves a := by
  rw [State.Placed, hseq] at h
  obtain ⟨hcur, hplan⟩ := h
  cases cur with
  | decodeRaw base size done =>
    obtain ⟨hcmd, -⟩ | ⟨-, q, hq, rfl, rfl⟩ := hcur
    · cases hcmd
    · rw [← hplan q hq] at ha
      simp only [Cursor.leaves, outside] at ha ⊢
      omega
  | decodeRle d pos =>
    obtain ⟨hcmd, -⟩ | ⟨-, q, hq, hbase, hsize⟩ := hcur
    · cases hcmd
    · rw [← hplan q hq] at ha
      simp only [Cursor.leaves, outside, hbase, hsize] at ha ⊢
      omega
  | resample g =>
    obtain ⟨hcmd, -⟩ | ⟨-, q, hq, rfl⟩ := hcur
    · cases hcmd
    · have hdst : q.geometry.dstBytes = q.dstBytes := by rw [hplan q hq]; rfl
      rw [← hplan q hq] at ha
      have hbase : q.geometry.dbase = q.srcBytes := rfl
      simp only [Cursor.leaves, outside, hdst, hbase] at ha ⊢
      omega
  | issue | hdrRead _ | validate | derive _ _ _ | hdrWrite _ | encode _ => trivial

/-- A stage before DECODE writes nothing of PB. -/
theorem Cursor.leaves_of_stage {cur : Cursor} (h : cur.stage.number.toNat ≤ 2) (a : Nat) :
    cur.chunkLegal ∧ cur.leaves a := by
  cases cur with
  | issue | hdrRead _ | validate | derive _ _ _ | hdrWrite _ | encode _ => exact ⟨trivial, trivial⟩
  | decodeRaw _ _ _ | decodeRle _ _ | resample _ => simp [Cursor.stage, Stage.number] at h

/-- CONVERT has its temporaries from DECODE on (44_pipeline.md R151). -/
theorem Cursor.stage_le_of_placed_none {cur : Cursor} {params : Params}
    (h : cur.placed params .convert none) : cur.stage.number.toNat ≤ 2 := by
  cases cur with
  | issue | hdrRead _ | validate => simp [Cursor.stage, Stage.number]
  | decodeRaw _ _ _ | decodeRle _ _ | resample _ | derive _ _ _ | hdrWrite _ | encode _ =>
    simp [Cursor.placed] at h

/-- A stage that can fail otherwise than by the sink is DECODE at the latest. -/
theorem Cursor.stage_le_of_mem_errors {cur : Cursor} {e : ErrorCode} (he : e ∈ cur.errors)
    (hne : e ≠ .writeFailed) : cur.stage.number.toNat ≤ 3 := by
  cases cur with
  | issue | hdrRead _ | validate | decodeRaw _ _ _ | decodeRle _ _ =>
    simp [Cursor.stage, Stage.number]
  | resample _ | derive _ _ _ => cases he
  | hdrWrite _ | encode _ => exact absurd (List.mem_singleton.mp he) hne

/-- What a stage before DECODE makes unspecified where it fails (60_exceptions.md R188). -/
theorem State.spoil_of_stage_le {s : State} {cmd : Command} {plan : Option Plan} {cur : Cursor}
    (hseq : s.seq = .run cmd plan cur) (hstage : cur.stage.number.toNat ≤ 2) :
    s.spoil = if cur.stage = .hdrRead then s.freeHdrIn else s := by
  rw [State.spoil, hseq]
  cases cur with
  | issue | hdrRead _ | validate => rfl
  | decodeRaw _ _ _ | decodeRle _ _ | resample _ | derive _ _ _ | hdrWrite _ | encode _ =>
    simp [Cursor.stage, Stage.number] at hstage

/-- A CONVERT issued in `s` is at the cursor `cur` of `u`, where the stages up to `cur` have left
untouched what R160 and R188 say. -/
structure State.Converting (s u : State) (plan : Option Plan) (cur : Cursor) : Prop where
  seq : u.seq = .run .convert plan cur
  busy : u.status = statusBusy
  placed : u.Placed
  chunkLegal : cur.chunkLegal
  params : u.params = s.params
  draws : u.draws = s.draws
  hdrIn : cur.stage.number.toNat = 0 → u.hdrIn = s.hdrIn
  hdrOut : cur.stage.number.toNat ≤ 4 → u.hdrOut = s.hdrOut
  output : cur.stage.number.toNat ≤ 4 → u.out = s.out ∧ u.outCount = s.outCount ∧ u.sink = s.sink
  pb : cur.stage.number.toNat ≤ 2 → ∀ a, u.pbByte a = s.pbByte a
  regions : ∀ a, outside 0
    ((planOf s.params u.hdrIn).srcBytes + (planOf s.params u.hdrIn).dstBytes) a →
    u.pbByte a = s.pbByte a

/-- What a CONVERT issued in `s` has left untouched and made unspecified where it ends in ERROR. -/
structure State.ConvertFailed (s t : State) : Prop where
  output : (t.errinfo.extractLsb' 0 4).toNat ≠ 5 →
    t.out = s.out ∧ t.outCount = s.outCount ∧ t.sink = s.sink
  hdrIn : (t.errinfo.extractLsb' 4 4).toNat = 0 → t.hdrIn = s.hdrIn
  freeHdrIn : (t.errinfo.extractLsb' 4 4).toNat = 1 →
    ∀ (k : Nat) (hk : k < 18), t.hdrIn[k] = Config.freeByte s.draws k
  pb : (t.errinfo.extractLsb' 4 4).toNat ≤ 2 → ∀ a, t.pbByte a = s.pbByte a
  hdrOut : (t.errinfo.extractLsb' 4 4).toNat ≤ 3 → t.hdrOut = s.hdrOut
  freedPb : 3 ≤ (t.errinfo.extractLsb' 4 4).toNat →
    freedPb s t 0 ((planOf s.params t.hdrIn).srcBytes + (planOf s.params t.hdrIn).dstBytes)

theorem State.converting_accept (s : State) : s.Converting (s.accept .convert) none .issue where
  seq := rfl
  busy := rfl
  placed := ⟨rfl, fun _ h => by cases h⟩
  chunkLegal := trivial
  params := rfl
  draws := rfl
  hdrIn _ := rfl
  hdrOut _ := rfl
  output _ := ⟨rfl, rfl, rfl⟩
  pb _ _ := rfl
  regions _ _ := rfl

section
variable {s u v : State} {plan : Option Plan} {cur : Cursor} (h : s.Converting u plan cur)
  (hw : u.Works cur v)
include h hw

/-- The work of a stage before HDR_WRITE offers no byte and does not write HDR_OUT. -/
theorem State.Converting.works_output (hstage : cur.stage.number.toNat ≤ 4) :
    v.hdrOut = s.hdrOut ∧ v.out = s.out ∧ v.outCount = s.outCount ∧ v.sink = s.sink := by
  have hwrite : cur.stage ≠ .hdrWrite := fun he => by simp [he, Stage.number] at hstage
  have hencode : cur.stage ≠ .encode := fun he => by simp [he, Stage.number] at hstage
  obtain ⟨ho, hc, hs⟩ := h.output hstage
  obtain ⟨ho', hc', hs'⟩ := hw.output hwrite hencode
  exact ⟨(hw.hdrOut hwrite).trans (h.hdrOut hstage), ho'.trans ho, hc'.trans hc, hs'.trans hs⟩

theorem State.Converting.works_pb (hstage : cur.stage.number.toNat ≤ 2) (a : Nat) :
    v.pbByte a = s.pbByte a :=
  have ⟨hlegal, hleaves⟩ := Cursor.leaves_of_stage hstage a
  (hw.pb hlegal a hleaves).trans (h.pb hstage a)

theorem State.Converting.works_regions (a : Nat)
    (ha : outside 0 ((planOf s.params v.hdrIn).srcBytes + (planOf s.params v.hdrIn).dstBytes) a) :
    v.pbByte a = s.pbByte a := by
  by_cases hstage : cur.stage = .hdrRead
  · exact h.works_pb hw (by rw [hstage]; decide) a
  · rw [hw.hdrIn hstage] at ha
    refine (hw.pb h.chunkLegal a (h.placed.leaves h.seq ?_)).trans (h.regions a ha)
    rwa [h.params]

theorem State.Converting.moved {cmd' : Command} {plan' : Option Plan} {cur' : Cursor}
    (hlead : u.Leads .convert cur v cmd' plan' cur') :
    s.Converting { v with seq := .run cmd' plan' cur' } plan' cur' where
  seq := by rw [hlead.command rfl]
  busy := hw.status.trans h.busy
  placed := hlead.placed h.placed
  chunkLegal := hlead.chunkLegal
  params := hw.fixed.params.trans h.params
  draws := hw.draws.trans h.draws
  hdrIn hstage := by
    have hzero := Nat.le_zero.mp (hstage ▸ hlead.stage)
    have hread : cur.stage ≠ .hdrRead := fun he => by simp [he, Stage.number] at hzero
    exact (hw.hdrIn hread).trans (h.hdrIn hzero)
  hdrOut hstage := (h.works_output hw (hlead.stage.trans hstage)).1
  output hstage := (h.works_output hw (hlead.stage.trans hstage)).2
  pb hstage a := h.works_pb hw (hlead.stage.trans hstage) a
  regions a ha := h.works_regions hw a ha

/-- From DECODE on a failing CONVERT frees both its regions (60_exceptions.md R188). -/
theorem State.Converting.spoil_eq {e : ErrorCode} (he : e ∈ cur.errors)
    (hstage : 3 ≤ cur.stage.number.toNat) :
    v.spoil = v.freePb 0
      ((planOf s.params u.hdrIn).srcBytes + (planOf s.params u.hdrIn).dstBytes) := by
  have hplaced := h.placed
  rw [State.Placed, h.seq, h.params] at hplaced
  obtain ⟨hcur, hplan⟩ := hplaced
  have hv := hw.seq.trans h.seq
  match plan with
  | none =>
    have := Cursor.stage_le_of_placed_none hcur
    omega
  | some p =>
    rw [← hplan p rfl, State.spoil, hv]
    cases cur with
    | decodeRaw _ _ _ | decodeRle _ _ | hdrWrite _ | encode _ => rfl
    | resample _ | derive _ _ _ => cases he
    | issue | hdrRead _ | validate => simp [Cursor.stage, Stage.number] at hstage

theorem State.Converting.failed {e : ErrorCode} (he : e ∈ cur.errors) :
    s.ConvertFailed (v.raise e) := by
  have hv := hw.seq.trans h.seq
  have hcode : (v.raise e).errinfo.extractLsb' 0 4 = e.number := errinfoOf_code e _
  have hnumber : (v.raise e).errinfo.extractLsb' 4 4 = cur.stage.number := by
    rw [State.raise_errinfo, errinfoOf_stage, hv]
    rfl
  constructor
  case output =>
    rw [hcode]
    intro hne
    have hstage := Cursor.stage_le_of_mem_errors he fun h => hne (by rw [h]; rfl)
    obtain ⟨-, houtput⟩ := h.works_output hw (by omega)
    simpa using houtput
  case hdrIn =>
    rw [hnumber]
    intro hstage
    have hread : cur.stage ≠ .hdrRead := fun he => by simp [he, Stage.number] at hstage
    rw [State.raise_hdrIn, State.spoil_of_stage_le hv (by omega), if_neg hread, hw.hdrIn hread,
      h.hdrIn hstage]
  case freeHdrIn =>
    rw [hnumber]
    intro hstage k hk
    have hread : cur.stage = .hdrRead := by
      cases cur <;> simp [Cursor.stage, Stage.number] at hstage ⊢
    have hfree : (v.raise e).hdrIn = Config.freeHeader s.draws := by
      rw [State.raise_hdrIn, State.spoil_of_stage_le hv (by omega), if_pos hread,
        State.freeHdrIn_hdrIn, hw.draws, h.draws]
    rw [hfree, Config.getElem_freeHeader]
  case pb =>
    rw [hnumber]
    intro hstage a
    rw [← h.works_pb hw hstage a, State.raise, State.spoil_of_stage_le hv hstage]
    split <;> rfl
  case hdrOut =>
    rw [hnumber]
    intro hstage
    rw [State.raise_hdrOut]
    exact (h.works_output hw (by omega)).1
  case freedPb =>
    rw [hnumber]
    intro hstage
    have hread : cur.stage ≠ .hdrRead := fun he => by simp [he, Stage.number] at hstage
    have hspoil := h.spoil_eq hw he hstage
    have hin : (v.raise e).hdrIn = u.hdrIn := by
      rw [State.raise_hdrIn, hspoil, State.freePb_hdrIn, hw.hdrIn hread]
    rw [hin]
    refine freedPb_raise e hspoil (hw.draws.trans h.draws) fun a ha => h.works_regions hw a ?_
    rwa [hw.hdrIn hread]

end

/-! ### The run of a CONVERT -/

/-- Where a CONVERT issued in `s` can be: on its way, where the engine can move, or in ERROR. -/
def State.ConvertRuns (s u : State) : Prop :=
  (u.ready = true → ∃ plan cur, s.Converting u plan cur) ∧ (u.err = true → s.ConvertFailed u)

/-- STATUS shows ERR in ERROR alone, so elsewhere there is no failure to speak of. -/
theorem State.ConvertRuns.of_status {s u : State}
    (hstatus : u.status = statusBusy ∨ u.status = statusDone)
    (h : u.ready = true → ∃ plan cur, s.Converting u plan cur) : s.ConvertRuns u := by
  have herr : u.err = false := by rcases hstatus with hs | hs <;> rw [State.err, hs] <;> rfl
  exact ⟨h, fun he => absurd he (Bool.eq_false_iff.mp herr)⟩

theorem State.ConvertRuns.accept (s : State) : s.ConvertRuns (s.accept .convert) :=
  .of_status (.inl rfl) fun _ => ⟨none, .issue, s.converting_accept⟩

theorem State.ConvertRuns.engineStep {s u : State} (hready : u.ready = true)
    (h : s.ConvertRuns u) : s.ConvertRuns u.engineStep := by
  obtain ⟨plan, cur, hu⟩ := h.1 hready
  have hstep := State.engineStep_stepsTo hu.seq
  generalize u.engineStep = t at hstep ⊢
  cases hstep with
  | failed hw he =>
    exact ⟨fun hr => absurd hr (Bool.eq_false_iff.mp (State.ready_error _ rfl)),
      fun _ => hu.failed hw he⟩
  | ended =>
    exact .of_status (.inr rfl) fun hr =>
      absurd hr (Bool.eq_false_iff.mp (State.ready_idle _ rfl))
  | held hw hstop =>
    exact .of_status (.inl (hw.status.trans hu.busy)) fun hr =>
      absurd hr (Bool.eq_false_iff.mp hstop)
  | moved hw hlead =>
    exact .of_status (.inl (hw.status.trans hu.busy)) fun _ => ⟨_, _, hu.moved hw hlead⟩

/-- Whatever the pace, a CONVERT that ends in ERROR has failed as R188 says. -/
theorem exec_convert_err {s t : State} (hidle : s.isIdle = true) (hexec : exec .convert s = .next t)
    (herr : t.err = true) : s.ConvertFailed t := by
  have hruns := State.ConvertRuns.accept s
  rw [exec_of_commandOf rfl] at hexec
  cases hexec
  match hpace : s.pace with
  | .stepwise =>
    rw [s.issue_stepwise .convert hidle hpace] at herr ⊢
    exact hruns.2 herr
  | .runAhead =>
    rw [s.issue_runAhead .convert hidle hpace] at herr ⊢
    exact (State.settle_keeps s.ConvertRuns (fun _ => State.ConvertRuns.engineStep) _ hruns).2 herr

/-- Settles O46: the engine keeps `State.ConvertRuns`, and its error states are those of R160 and
R188. -/
theorem convertErrorsLeaveTheOutputUntouched :
    Obligations.ConvertErrorsLeaveTheOutputUntouched := by
  refine ⟨fun s t hidle hexec herr => (exec_convert_err hidle hexec herr).output,
    fun s t hidle hexec herr => ?_⟩
  have h := exec_convert_err hidle hexec herr
  exact ⟨h.hdrIn, h.freeHdrIn, h.pb, h.hdrOut, h.freedPb⟩

end Sys2Proof.Machine
end

section
/-!
The family 70_reset_and_hazards.md: the hardware reset from any state, with the one byte that may
have been in flight (R210, R212), and the two paces of the engine (R229).
-/

namespace Sys2Proof.Machine

/-! ### The hardware reset (70_reset_and_hazards.md R210) -/

@[simp] theorem State.busy_hardReset (s : State) : s.hardReset.busy = false := by
  simp [State.busy, statusNone]

theorem State.registerValue_hardReset (s : State) {n : Nat} (hn : n ≤ 15) :
    s.hardReset.registerValue n = 0 := by
  interval_cases n <;> simp [State.registerValue, statusNone, Params.zero]

/-- No PB byte has a value after the reset, so each is of the reset's own draw. -/
theorem State.pbByte_hardReset (s : State) (a : Nat) :
    s.hardReset.pbByte a = Config.freeByte (s.draws + 2) a := rfl

/-! ### A transaction in progress (70_reset_and_hazards.md R212) -/

theorem State.landInFlight_eq (s : State) (p : Pending) : s.landInFlight p = { s with
    source := (s.landInFlight p).source, sink := (s.landInFlight p).sink
    out := (s.landInFlight p).out } := by
  cases p <;> rfl

/-- The block after a reset event is that of `hardReset`: what was in flight moves the streams and
nothing else. -/
theorem State.resetEvent_eq (s : State) (inFlight : Bool) :
    s.resetEvent inFlight = { s.hardReset with
      source := (s.resetEvent inFlight).source, sink := (s.resetEvent inFlight).sink
      out := (s.resetEvent inFlight).out } := by
  cases inFlight with
  | false => rfl
  | true => exact congrArg State.hardReset (s.landInFlight_eq s.seq.pending)

theorem State.resetEvent_of_pending {s : State} {p : Pending} (h : s.seq.pending = p) :
    s.resetEvent true = (s.landInFlight p).hardReset :=
  h ▸ rfl

theorem State.resetEvent_of_nothing_lands {s : State} {inFlight : Bool}
    (h : inFlight = false ∨ s.seq.pending = .none) : s.resetEvent inFlight = s.hardReset := by
  cases inFlight with
  | false => rfl
  | true => exact State.resetEvent_of_pending (h.resolve_left Bool.noConfusion)

/-- Settles O7: the block is that of `hardReset`, and the byte in flight decides the streams. -/
theorem hardwareResetFromAnyState : Obligations.HardwareResetFromAnyState := by
  refine fun s inFlight => ⟨_, congrArg Host.Outcome.next (s.resetEvent_eq inFlight),
    fun _ hn => s.registerValue_hardReset hn, rfl,
    fun k hk => ⟨Config.getElem_freeHeader _ k hk, Config.getElem_freeHeader _ k hk⟩,
    s.pbByte_hardReset, rfl, rfl, rfl, rfl, rfl, fun h => ?_, fun hin h => ?_, fun b hin h => ?_⟩
  · rw [State.resetEvent_of_nothing_lands h]
    exact ⟨rfl, rfl, rfl⟩
  · rw [hin, State.resetEvent_of_pending h]
    exact ⟨List.drop_one.symm, rfl, rfl⟩
  · rw [hin, State.resetEvent_of_pending h]
    exact ⟨rfl, List.drop_one.symm, rfl⟩

/-! ### The pace (70_reset_and_hazards.md R229) -/

/-- The same state in another pace. -/
def State.atPace (s : State) (p : Pace) : State := { s with pace := p }

section
variable (s : State) (p : Pace)

@[simp] theorem State.atPace_params : (s.atPace p).params = s.params := rfl
@[simp] theorem State.atPace_hdrIn : (s.atPace p).hdrIn = s.hdrIn := rfl
@[simp] theorem State.atPace_seq : (s.atPace p).seq = s.seq := rfl
@[simp] theorem State.atPace_pbSize : (s.atPace p).pbSize = s.pbSize := rfl
@[simp] theorem State.atPace_source : (s.atPace p).source = s.source := rfl

theorem State.spoil_atPace : (s.atPace p).spoil = s.spoil.atPace p := by
  unfold State.spoil
  rw [State.atPace_seq]
  split
  · rfl
  · rfl
  next plan cur _ =>
    cases cur with
    | issue | hdrRead _ | validate | resample _ | derive _ _ _ => rfl
    | decodeRaw _ _ _ | decodeRle _ _ | hdrWrite _ | encode _ => cases plan <;> rfl

theorem State.raise_atPace (e : ErrorCode) : (s.atPace p).raise e = (s.raise e).atPace p :=
  congrArg (fun t => State.enterError t e s.seq.stage) (s.spoil_atPace p)

theorem State.onTaken_atPace (ending : TakeEnd) (e : ErrorCode) (next : State) (cur : Cursor) :
    (s.atPace p).onTaken ending e (next.atPace p) cur = (s.onTaken ending e next cur).atPace p := by
  cases ending with
  | full | hold => rfl
  | eos => exact s.raise_atPace p e
  | failed => exact s.raise_atPace p .ioError

theorem State.onGiven_atPace (ending : PutEnd) (next : State) (cur : Cursor) :
    (s.atPace p).onGiven ending (next.atPace p) cur = (s.onGiven ending next cur).atPace p := by
  cases ending with
  | full | hold => rfl
  | failed => exact s.raise_atPace p .writeFailed

theorem State.checked_atPace (check : Option ErrorCode) (cur : Cursor) :
    (s.atPace p).checked check cur = (s.checked check cur).atPace p := by
  cases check with
  | none => rfl
  | some e => exact s.raise_atPace p e

theorem State.afterHdrRead_atPace : (s.atPace p).afterHdrRead = s.afterHdrRead.atPace p := by
  unfold State.afterHdrRead
  rw [State.atPace_seq]
  split <;> rfl

theorem State.afterDecode_atPace : (s.atPace p).afterDecode = s.afterDecode.atPace p := by
  unfold State.afterDecode
  rw [State.atPace_seq]
  split <;> rfl

theorem State.afterResample_atPace : (s.atPace p).afterResample = s.afterResample.atPace p := by
  unfold State.afterResample
  rw [State.atPace_seq]
  split <;> rfl

theorem State.afterDerive_atPace : (s.atPace p).afterDerive = s.afterDerive.atPace p := by
  unfold State.afterDerive
  rw [State.atPace_seq]
  split <;> rfl

theorem State.afterHdrWrite_atPace : (s.atPace p).afterHdrWrite = s.afterHdrWrite.atPace p := by
  unfold State.afterHdrWrite
  rw [State.atPace_seq]
  split <;> rfl

theorem State.chunkEnd_atPace (d : Decoder) :
    (s.atPace p).chunkEnd d = (s.chunkEnd d).atPace p := by
  unfold State.chunkEnd
  split
  · rfl
  · exact s.afterDecode_atPace p

theorem State.rawRest_atPace (d : Decoder) (left : Nat) :
    (s.atPace p).rawRest d left = (s.rawRest d left).atPace p := by
  unfold State.rawRest
  rw [← State.onTaken_atPace, ← State.chunkEnd_atPace]
  rfl

theorem State.chunkBody_atPace (d : Decoder) (kind : ChunkKind) (count : Nat) (px : Pixel) :
    (s.atPace p).chunkBody d kind count px = (s.chunkBody d kind count px).atPace p := by
  unfold State.chunkBody
  split
  · exact s.raise_atPace p .overrun
  · cases kind with
    | rep => exact (s.memWrite _ _).chunkEnd_atPace p _
    | raw => exact (s.memWrite _ _).rawRest_atPace p _ _

theorem State.chunkPixel_atPace (d : Decoder) (kind : ChunkKind) (count : Nat) (got : List Byte) :
    (s.atPace p).chunkPixel d kind count got = (s.chunkPixel d kind count got).atPace p := by
  unfold State.chunkPixel
  rw [← State.onTaken_atPace, ← State.chunkBody_atPace]
  rfl

theorem State.runChunkOf_atPace (d : Decoder) (i : Instr) :
    (s.atPace p).runChunkOf d i = (s.runChunkOf d i).atPace p := by
  cases i with
  | rep count => exact s.chunkPixel_atPace p d .rep count []
  | raw count => exact s.chunkPixel_atPace p d .raw count []
  | nop | rdhdr | drvhdr | wrhdr | decrle | encrle | decraw | encraw | resample | convert | srst =>
    rfl

theorem State.controlStage_atPace (d : Decoder) :
    (s.atPace p).controlStage d = (s.controlStage d).atPace p := by
  unfold State.controlStage
  rw [State.atPace_source]
  split
  · split
    · rfl
    next c q _ =>
      exact ({ s with source := q, inCount := s.inCount + 1 } : State).runChunkOf_atPace p d _
    next q _ => exact ({ s with source := q } : State).raise_atPace p .truncatedData
    next q _ => exact ({ s with source := q } : State).raise_atPace p .ioError
  · exact s.afterDecode_atPace p

theorem State.validateStage_atPace : (s.atPace p).validateStage = s.validateStage.atPace p := by
  unfold State.validateStage
  rw [State.atPace_params, State.atPace_hdrIn, State.atPace_pbSize]
  split
  · exact s.raise_atPace p _
  · rfl

theorem State.issueStage_atPace (cmd : Command) :
    (s.atPace p).issueStage cmd = (s.issueStage cmd).atPace p := by
  cases cmd with
  | rdhdr | drvhdr | wrhdr => rfl
  | decrle | encrle | decraw | encraw | resample | convert => exact s.checked_atPace p _ _

/-- No stage reads the pace. -/
theorem State.stageStep_atPace (cmd : Command) (cur : Cursor) :
    (s.atPace p).stageStep cmd cur = (s.stageStep cmd cur).atPace p := by
  match cur with
  | .issue => exact s.issueStage_atPace p cmd
  | .hdrRead k =>
    simp only [State.stageStep, State.hdrReadStage]
    rw [← State.onTaken_atPace, ← State.afterHdrRead_atPace]
    rfl
  | .validate => exact s.validateStage_atPace p
  | .decodeRaw base size done =>
    simp only [State.stageStep, State.decodeRawStage]
    rw [← State.onTaken_atPace, ← State.afterDecode_atPace]
    rfl
  | .decodeRle d .control => exact s.controlStage_atPace p d
  | .decodeRle d (.firstPixel kind count got) => exact s.chunkPixel_atPace p d kind count got
  | .decodeRle d (.rest left) => exact s.rawRest_atPace p d left
  | .resample g => exact (s.memWrite _ _).afterResample_atPace p
  | .derive width height imageType => exact ({ s with hdrOut := _ } : State).afterDerive_atPace p
  | .hdrWrite left =>
    simp only [State.stageStep, State.hdrWriteStage]
    rw [← State.onGiven_atPace, ← State.afterHdrWrite_atPace]
    rfl
  | .encode left => exact (s.afterPut _).onGiven_atPace p _ (s.afterPut _).complete _

theorem State.ready_atPace : (s.atPace p).ready = s.ready := rfl

theorem State.engineStep_atPace : (s.atPace p).engineStep = s.engineStep.atPace p := by
  unfold State.engineStep
  rw [State.atPace_seq]
  split
  · rfl
  · rfl
  · exact s.stageStep_atPace p _ _

theorem State.drive_atPace (n : Nat) : (s.atPace p).drive n = (s.drive n).atPace p := by
  induction n generalizing s with
  | zero => rfl
  | succ n ih =>
    cases h : s.ready with
    | false =>
      rw [State.drive_of_not_ready _ _ ((s.ready_atPace p).trans h), s.drive_of_not_ready _ h]
    | true =>
      rw [State.drive_succ _ _ ((s.ready_atPace p).trans h), s.drive_succ _ h,
        s.engineStep_atPace, ih]

theorem State.settle_atPace : (s.atPace p).settle = s.settle.atPace p :=
  s.drive_atPace p s.work

end

theorem State.settle_idle {s : State} (h : s.seq = .idle) : s.settle = s :=
  s.drive_of_not_ready _ (s.ready_idle h)

/-- A command runs stages, or it is one of the two that complete in being accepted (45_control.md
R170). -/
theorem isCommand_cases {i : Instr} (h : i.isCommand = true) :
    (∃ cmd, commandOf i = some cmd) ∨ i = .nop ∨ i = .srst := by
  cases i with
  | nop => exact .inr (.inl rfl)
  | srst => exact .inr (.inr rfl)
  | rep _ | raw _ => cases h
  | rdhdr | drvhdr | wrhdr | decrle | encrle | decraw | encraw | resample | convert =>
    exact .inl ⟨_, rfl⟩

/-- Settles O59: the engine runs from the accepted state as it does under the other pace; NOP and
SRST leave it idle. -/
theorem paceDoesNotChangeTheResult : Obligations.PaceDoesNotChangeTheResult := by
  intro s t u i hi hidle hseq ht hu
  change exec i (s.atPace .stepwise) = .next t at ht
  change exec i (s.atPace .runAhead) = .next u at hu
  have hidle (p : Pace) : (s.atPace p).isIdle = true := hidle
  rcases isCommand_cases hi with ⟨cmd, hcmd⟩ | rfl | rfl
  · rw [exec_of_commandOf hcmd, State.issue_stepwise _ cmd (hidle _) rfl] at ht
    rw [exec_of_commandOf hcmd, State.issue_runAhead _ cmd (hidle _) rfl] at hu
    cases ht
    cases hu
    exact ((s.atPace .runAhead).accept cmd).settle_atPace .stepwise
  · rw [exec_nop_of_isIdle (hidle _)] at ht hu
    cases ht
    cases hu
    exact State.settle_idle hseq
  · have hbusy (p : Pace) : (s.atPace p).busy = false := ((s.atPace p).isIdle_iff.mp (hidle p)).1
    rw [exec_srst_of_not_busy (hbusy _)] at ht hu
    cases ht
    cases hu
    exact State.settle_idle rfl

end Sys2Proof.Machine
end

section
/-!
The families 40_header.md and 42_raw_codec.md, the round trips: the bytes a write command emits, fed
to the read command of the same kind, give back what they came from (R95, R123).
-/

namespace Sys2Proof.Machine

/-- What a command appended to the output stream can be read off the stream. -/
theorem appended_eq {s t : State} {bs bs' : List Byte} (h : t.out = s.out ++ bs)
    (h' : t.out = s.out ++ bs') : bs = bs' :=
  List.append_cancel_left (h.symm.trans h')

/-- The state IDLE after a command that completed (10_state.md R16). -/
theorem State.isIdle_of_done {s : State} (h : s.status = statusDone) : s.isIdle = true := by
  simp [State.isIdle, State.busy, State.err, h, statusDone]

/-- Settles O24: WRHDR emits HDR_OUT (O23), and RDHDR reads any 18 bytes (O20). -/
theorem headerRoundTrip : Obligations.HeaderRoundTrip := by
  intro s t u v bs r q hidle hpace hs hwrhdr hout huidle hupace hu hrdhdr
  cases (wrhdrWritesTheRecord s r hidle hpace hs).symm.trans hwrhdr
  obtain rfl : bs = s.hdrOut.toList := appended_eq hout rfl
  cases (rdhdrReadsTheRecord u s.hdrOut q huidle hupace hu).symm.trans hrdhdr
  exact ⟨rfl, rfl, rfl⟩

/-- The bytes ENCRAW emits, fed to DECRAW, are all taken and reproduce the codec buffer. -/
theorem decraw_of_encraw {s t u v : State} {bs : List Byte} {r : List OutAnswer}
    {q : List InAnswer} (hidle : s.isIdle = true) (hpace : s.pace = .runAhead) (hbuf : s.bufInPb)
    (hs : s.sink = acks s.params.bufLen.toNat ++ r) (hencraw : exec .encraw s = .next t)
    (hout : t.out = s.out ++ bs) (huidle : u.isIdle = true) (hupace : u.pace = .runAhead)
    (hubuf : u.bufInPb) (hlen : u.params.bufLen = s.params.bufLen)
    (hu : u.source = bytesOf bs ++ q) (hdecraw : exec .decraw u = .next v) :
    v.source = q ∧ ∀ k : Nat, k < s.params.bufLen.toNat →
      v.pbByte (u.params.bufBase.toNat + k) = s.pbByte (s.params.bufBase.toNat + k) := by
  obtain ⟨t', ht, ⟨bs', hout', hlen', hbytes⟩, -⟩ := encrawCopiesOut s r hidle hpace hbuf hs
  cases ht.symm.trans hencraw
  obtain rfl := appended_eq hout hout'
  obtain ⟨v', hv, hread, -, hframe⟩ :=
    decrawCopiesIn u bs q huidle hupace hubuf (hlen ▸ hlen') hu
  cases hv.symm.trans hdecraw
  refine ⟨by rw [hframe], fun k hk => ?_⟩
  rw [← hlen'] at hk
  rw [hread k hk, hbytes k hk]

/-- The stream DECRAW took is the stream ENCRAW emits from the same codec buffer. -/
theorem encraw_of_decraw {s t u : State} {bs : List Byte} {q : List InAnswer}
    {r : List OutAnswer} (hidle : s.isIdle = true) (hpace : s.pace = .runAhead) (hbuf : s.bufInPb)
    (hlen : bs.length = s.params.bufLen.toNat) (hsource : s.source = bytesOf bs ++ q)
    (hsink : s.sink = acks bs.length ++ r) (hdecraw : exec .decraw s = .next t)
    (hencraw : exec .encraw t = .next u) : u.out = s.out ++ bs := by
  obtain ⟨t', ht, hread, -, hframe⟩ := decrawCopiesIn s bs q hidle hpace hbuf hlen hsource
  cases ht.symm.trans hdecraw
  have hparams : t.params = s.params := by rw [hframe]
  have htidle : t.isIdle = true := State.isIdle_of_done (by rw [hframe]; rfl)
  have htpace : t.pace = .runAhead := by rw [hframe]; exact hpace
  have htbuf : t.bufInPb := by rw [hframe]; exact hbuf
  have htsink : t.sink = acks t.params.bufLen.toNat ++ r := by
    rw [hframe, ← hlen]; exact hsink
  have htout : t.out = s.out := by rw [hframe]
  obtain ⟨u', hu, ⟨bs', hout, hlen', hbytes⟩, -⟩ := encrawCopiesOut t r htidle htpace htbuf htsink
  cases hu.symm.trans hencraw
  rw [hparams] at hlen' hbytes
  obtain rfl : bs' = bs := List.ext_getElem (hlen'.trans hlen.symm) fun k hk hk' => by
    rw [hbytes k hk, hread k hk']
  rw [hout, htout]

/-- Settles O27: ENCRAW reads the bytes of the codec buffer (O26) and DECRAW writes them (O25). -/
theorem rawRoundTrip : Obligations.RawRoundTrip :=
  ⟨fun _ _ _ _ _ _ _ => decraw_of_encraw, fun _ _ _ _ _ _ => encraw_of_decraw⟩

end Sys2Proof.Machine
end

section
/-!
The family 43_resampler.md, the spec's inferences: the mapping in natural numbers, and from it the
bounds of the sample addresses, the neighbour clamp, the bounds of the blend and the special
mappings (R136 to R139).
-/

namespace Sys2Proof.Machine

/-! ### The mapping (43_resampler.md R132) -/

/-- The two clamps of the mapping are the truncated subtraction and a minimum. -/
theorem mapNumerator_eq (x dstN : Nat) {srcN : Nat} (hs : 1 ≤ srcN) :
    mapNumerator x srcN dstN = min (2 * x * srcN - dstN) ((srcN - 1) * (2 * dstN)) := by
  have hcap : ((srcN : Int) - 1) * (2 * dstN) = ((srcN - 1) * (2 * dstN) : Nat) := by
    push_cast [hs]
    rfl
  have hpos : (2 * (x : Int) * srcN) = (2 * x * srcN : Nat) := by push_cast; rfl
  rw [mapNumerator, clampi, hcap, hpos]
  omega

theorem mapNumerator_le (x dstN : Nat) {srcN : Nat} (hs : 1 ≤ srcN) :
    mapNumerator x srcN dstN ≤ (srcN - 1) * (2 * dstN) :=
  mapNumerator_eq x dstN hs ▸ Nat.min_le_right _ _

/-- A numerator of whole part `k` and rest `f` is mapped to them. -/
theorem mapLow_mapFrac_of_eq {x srcN dstN k f : Nat} (hf : f < 2 * dstN)
    (h : mapNumerator x srcN dstN = k * (2 * dstN) + f) :
    mapLow x srcN dstN = k ∧ mapFrac x srcN dstN = f := by
  rw [mapLow, mapFrac, h]
  exact ⟨by rw [Nat.add_comm, Nat.add_mul_div_right _ _ (Nat.zero_lt_of_lt hf),
    Nat.div_eq_of_lt hf, Nat.zero_add], by rw [Nat.mul_add_mod_self_right, Nat.mod_eq_of_lt hf]⟩

/-! ### Boundary safety (43_resampler.md R137) -/

theorem mapLow_le_mapHigh (x dstN : Nat) {srcN : Nat} (hs : 1 ≤ srcN) :
    mapLow x srcN dstN ≤ mapHigh x srcN dstN := by
  have := mapLow_lt x dstN hs
  unfold mapHigh
  omega

/-- Either sample position of a coordinate lies in the source. -/
theorem lt_of_eq_mapLow_or_mapHigh {x srcN dstN xx : Nat} (hs : 1 ≤ srcN)
    (h : xx = mapLow x srcN dstN ∨ xx = mapHigh x srcN dstN) : xx < srcN := by
  rcases h with rfl | rfl
  · exact mapLow_lt x dstN hs
  · exact mapHigh_lt x dstN hs

/-- Settles O40: both sample positions lie in the source, and a pixel of a region has its address in
the region. -/
theorem resamplerStaysInItsRegions : Obligations.ResamplerStaysInItsRegions := by
  intro g pbSize x y ch hg hx hy hch
  obtain ⟨-, hsw, hsh, -⟩ := Geometry.legal_pos hg
  obtain ⟨hsrc, hdst⟩ := Geometry.regions_le_of_legal hg
  obtain ⟨hdlo, hdhi⟩ := pixAddr_lt g.dbase hx hy hch
  refine ⟨mapNumerator_le x _ hsw, mapNumerator_le y _ hsh, mapLow_le_mapHigh x _ hsw,
    mapLow_le_mapHigh y _ hsh, fun xx yy hxx hyy => ?_, hdlo, hdhi, hsrc, hdst⟩
  have hxlt := lt_of_eq_mapLow_or_mapHigh hsw hxx
  have hylt := lt_of_eq_mapLow_or_mapHigh hsh hyy
  exact ⟨hxlt, hylt, pixAddr_lt g.sbase hxlt hylt hch⟩

/-! ### The neighbour clamp (43_resampler.md R138) -/

/-- A neighbour past the last pixel means that the coordinate is the largest one. -/
theorem mapNumerator_of_clamped {x srcN dstN : Nat} (hs : 1 ≤ srcN) (hd : 1 ≤ dstN)
    (h : srcN ≤ mapLow x srcN dstN + 1) :
    mapNumerator x srcN dstN = (srcN - 1) * (2 * dstN) := by
  refine Nat.le_antisymm (mapNumerator_le x dstN hs) ?_
  rw [← Nat.le_div_iff_mul_le (by omega)]
  exact Nat.sub_le_of_le_add h

/-- A fraction of 0 leaves the neighbour's column out of the blend. -/
theorem blend_frac_x_zero (c00 c01 c10 c11 c c' f dx d : Nat) :
    blend c00 c01 c10 c11 0 f dx d = blend c00 c c10 c' 0 f dx d := by
  simp only [blend, blendSum, Nat.mul_zero]

/-- A fraction of 0 leaves the neighbour's row out of the blend. -/
theorem blend_frac_y_zero (c00 c01 c10 c11 c c' f d dy : Nat) :
    blend c00 c01 c10 c11 f 0 d dy = blend c00 c01 c c' f 0 d dy := by
  simp only [blend, blendSum, Nat.mul_zero]

/-- Settles O41: the largest coordinate has no fraction, and the neighbour no weight. -/
theorem clampedNeighbourHasNoWeight : Obligations.ClampedNeighbourHasNoWeight := by
  intro x srcN dstN hs hd h
  have hnum := mapNumerator_of_clamped hs hd h
  obtain ⟨hlow, hfrac⟩ := mapLow_mapFrac_of_eq (f := 0) (by omega) hnum
  exact ⟨hlow, hnum, hfrac, fun c00 c01 c10 c11 c c' f d =>
    ⟨blend_frac_x_zero .., blend_frac_y_zero ..⟩⟩

/-! ### The bounds of the blend (43_resampler.md R136) -/

/-- Two samples weighted with `d - f` and `f` are at least the bound on both, weighted with `d`. -/
theorem le_weightedSum {a b m f d : Nat} (ha : m ≤ a) (hb : m ≤ b) (hf : f ≤ d) :
    m * d ≤ a * (d - f) + b * f :=
  calc m * d = m * (d - f) + m * f := by rw [← Nat.mul_add, Nat.sub_add_cancel hf]
    _ ≤ a * (d - f) + b * f :=
        Nat.add_le_add (Nat.mul_le_mul_right _ ha) (Nat.mul_le_mul_right _ hb)

section
variable {c00 c01 c10 c11 m fx fy dx dy : Nat}

theorem blendSum_le (h00 : c00 ≤ m) (h01 : c01 ≤ m) (h10 : c10 ≤ m) (h11 : c11 ≤ m)
    (hx : fx ≤ dx) (hy : fy ≤ dy) : blendSum c00 c01 c10 c11 fx fy dx dy ≤ m * (dx * dy) :=
  Nat.mul_assoc m dx dy ▸ weightedSum_le (weightedSum_le h00 h01 hx) (weightedSum_le h10 h11 hx) hy

theorem le_blend (h00 : m ≤ c00) (h01 : m ≤ c01) (h10 : m ≤ c10) (h11 : m ≤ c11) (hx : fx < dx)
    (hy : fy < dy) : m ≤ blend c00 c01 c10 c11 fx fy dx dy := by
  have hpos : 0 < dx * dy := Nat.mul_pos (Nat.zero_lt_of_lt hx) (Nat.zero_lt_of_lt hy)
  rw [blend, Nat.le_div_iff_mul_le hpos, ← Nat.mul_assoc]
  exact le_weightedSum (le_weightedSum h00 h01 hx.le) (le_weightedSum h10 h11 hx.le) hy.le

end

/-- Four equal samples blend to their value. -/
theorem blend_self (c : Nat) {fx fy dx dy : Nat} (hx : fx < dx) (hy : fy < dy) :
    blend c c c c fx fy dx dy = c :=
  Nat.le_antisymm (blend_le le_rfl le_rfl le_rfl le_rfl hx.le hy.le)
    (le_blend le_rfl le_rfl le_rfl le_rfl hx hy)

/-- Settles O42: a bound on the four samples, below or above, bounds their blend. -/
theorem blendLiesBetweenTheSamples : Obligations.BlendLiesBetweenTheSamples := by
  intro c00 c01 c10 c11 fx fy dx dy hx hy
  refine ⟨le_blend ?_ ?_ ?_ ?_ hx hy, blend_le ?_ ?_ ?_ ?_ hx.le hy.le,
    fun h00 h01 h10 h11 => blendSum_le h00 h01 h10 h11 hx.le hy.le⟩
  all_goals omega

/-! ### The special mappings (43_resampler.md R139) -/

/-- The lower clamp; position 0 and a source of one pixel meet it too. -/
theorem mapNumerator_eq_zero {x srcN dstN : Nat} (hs : 1 ≤ srcN)
    (h : 2 * x * srcN ≤ dstN ∨ srcN = 1) : mapNumerator x srcN dstN = 0 := by
  rw [mapNumerator_eq x dstN hs]
  rcases h with h | rfl
  · rw [Nat.sub_eq_zero_of_le h, Nat.zero_min]
  · rw [Nat.sub_self, Nat.zero_mul, Nat.min_zero]

/-- The upper clamp acts only where the destination is more than twice the source. -/
theorem upperClamp {srcN dstN : Nat} (hs : 1 ≤ srcN) {x : Nat} (hx : x < dstN)
    (h : (srcN - 1) * (2 * dstN) + dstN < 2 * x * srcN) :
    2 * srcN < dstN ∧ mapLow x srcN dstN = srcN - 1 ∧ mapFrac x srcN dstN = 0 := by
  have hnum : mapNumerator x srcN dstN = (srcN - 1) * (2 * dstN) + 0 := by
    rw [mapNumerator_eq x dstN hs]
    omega
  refine ⟨?_, mapLow_mapFrac_of_eq (by omega) hnum⟩
  obtain ⟨n, rfl⟩ : ∃ n, srcN = n + 1 := ⟨srcN - 1, by omega⟩
  have hle := Nat.mul_le_mul_right (n + 1) (Nat.mul_le_mul_left 2 (Nat.le_sub_one_of_lt hx))
  obtain ⟨d, rfl⟩ : ∃ d, dstN = d + 1 := ⟨dstN - 1, by omega⟩
  simp only [Nat.add_sub_cancel] at h hle
  linarith

/-- There it acts at the last position. -/
theorem upperClamp_last {srcN dstN : Nat} (hs : 1 ≤ srcN) (h : 2 * srcN < dstN) :
    (srcN - 1) * (2 * dstN) + dstN < 2 * (dstN - 1) * srcN := by
  obtain ⟨n, rfl⟩ : ∃ n, srcN = n + 1 := ⟨srcN - 1, by omega⟩
  obtain ⟨d, rfl⟩ : ∃ d, dstN = d + 1 := ⟨dstN - 1, by omega⟩
  simp only [Nat.add_sub_cancel]
  linarith

/-- Where the source is a multiple of the destination no clamp acts past position 0, and the
fraction is a half. -/
theorem map_of_multiple {x n k : Nat} (hx : 1 ≤ x) (hlt : x < n) (hk : 1 ≤ k) :
    mapLow x (k * n) n = k * x - 1 ∧ mapFrac x (k * n) n = n := by
  refine mapLow_mapFrac_of_eq (by omega) ?_
  have hkx : 1 ≤ k * x := Nat.mul_pos hk hx
  have hkn : k * x + 1 ≤ k * n := (Nat.add_le_add_left hk _).trans
    ((Nat.mul_succ k x).ge.trans (Nat.mul_le_mul_left k hlt))
  have hcap : (k * x - 1) * (2 * n) + n ≤ (k * n - 1) * (2 * n) := by
    have := Nat.mul_le_mul_right (2 * n) (show (k * x - 1) + 1 ≤ k * n - 1 by omega)
    rw [Nat.succ_mul] at this
    omega
  have hnum : 2 * x * (k * n) = (k * x - 1) * (2 * n) + n + n := by
    obtain ⟨m, hm⟩ : ∃ m, k * x = m + 1 := ⟨k * x - 1, by omega⟩
    have : 2 * x * (k * n) = k * x * (2 * n) := by ring
    rw [this, hm, Nat.succ_mul, Nat.add_sub_cancel]
    omega
  rw [mapNumerator_eq x n (by omega), hnum, Nat.add_sub_cancel, Nat.min_eq_left hcap]

/-- A uniform source gives a uniform destination. -/
theorem destValue_uniform {pb : Nat → Byte} {g : Geometry} {pbSize ch : Nat} {c : Byte}
    (hg : g.legal pbSize)
    (hc : ∀ x y : Nat, x < g.srcW → y < g.srcH → pb (pixAddr g.sbase g.srcW g.bpp x y ch) = c)
    (x y : Nat) : destValue pb g x y ch = c.toNat := by
  obtain ⟨-, hsw, hsh, hdw, hdh⟩ := Geometry.legal_pos hg
  have hsample : ∀ xx yy, xx < g.srcW → yy < g.srcH → sample pb g xx yy ch = c.toNat :=
    fun xx yy hxx hyy => congrArg BitVec.toNat (hc xx yy hxx hyy)
  have hx0 := mapLow_lt x g.dstW hsw
  have hx1 := mapHigh_lt x g.dstW hsw
  have hy0 := mapLow_lt y g.dstH hsh
  have hy1 := mapHigh_lt y g.dstH hsh
  simp only [destValue, hsample _ _ hx0 hy0, hsample _ _ hx1 hy0, hsample _ _ hx0 hy1,
    hsample _ _ hx1 hy1]
  exact blend_self _ (mapFrac_lt x g.srcW hdw) (mapFrac_lt y g.srcH hdh)

/-- Settles O43: (a) to (d) are the clamps, (e) and (f) multiples of the destination's size, (g) the
blend of four equal samples. -/
theorem specialMappings : Obligations.SpecialMappings := by
  refine ⟨fun srcN dstN hs hd => ?_, fun x dstN _ => mapNumerator_eq_zero le_rfl (.inr rfl),
    fun x srcN dstN hs _ h => mapNumerator_eq_zero hs (.inl h),
    fun srcN dstN hs _ => ⟨fun x hx h => upperClamp hs hx h, upperClamp_last hs⟩,
    fun x n hx hlt => ?_, fun x n hx hlt => map_of_multiple hx hlt (by omega),
    fun pb g pbSize ch c hg _ hc x y _ _ => destValue_uniform hg hc x y⟩
  · refine mapLow_mapFrac_of_eq (by omega) ?_
    rw [mapNumerator_eq_zero hs (.inl (by omega)), Nat.zero_mul]
  · simpa using map_of_multiple hx hlt le_rfl

end Sys2Proof.Machine
end

section
/-!
The family 41_rle_codec.md, the spec's inference on the encoder: its output is a sequence of legal
chunks that covers the pixels, and the length of such a sequence has bounds (R111).
-/

namespace Sys2Proof.Machine

/-! ### The next chunk -/

theorem rawLength_le {len : Nat} (prev : Pixel) (ps : List Pixel) (hlen : len ≤ maxChunk) :
    rawLength len prev ps ≤ maxChunk ∧ rawLength len prev ps ≤ len + ps.length := by
  induction ps generalizing len prev with
  | nil => exact ⟨hlen, le_rfl⟩
  | cons p ps ih =>
    rw [rawLength, List.length_cons]
    split_ifs with hlt
    · have := ih (len := len + 1) p hlt
      omega
    · omega
    · omega

/-- A repeat chunk takes copies of its pixel, and not more than the cap allows. -/
theorem repLength_eq_add {len : Nat} (p : Pixel) (ps : List Pixel) (hlen : len ≤ maxChunk) :
    ∃ (m : Nat) (rest : List Pixel), ps = List.replicate m p ++ rest ∧
      repLength len p ps = len + m ∧ len + m ≤ maxChunk := by
  induction ps generalizing len with
  | nil => exact ⟨0, [], rfl, rfl, hlen⟩
  | cons q ps ih =>
    rw [repLength]
    split_ifs with hgrow
    · obtain ⟨hlt, rfl⟩ := hgrow
      obtain ⟨m, rest, hps, hrep, hle⟩ := ih (len := len + 1) hlt
      exact ⟨m + 1, rest, congrArg (q :: ·) hps, by omega, by omega⟩
    · exact ⟨0, q :: ps, rfl, rfl, hlen⟩

/-- The chunk that begins with `p`: two or more copies of it, or pixels of the buffer as they are
(41_rle_codec.md R107 to R110). -/
theorem nextChunk_cases (p : Pixel) (ps : List Pixel) :
    (∃ (n : Nat) (rest : List Pixel), nextChunk p ps = (.rep, n) ∧
      p :: ps = List.replicate n p ++ rest ∧ 2 ≤ n ∧ n ≤ maxChunk) ∨
    (∃ n : Nat, nextChunk p ps = (.raw, n) ∧ n ≤ (p :: ps).length ∧ n ≤ maxChunk) := by
  cases ps with
  | nil => exact .inr ⟨1, rfl, le_rfl, by decide⟩
  | cons q ps =>
    rw [nextChunk]
    split_ifs with hne
    · have := rawLength_le (len := 2) q ps (by decide)
      exact .inr ⟨_, rfl, by simp only [List.length_cons]; omega, this.1⟩
    · obtain rfl := not_not.mp hne
      obtain ⟨m, rest, hps, hrep, hle⟩ := repLength_eq_add (len := 2) q ps (by decide)
      refine .inl ⟨2 + m, rest, by rw [hrep], ?_, by omega, hle⟩
      rw [hps, Nat.add_comm]
      rfl

/-! ### The chunk sequence -/

/-- The chunks `cs` are what the encoder makes of the pixels `ps` (41_rle_codec.md R111). -/
structure EncodedAs (bpp : Nat) (ps : List Pixel) (cs : List ChunkData) : Prop where
  bytes : streamBytes cs = encodePixels ps
  image : streamImage cs = ps.flatten
  count : (cs.map ChunkData.count).sum = ps.length
  legal : ∀ c ∈ cs, c.legal bpp
  repeats : ∀ c ∈ cs, ∀ (count : Nat) (px : Pixel), c = .rep count px → 2 ≤ count

theorem EncodedAs.cons {bpp : Nat} {ps rest : List Pixel} {c : ChunkData} {cs : List ChunkData}
    (h : EncodedAs bpp rest cs) (hbytes : encodePixels ps = c.bytes ++ encodePixels rest)
    (himage : ps.flatten = c.image ++ rest.flatten) (hcount : ps.length = c.count + rest.length)
    (hlegal : c.legal bpp) (hrep : ∀ (count : Nat) (px : Pixel), c = .rep count px → 2 ≤ count) :
    EncodedAs bpp ps (c :: cs) where
  bytes := by rw [streamBytes_cons, h.bytes, hbytes]
  image := by rw [streamImage_cons, h.image, himage]
  count := by rw [List.map_cons, List.sum_cons, h.count, hcount]
  legal := List.forall_mem_cons.mpr ⟨hlegal, h.legal⟩
  repeats := List.forall_mem_cons.mpr ⟨hrep, h.repeats⟩

theorem ChunkData.bytes_rep_eq {count : Nat} (px : Pixel) (hpos : 1 ≤ count)
    (hle : count ≤ maxChunk) : (ChunkData.rep count px).bytes = controlByte true count :: px := by
  have hcontrol : 127 + count = 128 + (count - 1) := by omega
  rw [controlByte_rep_eq hpos hle, hcontrol]
  rfl

/-- Chunk by chunk, along the encoder's outer loop. -/
theorem exists_encodedAs {bpp : Nat} (ps : List Pixel) (h : ∀ p ∈ ps, p.length = bpp) :
    ∃ cs, EncodedAs bpp ps cs := by
  induction hn : ps.length using Nat.strong_induction_on generalizing ps with
  | _ len ih =>
    subst hn
    match ps with
    | [] => exact ⟨[], rfl, rfl, rfl, by simp, by simp⟩
    | p :: ps =>
      have hsplit {xs rest : List Pixel} (hpixels : p :: ps = xs ++ rest) (hpos : 1 ≤ xs.length) :
          ∃ cs, EncodedAs bpp rest cs := by
        refine ih rest.length ?_ rest (fun x hx => h x (by simp [hpixels, hx])) rfl
        rw [hpixels, List.length_append]
        omega
      obtain ⟨n, rest, hchunk, hpixels, h2, hle⟩ | ⟨n, hchunk, hlen, hle⟩ := nextChunk_cases p ps
      · obtain ⟨cs, hcs⟩ := hsplit hpixels (by rw [List.length_replicate]; omega)
        refine ⟨.rep n p :: cs, hcs.cons ?_ ?_ ?_ ⟨by omega, hle, h p (by simp)⟩ ?_⟩
        · rw [encodePixels_of_rep hchunk, hpixels, List.drop_left' List.length_replicate,
            ChunkData.bytes_rep_eq p (by omega) hle]
        · rw [hpixels, List.flatten_append]
          rfl
        · rw [hpixels, List.length_append, List.length_replicate]
          rfl
        · rintro _ _ ⟨⟩
          exact h2
      · have hpos := nextChunk_pos p ps
        rw [hchunk] at hpos
        have htake : ((p :: ps).take n).length = n := List.length_take_of_le hlen
        have hpixels := (List.take_append_drop n (p :: ps)).symm
        obtain ⟨cs, hcs⟩ := hsplit hpixels (htake.symm ▸ hpos)
        refine ⟨.raw ((p :: ps).take n) :: cs, hcs.cons ?_ ?_ ?_
          ⟨htake.symm ▸ hpos, htake.symm ▸ hle, fun x hx => h x (List.mem_of_mem_take hx)⟩ ?_⟩
        · rw [encodePixels_cons, hchunk, chunkBytes, controlByte_raw_eq, ChunkData.bytes, htake]
        · rw [ChunkData.image, ← List.flatten_append, ← hpixels]
        · rw [ChunkData.count, ← List.length_append, ← hpixels]
        · rintro _ _ ⟨⟩

/-! ### The length of a chunk sequence -/

theorem ChunkData.bytes_length_bounds {c : ChunkData} {bpp : Nat} (h : c.legal bpp) :
    1 + bpp ≤ c.bytes.length ∧ c.bytes.length ≤ c.count * (bpp + 1) := by
  cases c with
  | rep count px =>
    obtain ⟨hpos, -, hpx⟩ := h
    have := Nat.mul_le_mul_right (bpp + 1) hpos
    simp only [ChunkData.bytes, ChunkData.count, List.length_cons, hpx]
    omega
  | raw pxs =>
    obtain ⟨hpos, -, hpx⟩ := h
    have := Nat.mul_le_mul_right bpp hpos
    simp only [ChunkData.bytes, ChunkData.count, List.length_cons, length_flatten_of_length_eq hpx,
      Nat.mul_succ]
    omega

theorem ChunkData.count_le {c : ChunkData} {bpp : Nat} (h : c.legal bpp) : c.count ≤ 128 := by
  cases c <;> exact h.2.1

/-- Each chunk has a control byte and at least one pixel, and at most 128 pixels (41_rle_codec.md
R111 e). -/
theorem streamBytes_length_bounds {bpp : Nat} {cs : List ChunkData}
    (h : ∀ c ∈ cs, c.legal bpp) :
    (streamBytes cs).length ≤ (cs.map ChunkData.count).sum * (bpp + 1) ∧
      ((cs.map ChunkData.count).sum + 127) / 128 * (1 + bpp) ≤ (streamBytes cs).length := by
  have hbounds : (streamBytes cs).length ≤ (cs.map ChunkData.count).sum * (bpp + 1) ∧
      cs.length * (1 + bpp) ≤ (streamBytes cs).length ∧
      (cs.map ChunkData.count).sum ≤ 128 * cs.length := by
    induction cs with
    | nil => simp [streamBytes]
    | cons c cs ih =>
      obtain ⟨hc, hcs⟩ := List.forall_mem_cons.mp h
      have hcount := c.count_le hc
      obtain ⟨hlo, hhi⟩ := c.bytes_length_bounds hc
      obtain ⟨hupper, hlower, hsum⟩ := ih hcs
      rw [streamBytes_cons, List.length_append, List.map_cons, List.sum_cons, List.length_cons,
        Nat.add_mul, Nat.succ_mul]
      omega
  obtain ⟨hupper, hlower, hsum⟩ := hbounds
  exact ⟨hupper, (Nat.mul_le_mul_right _ (by omega)).trans hlower⟩

/-- Settles O35: the chunks of `exists_encodedAs`, and the bounds of any legal sequence. -/
theorem encoderOutputIsWellFormed : Obligations.EncoderOutputIsWellFormed := by
  intro bpp ps h
  obtain ⟨cs, hcs⟩ := exists_encodedAs ps h
  refine ⟨⟨cs, hcs.bytes, hcs.image, hcs.count, fun c hc => ⟨hcs.legal c hc, hcs.repeats c hc⟩⟩, ?_⟩
  rw [← hcs.bytes, ← hcs.count]
  exact streamBytes_length_bounds hcs.legal

end Sys2Proof.Machine
end

section
/-!
Commands that complete, looked at from their end: what must have been on the ports for the engine to
come from a cursor to IDLE (30_encoding.md R63; 60_exceptions.md R183).
-/

namespace Sys2Proof.Machine

/-! ### From a cursor to the end of the command -/

/-- The engine comes from `s` to `t`, where the command has completed. -/
def State.Completes (s t : State) : Prop := t.seq = .idle ∧ ∃ n, s.drive n = t

section
variable {s t u : State}

/-- An engine that has stopped elsewhere than in IDLE does not come to IDLE. -/
theorem State.Completes.absurd_of_stopped {p : Prop} (h : s.Completes t) (hstop : s.ready = false)
    (hseq : s.seq ≠ .idle) : p := by
  obtain ⟨hidle, n, hn⟩ := h
  rw [s.drive_of_not_ready n hstop] at hn
  exact absurd (hn ▸ hidle) hseq

theorem State.Completes.absurd_of_raise {p : Prop} {e : ErrorCode}
    (h : (s.raise e).Completes t) : p :=
  h.absurd_of_stopped (State.ready_error _ rfl) (by simp)

/-- What the driver comes to on the way goes on to the same end. -/
theorem State.Completes.of_drive {n : Nat} (h : s.Completes t) (hdrive : s.drive n = u) :
    u.Completes t := by
  obtain ⟨hidle, m, hm⟩ := h
  refine ⟨hidle, m, ?_⟩
  have hstop : (s.drive m).ready = false := State.ready_idle _ (hm ▸ hidle)
  rw [← hdrive, ← s.drive_add, State.drive_of_le _ (Nat.le_add_left m n) hstop, hm]

/-- The stage a running command is in leads to the same end. -/
theorem State.Completes.of_stage {cmd : Command} {plan : Option Plan} {cur : Cursor}
    (h : s.Completes t) (hseq : s.seq = .run cmd plan cur) :
    (s.stageStep cmd cur).Completes t := by
  cases hready : s.ready with
  | false => exact h.absurd_of_stopped hready (by simp [hseq])
  | true => exact h.of_drive (State.drive_step hseq hready rfl 0)

theorem State.Completes.of_checked {check : Option ErrorCode} {cur : Cursor}
    (h : (s.checked check cur).Completes t) : check = none ∧ (s.moveTo cur).Completes t := by
  cases check with
  | none => exact ⟨rfl, h⟩
  | some e => exact h.absurd_of_raise

/-- A command that ends in IDLE has completed. -/
theorem State.completes_of_exec {i : Instr} {cmd : Command} (hi : commandOf i = some cmd)
    (hidle : s.isIdle = true) (hpace : s.pace = .runAhead) (hexec : exec i s = .next t)
    (hseq : t.seq = .idle) : ((s.accept cmd).issueStage cmd).Completes t := by
  rw [exec_of_commandOf hi, s.issue_runAhead cmd hidle hpace, s.settle_accept] at hexec
  exact ⟨hseq, _, Host.Outcome.next.inj hexec⟩

end

/-! ### Stages that use a port -/

section
variable {s t next : State} {cmd : Command} {plan : Option Plan} {old cur : Cursor}
  (hseq : s.seq = .run cmd plan old)
include hseq

/-- A stage that takes bytes and does not stop the command has got all of them. -/
theorem State.Completes.of_onTaken {n : Nat} {q : List InAnswer} {e : ErrorCode}
    (h : (s.onTaken (takeN n q).ending e next cur).Completes t)
    (hsource : s.source = (takeN n q).left) (hoffers : cur.offers = [])
    (hwanted : cur.wanted = n - (takeN n q).bytes.length) :
    next.Completes t ∧ (takeN n q).bytes.length = n ∧
      q = bytesOf (takeN n q).bytes ++ (takeN n q).left := by
  rcases takeN_cases n q with ⟨hend, hlen, hq⟩ | ⟨hend, hlen, hleft, -⟩ | ⟨hend, -⟩ | ⟨hend, -⟩ <;>
    rw [hend] at h
  · exact ⟨h, hlen, hq⟩
  · have hmoved : (s.moveTo cur).seq = .run cmd plan cur := by simp [hseq]
    exact h.absurd_of_stopped (State.not_ready_of_source hmoved hoffers (by omega)
      (hsource.trans hleft)) (by simp [hseq])
  · exact h.absurd_of_raise
  · exact h.absurd_of_raise

/-- A stage that offers bytes and does not stop the command has had all of them acknowledged. -/
theorem State.Completes.of_onGiven {bs : List Byte} {q : List OutAnswer}
    (h : (s.onGiven (putN bs q).ending next cur).Completes t)
    (hsink : s.sink = (putN bs q).left) (hoffers : cur.offers = (putN bs q).unsent) :
    next.Completes t ∧ (putN bs q).sent = bs ∧ q = acks bs.length ++ (putN bs q).left := by
  obtain ⟨hbs, ⟨hend, hunsent, hq⟩ | ⟨hend, hunsent, hleft, -⟩ | ⟨hend, -⟩⟩ := putN_cases bs q <;>
    rw [hend] at h
  · rw [hunsent, List.append_nil] at hbs
    exact ⟨h, hbs.symm, hq⟩
  · have hmoved : (s.moveTo cur).seq = .run cmd plan cur := by simp [hseq]
    exact h.absurd_of_stopped (State.not_ready_of_sink hmoved (hoffers ▸ hunsent)
      (hsink.trans hleft)) (by simp [hseq])
  · exact h.absurd_of_raise

end

/-- ENCODE completes where the sink acknowledges every byte. -/
theorem State.Completes.of_encode {s t : State} {cmd : Command} {plan : Option Plan}
    {left : List Byte} (h : s.Completes t) (hseq : s.seq = .run cmd plan (.encode left)) :
    ∃ r, s.sink = acks left.length ++ r := by
  have hstage := h.of_stage hseq
  obtain ⟨-, -, hq⟩ := State.Completes.of_onGiven (s := s.afterPut (putN left s.sink)) hseq hstage
    rfl rfl
  exact ⟨_, hq⟩

end Sys2Proof.Machine
end

section
/-!
The family 41_rle_codec.md, the spec's inference on both codec commands: DECRLE undoes ENCRLE, and
ENCRLE does not undo DECRLE (R112).
-/

namespace Sys2Proof.Machine

/-! ### The pixels of the codec buffer -/

theorem State.memRead_add (s : State) (a m n : Nat) :
    s.memRead a (m + n) = s.memRead a m ++ s.memRead (a + m) n := by
  simp only [State.memRead, List.range_add, List.map_append, List.map_map, Function.comp_def,
    Nat.add_assoc]

/-- The pixels one after another are the bytes of the buffer (41_rle_codec.md R100). -/
theorem State.flatten_pixels (s : State) (base : Nat) {size bpp : Nat} (h : size % bpp = 0) :
    (s.pixels base size bpp).flatten = s.memRead base size := by
  have hflatten (n : Nat) : ((List.range n).map fun k => s.memRead (base + k * bpp) bpp).flatten =
      s.memRead base (n * bpp) := by
    induction n with
    | zero => simp [State.memRead]
    | succ n ih =>
      rw [List.range_succ, List.map_append, List.flatten_append, ih, Nat.succ_mul, s.memRead_add]
      simp
  rw [State.pixels, hflatten, Nat.div_mul_cancel (Nat.dvd_of_mod_eq_zero h)]

/-! ### ENCRLE that completes -/

/-- Where ENCRLE has completed its checks have passed and the sink has taken the whole encoding. -/
theorem exec_encrle_completed {s t : State} (hidle : s.isIdle = true) (hpace : s.pace = .runAhead)
    (hexec : exec .encrle s = .next t) (hseq : t.seq = .idle) :
    (s.params.bpp.toNat = 3 ∨ s.params.bpp.toNat = 4) ∧
      s.params.bufLen.toNat % s.params.bpp.toNat = 0 ∧
      t.out = s.out ++ s.rleBytes s.params.bufBase.toNat s.params.bufLen.toNat
        s.params.bpp.toNat := by
  have h : ((s.accept .encrle).checked s.rleCheck (.encode (s.rleBytes s.params.bufBase.toNat
      s.params.bufLen.toNat s.params.bpp.toNat))).Completes t :=
    State.completes_of_exec (cmd := .encrle) rfl hidle hpace hexec hseq
  obtain ⟨hcheck, h⟩ := h.of_checked
  rcases s.rleCheck_eq with ⟨hbpp, hmod, hbuf, -⟩ | ⟨-, hfail⟩ | ⟨-, -, -, hfail⟩
  · obtain ⟨r, hsink⟩ := h.of_encode rfl
    rw [exec_encode_full hidle hpace rfl (State.issueStage_encrle hbpp hmod hbuf) hsink] at hexec
    cases hexec
    exact ⟨hbpp, hmod, rfl⟩
  · simp [hfail] at hcheck
  · simp [hfail] at hcheck

/-! ### The round trip -/

/-- DECRLE of what ENCRLE made of a codec buffer, by the decoder's statement on legal streams
(O28). -/
theorem exec_decrle_rleBytes {s u : State} {q : List InAnswer}
    (hbpp : s.params.bpp.toNat = 3 ∨ s.params.bpp.toNat = 4)
    (hmod : s.params.bufLen.toNat % s.params.bpp.toNat = 0) (huidle : u.isIdle = true)
    (hupace : u.pace = .runAhead) (hubuf : u.bufInPb) (hbpp_eq : u.params.bpp = s.params.bpp)
    (hlen_eq : u.params.bufLen = s.params.bufLen)
    (hu : u.source = bytesOf (s.rleBytes s.params.bufBase.toNat s.params.bufLen.toNat
      s.params.bpp.toNat) ++ q) :
    ∃ v : State, exec .decrle u = .next v ∧ v.status = 0b010 ∧ v.source = q ∧
      v.inCount = u.inCount + BitVec.ofNat 32 (s.rleBytes s.params.bufBase.toNat
        s.params.bufLen.toNat s.params.bpp.toNat).length ∧
      ∀ k : Nat, k < s.params.bufLen.toNat →
        v.pbByte (u.params.bufBase.toNat + k) = s.pbByte (s.params.bufBase.toNat + k) := by
  obtain ⟨cs, hcs⟩ := exists_encodedAs
    (s.pixels s.params.bufBase.toNat s.params.bufLen.toNat s.params.bpp.toNat)
    fun _ => s.length_of_mem_pixels
  have hbytes : streamBytes cs = s.rleBytes s.params.bufBase.toNat s.params.bufLen.toNat
    s.params.bpp.toNat := hcs.bytes
  have himage := hcs.image.trans (s.flatten_pixels s.params.bufBase.toNat hmod)
  have hlen := (congrArg List.length himage).trans (s.memRead_length _ _)
  rw [← hbytes] at hu ⊢
  rw [← hbpp_eq] at hbpp
  obtain ⟨v, hv, hread, -, hframe⟩ := decrleDecodesEveryLegalStream u cs q huidle hupace hbpp hubuf
    (hbpp_eq ▸ hcs.legal) (hlen.trans (by rw [hlen_eq])) hu
  refine ⟨v, hv, by rw [hframe], by rw [hframe], by rw [hframe], fun k hk => ?_⟩
  rw [hread k (hlen.symm ▸ hk)]
  simp only [himage, s.getElem_memRead]

/-- Settles O37: the encoder's output is a legal stream of the buffer's pixels. The converse fails
for a repeat chunk of one pixel, which the encoder writes as a raw chunk. -/
theorem runLengthRoundTrip : Obligations.RunLengthRoundTrip := by
  refine ⟨fun s t u bs q hidle hpace hexec _ hseq hout huidle hupace hubuf hbpp_eq hlen_eq hu => ?_,
    fun bpp hbpp => ⟨[.rep 1 (List.replicate bpp 0)], ?_, ?_⟩⟩
  · obtain ⟨hbpp, hmod, hencoded⟩ := exec_encrle_completed hidle hpace hexec hseq
    obtain rfl := appended_eq hout hencoded
    exact exec_decrle_rleBytes hbpp hmod huidle hupace hubuf hbpp_eq hlen_eq hu
  · simp [ChunkData.legal, maxChunk]
  · rcases hbpp with rfl | rfl <;> decide

end Sys2Proof.Machine
end

section
/-!
CONVERT that completes, looked at from its end: the header could be converted, the stream carried
the image, and the sink took the whole output (44_pipeline.md R151 to R159).
-/

namespace Sys2Proof.Machine

/-! ### A chunk that does not stop DECODE -/

section
variable {s t : State} {cmd : Command} {plan : Option Plan} {cur : Cursor}
  (hseq : s.seq = .run cmd plan cur)
include hseq

theorem State.Completes.of_rawRest {d : Decoder} {left : Nat} (h : (s.rawRest d left).Completes t) :
    ∃ (rest : List Byte) (q : List InAnswer),
      rest.length = left ∧ s.source = bytesOf rest ++ q := by
  have hseq' : ((s.afterTake (takeN left s.source)).memWrite (d.base + d.emitted)
      (takeN left s.source).bytes).seq = .run cmd plan cur := hseq
  obtain ⟨-, hlen, hq⟩ := State.Completes.of_onTaken hseq' h rfl rfl rfl
  exact ⟨_, _, hlen, hq⟩

theorem State.Completes.of_chunkBody {d : Decoder} {kind : ChunkKind} {count : Nat} {px : Pixel}
    (h : (s.chunkBody d kind count px).Completes t) :
    d.emitted + count * d.bpp ≤ d.size ∧ (kind = .raw → ∃ (rest : List Byte) (q : List InAnswer),
      rest.length = (count - 1) * d.bpp ∧ s.source = bytesOf rest ++ q) := by
  unfold State.chunkBody at h
  split at h
  next => exact h.absurd_of_raise
  next hfit =>
    refine ⟨Nat.le_of_not_lt hfit, ?_⟩
    rintro rfl
    exact State.Completes.of_rawRest (s := s.memWrite _ px) hseq h

/-- The chunk fits, and its pixels are on the stream: one for a repeat chunk, all for a raw one. -/
theorem State.Completes.of_runChunk {d : Decoder} {kind : ChunkKind} {count : Nat}
    (h : (s.runChunk d kind count).Completes t) :
    d.emitted + count * d.bpp ≤ d.size ∧ ∃ (px : Pixel) (q : List InAnswer),
      px.length = d.bpp ∧ s.source = bytesOf px ++ q ∧
      (kind = .raw → ∃ (rest : List Byte) (q' : List InAnswer),
        rest.length = (count - 1) * d.bpp ∧ q = bytesOf rest ++ q') := by
  have hseq' : (s.afterTake (takeN d.bpp s.source)).seq = .run cmd plan cur := hseq
  obtain ⟨hbody, hlen, hq⟩ := State.Completes.of_onTaken hseq' h rfl rfl rfl
  obtain ⟨hfit, hrest⟩ := State.Completes.of_chunkBody hseq' hbody
  exact ⟨hfit, _, _, hlen, hq, hrest⟩

end

/-- Bytes for `count` pixels are `count` pixels. -/
theorem exists_pixels {bpp count : Nat} {bs : List Byte} (h : bs.length = count * bpp) :
    ∃ pxs : List Pixel, pxs.flatten = bs ∧ pxs.length = count ∧ ∀ p ∈ pxs, p.length = bpp := by
  induction count generalizing bs with
  | zero =>
    exact ⟨[], (List.eq_nil_of_length_eq_zero (h.trans (Nat.zero_mul bpp))).symm, rfl, by simp⟩
  | succ count ih =>
    rw [Nat.succ_mul] at h
    obtain ⟨pxs, hflatten, hlen, hpxs⟩ := ih (bs := bs.drop bpp) (by rw [List.length_drop]; omega)
    exact ⟨bs.take bpp :: pxs, by rw [List.flatten_cons, hflatten, List.take_append_drop],
      congrArg (· + 1) hlen,
      List.forall_mem_cons.mpr ⟨List.length_take_of_le (by omega), hpxs⟩⟩

/-- At a chunk boundary with bytes still to decode a legal chunk that fits is on the stream. -/
theorem State.Completes.exists_chunk {s t : State} {cmd : Command} {plan : Option Plan}
    {d : Decoder} (h : s.Completes t) (hseq : s.seq = .run cmd plan (.decodeRle d .control))
    (hlt : d.emitted < d.size) :
    ∃ (c : ChunkData) (q : List InAnswer), c.legal d.bpp ∧
      d.emitted + c.image.length ≤ d.size ∧ s.source = bytesOf c.bytes ++ q := by
  have hstage : (s.controlStage d).Completes t := h.of_stage hseq
  match hs : s.source with
  | [] =>
    exact h.absurd_of_stopped
      (State.not_ready_of_source hseq rfl (by simp [Cursor.wanted, hlt]) hs) (by simp [hseq])
  | .eos :: q | .fail :: q =>
    simp only [State.controlStage, hlt, hs, if_true] at hstage
    exact hstage.absurd_of_raise
  | .byte b :: q =>
    have hb := b.isLt
    rw [s.controlStage_byte hlt hs, decodeChunk_eq] at hstage
    have hseq' : (s.afterTake ⟨[b], q, .full⟩).seq = .run cmd plan (.decodeRle d .control) := hseq
    split at hstage
    next hrep =>
      obtain ⟨hfit, px, q', hpx, hq, -⟩ := State.Completes.of_runChunk hseq' hstage
      have hlegal : (ChunkData.rep (b.toNat % 128 + 1) px).legal d.bpp :=
        ⟨by omega, by unfold maxChunk; omega, hpx⟩
      refine ⟨_, q', hlegal, by rwa [ChunkData.image_length hlegal, ChunkData.count], ?_⟩
      have hcontrol : BitVec.ofNat 8 (128 + (b.toNat % 128 + 1 - 1)) = b :=
        BitVec.eq_of_toNat_eq (by rw [BitVec.toNat_ofNat]; omega)
      rw [ChunkData.bytes, hcontrol, bytesOf_cons, List.cons_append]
      exact congrArg _ hq
    next hraw =>
      obtain ⟨hfit, px, q', hpx, hq, hrest⟩ := State.Completes.of_runChunk hseq' hstage
      obtain ⟨rest, q'', hlen, rfl⟩ := hrest rfl
      obtain ⟨pxs, hflatten, hcount, hpxs⟩ := exists_pixels (bs := px ++ rest)
        (count := b.toNat % 128 + 1) (bpp := d.bpp) (by
          rw [List.length_append, hpx, hlen, Nat.add_sub_cancel, Nat.succ_mul, Nat.add_comm])
      have hlegal : (ChunkData.raw pxs).legal d.bpp :=
        ⟨by omega, by unfold maxChunk; omega, hpxs⟩
      refine ⟨_, q'', hlegal, by rwa [ChunkData.image_length hlegal, ChunkData.count, hcount], ?_⟩
      have hcontrol : BitVec.ofNat 8 (pxs.length - 1) = b :=
        BitVec.eq_of_toNat_eq (by rw [BitVec.toNat_ofNat]; omega)
      rw [ChunkData.bytes, hcontrol, hflatten, bytesOf_cons, List.cons_append, bytesOf_append,
        List.append_assoc]
      exact congrArg _ hq

/-- A run-length DECODE that does not stop the command has met legal chunks that fill the buffer. -/
theorem State.Completes.exists_chunks {s t : State} {cmd : Command} {plan : Option Plan}
    {d : Decoder} (h : s.Completes t) (hseq : s.seq = .run cmd plan (.decodeRle d .control))
    (hbpp : 0 < d.bpp) (hle : d.emitted ≤ d.size) :
    ∃ (cs : List ChunkData) (q : List InAnswer), (∀ c ∈ cs, c.legal d.bpp) ∧
      d.emitted + (streamImage cs).length = d.size ∧ s.source = bytesOf (streamBytes cs) ++ q := by
  induction hroom : d.size - d.emitted using Nat.strong_induction_on generalizing s d with
  | _ room ih =>
    subst hroom
    obtain hend | hlt := hle.eq_or_lt
    · exact ⟨[], s.source, by simp, hend, rfl⟩
    obtain ⟨c, q, hlegal, hfit, hs⟩ := h.exists_chunk hseq hlt
    have hpos := c.image_pos hlegal hbpp
    have hchunk := h.of_drive (s.drive_chunk hseq hlegal hbpp hfit hs 0)
    have hnext : ∃ (cs : List ChunkData) (q' : List InAnswer), (∀ c ∈ cs, c.legal d.bpp) ∧
        d.emitted + c.image.length + (streamImage cs).length = d.size ∧
        q = bytesOf (streamBytes cs) ++ q' := by
      obtain hend | hlt' := hfit.eq_or_lt
      · exact ⟨[], q, by simp, hend, rfl⟩
      · rw [State.drive_zero, State.afterChunk, State.chunkEnd, if_pos hlt'] at hchunk
        exact ih (d.size - (d.emitted + c.image.length)) (by omega) hchunk (by simp [hseq])
          (d := { d with emitted := d.emitted + c.image.length }) hbpp hfit rfl
    obtain ⟨cs, q', hcs, hfill, rfl⟩ := hnext
    refine ⟨c :: cs, q', List.forall_mem_cons.mpr ⟨hlegal, hcs⟩, ?_, ?_⟩
    · rw [streamImage_cons, List.length_append, ← Nat.add_assoc, hfill]
    · rw [hs, streamBytes_cons, bytesOf_append, List.append_assoc]

/-! ### CONVERT, stage by stage -/

/-- Eighteen bytes are a header record. -/
theorem exists_header {bs : List Byte} (h : bs.length = 18) : ∃ r : Header, r.toList = bs :=
  ⟨⟨bs.toArray, h⟩, rfl⟩

section
variable {s t : State}

/-- ISSUE and HDR_READ of a CONVERT that completes. -/
theorem State.Completes.convert_header (h : ((s.accept .convert).issueStage .convert).Completes t) :
    s.params.cfg.toNat / 2 ≠ 3 ∧
      ∃ (r : Header) (q : List InAnswer), s.source = bytesOf r.toList ++ q := by
  obtain ⟨hcheck, hread⟩ :=
    State.Completes.of_checked (check := s.convertCheck) (cur := .hdrRead 0) h
  refine ⟨fun hotype => ?_, ?_⟩
  · rw [State.convertCheck_badParam hotype] at hcheck
    cases hcheck
  · obtain ⟨-, hlen, hq⟩ := State.Completes.of_onTaken (cmd := .convert) (plan := none)
      (old := .hdrRead 0) rfl (hread.of_stage rfl) rfl rfl (Nat.sub_sub _ _ _).symm
    obtain ⟨r, hr⟩ := exists_header hlen
    exact ⟨r, _, hr ▸ hq⟩

/-- VALIDATE of a CONVERT that completes. -/
theorem State.Completes.convert_convertible {r : Header} {q : List InAnswer}
    (h : (s.atValidate r q).Completes t) (hotype : s.params.cfg.toNat / 2 ≠ 3) :
    convertible s.params r s.pbSize := by
  have hstage : (s.atValidate r q).validateStage.Completes t := h.of_stage rfl
  rw [← validateCheck_none_iff _ _ _ hotype]
  unfold State.validateStage at hstage
  split at hstage
  next => exact hstage.absurd_of_raise
  next hcheck => exact hcheck

/-- DECODE of a CONVERT that completes. -/
theorem State.Completes.convert_carries {r : Header} {q : List InAnswer}
    (h : (s.atDecode r q).Completes t) (hc : convertible s.params r s.pbSize) :
    ∃ (stream image : List Byte) (cs : List ChunkData) (q' : List InAnswer),
      carries r stream image cs ∧ q = bytesOf stream ++ q' := by
  have hbpp := hc.pixelBytes_eq
  have hplan := hc.plan_eq
  by_cases htype : r[2] = 10
  · have hseq : (s.atDecode r q).seq = .run .convert (some (planOf s.params r))
        (.decodeRle ⟨0, r.sourceLength, r.pixelBytes, 0⟩ .control) := by
      simp [State.atDecode, Header.imageType, htype, hplan]
    obtain ⟨cs, q', hlegal, hfill, hq⟩ :=
      h.exists_chunks hseq (by dsimp only; omega) (Nat.zero_le _)
    exact ⟨_, _, cs, q', ⟨(Nat.zero_add _).symm.trans hfill,
      (if_pos htype).mpr ⟨hlegal, rfl, rfl⟩⟩, hq⟩
  · have hseq : (s.atDecode r q).seq =
        .run .convert (some (planOf s.params r)) (.decodeRaw 0 r.sourceLength 0) := by
      simpa [State.atDecode, Header.imageType, hplan] using htype
    obtain ⟨-, hlen, hq⟩ := State.Completes.of_onTaken
      (s := ((s.atDecode r q).afterTake (takeN r.sourceLength q)).memWrite 0 _)
      hseq (h.of_stage hseq) rfl rfl (Nat.sub_sub _ _ _).symm
    exact ⟨_, _, [], _, ⟨hlen, (if_neg htype).mpr rfl⟩, hq⟩

/-- HDR_WRITE and ENCODE of a CONVERT that completes. -/
theorem State.Completes.convert_sink {p : Plan} (h : s.Completes t)
    (hseq : s.seq = .run .convert (some p) (.hdrWrite s.hdrOut.toList)) :
    ∃ r, s.sink = acks (18 + (s.convertBody p).length) ++ r := by
  have hstage : (s.hdrWriteStage s.hdrOut.toList).Completes t := h.of_stage hseq
  obtain ⟨-, -, hsink⟩ := State.Completes.of_onGiven
    (s := s.afterPut (putN s.hdrOut.toList s.sink)) hseq hstage rfl rfl
  rw [s.hdrOut.length_toList] at hsink
  rw [(s.hdrWriteStage_full s.hdrOut hsink).trans (State.afterHdrWrite_of_plan_some _ hseq)]
    at hstage
  obtain ⟨r, hr⟩ := hstage.of_encode (left := s.convertBody p)
    (congrArg (Sequencer.moveTo (.encode (s.convertBody p))) hseq)
  refine ⟨r, ?_⟩
  rw [acks_add, List.append_assoc, ← hr]
  exact hsink

/-- What was on the ports of a CONVERT that has completed. -/
theorem exec_convert_completed (hidle : s.isIdle = true) (hpace : s.pace = .runAhead)
    (hexec : exec .convert s = .next t) (hseq : t.seq = .idle) :
    ∃ (h : Header) (stream image : List Byte) (cs : List ChunkData) (q : List InAnswer)
      (r : List OutAnswer), convertible s.params h s.pbSize ∧ carries h stream image cs ∧
      s.source = bytesOf (h.toList ++ stream) ++ q ∧
      s.sink = acks (18 + (convertedBody s.params h image).length) ++ r := by
  have hissue := State.completes_of_exec (cmd := .convert) rfl hidle hpace hexec hseq
  obtain ⟨hotype, h, q, hs⟩ := hissue.convert_header
  have hc := (hissue.of_drive (s.drive_to_validate hotype hs)).convert_convertible hotype
  obtain ⟨stream, image, cs, q', hcar, rfl⟩ :=
    (hissue.of_drive (s.drive_to_decode hc hs)).convert_carries hc
  rw [← List.append_assoc, ← bytesOf_append] at hs
  obtain ⟨n, -, hdrive⟩ := s.drive_to_hdrWrite hc hcar hs
  obtain ⟨r, hr⟩ := (hissue.of_drive hdrive).convert_sink rfl
  rw [s.atHdrWrite_convertBody stream q' hc hcar.length_eq] at hr
  exact ⟨h, stream, image, cs, q', r, hc, hcar, hs, hr⟩

end

end Sys2Proof.Machine
end

section
/-!
The family 44_pipeline.md, the host script of standalone commands: block by block, register writes
and then a command, it leads through the states CONVERT comes through (R162).
-/

namespace Sys2Proof.Machine

/-! ### Runs of events -/

theorem runEvents_append {xs : List Event} {s t : State} (h : runEvents xs s = .next t)
    (ys : List Event) : runEvents (xs ++ ys) s = runEvents ys t := by
  induction xs generalizing s with
  | nil => cases h; rfl
  | cons e xs ih =>
    rw [runEvents] at h
    rw [List.cons_append, runEvents]
    cases hhandle : handle e s with
    | next u => rw [hhandle] at h; exact ih h
    | fault _ | refused _ => rw [hhandle] at h; cases h

/-- In IDLE a write to one of registers 1 to 15 is `Params.write` (10_state.md R14, R25). -/
theorem handle_wr {s : State} {n : Nat} (v : Word) (hidle : s.isIdle = true) (hn : 1 ≤ n ∧ n < 16) :
    handle (.wr n v) s = .next { s with params := s.params.write n v } := by
  have hin : s.hdrIn.write 16 n v = s.hdrIn := dif_neg (by omega)
  have hout : s.hdrOut.write 34 n v = s.hdrOut := dif_neg (by omega)
  rw [handle, if_neg (by omega), State.hostWrite, if_pos hidle, hin, hout]

/-- The registers after writes to them, in order. -/
def Params.writes (p : Params) (ws : List (Nat × Word)) : Params :=
  ws.foldl (fun p w => p.write w.1 w.2) p

/-- Register writes, then a CMD write: one RUN of the host script (30_encoding.md R65). -/
def Event.block (ws : List (Nat × Word)) (word : Nat) : List Event :=
  ws.map (fun w => .wr w.1 w.2) ++ [.wrNat 0 word]

theorem runEvents_writes {s : State} {ws : List (Nat × Word)} (hidle : s.isIdle = true)
    (hws : ∀ w ∈ ws, 1 ≤ w.1 ∧ w.1 < 16) :
    runEvents (ws.map fun w => .wr w.1 w.2) s = .next { s with params := s.params.writes ws } := by
  induction ws generalizing s with
  | nil => rfl
  | cons w ws ih =>
    obtain ⟨hw, hws⟩ := List.forall_mem_cons.mp hws
    rw [List.map_cons, runEvents, handle_wr w.2 hidle hw]
    exact ih (s := { s with params := s.params.write w.1 w.2 }) hidle hws

theorem runEvents_block {s t : State} {ws : List (Nat × Word)} {word : Nat} {i : Instr}
    (hidle : s.isIdle = true) (hws : ∀ w ∈ ws, 1 ≤ w.1 ∧ w.1 < 16)
    (hword : decodeCommand (BitVec.ofNat 32 word) = .ok i)
    (hexec : exec i { s with params := s.params.writes ws } = .next t) :
    runEvents (Event.block ws word) s = .next t := by
  rw [Event.block, runEvents_append (runEvents_writes hidle hws), Event.wrNat, runEvents, handle,
    if_pos rfl, cmdWrite, hword]
  simp only [hexec, runEvents]

/-! ### What the script writes -/

/-- BPP, BUF_BASE and BUF_LEN for the decode command. -/
def Plan.decodeWrites (p : Plan) : List (Nat × Word) :=
  [(4, BitVec.ofNat 32 p.bpp), (5, BitVec.ofNat 32 0), (6, BitVec.ofNat 32 p.srcBytes)]

/-- The two regions and their sizes for RESAMPLE. -/
def Plan.resampleWrites (p : Plan) : List (Nat × Word) :=
  [(7, BitVec.ofNat 32 0), (8, BitVec.ofNat 32 p.srcW), (9, BitVec.ofNat 32 p.srcH),
   (10, BitVec.ofNat 32 p.srcBytes), (11, BitVec.ofNat 32 p.dstW), (12, BitVec.ofNat 32 p.dstH)]

/-- OUT_TYPE for DRVHDR. -/
def Plan.deriveWrites (p : Plan) : List (Nat × Word) := [(13, p.outType.setWidth 32)]

/-- BUF_BASE and BUF_LEN for the encode command. -/
def Plan.encodeWrites (p : Plan) : List (Nat × Word) :=
  [(5, BitVec.ofNat 32 p.srcBytes), (6, BitVec.ofNat 32 p.dstBytes)]

theorem Params.writes_decodeWrites (r : Params) (p : Plan) :
    r.writes p.decodeWrites = { r with
      bpp := (BitVec.ofNat 32 p.bpp).setWidth 3, bufBase := BitVec.ofNat 32 0
      bufLen := BitVec.ofNat 32 p.srcBytes } := by
  simp only [Params.writes, Plan.decodeWrites, List.foldl, Params.write]

theorem Params.writes_resampleWrites (r : Params) (p : Plan) :
    r.writes p.resampleWrites = { r with
      srcBase := BitVec.ofNat 32 0, srcW := (BitVec.ofNat 32 p.srcW).setWidth 16
      srcH := (BitVec.ofNat 32 p.srcH).setWidth 16, dstBase := BitVec.ofNat 32 p.srcBytes
      dstW := (BitVec.ofNat 32 p.dstW).setWidth 16
      dstH := (BitVec.ofNat 32 p.dstH).setWidth 16 } := by
  simp only [Params.writes, Plan.resampleWrites, List.foldl, Params.write]

theorem Params.writes_deriveWrites (r : Params) (p : Plan) :
    r.writes p.deriveWrites = { r with outType := p.outType } := by
  have hout : (p.outType.setWidth 32).setWidth 8 = p.outType := by
    rw [BitVec.setWidth_setWidth_of_le _ (by decide), BitVec.setWidth_eq]
  simp only [Params.writes, Plan.deriveWrites, List.foldl, Params.write, hout]

theorem Params.writes_encodeWrites (r : Params) (p : Plan) :
    r.writes p.encodeWrites = { r with
      bufBase := BitVec.ofNat 32 p.srcBytes, bufLen := BitVec.ofNat 32 p.dstBytes } := by
  simp only [Params.writes, Plan.encodeWrites, List.foldl, Params.write]

/-- The script in blocks. -/
theorem standaloneScript_eq (h : Header) (p : Plan) :
    standaloneScript h p =
      Event.block [] 0x01 ++ (Event.block p.decodeWrites (if h[2] = 10 then 0x04 else 0x06) ++
      (Event.block p.resampleWrites 0x08 ++ (Event.block p.deriveWrites 0x02 ++
      (Event.block [] 0x03 ++
        Event.block p.encodeWrites (if p.outType = 10 then 0x05 else 0x07))))) := rfl

/-- Temporaries that pass VALIDATE fit the registers they are written to. -/
theorem Plan.legal.fits {p : Plan} {pbSize : Nat} (h : p.legal pbSize) (hpb : pbSize ≤ 2 ^ 32) :
    (p.bpp = 3 ∨ p.bpp = 4) ∧ p.srcW < 2 ^ 16 ∧ p.srcH < 2 ^ 16 ∧ p.dstW < 2 ^ 16 ∧
      p.dstH < 2 ^ 16 ∧ p.srcBytes < 2 ^ 32 ∧ p.dstBytes < 2 ^ 32 := by
  obtain ⟨hsrc, hdst, hg⟩ := h
  obtain ⟨hb, hsw, hsh, hdw, hdh⟩ := Geometry.legal_pos hg
  have hsrcPos : 0 < p.srcBytes := hsrc ▸ Nat.mul_pos (Nat.mul_pos hsw hsh) hb
  have hdstPos : 0 < p.dstBytes := hdst ▸ Nat.mul_pos (Nat.mul_pos hdw hdh) hb
  have hroom : p.srcBytes + p.dstBytes ≤ pbSize := hdst ▸ (Geometry.regions_le_of_legal hg).2
  obtain ⟨hbpp, ⟨-, hsw⟩, ⟨-, hsh⟩, ⟨-, hdw⟩, ⟨-, hdh⟩, -⟩ := hg
  simp only [Plan.geometry] at hbpp hsw hsh hdw hdh
  omega

/-- A number that fits a register is read back from it. -/
theorem toNat_setWidth_ofNat {n w : Nat} (hw : w ≤ 32) (h : n < 2 ^ w) :
    ((BitVec.ofNat 32 n).setWidth w).toNat = n := by
  have hle : 2 ^ w ≤ 2 ^ 32 := Nat.pow_le_pow_right (by decide) hw
  rw [BitVec.toNat_setWidth, BitVec.toNat_ofNat, Nat.mod_eq_of_lt (h.trans_le hle),
    Nat.mod_eq_of_lt h]

theorem toNat_ofNat_of_lt {n : Nat} (h : n < 2 ^ 32) : (BitVec.ofNat 32 n).toNat = n :=
  (BitVec.toNat_ofNat n 32).trans (Nat.mod_eq_of_lt h)

/-- The codec operands are those of a buffer: pixel size, base and length (41_rle_codec.md R100). -/
def Params.HasBuffer (r : Params) (bpp base size : Nat) : Prop :=
  r.bpp.toNat = bpp ∧ r.bufBase.toNat = base ∧ r.bufLen.toNat = size

section
variable {p : Plan} {pbSize : Nat} (h : p.legal pbSize) (hpb : pbSize ≤ 2 ^ 32) (r : Params)
include h hpb

theorem Params.writes_decode : (r.writes p.decodeWrites).HasBuffer p.bpp 0 p.srcBytes := by
  obtain ⟨hbpp, -, -, -, -, hsrc, -⟩ := h.fits hpb
  rw [r.writes_decodeWrites]
  exact ⟨toNat_setWidth_ofNat (by decide) (by omega), rfl, toNat_ofNat_of_lt hsrc⟩

theorem Params.writes_encode (hbpp : r.bpp.toNat = p.bpp) :
    (r.writes p.encodeWrites).HasBuffer p.bpp p.srcBytes p.dstBytes := by
  obtain ⟨-, -, -, -, -, hsrc, hdst⟩ := h.fits hpb
  rw [r.writes_encodeWrites]
  exact ⟨hbpp, toNat_ofNat_of_lt hsrc, toNat_ofNat_of_lt hdst⟩

theorem Params.writes_resample (hbpp : r.bpp.toNat = p.bpp) :
    (r.writes p.resampleWrites).geometry = p.geometry := by
  obtain ⟨-, hsw, hsh, hdw, hdh, hsrc, -⟩ := h.fits hpb
  have hle : 16 ≤ 32 := by decide
  simp only [r.writes_resampleWrites, Params.geometry, Plan.geometry, Geometry.mk.injEq]
  exact ⟨hbpp, rfl, toNat_setWidth_ofNat hle hsw, toNat_setWidth_ofNat hle hsh,
    toNat_ofNat_of_lt hsrc, toNat_setWidth_ofNat hle hdw, toNat_setWidth_ofNat hle hdh⟩

end

/-! ### The standalone commands on the states of CONVERT -/

/-- The state `u` as the host finds it between two commands of the script, the registers being
`r`. -/
def State.standing (u : State) (r : Params) : State :=
  { u with params := r, status := statusDone, seq := .idle }

theorem State.isIdle_standing (u : State) (r : Params) : (u.standing r).isIdle = true :=
  State.isIdle_of_done rfl

theorem exec_decraw_full {s : State} {bs : List Byte} {q : List InAnswer} (hidle : s.isIdle = true)
    (hpace : s.pace = .runAhead) (hbuf : s.bufInPb) (hlen : bs.length = s.params.bufLen.toNat)
    (hs : s.source = bytesOf bs ++ q) :
    exec .decraw s = .next (((s.afterTake ⟨bs, q, .full⟩).memWrite s.params.bufBase.toNat
      bs).standing s.params) :=
  exec_eq_of_stage rfl hidle hpace (State.issueStage_decraw hbuf)
    (State.ready_decodeRaw rfl hlen hs)
    (State.decodeRawStage_full ((s.accept .decraw).moveTo _) _ hlen hs) (State.ready_idle _ rfl)

theorem exec_decrle_full {s : State} {cs : List ChunkData} {q : List InAnswer}
    (hidle : s.isIdle = true) (hpace : s.pace = .runAhead)
    (hbpp : s.params.bpp.toNat = 3 ∨ s.params.bpp.toNat = 4) (hbuf : s.bufInPb)
    (hlegal : ∀ c ∈ cs, c.legal s.params.bpp.toNat)
    (hlen : (streamImage cs).length = s.params.bufLen.toNat)
    (hs : s.source = bytesOf (streamBytes cs) ++ q) :
    exec .decrle s = .next (((s.afterTake ⟨streamBytes cs, q, .full⟩).memWrite
      s.params.bufBase.toNat (streamImage cs)).standing s.params) := by
  have hmod := hlen ▸ streamImage_length_mod hlegal
  have hcount := length_le_streamBytes cs
  have hsource : s.source.length = (streamBytes cs).length + q.length := by simp [hs]
  obtain ⟨n, hn, hdrive⟩ := State.drive_decodeRle_fill (s := s.atDecrle) cs rfl hlegal
    (show 0 < s.params.bpp.toNat by omega) ((Nat.zero_add _).trans hlen) hs
  exact exec_eq_of_drive rfl hidle hpace (by omega)
    ((congrArg (State.drive n) (State.issueStage_decrle hbpp hmod hbuf)).trans hdrive)
    (State.ready_idle _ rfl)

section
variable {u : State} {r : Params} (hpace : u.pace = .runAhead)
include hpace

/-- The decode command of the image-type, on the source region, does what CONVERT's DECODE does. -/
theorem exec_decode_standing {h : Header} {stream image : List Byte} {cs : List ChunkData}
    {q : List InAnswer} (hcar : carries h stream image cs)
    (hbpp : h.pixelBytes = 3 ∨ h.pixelBytes = 4)
    (hr : r.HasBuffer h.pixelBytes 0 h.sourceLength) (hroom : h.sourceLength ≤ u.pbSize)
    (hs : u.source = bytesOf stream ++ q) :
    exec (if h[2] = 10 then .decrle else .decraw) (u.standing r) =
      .next (((u.afterTake ⟨stream, q, .full⟩).memWrite 0 image).standing r) := by
  obtain ⟨hrbpp, hrbase, hrlen⟩ := hr
  obtain ⟨hlen, hcar⟩ := hcar
  have hbuf : (u.standing r).bufInPb := by
    change r.bufBase.toNat + r.bufLen.toNat ≤ u.pbSize
    omega
  by_cases htype : h[2] = 10
  · rw [if_pos htype] at hcar ⊢
    obtain ⟨hlegal, rfl, rfl⟩ := hcar
    rw [exec_decrle_full (s := u.standing r) (u.isIdle_standing r) hpace (hrbpp.symm ▸ hbpp) hbuf
      (hrbpp.symm ▸ hlegal) (hlen.trans hrlen.symm) hs]
    exact congrArg (fun base => Host.Outcome.next ((State.memWrite _ base _).standing r)) hrbase
  · rw [if_neg htype] at hcar ⊢
    subst hcar
    rw [exec_decraw_full (s := u.standing r) (u.isIdle_standing r) hpace hbuf
      (hlen.trans hrlen.symm) hs]
    exact congrArg (fun base => Host.Outcome.next ((State.memWrite _ base _).standing r)) hrbase

/-- RESAMPLE writes the destination region CONVERT writes. -/
theorem exec_resample_standing {g : Geometry} (hr : r.geometry = g) (hg : g.legal u.pbSize) :
    exec .resample (u.standing r) =
      .next ((u.memWrite g.dbase (destBytes u.pbByte g)).standing r) := by
  subst hr
  exact exec_resample_of_legal (s := u.standing r) (u.isIdle_standing r) hpace hg

/-- DRVHDR derives HDR_OUT from the registers. -/
theorem exec_drvhdr_standing :
    exec .drvhdr (u.standing r) =
      .next (({ u with hdrOut := u.hdrIn.derive r.dstW r.dstH r.outType } : State).standing r) :=
  exec_eq_of_stage (s := u.standing r) rfl (u.isIdle_standing r) hpace rfl
    (State.ready_of_source rfl rfl (.inl rfl)) rfl (State.ready_idle _ rfl)

/-- The encode command of the output type, on the destination region, emits the body CONVERT
emits. -/
theorem exec_encode_standing {p : Plan} {k : List OutAnswer} (hp : p.legal u.pbSize)
    (hr : r.HasBuffer p.bpp p.srcBytes p.dstBytes)
    (hs : u.sink = acks (u.convertBody p).length ++ k) :
    exec (if p.outType = 10 then .encrle else .encraw) (u.standing r) =
      .next (({ u with
        sink := k, out := u.out ++ u.convertBody p
        outCount := u.outCount + BitVec.ofNat 32 (u.convertBody p).length } : State).standing
          r) := by
  obtain ⟨hrbpp, hrbase, hrlen⟩ := hr
  obtain ⟨-, hdst, hg⟩ := hp
  have hbuf : (u.standing r).bufInPb := by
    have hroom : p.srcBytes + p.geometry.dstBytes ≤ u.pbSize := (Geometry.regions_le_of_legal hg).2
    change r.bufBase.toNat + r.bufLen.toNat ≤ u.pbSize
    rw [hrbase, hrlen, hdst]
    exact hroom
  by_cases htype : p.outType = 10
  · have hbody : (u.standing r).rleBytes r.bufBase.toNat r.bufLen.toNat r.bpp.toNat =
        u.convertBody p := by
      rw [State.convertBody, if_pos htype, hrbase, hrlen, hrbpp]
      rfl
    have hissue := State.issueStage_encrle (s := u.standing r) (hrbpp.symm ▸ hg.1)
      (by
        change r.bufLen.toNat % r.bpp.toNat = 0
        rw [hrlen, hrbpp, hdst, Nat.mul_mod_left]) hbuf
    rw [if_pos htype]
    exact exec_encode_full (u.isIdle_standing r) hpace rfl (hbody ▸ hissue) hs
  · have hbody : (u.standing r).memRead r.bufBase.toNat r.bufLen.toNat = u.convertBody p := by
      rw [State.convertBody, if_neg htype, hrbase, hrlen]
      rfl
    have hissue := State.issueStage_encraw (s := u.standing r) hbuf
    rw [if_neg htype]
    exact exec_encode_full (u.isIdle_standing r) hpace rfl (hbody ▸ hissue) hs

end

/-! ### The blocks of the script -/

/-- A block of the script from a state between two commands. -/
theorem runEvents_block_standing {u t : State} {r : Params} {ws : List (Nat × Word)} {word : Nat}
    {i : Instr} (hws : ∀ w ∈ ws, 1 ≤ w.1 ∧ w.1 < 16)
    (hword : decodeCommand (BitVec.ofNat 32 word) = .ok i)
    (hexec : exec i (u.standing (r.writes ws)) = .next t) :
    runEvents (Event.block ws word) (u.standing r) = .next t :=
  runEvents_block (u.isIdle_standing r) hws hword hexec

/-- One of two command words, by the image-type. -/
theorem decodeCommand_ite {c : Prop} [Decidable c] {m n : Nat} {i j : Instr}
    (hm : decodeCommand (BitVec.ofNat 32 m) = .ok i)
    (hn : decodeCommand (BitVec.ofNat 32 n) = .ok j) :
    decodeCommand (BitVec.ofNat 32 (if c then m else n)) = .ok (if c then i else j) := by
  split
  · exact hm
  · exact hn

/-- CONVERT at the end of RESAMPLE. -/
def State.resampled (s : State) (h : Header) (stream image : List Byte) (q : List InAnswer) :
    State :=
  (s.decoded h stream image q).memWrite (planOf s.params h).srcBytes
    (destBytes (s.decoded h stream image q).pbByte (planOf s.params h).geometry)

/-- The body CONVERT emits does not depend on the output stream. -/
theorem State.convertBody_of_output (u : State) (p : Plan) (k : List OutAnswer) (out : List Byte)
    (n : Word) :
    ({ u with sink := k, out := out, outCount := n } : State).convertBody p = u.convertBody p :=
  rfl

/-- CONVERT at the end of HDR_WRITE, `k` left of the sink. -/
def State.hdrWritten (s : State) (h : Header) (stream image : List Byte) (q : List InAnswer)
    (k : List OutAnswer) : State :=
  { s.atHdrWrite h stream image q with
    sink := k, out := s.out ++ (s.atHdrWrite h stream image q).hdrOut.toList
    outCount := s.outCount + 18 }

section
variable {s : State} {h : Header} {stream image : List Byte} {cs : List ChunkData}
  {q : List InAnswer} (hpace : s.pace = .runAhead) (hpb : s.pbSize ≤ 2 ^ 32)
  (hc : convertible s.params h s.pbSize) (hcar : carries h stream image cs) (r : Params)

include hpace in
theorem runEvents_rdhdr (hidle : s.isIdle = true) (hs : s.source = bytesOf h.toList ++ q) :
    runEvents (Event.block [] 0x01) s = .next ((s.atDecode h q).standing s.params) :=
  runEvents_block hidle (by simp) rfl (rdhdrReadsTheRecord s h q hidle hpace hs)

include hpace hpb hc hcar in
theorem runEvents_decode :
    runEvents (Event.block (planOf s.params h).decodeWrites (if h[2] = 10 then 0x04 else 0x06))
        ((s.atDecode h (bytesOf stream ++ q)).standing r) =
      .next ((s.decoded h stream image q).standing
        (r.writes (planOf s.params h).decodeWrites)) := by
  have hbuf := Params.writes_decode hc.plan_legal hpb r
  have hbpp : (planOf s.params h).bpp = h.pixelBytes := congrArg Plan.bpp hc.plan_eq
  have hsrc : (planOf s.params h).srcBytes = h.sourceLength := congrArg Plan.srcBytes hc.plan_eq
  have hroom : h.sourceLength ≤ s.pbSize := by
    obtain ⟨-, -, -, -, -, -, -, -, hroom⟩ := hc
    omega
  rw [hbpp, hsrc] at hbuf
  exact runEvents_block_standing (by simp [Plan.decodeWrites]) (decodeCommand_ite rfl rfl)
    (exec_decode_standing (u := s.atDecode h _) hpace hcar hc.pixelBytes_eq hbuf hroom rfl)

include hpace hpb hc in
theorem runEvents_resample (hr : r.bpp.toNat = (planOf s.params h).bpp) :
    runEvents (Event.block (planOf s.params h).resampleWrites 0x08)
        ((s.decoded h stream image q).standing r) =
      .next ((s.resampled h stream image q).standing
        (r.writes (planOf s.params h).resampleWrites)) := by
  have hplan := hc.plan_legal
  obtain ⟨-, -, hg⟩ := hc.plan_legal
  exact runEvents_block_standing (by simp [Plan.resampleWrites]) rfl
    (exec_resample_standing (u := s.decoded h stream image q) hpace
      (Params.writes_resample hplan hpb r hr) hg)

include hpace in
theorem runEvents_drvhdr (hw : r.dstW = BitVec.ofNat 16 (planOf s.params h).dstW)
    (hh : r.dstH = BitVec.ofNat 16 (planOf s.params h).dstH) :
    runEvents (Event.block (planOf s.params h).deriveWrites 0x02)
        ((s.resampled h stream image q).standing r) =
      .next ((s.atHdrWrite h stream image q).standing
        (r.writes (planOf s.params h).deriveWrites)) := by
  refine runEvents_block_standing (by simp [Plan.deriveWrites]) rfl
    ((exec_drvhdr_standing (u := s.resampled h stream image q) hpace).trans ?_)
  simp only [r.writes_deriveWrites, hw, hh]
  rfl

include hpace in
theorem runEvents_wrhdr {k : List OutAnswer} (hs : s.sink = acks 18 ++ k) :
    runEvents (Event.block [] 0x03) ((s.atHdrWrite h stream image q).standing r) =
      .next ((s.hdrWritten h stream image q k).standing r) :=
  runEvents_block_standing (by simp) rfl
    (wrhdrWritesTheRecord ((s.atHdrWrite h stream image q).standing r) k
      (State.isIdle_standing _ r) hpace hs)

include hpace hpb hc hcar in
theorem runEvents_encode {k : List OutAnswer} (hr : r.bpp.toNat = (planOf s.params h).bpp) :
    runEvents (Event.block (planOf s.params h).encodeWrites
          (if (planOf s.params h).outType = 10 then 0x05 else 0x07))
        ((s.hdrWritten h stream image q
          (acks (convertedBody s.params h image).length ++ k)).standing r) =
      .next ((s.converted h stream image q k).standing
        (r.writes (planOf s.params h).encodeWrites)) := by
  have hbody : (s.hdrWritten h stream image q
      (acks (convertedBody s.params h image).length ++ k)).convertBody (planOf s.params h) =
      convertedBody s.params h image :=
    (State.convertBody_of_output _ _ _ _ _).trans
      (s.atHdrWrite_convertBody stream q hc hcar.length_eq)
  have hencode := exec_encode_standing (u := s.hdrWritten h stream image q
    (acks (convertedBody s.params h image).length ++ k)) (k := k) hpace hc.plan_legal
    (Params.writes_encode hc.plan_legal hpb r hr) (by rw [hbody]; rfl)
  refine runEvents_block_standing (by simp [Plan.encodeWrites]) (decodeCommand_ite rfl rfl)
    (hencode.trans ?_)
  rw [hbody, State.converted, ← add_eighteen_add]
  rfl

/-! ### The whole script -/

include hpace hpb hc hcar in
/-- The script, block after block, comes to the end state of CONVERT, the parameter registers
aside. -/
theorem runEvents_standaloneScript {k : List OutAnswer} (hidle : s.isIdle = true)
    (hsource : s.source = bytesOf (h.toList ++ stream) ++ q)
    (hsink : s.sink = acks (18 + (convertedBody s.params h image).length) ++ k) :
    ∃ r : Params, runEvents (standaloneScript h (planOf s.params h)) s =
      .next ((s.converted h stream image q k).standing r) := by
  rw [bytesOf_append, List.append_assoc] at hsource
  rw [acks_add, List.append_assoc] at hsink
  obtain ⟨hbpp, -⟩ := Params.writes_decode hc.plan_legal hpb s.params
  have hbpp_resample : ((s.params.writes (planOf s.params h).decodeWrites).writes
      (planOf s.params h).resampleWrites).bpp.toNat = (planOf s.params h).bpp := by
    rwa [Params.writes_resampleWrites]
  have hbpp_derive : (((s.params.writes (planOf s.params h).decodeWrites).writes
      (planOf s.params h).resampleWrites).writes (planOf s.params h).deriveWrites).bpp.toNat =
      (planOf s.params h).bpp := by
    rwa [Params.writes_deriveWrites]
  have hdim (n : Nat) : (BitVec.ofNat 32 n).setWidth 16 = BitVec.ofNat 16 n :=
    BitVec.setWidth_ofNat_of_le (by decide) n
  rw [standaloneScript_eq, runEvents_append (runEvents_rdhdr hpace hidle hsource),
    runEvents_append (runEvents_decode hpace hpb hc hcar _),
    runEvents_append (runEvents_resample hpace hpb hc _ hbpp),
    runEvents_append (runEvents_drvhdr hpace _
      (by rw [Params.writes_resampleWrites]; exact hdim _)
      (by rw [Params.writes_resampleWrites]; exact hdim _)),
    runEvents_append (runEvents_wrhdr hpace _ hsink)]
  exact ⟨_, runEvents_encode hpace hpb hc hcar _ hbpp_derive⟩

end

/-- Settles O47: a CONVERT that has completed had the whole conversion on its ports, and the script
runs through the same states. -/
theorem convertEqualsTheStandaloneScript : Obligations.ConvertEqualsTheStandaloneScript := by
  intro s t hidle hpace _ hpb hexec _ hseq
  obtain ⟨h, stream, image, cs, q, k, hc, hcar, hsource, hsink⟩ :=
    exec_convert_completed hidle hpace hexec hseq
  cases (exec_convert_converted hidle hpace hc hcar hsource hsink).symm.trans hexec
  obtain ⟨r, hrun⟩ := runEvents_standaloneScript hpace hpb hc hcar hidle hsource hsink
  exact ⟨_, hrun, rfl⟩

end Sys2Proof.Machine
end

section
/-!
One step of the engine with all its effects: besides the fields a stage may write, the answers it
takes and the bytes it offers, the list of PB, and the place it leaves the command in, held or moved
(10_state.md R21 to R27; 20_memory.md R40, R47).
-/

namespace Sys2Proof.Machine

/-! ### Where a command stands, and what a stage does -/

/-- A running command is at a legal cursor, with legal temporaries (10_state.md R26, R27). -/
structure State.Stands (s : State) (cmd : Command) (plan : Option Plan) (cur : Cursor) : Prop where
  cursor : cur.legal cmd plan s.hdrOut s.pbSize
  plan : ∀ p, plan = some p → cmd = .convert ∧ p.legal s.pbSize

theorem State.seqLegal_run_iff {s : State} {cmd : Command} {plan : Option Plan} {cur : Cursor}
    (hseq : s.seq = .run cmd plan cur) :
    s.seqLegal ↔ s.status = statusBusy ∧ s.Stands cmd plan cur := by
  rw [State.seqLegal, hseq]
  cases plan with
  | none =>
    exact ⟨fun ⟨hst, hcur, _⟩ => ⟨hst, hcur, nofun⟩, fun ⟨hst, h⟩ => ⟨hst, h.cursor, trivial⟩⟩
  | some p =>
    exact ⟨fun ⟨hst, hcur, hplan⟩ => ⟨hst, hcur, fun _ hp => Option.some.inj hp ▸ hplan⟩,
      fun ⟨hst, h⟩ => ⟨hst, h.cursor, h.plan p rfl⟩⟩

theorem State.placed_run_iff {s : State} {cmd : Command} {plan : Option Plan} {cur : Cursor}
    (hseq : s.seq = .run cmd plan cur) :
    s.Placed ↔ cur.placed s.params cmd plan ∧ ∀ q, plan = some q → q = planOf s.params s.hdrIn := by
  rw [State.Placed, hseq]

/-- From `s` to `t` answers of the source were used up from the front, none skipped, and IN_COUNT
counted their bytes (10_state.md R21, R23); none was used where `c` holds. -/
def State.Takes (c : Prop) (s t : State) : Prop :=
  ∃ used : List InAnswer, s.source = used ++ t.source ∧
    t.inCount = s.inCount + BitVec.ofNat 32 (byteCount used) ∧ (c → used = [])

/-- From `s` to `t` bytes were appended to the output stream, and OUT_COUNT counted them
(10_state.md R21, R24); the port was left alone where `c` holds. -/
def State.Offers (c : Prop) (s t : State) : Prop :=
  ∃ sent : List Byte, t.out = s.out ++ sent ∧
    t.outCount = s.outCount + BitVec.ofNat 32 sent.length ∧ (c → sent = [] ∧ t.sink = s.sink)

/-- `v` is `s` after port transactions and writes of the stage `cur` is in. That the writes stay in
the stage's region rests on `P`, the legality of the decoder's place and of the chunk. -/
structure State.Acts (P : Prop) (cur : Cursor) (s v : State) : Prop where
  fixed : s.Fixed v
  seq : v.seq = s.seq
  status : v.status = s.status
  errinfo : v.errinfo = s.errinfo
  pbFree : v.pbFree = s.pbFree
  draws : v.draws = s.draws
  hdrIn : cur.stage ≠ .hdrRead → v.hdrIn = s.hdrIn
  hdrOut : (∀ width height imageType, cur ≠ .derive width height imageType) → v.hdrOut = s.hdrOut
  input : s.Takes (cur.stage ≠ .hdrRead ∧ cur.stage ≠ .decode) v
  output : s.Offers (cur.offers = []) v
  wf : s.pb.wf → v.pb.wf
  listed : P → ∀ x ∈ v.pb, x ∈ s.pb ∨ ¬ cur.leaves x.1
  pb : P → ∀ a, cur.leaves a → v.pbByte a = s.pbByte a

/-- Everything one step of the engine can do from a cursor, and that it leaves the command where it
may stand. -/
inductive State.Comes (P : Prop) (s : State) (cmd : Command) (plan : Option Plan) (cur : Cursor) :
    State → Prop
  | failed {v : State} {e : ErrorCode} (h : s.Acts P cur v) : s.Comes P cmd plan cur (v.raise e)
  | ended {v : State} (h : s.Acts P cur v) : s.Comes P cmd plan cur v.complete
  | goes {v : State} {cmd' : Command} {plan' : Option Plan} {cur' : Cursor} (h : s.Acts P cur v)
    (hplan : plan' = none → plan = none)
    (hstands : P → s.Stands cmd plan cur →
      cmd' = cmd ∧ ({ v with seq := .run cmd' plan' cur' } : State).Stands cmd' plan' cur' ∧
      (s.Placed → ({ v with seq := .run cmd' plan' cur' } : State).Placed)) :
    s.Comes P cmd plan cur { v with seq := .run cmd' plan' cur' }

/-! ### The transactions and writes of a stage -/

/-- `takeN` takes answers from the front, and its bytes are the `Byte` answers among them. -/
theorem exists_used_takeN (n : Nat) (q : List InAnswer) :
    ∃ used, q = used ++ (takeN n q).left ∧ byteCount used = (takeN n q).bytes.length := by
  have hbyte (bs : List Byte) : byteCount (bytesOf bs) = bs.length := byteCount_bytesOf bs
  rcases takeN_cases n q with ⟨-, -, hq⟩ | ⟨-, -, hleft, hq⟩ | ⟨-, -, hq⟩ | ⟨-, -, hq⟩
  · exact ⟨_, hq, hbyte _⟩
  · exact ⟨_, by rw [hleft, List.append_nil]; exact hq, hbyte _⟩
  · exact ⟨bytesOf (takeN n q).bytes ++ [.eos], by simpa using hq,
      by rw [byteCount_append, hbyte]; rfl⟩
  · exact ⟨bytesOf (takeN n q).bytes ++ [.fail], by simpa using hq,
      by rw [byteCount_append, hbyte]; rfl⟩

section
variable {c : Prop} {s t u : State}

theorem State.Takes.refl (c : Prop) (s : State) : s.Takes c s :=
  ⟨[], rfl, (BitVec.add_zero _).symm, fun _ => rfl⟩

theorem State.Takes.trans (h : s.Takes c t) (k : t.Takes c u) : s.Takes c u := by
  obtain ⟨x, hx, hxc, hx0⟩ := h
  obtain ⟨y, hy, hyc, hy0⟩ := k
  exact ⟨x ++ y, by rw [hx, hy, List.append_assoc],
    by rw [hyc, hxc, byteCount_append, BitVec.ofNat_add, BitVec.add_assoc],
    fun hc => by rw [hx0 hc, hy0 hc, List.append_nil]⟩

theorem State.Takes.imp {c' : Prop} (h : s.Takes c t) (hc : c' → c) : s.Takes c' t := by
  obtain ⟨x, hx, hxc, hx0⟩ := h
  exact ⟨x, hx, hxc, fun h => hx0 (hc h)⟩

theorem State.Offers.refl (c : Prop) (s : State) : s.Offers c s :=
  ⟨[], (List.append_nil _).symm, (BitVec.add_zero _).symm, fun _ => ⟨rfl, rfl⟩⟩

theorem State.Offers.trans (h : s.Offers c t) (k : t.Offers c u) : s.Offers c u := by
  obtain ⟨x, hx, hxc, hx0⟩ := h
  obtain ⟨y, hy, hyc, hy0⟩ := k
  refine ⟨x ++ y, by rw [hy, hx, List.append_assoc],
    by rw [hyc, hxc, List.length_append, BitVec.ofNat_add, BitVec.add_assoc], fun hc => ?_⟩
  obtain ⟨rfl, hxs⟩ := hx0 hc
  obtain ⟨rfl, hys⟩ := hy0 hc
  exact ⟨rfl, hys.trans hxs⟩

theorem State.Offers.imp {c' : Prop} (h : s.Offers c t) (hc : c' → c) : s.Offers c' t := by
  obtain ⟨x, hx, hxc, hx0⟩ := h
  exact ⟨x, hx, hxc, fun h => hx0 (hc h)⟩

end

namespace State.Acts

variable {P : Prop} {cur : Cursor} {s u v : State}

theorem refl (P : Prop) (cur : Cursor) (s : State) : s.Acts P cur s where
  fixed := .refl s
  seq := rfl
  status := rfl
  errinfo := rfl
  pbFree := rfl
  draws := rfl
  hdrIn _ := rfl
  hdrOut _ := rfl
  input := .refl _ s
  output := .refl _ s
  wf := id
  listed _ _ := .inl
  pb _ _ _ := rfl

theorem trans (h : s.Acts P cur u) (k : u.Acts P cur v) : s.Acts P cur v where
  fixed := h.fixed.trans k.fixed
  seq := k.seq.trans h.seq
  status := k.status.trans h.status
  errinfo := k.errinfo.trans h.errinfo
  pbFree := k.pbFree.trans h.pbFree
  draws := k.draws.trans h.draws
  hdrIn hc := (k.hdrIn hc).trans (h.hdrIn hc)
  hdrOut hc := (k.hdrOut hc).trans (h.hdrOut hc)
  input := h.input.trans k.input
  output := h.output.trans k.output
  wf hs := k.wf (h.wf hs)
  listed hP x hx := (k.listed hP x hx).elim (h.listed hP x) .inr
  pb hP a ha := (k.pb hP a ha).trans (h.pb hP a ha)

theorem take (s : State) (n : Nat) (hcur : cur.stage = .hdrRead ∨ cur.stage = .decode) :
    s.Acts P cur (s.afterTake (takeN n s.source)) :=
  { refl P cur s with
    fixed := .afterTake s _
    input := by
      obtain ⟨used, hused, hcount⟩ := exists_used_takeN n s.source
      exact ⟨used, hused, by rw [hcount]; rfl, fun hc => (hcur.elim hc.1 hc.2).elim⟩ }

/-- The bytes a cursor has to offer are offered. -/
theorem put (s : State) (cur : Cursor) : s.Acts P cur (s.afterPut (putN cur.offers s.sink)) :=
  { refl P cur s with
    fixed := .afterPut s _
    output := ⟨_, rfl, rfl, fun hc => by rw [hc, putN_nil]; exact ⟨rfl, rfl⟩⟩ }

theorem memWrite (s : State) {a : Nat} {bs : List Byte}
    (h : P → ∀ x, cur.leaves x → outside a bs.length x) : s.Acts P cur (s.memWrite a bs) :=
  { refl P cur s with
    fixed := .memWrite s a bs
    wf := fun hs => Memory.wf_setBlock hs a bs
    listed := fun hP x hx => (Memory.mem_setBlock hx).symm.imp_right fun hin hx =>
      (h hP x.1 hx).elim (Nat.not_lt.mpr hin.1) (Nat.not_le.mpr hin.2)
    pb := fun hP x hx => s.pbByte_memWrite_outside le_rfl le_rfl (h hP x hx) }

theorem setHdrIn (s : State) (r : Header) (hcur : cur.stage = .hdrRead) :
    s.Acts P cur { s with hdrIn := r } :=
  { refl P cur s with fixed := ⟨rfl, rfl, rfl, rfl, rfl, rfl⟩, hdrIn := fun h => absurd hcur h }

theorem setHdrOut (s : State) (r : Header) {width height : Half} {imageType : Byte} :
    s.Acts P (.derive width height imageType) { s with hdrOut := r } :=
  { refl P _ s with
    fixed := ⟨rfl, rfl, rfl, rfl, rfl, rfl⟩
    hdrOut := fun h => absurd rfl (h width height imageType) }

/-- Of the parameters and the header the temporaries are computed from, a stage with temporaries
changes nothing. -/
theorem planOf_eq {cmd : Command} {p : Plan} (h : s.Acts P cur v)
    (hstands : s.Stands cmd (some p) cur) :
    planOf v.params v.hdrIn = planOf s.params s.hdrIn := by
  have hcur := hstands.cursor
  have hstage : cur.stage ≠ .hdrRead := fun hstage => by
    cases cur <;> cases hstage
    obtain ⟨-, hplan, -⟩ := hcur
    cases hplan
  rw [h.fixed.params, h.hdrIn hstage]

end State.Acts

/-! ### How a stage ends -/

namespace State.Comes

section
variable {P : Prop} {s v : State} {cmd : Command} {plan : Option Plan} {cur : Cursor}
  (hseq : s.seq = .run cmd plan cur) (h : s.Acts P cur v)
include hseq h

theorem moveTo {cur' : Cursor}
    (hcur : P → s.Stands cmd plan cur → cur'.legal cmd plan v.hdrOut s.pbSize ∧
      (cur.placed s.params cmd plan → cur'.placed s.params cmd plan)) :
    s.Comes P cmd plan cur (v.moveTo cur') := by
  have ht : v.moveTo cur' = { v with seq := .run cmd plan cur' } := by
    rw [State.moveTo, h.seq, hseq, Sequencer.moveTo_run]
  rw [ht]
  refine .goes h id fun hP hs => ?_
  obtain ⟨hlegal, hplaced⟩ := hcur hP hs
  refine ⟨rfl, ⟨h.fixed.pbSize ▸ hlegal, h.fixed.pbSize ▸ hs.plan⟩, fun hp => ?_⟩
  obtain ⟨hc, hq⟩ := (State.placed_run_iff hseq).mp hp
  refine ⟨h.fixed.params ▸ hplaced hc, fun q hplan => ?_⟩
  subst hplan
  exact (hq q rfl).trans (h.planOf_eq hs).symm

/-- A stage's end where CONVERT goes on at a cursor its temporaries give, and a standalone command
is complete. -/
theorem byPlan {t : State} {next : Plan → Cursor} (hnone : plan = none → t = v.complete)
    (hsome : ∀ p, plan = some p → t = v.moveTo (next p))
    (hlegal : ∀ p, p.legal s.pbSize → (next p).legal cmd plan v.hdrOut s.pbSize)
    (hplaced : ∀ p, (next p).placed s.params .convert (some p)) :
    s.Comes P cmd plan cur t := by
  cases plan with
  | none => rw [hnone rfl]; exact .ended h
  | some p =>
    rw [hsome p rfl]
    refine moveTo hseq h fun _ hs => ?_
    obtain ⟨rfl, hp⟩ := hs.plan p rfl
    exact ⟨hlegal p hp, fun _ => hplaced p⟩

theorem onTaken {next : State} {e : ErrorCode} {cur' : Cursor} {n : Nat} {q : List InAnswer}
    (hheld : (takeN n q).bytes.length < n → P → s.Stands cmd plan cur →
      cur'.legal cmd plan v.hdrOut s.pbSize ∧
      (cur.placed s.params cmd plan → cur'.placed s.params cmd plan))
    (hnext : (takeN n q).bytes.length = n → s.Comes P cmd plan cur next) :
    s.Comes P cmd plan cur (v.onTaken (takeN n q).ending e next cur') := by
  rcases takeN_cases n q with ⟨hend, hlen, -⟩ | ⟨hend, hlen, -⟩ | ⟨hend, -⟩ | ⟨hend, -⟩ <;> rw [hend]
  · exact hnext hlen
  · exact moveTo hseq h (hheld hlen)
  · exact .failed h
  · exact .failed h

theorem onGiven {next : State} {cur' : Cursor} (ending : PutEnd)
    (hheld : P → s.Stands cmd plan cur → cur'.legal cmd plan v.hdrOut s.pbSize ∧
      (cur.placed s.params cmd plan → cur'.placed s.params cmd plan))
    (hnext : s.Comes P cmd plan cur next) :
    s.Comes P cmd plan cur (v.onGiven ending next cur') := by
  cases ending with
  | full => exact hnext
  | hold => exact moveTo hseq h hheld
  | failed => exact .failed h

theorem checked {check : Option ErrorCode} {cur' : Cursor}
    (hcur : check = none → P → s.Stands cmd plan cur → cur'.legal cmd plan v.hdrOut s.pbSize ∧
      (cur.placed s.params cmd plan → cur'.placed s.params cmd plan)) :
    s.Comes P cmd plan cur (v.checked check cur') := by
  cases check with
  | none => exact moveTo hseq h (hcur rfl)
  | some e => exact .failed h

theorem afterDecode : s.Comes P cmd plan cur v.afterDecode := by
  have hv := h.seq.trans hseq
  refine .byPlan (next := fun p => .resample p.geometry) hseq h ?_ ?_ (fun p hp => hp.2.2)
    fun p => .inr ⟨rfl, p, rfl, rfl⟩
  · rintro rfl; exact v.afterDecode_of_plan_none hv
  · rintro p rfl; exact v.afterDecode_of_plan_some hv

end

end State.Comes

/-! ### ISSUE, HDR_READ, VALIDATE -/

theorem State.issueStage_comes (P : Prop) {s : State} {cmd : Command} {plan : Option Plan}
    (hseq : s.seq = .run cmd plan .issue) : s.Comes P cmd plan .issue (s.issueStage cmd) := by
  have hacts := State.Acts.refl P .issue s
  cases cmd with
  | rdhdr =>
    exact .moveTo hseq hacts fun _ hs =>
      ⟨⟨by decide, hs.cursor, .inl rfl⟩, fun hp => ⟨.inl rfl, hp⟩⟩
  | drvhdr => exact .moveTo hseq hacts fun _ _ => ⟨trivial, fun hp => .inl ⟨rfl, hp⟩⟩
  | wrhdr =>
    exact .moveTo hseq hacts fun _ _ => ⟨by simp [Cursor.legal], fun hp => .inl ⟨rfl, hp⟩⟩
  | decrle =>
    refine .checked hseq hacts fun hcheck _ _ => ⟨?_, fun hp => .inl ⟨rfl, hp, rfl, rfl⟩⟩
    obtain ⟨hbpp, -, hbuf, -⟩ | ⟨-, hsome⟩ | ⟨-, -, -, hsome⟩ := s.rleCheck_eq
    · exact ⟨hbpp, hbuf, Nat.zero_le _⟩
    · rw [hcheck] at hsome; cases hsome
    · rw [hcheck] at hsome; cases hsome
  | decraw =>
    refine .checked hseq hacts fun hcheck _ _ => ⟨?_, fun hp => .inl ⟨rfl, hp, rfl, rfl⟩⟩
    obtain ⟨hbuf, -⟩ | ⟨-, hsome⟩ := s.rawCheck_eq
    · exact ⟨hbuf, Nat.zero_le _⟩
    · rw [hcheck] at hsome; cases hsome
  | encrle => exact .checked hseq hacts fun _ _ _ => ⟨trivial, fun hp => .inl ⟨.inl rfl, hp⟩⟩
  | encraw => exact .checked hseq hacts fun _ _ _ => ⟨trivial, fun hp => .inl ⟨.inr rfl, hp⟩⟩
  | resample =>
    exact .checked hseq hacts fun hcheck _ _ =>
      ⟨(Geometry.check_none_iff _ _).mp hcheck, fun hp => .inl ⟨rfl, hp, rfl⟩⟩
  | convert =>
    exact .checked hseq hacts fun _ _ hs =>
      ⟨⟨by decide, hs.cursor, .inr rfl⟩, fun hp => ⟨.inr rfl, hp⟩⟩

theorem State.hdrReadStage_comes (P : Prop) {s : State} {cmd : Command} {plan : Option Plan}
    {k : Nat} (hseq : s.seq = .run cmd plan (.hdrRead k)) :
    s.Comes P cmd plan (.hdrRead k) (s.hdrReadStage k) := by
  have hacts := (State.Acts.take (P := P) (cur := .hdrRead k) s (18 - k) (.inl rfl)).trans
    (.setHdrIn _ (s.hdrIn.store k (takeN (18 - k) s.source).bytes) rfl)
  refine .onTaken hseq hacts (fun hlt _ hs => ⟨?_, id⟩) fun _ => ?_
  · obtain ⟨-, hplan, hcmd⟩ := hs.cursor
    exact ⟨by omega, hplan, hcmd⟩
  · unfold State.afterHdrRead
    split
    next hcommand =>
      have hcmd : cmd = .convert := by
        rw [hacts.seq, hseq] at hcommand
        exact Option.some.inj hcommand
      exact .moveTo hseq hacts fun _ hs => ⟨⟨hs.cursor.2.1, hcmd⟩, fun hp => ⟨hcmd, hp.2⟩⟩
    next => exact .ended hacts

/-- VALIDATE lets only legal temporaries pass (44_pipeline.md R153 to R157). -/
theorem planOf_legal {p : Params} {h : Header} {pbSize : Nat}
    (hcheck : validateCheck p h pbSize = none) : (planOf p h).legal pbSize := by
  have hs : h.supported = true := by
    by_contra hs
    rw [validateCheck_unsupported p pbSize hs] at hcheck
    cases hcheck
  rw [validateCheck_supported p pbSize hs] at hcheck
  split_ifs at hcheck with hdims hroom
  simp only [Bool.not_eq_true', Bool.not_eq_false, Bool.and_eq_true, dimOk_iff] at hdims
  obtain ⟨-, -, hbits, hw, hh⟩ := h.supported_iff.mp hs
  obtain ⟨hwc, hwle⟩ := Header.width_pos hw
  obtain ⟨hhr, hhle⟩ := Header.height_pos hh
  have hbpp : h.pixelBytes = 3 ∨ h.pixelBytes = 4 := by
    unfold Header.pixelBytes
    rcases hbits with hb | hb <;> rw [hb] <;> decide
  rw [planOf_eq p hw hh]
  exact ⟨rfl, rfl, hbpp, ⟨by dsimp only [Plan.geometry]; omega, hwle⟩,
    ⟨by dsimp only [Plan.geometry]; omega, hhle⟩, hdims.1, hdims.2,
    show 0 + h.sourceLength ≤ pbSize by omega, Nat.le_of_not_lt hroom, .inl (Nat.zero_add _).le⟩

theorem State.validateStage_comes (P : Prop) {s : State} {cmd : Command} {plan : Option Plan}
    (hseq : s.seq = .run cmd plan .validate) : s.Comes P cmd plan .validate s.validateStage := by
  have hacts := State.Acts.refl P .validate s
  unfold State.validateStage
  split
  next => exact .failed hacts
  next hcheck =>
    refine .goes hacts nofun fun _ hs => ?_
    obtain ⟨-, rfl⟩ := hs.cursor
    have hp := planOf_legal hcheck
    obtain ⟨-, -, hbpp, -⟩ := id hp
    have hroom : 0 + (planOf s.params s.hdrIn).srcBytes ≤ s.pbSize :=
      (Geometry.regions_le_of_legal hp.2.2).1
    refine ⟨rfl, ⟨?_, fun _ h => Option.some.inj h ▸ ⟨rfl, hp⟩⟩,
      fun _ => ⟨?_, fun _ h => (Option.some.inj h).symm⟩⟩
    · split
      · exact ⟨hbpp, hroom, Nat.zero_le _⟩
      · exact ⟨hroom, Nat.zero_le _⟩
    · split <;> exact .inr ⟨rfl, _, rfl, rfl, rfl⟩

/-! ### DECODE -/

theorem State.decodeRawStage_comes (P : Prop) {s : State} {cmd : Command} {plan : Option Plan}
    {base size done : Nat} (hseq : s.seq = .run cmd plan (.decodeRaw base size done)) :
    s.Comes P cmd plan (.decodeRaw base size done) (s.decodeRawStage base size done) := by
  have hlen := (takeN_length_le (size - done) s.source).1
  have hacts := (State.Acts.take (P := P) (cur := .decodeRaw base size done) s (size - done)
    (.inr rfl)).trans
    (.memWrite (a := base + done) (bs := (takeN (size - done) s.source).bytes) _
      fun _ x hx => by simp only [Cursor.leaves, outside] at hx ⊢; omega)
  exact .onTaken hseq hacts
    (fun hlt _ hs => ⟨⟨hs.cursor.1, by omega⟩, id⟩) fun _ => .afterDecode hseq hacts

/-! Inside a step that begins at `pos` in the decode of `d₀`: the decoder has come to `d`, over the
same buffer. -/

section
variable {P : Prop} {s v : State} {cmd : Command} {plan : Option Plan} {d₀ d : Decoder}
  {pos : ChunkPos} (hseq : s.seq = .run cmd plan (.decodeRle d₀ pos))
  (h : s.Acts P (.decodeRle d₀ pos) v) (hbase : d.base = d₀.base) (hsize : d.size = d₀.size)
  (hbpp : d.bpp = d₀.bpp)

include hbase hsize hbpp in
/-- The buffer is legal and placed as before, so the place in it decides. -/
theorem State.Stands.decodeRle {pos' : ChunkPos} {hdrOut : Header}
    (hs : s.Stands cmd plan (.decodeRle d₀ pos)) (hpos : pos'.legal d) :
    (Cursor.decodeRle d pos').legal cmd plan hdrOut s.pbSize ∧
      ((Cursor.decodeRle d₀ pos).placed s.params cmd plan →
        (Cursor.decodeRle d pos').placed s.params cmd plan) := by
  obtain ⟨hb, hroom, -⟩ := hs.cursor
  refine ⟨⟨hbpp ▸ hb, by rw [hbase, hsize]; exact hroom, hpos⟩, fun hp => ?_⟩
  simpa only [Cursor.placed, hbase, hsize] using hp

include hseq h hbase hsize hbpp

theorem State.chunkEnd_comes : s.Comes P cmd plan (.decodeRle d₀ pos) (v.chunkEnd d) := by
  unfold State.chunkEnd
  split
  next hlt => exact .moveTo hseq h fun _ hs => hs.decodeRle hbase hsize hbpp hlt.le
  next => exact .afterDecode hseq h

theorem State.rawRest_comes {left : Nat} (hfit : P → d.emitted + left ≤ d.size) :
    s.Comes P cmd plan (.decodeRle d₀ pos) (v.rawRest d left) := by
  have hlen := (takeN_length_le left v.source).1
  have hacts := (h.trans (.take v left (.inr rfl))).trans
    (.memWrite (a := d.base + d.emitted) (bs := (takeN left v.source).bytes) _ fun hP x hx => by
      have := hfit hP
      simp only [Cursor.leaves, outside] at hx ⊢
      omega)
  refine .onTaken hseq hacts (fun hlt hP hs => State.Stands.decodeRle
      (d := { d with emitted := d.emitted + (takeN left v.source).bytes.length }) hbase hsize hbpp
      hs ?_)
    fun _ => State.chunkEnd_comes hseq hacts hbase hsize hbpp
  have := hfit hP
  exact ⟨by omega, by dsimp only; omega⟩

theorem State.chunkBody_comes (kind : ChunkKind) {count : Nat} {px : Pixel}
    (hlegal : P → px.length = d.bpp ∧ 1 ≤ count) :
    s.Comes P cmd plan (.decodeRle d₀ pos) (v.chunkBody d kind count px) := by
  unfold State.chunkBody
  split
  next => exact .failed h
  next hfit =>
    cases kind with
    | rep =>
      refine State.chunkEnd_comes hseq (h.trans (.memWrite _ fun hP x hx => ?_)) hbase hsize hbpp
      obtain ⟨hpx, -⟩ := hlegal hP
      simp only [Cursor.leaves, outside, List.length_flatten, List.map_replicate,
        List.sum_replicate, smul_eq_mul, hpx] at hx ⊢
      omega
    | raw =>
      have hcount (hP : P) : d.bpp + (count - 1) * d.bpp = count * d.bpp := by
        rw [Nat.sub_one_mul, Nat.add_sub_cancel' (Nat.le_mul_of_pos_left _ (hlegal hP).2)]
      refine State.rawRest_comes hseq (h.trans (.memWrite _ fun hP x hx => ?_))
        (d := { d with emitted := d.emitted + d.bpp }) hbase hsize hbpp
        fun hP => by have := hcount hP; dsimp only; omega
      have := hcount hP
      obtain ⟨hpx, -⟩ := hlegal hP
      simp only [Cursor.leaves, outside, hpx] at hx ⊢
      omega

theorem State.chunkPixel_comes (kind : ChunkKind) {count : Nat} {got : List Byte}
    (hlegal : P → d.emitted < d.size ∧ 1 ≤ count ∧ count ≤ maxChunk ∧ got.length ≤ d.bpp) :
    s.Comes P cmd plan (.decodeRle d₀ pos) (v.chunkPixel d kind count got) := by
  have hacts := h.trans (.take v (d.bpp - got.length) (.inr rfl))
  refine .onTaken hseq hacts (fun hlt hP hs => hs.decodeRle hbase hsize hbpp ?_)
    fun hfull => State.chunkBody_comes hseq hacts hbase hsize hbpp kind fun hP => ?_
  · obtain ⟨hroom, hpos, hmax, hgot⟩ := hlegal hP
    exact ⟨hroom, hpos, hmax, by rw [List.length_append]; omega⟩
  · obtain ⟨-, hpos, -, hgot⟩ := hlegal hP
    exact ⟨by rw [List.length_append]; omega, hpos⟩

end

theorem State.controlStage_comes (P : Prop) {s : State} {cmd : Command} {plan : Option Plan}
    {d : Decoder} (hseq : s.seq = .run cmd plan (.decodeRle d .control)) :
    s.Comes P cmd plan (.decodeRle d .control) (s.controlStage d) := by
  have hacts := State.Acts.refl P (.decodeRle d .control) s
  by_cases hlt : d.emitted < d.size
  · have htake := State.Acts.take (P := P) (cur := .decodeRle d .control) s 1 (.inr rfl)
    match hs : s.source with
    | [] =>
      have hheld := State.Comes.moveTo hseq hacts fun _ h => ⟨h.cursor, id⟩
      rw [State.moveTo_self hseq] at hheld
      simpa [State.controlStage, hlt, hs] using hheld
    | .byte c :: q =>
      obtain ⟨kind, hrun⟩ := State.runChunkOf_decodeChunk c
      rw [s.controlStage_byte hlt hs, hrun]
      rw [hs] at htake
      exact State.chunkPixel_comes hseq htake rfl rfl rfl kind
        fun _ => ⟨hlt, by omega, by unfold maxChunk; omega, Nat.zero_le _⟩
    | .eos :: q =>
      rw [State.controlStage_short q true hlt hs]
      rw [hs] at htake
      exact .failed htake
    | .fail :: q =>
      rw [State.controlStage_short q false hlt hs]
      rw [hs] at htake
      exact .failed htake
  · rw [State.controlStage, if_neg hlt]
    exact .afterDecode hseq hacts

/-! ### RESAMPLE, HDR_WRITE, ENCODE -/

theorem State.resampleStage_comes (P : Prop) {s : State} {cmd : Command} {plan : Option Plan}
    {g : Geometry} (hseq : s.seq = .run cmd plan (.resample g)) :
    s.Comes P cmd plan (.resample g) (s.resampleStage g) := by
  refine .byPlan
    (next := fun p => .derive (BitVec.ofNat 16 p.dstW) (BitVec.ofNat 16 p.dstH) p.outType) hseq
    (.memWrite s (a := g.dbase) (bs := destBytes s.pbByte g) fun _ x hx => by
      rwa [destBytes_length])
    ?_ ?_ (fun _ _ => trivial) fun p => .inr ⟨rfl, Option.some_ne_none p⟩
  · rintro rfl; simp [State.resampleStage, State.afterResample, hseq, Sequencer.plan]
  · rintro p rfl; simp [State.resampleStage, State.afterResample, hseq, Sequencer.plan]

theorem State.deriveStage_comes (P : Prop) {s : State} {cmd : Command} {plan : Option Plan}
    {width height : Half} {imageType : Byte}
    (hseq : s.seq = .run cmd plan (.derive width height imageType)) :
    s.Comes P cmd plan (.derive width height imageType) (s.deriveStage width height imageType) := by
  refine .byPlan (next := fun _ => .hdrWrite (s.hdrIn.derive width height imageType).toList) hseq
    (.setHdrOut s (s.hdrIn.derive width height imageType))
    ?_ ?_ (fun _ _ => by simp [Cursor.legal]) fun p => .inr ⟨rfl, Option.some_ne_none p⟩
  · rintro rfl; simp [State.deriveStage, State.afterDerive, hseq, Sequencer.plan]
  · rintro p rfl; simp [State.deriveStage, State.afterDerive, hseq, Sequencer.plan]

/-- What is left to offer of HDR_OUT is its end, whatever has been offered. -/
theorem Cursor.legal_hdrWrite_unsent {cmd : Command} {plan : Option Plan} {hdrOut : Header}
    {pbSize : Nat} {sent unsent : List Byte}
    (h : (Cursor.hdrWrite (sent ++ unsent)).legal cmd plan hdrOut pbSize) :
    (Cursor.hdrWrite unsent).legal cmd plan hdrOut pbSize := by
  obtain ⟨hlen, heq⟩ := h
  rw [List.length_append] at hlen heq
  refine ⟨by omega, ?_⟩
  calc unsent = (sent ++ unsent).drop sent.length := List.drop_left.symm
    _ = hdrOut.toList.drop (18 - unsent.length) := by
      rw [heq, List.drop_drop]
      congr 1
      omega

theorem State.hdrWriteStage_comes (P : Prop) {s : State} {cmd : Command} {plan : Option Plan}
    {left : List Byte} (hseq : s.seq = .run cmd plan (.hdrWrite left)) :
    s.Comes P cmd plan (.hdrWrite left) (s.hdrWriteStage left) := by
  have hacts : s.Acts P (.hdrWrite left) (s.afterPut (putN left s.sink)) := .put s _
  refine .onGiven hseq hacts _ (fun _ hs => ⟨?_, id⟩) (.byPlan
    (next := fun p => .encode ((s.afterPut (putN left s.sink)).convertBody p)) hseq hacts
    ?_ ?_ (fun _ _ => trivial) fun p => .inr ⟨rfl, Option.some_ne_none p⟩)
  · have hcur := hs.cursor
    rw [(putN_cases left s.sink).1] at hcur
    exact Cursor.legal_hdrWrite_unsent hcur
  · rintro rfl; simp [State.afterHdrWrite, hseq, Sequencer.plan]
  · rintro p rfl; exact State.afterHdrWrite_of_plan_some _ hseq

theorem State.encodeStage_comes (P : Prop) {s : State} {cmd : Command} {plan : Option Plan}
    {left : List Byte} (hseq : s.seq = .run cmd plan (.encode left)) :
    s.Comes P cmd plan (.encode left) (s.encodeStage left) :=
  have hacts : s.Acts P (.encode left) (s.afterPut (putN left s.sink)) := .put s _
  .onGiven hseq hacts _ (fun _ _ => ⟨trivial, id⟩) (.ended hacts)

/-! ### The engine's step -/

/-- Every step of a running command is one of `State.Comes`, and a decoder inside its buffer writes
inside it. -/
theorem State.engineStep_comes {s : State} {cmd : Command} {plan : Option Plan} {cur : Cursor}
    (hseq : s.seq = .run cmd plan cur) : s.Comes cur.chunkLegal cmd plan cur s.engineStep := by
  rw [s.engineStep_run hseq]
  match cur with
  | .issue => exact State.issueStage_comes _ hseq
  | .hdrRead k => exact State.hdrReadStage_comes _ hseq
  | .validate => exact State.validateStage_comes _ hseq
  | .decodeRaw base size done => exact State.decodeRawStage_comes _ hseq
  | .decodeRle d .control => exact State.controlStage_comes _ hseq
  | .decodeRle d (.firstPixel kind count got) =>
    exact State.chunkPixel_comes hseq (.refl _ _ s) rfl rfl rfl kind
      fun ⟨hroom, hpos, hmax, hgot⟩ => ⟨hroom, hpos, hmax, hgot.le⟩
  | .decodeRle d (.rest left) =>
    exact State.rawRest_comes hseq (.refl _ _ s) rfl rfl rfl fun ⟨_, hfit⟩ => hfit
  | .resample g => exact State.resampleStage_comes _ hseq
  | .derive width height imageType => exact State.deriveStage_comes _ hseq
  | .hdrWrite left => exact State.hdrWriteStage_comes _ hseq
  | .encode left => exact State.encodeStage_comes _ hseq

end Sys2Proof.Machine
end

section
/-!
The invariant: the reset state meets it, and every step keeps it, with cursors in their place
(10_state.md R16, R17, R26 to R28; 20_memory.md R40, R47).
-/

namespace Sys2Proof.Machine

/-! ### The parts of the invariant -/

/-- A state in IDLE meets the invariant by its registers and PB alone. -/
theorem State.inv_idle_iff {s : State} (hseq : s.seq = .idle) :
    s.Inv ↔ (s.status = 0b000 ∨ s.status = 0b010) ∧ s.errinfo = 0 ∧ s.pbLegal ∧ s.drawsLegal := by
  have hne : s.seq ≠ .error := by simp [hseq]
  rw [State.Inv, State.seqLegal, hseq, State.errinfoLegal, if_neg hne]

/-- An error state meets it where its ERRINFO was recorded by error entry. -/
theorem State.inv_of_error {s : State} (hseq : s.seq = .error) (hstatus : s.status = statusErr)
    {e : ErrorCode} {st : Stage} (herrinfo : s.errinfo = errinfoOf e st) (hpb : s.pbLegal)
    (hdraws : s.drawsLegal) : s.Inv := by
  refine ⟨by rw [State.seqLegal, hseq]; exact hstatus, ?_, hpb, hdraws⟩
  rw [State.errinfoLegal, if_pos hseq, herrinfo, errinfoOf_code, errinfoOf_stage]
  have hcode : 1 ≤ e.number.toNat ∧ e.number.toNat ≤ 9 := by cases e <;> decide
  exact ⟨hcode.1, hcode.2, by cases st <;> decide⟩

theorem State.inv_run_iff {s : State} {cmd : Command} {plan : Option Plan} {cur : Cursor}
    (hseq : s.seq = .run cmd plan cur) :
    s.Inv ↔ (s.status = statusBusy ∧ s.Stands cmd plan cur) ∧ s.errinfo = 0 ∧ s.pbLegal ∧
      s.drawsLegal := by
  have hne : s.seq ≠ .error := by simp [hseq]
  rw [State.Inv, State.seqLegal_run_iff hseq, State.errinfoLegal, if_neg hne]

theorem State.placed_of_not_active {s : State} (h : s.seq = .idle ∨ s.seq = .error) : s.Placed := by
  unfold State.Placed
  rcases h with h | h <;> rw [h] <;> trivial

/-- Where SEQ and STATUS agree, IDLE in STATUS is IDLE in SEQ (10_state.md R16, R26). -/
theorem State.seq_idle_of_isIdle {s : State} (h : s.seqLegal) (hidle : s.isIdle = true) :
    s.seq = .idle := by
  obtain ⟨hbusy, herr⟩ := s.isIdle_iff.mp hidle
  match hseq : s.seq with
  | .idle => rfl
  | .error =>
    rw [State.seqLegal, hseq] at h
    simp [State.err, h] at herr
  | .run cmd plan cur =>
    obtain ⟨hstatus, -⟩ := (State.seqLegal_run_iff hseq).mp h
    simp [State.busy, hstatus, statusBusy] at hbusy

/-! ### PB and the draws -/

/-- A write inside PB keeps its canonical form below PB_SIZE. -/
theorem State.pbLegal.memWrite {s : State} (h : s.pbLegal) {a : Nat} {bs : List Byte}
    (hroom : a + bs.length ≤ s.pbSize) : (s.memWrite a bs).pbLegal := by
  obtain ⟨hpos, hmax, hwf, hlt⟩ := h
  refine ⟨hpos, hmax, Memory.wf_setBlock hwf a bs, fun x hx => ?_⟩
  obtain ⟨-, hx⟩ | hx := Memory.mem_setBlock hx
  · exact lt_of_lt_of_le hx hroom
  · exact hlt x hx

/-- A stage writes inside PB (20_memory.md R40). -/
theorem Cursor.lt_of_not_leaves {cur : Cursor} {cmd : Command} {plan : Option Plan}
    {hdrOut : Header} {pbSize a : Nat} (h : cur.legal cmd plan hdrOut pbSize)
    (ha : ¬ cur.leaves a) : a < pbSize := by
  cases cur with
  | decodeRaw base size done =>
    obtain ⟨hroom, -⟩ := h
    simp only [Cursor.leaves, outside] at ha
    omega
  | decodeRle d pos =>
    obtain ⟨-, hroom, -⟩ := h
    simp only [Cursor.leaves, outside] at ha
    omega
  | resample g =>
    obtain ⟨-, hroom⟩ := Geometry.regions_le_of_legal h
    simp only [Cursor.leaves, outside] at ha
    omega
  | issue | hdrRead _ | validate | derive _ _ _ | hdrWrite _ | encode _ => exact absurd trivial ha

theorem Cursor.chunkLegal_of_legal {cur : Cursor} {cmd : Command} {plan : Option Plan}
    {hdrOut : Header} {pbSize : Nat} (h : cur.legal cmd plan hdrOut pbSize) : cur.chunkLegal := by
  cases cur with
  | decodeRle d pos => exact h.2.2
  | issue | hdrRead _ | validate | decodeRaw _ _ _ | resample _ | derive _ _ _ | hdrWrite _
  | encode _ => trivial

section
variable {s v : State} {cmd : Command} {plan : Option Plan} {cur : Cursor}
  (h : s.Acts cur.chunkLegal cur v)
include h

theorem State.Acts.pbLegal (hs : s.Stands cmd plan cur) (hpb : s.pbLegal) : v.pbLegal := by
  obtain ⟨hpos, hmax, hwf, hlt⟩ := hpb
  unfold State.pbLegal
  rw [h.fixed.pbSize]
  refine ⟨hpos, hmax, h.wf hwf, fun x hx => ?_⟩
  obtain hx | hx := h.listed (Cursor.chunkLegal_of_legal hs.cursor) x hx
  · exact hlt x hx
  · exact Cursor.lt_of_not_leaves hs.cursor hx

theorem State.Acts.drawsLegal (hdraws : s.drawsLegal) : v.drawsLegal := by
  unfold State.drawsLegal
  rw [h.fixed.pbDraw, h.pbFree, h.draws]
  exact hdraws

end

/-- What a failing command makes unspecified, by cases (60_exceptions.md R188). -/
theorem State.spoil_cases (s : State) :
    s.spoil = s ∨ s.spoil = s.freeHdrIn ∨ ∃ base len, s.spoil = s.freePb base len := by
  unfold State.spoil
  split
  · exact .inl rfl
  · exact .inl rfl
  next plan cur _ =>
    cases cur with
    | issue | validate | resample _ | derive _ _ _ => exact .inl rfl
    | hdrRead _ => exact .inr (.inl rfl)
    | decodeRaw _ _ _ | decodeRle _ _ => cases plan <;> exact .inr (.inr ⟨_, _, rfl⟩)
    | hdrWrite _ | encode _ =>
      cases plan with
      | none => exact .inl rfl
      | some p => exact .inr (.inr ⟨_, _, rfl⟩)

theorem State.pbLegal.raise {s : State} (h : s.pbLegal) (e : ErrorCode) : (s.raise e).pbLegal := by
  obtain ⟨hpos, hmax, hwf, hlt⟩ := h
  have hpb : s.spoil.pb.wf ∧ ∀ x ∈ s.spoil.pb, x.1 < s.pbSize := by
    obtain hs | hs | ⟨base, len, hs⟩ := s.spoil_cases <;> rw [hs]
    · exact ⟨hwf, hlt⟩
    · exact ⟨hwf, hlt⟩
    · exact ⟨Memory.wf_clear hwf base len, fun x hx => hlt x (Memory.mem_clear hx)⟩
  unfold State.pbLegal
  rw [State.raise_pbSize]
  exact ⟨hpos, hmax, hpb.1, hpb.2⟩

/-- A number drawn for a new region is below the next one. -/
theorem State.drawsLegal.raise {s : State} (h : s.drawsLegal) (e : ErrorCode) :
    (s.raise e).drawsLegal := by
  obtain ⟨hdraw, hfree⟩ := h
  unfold State.drawsLegal
  rw [State.raise_pbDraw, State.raise_pbFree, State.raise_draws]
  obtain hs | hs | ⟨base, len, hs⟩ := s.spoil_cases <;> rw [hs]
  · exact ⟨hdraw, hfree⟩
  · exact ⟨Nat.lt_succ_of_lt hdraw, fun r hr => Nat.lt_succ_of_lt (hfree r hr)⟩
  · refine ⟨Nat.lt_succ_of_lt hdraw, fun r hr => ?_⟩
    obtain rfl | hr := List.mem_cons.mp hr
    · exact Nat.lt_succ_self _
    · exact Nat.lt_succ_of_lt (hfree r hr)

/-! ### The engine -/

theorem State.Inv.engineStep {s : State} (h : s.Inv) :
    s.engineStep.Inv ∧ (s.Placed → s.engineStep.Placed) := by
  match hseq : s.seq with
  | .idle | .error => simpa [State.engineStep, hseq] using h
  | .run cmd plan cur =>
    obtain ⟨⟨hstatus, hs⟩, herrinfo, hpb, hdraws⟩ := (State.inv_run_iff hseq).mp h
    have hcomes := State.engineStep_comes hseq
    generalize s.engineStep = t at hcomes ⊢
    cases hcomes with
    | @failed v e hacts =>
      exact ⟨State.inv_of_error rfl rfl rfl ((hacts.pbLegal hs hpb).raise e)
        ((hacts.drawsLegal hdraws).raise e), fun _ => State.placed_of_not_active (.inr rfl)⟩
    | ended hacts =>
      exact ⟨(State.inv_idle_iff rfl).mpr ⟨.inr rfl, hacts.errinfo.trans herrinfo,
        hacts.pbLegal hs hpb, hacts.drawsLegal hdraws⟩,
        fun _ => State.placed_of_not_active (.inl rfl)⟩
    | goes hacts _ hstands =>
      obtain ⟨-, hs', hplaced⟩ := hstands (Cursor.chunkLegal_of_legal hs.cursor) hs
      exact ⟨(State.inv_run_iff rfl).mpr ⟨⟨hacts.status.trans hstatus, hs'⟩,
        hacts.errinfo.trans herrinfo, hacts.pbLegal hs hpb, hacts.drawsLegal hdraws⟩, hplaced⟩

theorem State.Inv.engineTurn {s t : State} (h : s.Inv) (hturn : s.engineTurn = .next t) :
    t.Inv ∧ (s.Placed → t.Placed) := by
  obtain ⟨-, heq⟩ | ⟨-, -, heq⟩ | ⟨-, -, heq⟩ := s.engineTurn_cases <;> rw [heq] at hturn <;>
    cases hturn
  · exact ⟨h, id⟩
  · exact h.engineStep

/-- A command accepted in IDLE stands at ISSUE, and its run keeps the invariant. -/
theorem State.Inv.issue {s : State} (h : s.Inv) (cmd : Command) :
    (s.issue cmd).Inv ∧ (s.Placed → (s.issue cmd).Placed) := by
  by_cases hidle : s.isIdle = true
  · obtain ⟨-, herrinfo, hpb, hdraws⟩ :=
      (State.inv_idle_iff (State.seq_idle_of_isIdle h.1 hidle)).mp h
    have haccept : (s.accept cmd).Inv ∧ (s.accept cmd).Placed :=
      ⟨(State.inv_run_iff (cmd := cmd) (plan := none) (cur := .issue) rfl).mpr
        ⟨⟨rfl, rfl, nofun⟩, herrinfo, hpb, hdraws⟩, rfl, nofun⟩
    have hkeeps (u : State) (_ : u.ready = true) (hu : u.Inv ∧ u.Placed) :
        u.engineStep.Inv ∧ u.engineStep.Placed :=
      ⟨hu.1.engineStep.1, hu.1.engineStep.2 hu.2⟩
    have hissue : (s.issue cmd).Inv ∧ (s.issue cmd).Placed := by
      match hpace : s.pace with
      | .stepwise => rwa [s.issue_stepwise cmd hidle hpace]
      | .runAhead =>
        rw [s.issue_runAhead cmd hidle hpace]
        exact State.settle_keeps (fun u => u.Inv ∧ u.Placed) hkeeps _ haccept
    exact ⟨hissue.1, fun _ => hissue.2⟩
  · rw [s.issue_dropped cmd (Bool.eq_false_iff.mpr hidle)]
    exact ⟨h, id⟩

/-! ### The events of the environment -/

theorem isCommand_of_decodeCommand {w : Word} {i : Instr} (h : decodeCommand w = .ok i) :
    i.isCommand = true := by
  obtain ⟨opc, -, hopc⟩ := (decodeCommand_eq_ok_iff w i).mp h
  have hbits : (encode i).nbits = 32 := congrArg Encoded.nbits (encode_of_decodeOpcode hopc).2
  cases i with
  | rep _ | raw _ => cases hbits
  | nop | rdhdr | drvhdr | wrhdr | decrle | encrle | decraw | encraw | resample | convert | srst =>
    rfl

/-- A CMD write: a command, or one that is none (30_encoding.md R61 to R63). -/
theorem State.Inv.cmdWrite {s t : State} {w : Word} (h : s.Inv) (hnext : cmdWrite w s = .next t) :
    t.Inv ∧ (s.Placed → t.Placed) := by
  have hidle (hi : s.isIdle = true) := (State.inv_idle_iff (State.seq_idle_of_isIdle h.1 hi)).mp h
  unfold Machine.cmdWrite at hnext
  split at hnext
  next i hdecode =>
    obtain hcmd | rfl | rfl := isCommand_cases (isCommand_of_decodeCommand hdecode)
    · obtain ⟨cmd, hcmd⟩ := hcmd
      rw [exec_of_commandOf hcmd] at hnext
      cases hnext
      exact h.issue cmd
    · by_cases hi : s.isIdle = true
      · rw [exec_nop_of_isIdle hi] at hnext
        cases hnext
        have hseq := State.seq_idle_of_isIdle h.1 hi
        exact ⟨(State.inv_idle_iff (by exact hseq)).mpr ⟨.inr rfl, (hidle hi).2⟩, id⟩
      · rw [exec_nop_of_not_isIdle (Bool.eq_false_iff.mpr hi)] at hnext
        cases hnext
        exact ⟨h, id⟩
    · match hbusy : s.busy with
      | true =>
        rw [exec_srst_of_busy hbusy] at hnext
        cases hnext
        exact ⟨h, id⟩
      | false =>
        rw [exec_srst_of_not_busy hbusy] at hnext
        cases hnext
        obtain ⟨-, -, hpb, hdraws⟩ := h
        exact ⟨(State.inv_idle_iff rfl).mpr ⟨.inl rfl, rfl, hpb, hdraws⟩,
          fun _ => State.placed_of_not_active (.inl rfl)⟩
  next =>
    cases hnext
    unfold State.illegalCommand
    split
    next hi =>
      obtain ⟨-, -, hpb, hdraws⟩ := h
      exact ⟨State.inv_of_error rfl rfl rfl hpb hdraws,
        fun _ => State.placed_of_not_active (.inr rfl)⟩
    next => exact ⟨h, id⟩

theorem State.Inv.hostWrite {s : State} (h : s.Inv) (n : Nat) (v : Word) :
    (s.hostWrite n v).Inv ∧ (s.Placed → (s.hostWrite n v).Placed) := by
  unfold State.hostWrite
  split
  next hi =>
    have hseq := State.seq_idle_of_isIdle h.1 hi
    exact ⟨(State.inv_idle_iff (by exact hseq)).mpr ((State.inv_idle_iff hseq).mp h),
      fun _ => State.placed_of_not_active (.inl hseq)⟩
  next => exact ⟨h, id⟩

theorem State.Inv.hostPbWrite {s t : State} {a : Nat} {b : Byte} (h : s.Inv)
    (hnext : s.hostPbWrite a b = .next t) : t.Inv ∧ (s.Placed → t.Placed) := by
  unfold State.hostPbWrite at hnext
  split at hnext
  next =>
    split at hnext <;> cases hnext
    next ha =>
      obtain ⟨hseq, herrinfo, hpb, hdraws⟩ := h
      exact ⟨⟨hseq, herrinfo, hpb.memWrite ha, hdraws⟩, id⟩
  next =>
    cases hnext
    exact ⟨h, id⟩

/-- A draw more leaves the invariant, for it speaks of the draws in use. -/
theorem State.Inv.replyFree {s : State} (h : s.Inv) (place : Nat) : (s.replyFree place).Inv := by
  obtain ⟨hseq, herrinfo, hpb, hdraw, hfree⟩ := h
  exact ⟨hseq, herrinfo, hpb, Nat.lt_succ_of_lt hdraw, fun r hr => Nat.lt_succ_of_lt (hfree r hr)⟩

theorem State.Inv.hostRead {s : State} (h : s.Inv) (n : Nat) :
    (s.hostRead n).Inv ∧ (s.Placed → (s.hostRead n).Placed) := by
  unfold State.hostRead
  split
  · exact ⟨h.replyFree n, id⟩
  · exact ⟨h, id⟩

theorem State.Inv.hostPbRead {s t : State} {a : Nat} (h : s.Inv)
    (hnext : s.hostPbRead a = .next t) : t.Inv ∧ (s.Placed → t.Placed) := by
  unfold State.hostPbRead at hnext
  split at hnext <;> cases hnext
  split
  · exact ⟨h.replyFree a, id⟩
  · exact ⟨h, id⟩

/-- The reset's own draws are below the next one (70_reset_and_hazards.md R210). -/
theorem State.Inv.resetEvent {s : State} (h : s.Inv) (inFlight : Bool) :
    (s.resetEvent inFlight).Inv := by
  obtain ⟨-, -, ⟨hpos, hmax, -, -⟩, -⟩ := h
  rw [State.resetEvent_eq]
  exact (State.inv_idle_iff rfl).mpr
    ⟨.inl rfl, rfl, ⟨hpos, hmax, .nil, nofun⟩, by simp [State.drawsLegal]⟩

theorem State.Inv.handle {s t : State} {e : Event} (h : s.Inv) (hnext : handle e s = .next t) :
    t.Inv ∧ (s.Placed → t.Placed) := by
  cases e with
  | wr n v =>
    by_cases hn : n = 0
    · subst hn
      exact h.cmdWrite hnext
    · rw [Machine.handle, if_neg hn] at hnext
      cases hnext
      exact h.hostWrite n v
  | rd n => cases hnext; exact h.hostRead n
  | pbwr a b => exact h.hostPbWrite hnext
  | pbrd a => exact h.hostPbRead hnext
  | source answer | sink answer => cases hnext; exact ⟨h, id⟩
  | rst inFlight =>
    cases hnext
    refine ⟨h.resetEvent inFlight, fun _ => State.placed_of_not_active (.inl ?_)⟩
    rw [State.resetEvent_eq]
    rfl
  | engine => exact h.engineTurn hnext

/-! ### Reset and step -/

/-- Settles O48: the registers are 0, nothing is listed in PB, and three draws are in use. -/
theorem resetMeetsTheInvariant : Obligations.ResetMeetsTheInvariant := by
  have hsize : 1 ≤ Config.pbSize ∧ Config.pbSize ≤ 2 ^ 32 :=
    ⟨Nat.le_add_left _ _, Config.pbTop.isLt⟩
  exact ⟨(State.inv_idle_iff rfl).mpr
    ⟨.inl rfl, rfl, ⟨hsize.1, hsize.2, .nil, nofun⟩, by decide, nofun⟩, trivial⟩

/-- Settles O49: each event keeps the invariant, and so does the engine, whose step leaves a command
only where it may stand. -/
theorem stepKeepsTheInvariant : Obligations.StepKeepsTheInvariant := by
  intro s t hinv hstep
  match hag : s.agenda with
  | [] =>
    rw [step_nil s hag] at hstep
    exact hinv.engineTurn hstep
  | e :: es =>
    rw [step_cons s hag] at hstep
    exact State.Inv.handle (s := { s with agenda := es }) hinv hstep

end Sys2Proof.Machine
end

section
/-!
The families 10_state.md and 30_encoding.md, the host: what its accesses write and return in each
state (R13, R14, R22, R25, R28), which event a step is (R10, R15), and which command writes are
dropped or accepted (R63).
-/

namespace Sys2Proof.Machine

/-! ### Reads of registers (10_state.md R13, R14) -/

theorem State.registerValue_of_le (s : State) {n : Nat} (h : 16 ≤ n) :
    s.registerValue n = (s.headerRegister n).setWidth 32 := by
  obtain ⟨k, rfl⟩ := Nat.exists_eq_add_of_le' h
  rfl

/-- Settles O6: one case per register number, and the free bytes by their draws. -/
theorem resetState : Obligations.ResetState := by
  refine ⟨fun n hn => ?_, rfl, by decide, fun k hk =>
    ⟨Config.getElem_freeHeader 0 k hk, Config.getElem_freeHeader 1 k hk⟩, fun _ => rfl⟩
  interval_cases n <;> rfl

/-- The bytes of the header files by register number (10_state.md R20). -/
theorem State.headerRegister_toNat (s : State) {n : Nat} (h : 16 ≤ n) :
    (s.headerRegister n).toNat =
      if n ≤ 33 then (s.hdrIn.toList.getD (n - 16) 0).toNat
      else if n ≤ 51 then (s.hdrOut.toList.getD (n - 34) 0).toNat else 0 := by
  have hgetD (r : Header) (k : Nat) (hk : k < 18) : r.toList.getD k 0 = r[k] := by
    simp [List.getD, hk]
  rw [State.headerRegister, if_neg (by omega)]
  by_cases hin : n ≤ 33
  · rw [dif_pos (by omega), if_pos hin, hgetD _ _ (by omega)]
  · rw [dif_neg (by omega), if_neg hin]
    by_cases hout : n ≤ 51
    · rw [dif_pos (by omega), if_pos hout, hgetD _ _ (by omega)]
    · rw [dif_neg (by omega), if_neg hout]
      rfl

/-- Settles O10: the read is one of two replies, and the value is the field the register's number
stands for. -/
theorem hostReadsHaveNoSideEffect : Obligations.HostReadsHaveNoSideEffect := by
  refine fun s n => ⟨?_, ?_⟩
  · simp only [handle, State.hostRead, isHeaderRegister, Bool.and_eq_true, decide_eq_true_eq]
    split <;> rfl
  · by_cases herrinfo : n = 2
    · subst herrinfo
      cases hbusy : s.busy <;>
        simp [State.registerValue, hbusy, -BitVec.toNat_setWidth, BitVec.toNat_setWidth_of_le]
    by_cases hn : n ≤ 15
    · interval_cases n <;>
        simp [State.registerValue, -BitVec.toNat_setWidth, BitVec.toNat_setWidth_of_le] at herrinfo ⊢
    · have hne : ∀ k ≤ 15, n ≠ k := fun k hk => by omega
      rw [s.registerValue_of_le (by omega), BitVec.toNat_setWidth_of_le (by decide),
        s.headerRegister_toNat (by omega)]
      simp [hne]

/-! ### Writes of registers (10_state.md R13, R14, R25) -/

/-- A stored field is read as the low bits of the word written (10_state.md R13). -/
theorem setWidth_setWidth_word (v : Word) (w : Nat) :
    (v.setWidth w).setWidth 32 = BitVec.ofNat 32 (v.toNat % 2 ^ w) :=
  BitVec.eq_of_toNat_eq (by simp)

theorem Header.getElem_write (h : Header) {first n k : Nat} (v : Word) (hk : k < 18) :
    (h.write first n v)[k] = if n = first + k then v.setWidth 8 else h[k] := by
  unfold Header.write
  split
  next hle =>
    split
    next hlt =>
      rw [Vector.getElem_set]
      exact if_congr (by omega) rfl rfl
    next hge => rw [if_neg (by omega)]
  next hlt => rw [if_neg (by omega)]

/-- A write to a number outside the header files leaves them. -/
theorem Header.write_of_not_mem (h : Header) {first n : Nat} (v : Word)
    (hn : ¬ (first ≤ n ∧ n < first + 18)) : h.write first n v = h :=
  Vector.ext fun k hk => by rw [h.getElem_write v hk, if_neg (by omega)]

/-- A write to a number outside 3 to 13 leaves the parameter registers. -/
theorem Params.write_of_not_mem (p : Params) {n : Nat} (v : Word) (hn : ¬ (3 ≤ n ∧ n ≤ 13)) :
    p.write n v = p := by
  unfold Params.write
  split
  case h_12 => rfl
  all_goals omega

section
variable (s : State) (v : Word)

theorem State.headerRegister_hostWrite {n m : Nat} (hidle : s.isIdle = true) :
    (s.hostWrite n v).headerRegister m =
      if m = n ∧ 16 ≤ n ∧ n ≤ 51 then v.setWidth 8 else s.headerRegister m := by
  rw [State.hostWrite, if_pos hidle]
  unfold State.headerRegister
  dsimp only
  split
  next => rw [if_neg (by omega)]
  next =>
    split
    next =>
      rw [Header.getElem_write]
      exact if_congr (by omega) rfl rfl
    next =>
      split
      next =>
        rw [Header.getElem_write]
        exact if_congr (by omega) rfl rfl
      next => rw [if_neg (by omega)]

/-- A parameter register is written alone: each number has a field of its own. -/
theorem State.registerValue_write_other {n m : Nat} (hm : m ≠ n) :
    ({ s with params := s.params.write n v } : State).registerValue m = s.registerValue m := by
  unfold Params.write
  split
  case h_12 => rfl
  all_goals
    unfold State.registerValue
    split <;> trivial

theorem State.registerValue_hostWrite {n m : Nat} (hidle : s.isIdle = true) (hm : m ≤ 15) :
    (s.hostWrite n v).registerValue m =
      ({ s with params := s.params.write n v } : State).registerValue m := by
  rw [State.hostWrite, if_pos hidle]
  interval_cases m <;> rfl

theorem State.registerValue_hostWrite_other {n m : Nat} (hidle : s.isIdle = true) (hm : m ≠ n) :
    (s.hostWrite n v).registerValue m = s.registerValue m := by
  by_cases hle : m ≤ 15
  · rw [s.registerValue_hostWrite v hidle hle, s.registerValue_write_other v hm]
  · rw [State.registerValue_of_le _ (by omega), s.registerValue_of_le (by omega),
      s.headerRegister_hostWrite v hidle, if_neg (fun h => hm h.1)]

/-- The register written: its low bits where it can be written, else what it was (10_state.md R13,
R14). -/
theorem State.registerValue_hostWrite_same {n : Nat} (hidle : s.isIdle = true) (hn : n ≠ 0) :
    (s.hostWrite n v).registerValue n =
      if n = 3 ∨ n = 4 then BitVec.ofNat 32 (v.toNat % 2 ^ 3)
      else if n = 5 ∨ n = 6 ∨ n = 7 ∨ n = 10 then v
      else if n = 8 ∨ n = 9 ∨ n = 11 ∨ n = 12 then BitVec.ofNat 32 (v.toNat % 2 ^ 16)
      else if n = 13 ∨ 16 ≤ n ∧ n ≤ 51 then BitVec.ofNat 32 (v.toNat % 2 ^ 8)
      else s.registerValue n := by
  by_cases hle : n ≤ 15
  · rw [s.registerValue_hostWrite v hidle hle]
    interval_cases n <;> simp [State.registerValue, Params.write, setWidth_setWidth_word] at hn ⊢
  · have hne : ∀ k ≤ 15, n ≠ k := fun k hk => by omega
    rw [State.registerValue_of_le _ (by omega), s.headerRegister_hostWrite v hidle]
    by_cases hheader : n ≤ 51
    · rw [if_pos ⟨rfl, by omega, hheader⟩, setWidth_setWidth_word]
      simp [hne, hheader, show 16 ≤ n by omega]
    · rw [if_neg (by omega), ← s.registerValue_of_le (by omega)]
      simp [hne, hheader]

end

/-- Settles O8: the register written by its width, every other one by its own field. -/
theorem hostWriteStoresTheLowBits : Obligations.HostWriteStoresTheLowBits := by
  refine fun s n v hidle hn => ⟨s.hostWrite n v, if_neg hn,
    s.registerValue_hostWrite_same v hidle hn,
    fun m hm => s.registerValue_hostWrite_other v hidle hm, ?_⟩
  rw [State.hostWrite, if_pos hidle]

/-- Settles O9: outside IDLE both kinds of write leave the state the event is handled in. -/
theorem hostWritesAreDroppedOutsideIdle : Obligations.HostWritesAreDroppedOutsideIdle := by
  intro s es hidle
  have hidle : ({ s with agenda := es } : State).isIdle = false := hidle
  refine ⟨fun n v hn hag => ?_, fun a b hag => ?_⟩ <;> rw [step_cons s hag]
  · simp [handle, hn, State.hostWrite, hidle]
  · simp [handle, State.hostPbWrite, hidle]

/-! ### PB (10_state.md R22, R25) -/

theorem State.hostPbRead_of_not_busy {s : State} {a : Nat} (ha : a < s.pbSize)
    (hbusy : s.busy = false) :
    s.hostPbRead a = .next { s with replies := (s.pbByte a).setWidth 32 :: s.replies } := by
  rw [State.hostPbRead, if_pos ha, hbusy]
  rfl

theorem State.hostPbRead_of_busy {s : State} {a : Nat} (ha : a < s.pbSize)
    (hbusy : s.busy = true) :
    s.hostPbRead a = .next { s with
      replies := (Config.freeByte s.draws a).setWidth 32 :: s.replies, draws := s.draws + 1 } := by
  rw [State.hostPbRead, if_pos ha, hbusy]
  rfl

/-- Settles O11: in IDLE the byte is written to its place in PB, and a read outside BUSY returns
what is there. -/
theorem hostPbWriteIsReadBack : Obligations.HostPbWriteIsReadBack := by
  refine ⟨fun s a b hidle ha => ?_, fun s a ha =>
    ⟨State.hostPbRead_of_not_busy ha, State.hostPbRead_of_busy ha⟩⟩
  have hbyte : (s.memWrite a [b]).pbByte a = b := by simp [State.pbByte_memWrite]
  refine ⟨s.memWrite a [b], by simp [handle, State.hostPbWrite, hidle, ha], hbyte, fun x hx => ?_,
    rfl, ?_⟩
  · exact s.pbByte_memWrite_outside (base := a) (len := 1) le_rfl le_rfl
      (by unfold outside; omega)
  · rw [handle, State.hostPbRead_of_not_busy (by exact ha) (by exact (s.isIdle_iff.mp hidle).1),
      hbyte]

/-! ### The step and the commands (10_state.md R10, R15; 30_encoding.md R61, R63) -/

/-- Settles O12: a word of the opcode map is a CMD write's command. -/
theorem stepRunsTheCommandWritten : Obligations.StepRunsTheCommandWritten := by
  refine ⟨fun s w i es hag hword => ?_, fun s e es hag => step_cons s hag, step_nil⟩
  have hdecode := (decodeTableWord_command w i).mp hword
  rw [step_cons s hag]
  simp [handle, cmdWrite, hdecode]

/-- Settles O14: the engine is not ready, so its turn leaves the state. -/
theorem heldOrIdleEngineStays : Obligations.HeldOrIdleEngineStays := by
  intro s hag hheld
  have hready : s.ready = false := by
    rcases hheld with h | h | ⟨h, hs⟩ | ⟨⟨b, h⟩, hs⟩
    · exact s.ready_idle h
    · exact s.ready_error h
    · simp [State.ready, h, hs]
    · simp [State.ready, h, hs]
  rw [step_nil s hag, State.engineTurn, hready]
  rfl

/-- A command but SRST has an effect in IDLE alone. -/
theorem exec_dropped {s : State} {i : Instr} (hi : i.isCommand = true) (hsrst : i ≠ .srst)
    (hidle : s.isIdle = false) : exec i s = .next s := by
  obtain ⟨cmd, hcmd⟩ | rfl | rfl := isCommand_cases hi
  · rw [exec_of_commandOf hcmd, s.issue_dropped cmd hidle]
  · exact exec_nop_of_not_isIdle hidle
  · exact absurd rfl hsrst

theorem exec_dropped_of_busy {s : State} {i : Instr} (hi : i.isCommand = true)
    (hbusy : s.busy = true) : exec i s = .next s := by
  by_cases hsrst : i = .srst
  · rw [hsrst, exec_srst_of_busy hbusy]
  · exact exec_dropped hi hsrst (by simp [State.isIdle, hbusy])

/-- A CMD write is dropped where its command would be, and an illegal one outside IDLE. -/
theorem cmdWrite_dropped {s : State} {w : Word} (hidle : s.isIdle = false)
    (hexec : ∀ i, decodeCommand w = .ok i → exec i s = .next s) : cmdWrite w s = .next s := by
  unfold cmdWrite
  split
  next i hdecode => exact hexec i hdecode
  next => rw [State.illegalCommand, if_neg (Bool.eq_false_iff.mp hidle)]

/-- Settles O17: outside IDLE only SRST has an effect, and that in ERROR. -/
theorem commandsAreDroppedOutsideIdle : Obligations.CommandsAreDroppedOutsideIdle := by
  have hbusy {s : State} (h : s.busy = true) : s.isIdle = false := by simp [State.isIdle, h]
  have herr {s : State} (h : s.err = true) : s.isIdle = false := by simp [State.isIdle, h]
  refine ⟨fun s i hi => ⟨exec_dropped_of_busy hi, fun h hsrst => exec_dropped hi hsrst (herr h)⟩,
    fun s w => ⟨fun h => ?_, fun h hw => ?_⟩⟩
  · exact cmdWrite_dropped (hbusy h) fun i hdecode =>
      exec_dropped_of_busy (isCommand_of_decodeCommand hdecode) h
  · refine cmdWrite_dropped (herr h) fun i hdecode =>
      exec_dropped (isCommand_of_decodeCommand hdecode) ?_ (herr h)
    rintro rfl
    exact hw (eq_of_decodeCommand_srst hdecode)

/-- Settles O18: in the stepwise pace issuing is acceptance. -/
theorem acceptanceShowsBusyAtIssue : Obligations.AcceptanceShowsBusyAtIssue := by
  intro s i cmd hcmd hidle hpace
  rw [exec_of_commandOf hcmd, s.issue_stepwise cmd hidle hpace]
  rfl

end Sys2Proof.Machine
end

section
/-!
The frames: what a step of the engine, an instruction and a turn leave of the header files, PB and
the streams, completed, held or failed (10_state.md R19 to R24, R29; 20_memory.md R47, R48, R53;
30_encoding.md R64; 60_exceptions.md R188).
-/

namespace Sys2Proof.Machine

/-! ### One step of the engine -/

section
variable {s : State} {cmd : Command} {plan : Option Plan} {cur : Cursor}
  (hseq : s.seq = .run cmd plan cur)
include hseq

/-- Only a header read spoils HDR_IN (60_exceptions.md R188). -/
theorem State.spoil_hdrIn_of_stage (hstage : cur.stage ≠ .hdrRead) : s.spoil.hdrIn = s.hdrIn := by
  unfold State.spoil
  rw [hseq]
  cases cur with
  | hdrRead _ => exact absurd rfl hstage
  | issue | validate | resample _ | derive _ _ _ => rfl
  | decodeRaw _ _ _ | decodeRle _ _ | hdrWrite _ | encode _ => cases plan <;> rfl

/-- What a failure frees of PB is the codec buffer, or both regions of a CONVERT (60_exceptions.md
R188). -/
theorem State.spoil_pbByte_of_leaves {a : Nat} (hleaves : cur.leaves a)
    (hplan : ∀ q, plan = some q → outside 0 (q.srcBytes + q.dstBytes) a) :
    s.spoil.pbByte a = s.pbByte a := by
  have hfree {base len : Nat} (ha : outside base len a) :
      (s.freePb base len).pbByte a = s.pbByte a := by
    rw [State.pbByte_freePb, if_neg (by unfold outside at ha; omega)]
  unfold State.spoil
  rw [hseq]
  cases cur with
  | issue | hdrRead _ | validate | resample _ | derive _ _ _ => rfl
  | decodeRaw _ _ _ | decodeRle _ _ =>
    cases plan with
    | none => exact hfree hleaves
    | some q => exact hfree (hplan q rfl)
  | hdrWrite _ | encode _ =>
    cases plan with
    | none => rfl
    | some q => exact hfree (hplan q rfl)

variable {P : Prop} {t : State} (h : s.Comes P cmd plan cur t)
include h

theorem State.Comes.hdrIn_eq (hstage : cur.stage ≠ .hdrRead) : t.hdrIn = s.hdrIn := by
  cases h with
  | failed h =>
    rw [State.raise_hdrIn, State.spoil_hdrIn_of_stage (h.seq.trans hseq) hstage, h.hdrIn hstage]
  | ended h | goes h => exact h.hdrIn hstage

theorem State.Comes.pbByte_eq (hP : P) {a : Nat} (hleaves : cur.leaves a)
    (hplan : ∀ q, plan = some q → outside 0 (q.srcBytes + q.dstBytes) a) :
    t.pbByte a = s.pbByte a := by
  cases h with
  | @failed v e h =>
    rw [← h.pb hP a hleaves,
      ← State.spoil_pbByte_of_leaves (h.seq.trans hseq) hleaves hplan]
    rfl
  | ended h | goes h => exact h.pb hP a hleaves

omit hseq

theorem State.Comes.fixed : s.Fixed t := by
  cases h with
  | failed h => exact h.fixed.trans (.raise _ _)
  | ended h => exact h.fixed.trans (.complete _)
  | goes h => exact h.fixed.trans ⟨rfl, rfl, rfl, rfl, rfl, rfl⟩

theorem State.Comes.hdrOut_eq
    (hcur : ∀ width height imageType, cur ≠ .derive width height imageType) :
    t.hdrOut = s.hdrOut := by
  cases h with
  | failed h => rw [State.raise_hdrOut, h.hdrOut hcur]
  | ended h | goes h => exact h.hdrOut hcur

theorem State.Comes.input : s.Takes (cur.stage ≠ .hdrRead ∧ cur.stage ≠ .decode) t := by
  cases h with
  | failed h => simpa [State.Takes] using h.input
  | ended h | goes h => exact h.input

theorem State.Comes.output : s.Offers (cur.offers = []) t := by
  cases h with
  | failed h => simpa [State.Offers] using h.output
  | ended h | goes h => exact h.output

end

/-! ### Instructions and turns by cases -/

/-- If a command runs in `s` it is `cmd`, and it stands and is placed where it may. -/
def State.Runs (cmd : Command) (s : State) : Prop :=
  ∀ (c : Command) (plan : Option Plan) (cur : Cursor), s.seq = .run c plan cur →
    c = cmd ∧ s.Stands c plan cur ∧ s.Placed

theorem State.Runs.accept (s : State) (cmd : Command) : (s.accept cmd).Runs cmd := by
  intro c plan cur hseq
  cases hseq
  exact ⟨rfl, ⟨rfl, nofun⟩, rfl, nofun⟩

theorem State.Runs.engineStep {s : State} {cmd : Command} (h : s.Runs cmd) :
    s.engineStep.Runs cmd := by
  match hseq : s.seq with
  | .idle | .error => simpa [State.engineStep, hseq] using h
  | .run c plan cur =>
    obtain ⟨rfl, hs, hp⟩ := h c plan cur hseq
    have hcomes := State.engineStep_comes hseq
    generalize s.engineStep = t at hcomes ⊢
    cases hcomes with
    | failed => exact fun _ _ _ hseq => by cases hseq
    | ended => exact fun _ _ _ hseq => by cases hseq
    | goes hacts _ hstands =>
      obtain ⟨rfl, hs', hplaced⟩ := hstands (Cursor.chunkLegal_of_legal hs.cursor) hs
      intro _ _ _ hseq'
      cases hseq'
      exact ⟨rfl, hs', hplaced hp⟩

/-- What holds of the accepted state and is kept by every step of the command holds at its end,
whatever the pace. -/
theorem State.issue_keeps {s : State} {cmd : Command} (R : State → Prop) (hdropped : R s)
    (haccept : R (s.accept cmd))
    (hstep : ∀ (u : State) (plan : Option Plan) (cur : Cursor), u.seq = .run cmd plan cur →
      u.Stands cmd plan cur → u.Placed → R u → R u.engineStep) : R (s.issue cmd) := by
  by_cases hidle : s.isIdle = true
  · match hpace : s.pace with
    | .stepwise => rwa [s.issue_stepwise cmd hidle hpace]
    | .runAhead =>
      rw [s.issue_runAhead cmd hidle hpace]
      refine (State.settle_keeps (fun u => R u ∧ u.Runs cmd) (fun u hready hu => ?_)
        (s.accept cmd) ⟨haccept, .accept s cmd⟩).1
      obtain ⟨hR, hruns⟩ := hu
      obtain ⟨c, plan, cur, hseq⟩ := State.seq_run_of_ready hready
      obtain ⟨rfl, hs, hp⟩ := hruns c plan cur hseq
      exact ⟨hstep u plan cur hseq hs hp hR, hruns.engineStep⟩
  · rwa [s.issue_dropped cmd (Bool.eq_false_iff.mpr hidle)]

theorem State.execChunk_next {s t : State} {kind : ChunkKind} {count : Nat}
    (h : s.execChunk kind count = .next t) : ∃ cmd plan d,
      s.seq = .run cmd plan (.decodeRle d .control) ∧ d.emitted < d.size ∧
        t = s.runChunk d kind count := by
  unfold State.execChunk at h
  split at h
  next cmd plan d hseq =>
    split_ifs at h with hlt
    cases h
    exact ⟨cmd, plan, d, hseq, hlt, rfl⟩
  next => cases h

/-- A chunk that has a meaning is a step of the decoder it stands before. -/
theorem State.execChunk_comes {s t : State} {kind : ChunkKind} {count : Nat}
    (h : s.execChunk kind count = .next t) : ∃ cmd plan d,
      s.seq = .run cmd plan (.decodeRle d .control) ∧
        s.Comes (chunkCountOk count = true) cmd plan (.decodeRle d .control) t := by
  obtain ⟨cmd, plan, d, hseq, hlt, rfl⟩ := State.execChunk_next h
  refine ⟨cmd, plan, d, hseq, State.chunkPixel_comes hseq (.refl _ _ s) rfl rfl rfl kind
    fun hcount => ?_⟩
  obtain ⟨hpos, hmax⟩ := (chunkCountOk_iff count).mp hcount
  exact ⟨hlt, hpos, hmax, Nat.zero_le _⟩

/-- What an instruction can answer with a next state: a command issued, one of the two that complete
in being accepted (45_control.md R170), or a chunk. -/
theorem exec_next_cases {s t : State} {i : Instr} (h : exec i s = .next t) :
    (∃ cmd, commandOf i = some cmd ∧ t = s.issue cmd) ∨
    (i = .nop ∧ ∃ st, t = { s with status := st }) ∨
    (i = .srst ∧ (t = s ∨ t = s.softReset)) ∨
    (i.isCommand = false ∧ ∃ cmd plan d, s.seq = .run cmd plan (.decodeRle d .control) ∧
      s.Comes (i.wellFormed = true) cmd plan (.decodeRle d .control) t) := by
  match hi : i.isCommand with
  | true =>
    obtain ⟨cmd, hcmd⟩ | rfl | rfl := isCommand_cases hi
    · rw [exec_of_commandOf hcmd] at h
      cases h
      exact .inl ⟨cmd, hcmd, rfl⟩
    · cases hidle : s.isIdle with
      | true => rw [exec_nop_of_isIdle hidle] at h; cases h; exact .inr (.inl ⟨rfl, _, rfl⟩)
      | false =>
        rw [exec_nop_of_not_isIdle hidle] at h
        cases h
        exact .inr (.inl ⟨rfl, s.status, rfl⟩)
    · cases hbusy : s.busy with
      | true => rw [exec_srst_of_busy hbusy] at h; cases h; exact .inr (.inr (.inl ⟨rfl, .inl rfl⟩))
      | false =>
        rw [exec_srst_of_not_busy hbusy] at h
        cases h
        exact .inr (.inr (.inl ⟨rfl, .inr rfl⟩))
  | false =>
    cases i with
    | rep count | raw count => exact .inr (.inr (.inr ⟨rfl, State.execChunk_comes h⟩))
    | nop | rdhdr | drvhdr | wrhdr | decrle | encrle | decraw | encraw | resample | convert | srst =>
      cases hi

/-- The instruction that issues a command (30_encoding.md R63). -/
def Command.instr : Command → Instr
  | .rdhdr => .rdhdr
  | .drvhdr => .drvhdr
  | .wrhdr => .wrhdr
  | .decrle => .decrle
  | .encrle => .encrle
  | .decraw => .decraw
  | .encraw => .encraw
  | .resample => .resample
  | .convert => .convert

theorem eq_instr_of_commandOf {i : Instr} {cmd : Command} (h : commandOf i = some cmd) :
    i = cmd.instr := by
  cases i with
  | nop | srst | rep _ | raw _ => cases h
  | rdhdr | drvhdr | wrhdr | decrle | encrle | decraw | encraw | resample | convert =>
    cases h
    rfl

/-- A turn of the engine with a next state: none, or one step of the running command. -/
theorem State.engineTurn_next {s t : State} (h : s.engineTurn = .next t) :
    t = s ∨ ∃ cmd plan cur, s.seq = .run cmd plan cur ∧ t = s.engineStep := by
  obtain ⟨-, heq⟩ | ⟨hready, -, heq⟩ | ⟨-, -, heq⟩ := s.engineTurn_cases <;> rw [heq] at h <;>
    cases h
  · exact .inl rfl
  · obtain ⟨cmd, plan, cur, hseq⟩ := State.seq_run_of_ready hready
    exact .inr ⟨cmd, plan, cur, hseq, rfl⟩

theorem State.engineTurn_next_of_not_active {s t : State} (h : s.engineTurn = .next t)
    (hactive : s.seq.active = false) : t = s := by
  obtain rfl | ⟨cmd, plan, cur, hseq, -⟩ := State.engineTurn_next h
  · rfl
  · rw [hseq] at hactive
    cases hactive

/-- Settles O53: the engine has no write for these fields (`State.Fixed`), SRST none but to the
parameter registers. -/
theorem onlySrstWritesParameters : Obligations.OnlySrstWritesParameters := by
  refine ⟨fun s t i h => ?_, fun s t h => ?_⟩
  · have hof (h : s.Fixed t) : (i ≠ .srst → t.params = s.params) ∧ t.pbSize = s.pbSize ∧
        t.agenda = s.agenda ∧ t.pace = s.pace ∧ t.replies = s.replies :=
      ⟨fun _ => h.params, h.pbSize, h.agenda, h.pace, h.replies⟩
    obtain ⟨cmd, -, rfl⟩ | ⟨-, st, rfl⟩ | ⟨rfl, rfl | rfl⟩ | ⟨-, cmd, plan, d, -, hcomes⟩ :=
      exec_next_cases h
    · exact hof (.issue s cmd)
    · exact hof ⟨rfl, rfl, rfl, rfl, rfl, rfl⟩
    · exact hof (.refl _)
    · exact ⟨fun hne => absurd rfl hne, rfl, rfl, rfl, rfl⟩
    · exact hof hcomes.fixed
  · have hfixed : s.Fixed t := by
      obtain rfl | ⟨_, _, _, -, rfl⟩ := State.engineTurn_next h
      · exact .refl _
      · exact .engineStep s
    exact ⟨hfixed.params, hfixed.pbSize, hfixed.agenda, hfixed.pace, hfixed.replies⟩

/-! ### The header files (10_state.md R20, R29) -/

section
variable {cur : Cursor} {p : Params} {cmd : Command} {plan : Option Plan}
  (h : cur.placed p cmd plan)
include h

theorem Cursor.stage_ne_hdrRead (hrd : cmd ≠ .rdhdr) (hcv : cmd ≠ .convert) :
    cur.stage ≠ .hdrRead := by
  intro hstage
  cases cur <;> cases hstage
  obtain ⟨hcmd, -⟩ := h
  exact hcmd.elim hrd hcv

theorem Cursor.ne_derive (hdrv : cmd ≠ .drvhdr) (hcv : cmd ≠ .convert) (width height : Half)
    (imageType : Byte) : cur ≠ .derive width height imageType := by
  rintro rfl
  obtain ⟨hcmd, -⟩ | ⟨hcmd, -⟩ := h
  · exact hdrv hcmd
  · exact hcv hcmd

end

/-- A step of a command that is no header read, and of one that is no derivation. -/
theorem State.engineStep_headers {s : State} {cmd : Command} {plan : Option Plan} {cur : Cursor}
    (hseq : s.seq = .run cmd plan cur) (hp : s.Placed) :
    (cmd ≠ .rdhdr → cmd ≠ .convert → s.engineStep.hdrIn = s.hdrIn) ∧
    (cmd ≠ .drvhdr → cmd ≠ .convert → s.engineStep.hdrOut = s.hdrOut) := by
  obtain ⟨hcur, -⟩ := (State.placed_run_iff hseq).mp hp
  have hcomes := State.engineStep_comes hseq
  exact ⟨fun hrd hcv => hcomes.hdrIn_eq hseq (Cursor.stage_ne_hdrRead hcur hrd hcv),
    fun hdrv hcv => hcomes.hdrOut_eq (Cursor.ne_derive hcur hdrv hcv)⟩

theorem State.issue_headers (s : State) (cmd : Command) :
    (cmd ≠ .rdhdr → cmd ≠ .convert → (s.issue cmd).hdrIn = s.hdrIn) ∧
    (cmd ≠ .drvhdr → cmd ≠ .convert → (s.issue cmd).hdrOut = s.hdrOut) := by
  refine State.issue_keeps (fun u => (cmd ≠ .rdhdr → cmd ≠ .convert → u.hdrIn = s.hdrIn) ∧
    (cmd ≠ .drvhdr → cmd ≠ .convert → u.hdrOut = s.hdrOut)) ⟨fun _ _ => rfl, fun _ _ => rfl⟩
    ⟨fun _ _ => rfl, fun _ _ => rfl⟩ fun u plan cur hseq _ hp hu => ?_
  obtain ⟨hin, hout⟩ := State.engineStep_headers hseq hp
  exact ⟨fun h h' => (hin h h').trans (hu.1 h h'), fun h h' => (hout h h').trans (hu.2 h h')⟩

/-- Settles O54: HDR_IN is written in HDR_READ and HDR_OUT where it is derived, and no other command
comes there. -/
theorem frameOfTheHeaderFiles : Obligations.FrameOfTheHeaderFiles := by
  refine ⟨fun s t i h => ?_, fun s t hp h => ⟨State.engineTurn_next_of_not_active h,
    fun cmd plan cur hseq => ?_⟩⟩
  · obtain ⟨cmd, hcmd, rfl⟩ | ⟨-, st, rfl⟩ | ⟨-, rfl | rfl⟩ | ⟨-, cmd, plan, d, hseq, hcomes⟩ :=
      exec_next_cases h
    · have hne {c : Command} (hi : i ≠ c.instr) : cmd ≠ c :=
        fun hc => hi (hc ▸ eq_instr_of_commandOf hcmd)
      obtain ⟨hin, hout⟩ := s.issue_headers cmd
      exact ⟨fun h h' => hin (hne h) (hne h'), fun h h' => hout (hne h) (hne h')⟩
    · exact ⟨fun _ _ => rfl, fun _ _ => rfl⟩
    · exact ⟨fun _ _ => rfl, fun _ _ => rfl⟩
    · exact ⟨fun _ _ => rfl, fun _ _ => rfl⟩
    · exact ⟨fun _ _ => hcomes.hdrIn_eq hseq nofun, fun _ _ => hcomes.hdrOut_eq nofun⟩
  · obtain rfl | ⟨cmd', plan', cur', hseq', rfl⟩ := State.engineTurn_next h
    · exact ⟨fun _ _ => rfl, fun _ _ => rfl, fun _ => rfl, fun _ => rfl⟩
    · have hcomes := State.engineStep_comes hseq
      obtain ⟨hin, hout⟩ := State.engineStep_headers hseq hp
      refine ⟨hin, hout, hcomes.hdrIn_eq hseq, fun hstage => hcomes.hdrOut_eq ?_⟩
      rintro _ _ _ rfl
      exact hstage rfl

/-! ### The streams (10_state.md R21, R23, R24; 20_memory.md R53) -/

/-- The commands that take bytes from the input stream (30_encoding.md R64). -/
def Command.reads : Command → Bool
  | .rdhdr | .decrle | .decraw | .convert => true
  | .drvhdr | .wrhdr | .encrle | .encraw | .resample => false

/-- The commands that offer bytes to the output stream (30_encoding.md R64). -/
def Command.writes : Command → Bool
  | .wrhdr | .encrle | .encraw | .convert => true
  | .rdhdr | .drvhdr | .decrle | .decraw | .resample => false

section
variable {cur : Cursor} {p : Params} {cmd : Command} {plan : Option Plan}
  (h : cur.placed p cmd plan)
include h

theorem Cursor.stage_of_not_reads (hcmd : cmd.reads = false) :
    cur.stage ≠ .hdrRead ∧ cur.stage ≠ .decode := by
  cases cur with
  | hdrRead _ => obtain ⟨rfl | rfl, -⟩ := h <;> cases hcmd
  | decodeRaw _ _ _ | decodeRle _ _ => obtain ⟨rfl, -⟩ | ⟨rfl, -⟩ := h <;> cases hcmd
  | issue | validate | resample _ | derive _ _ _ | hdrWrite _ | encode _ => exact ⟨nofun, nofun⟩

theorem Cursor.offers_of_not_writes (hcmd : cmd.writes = false) : cur.offers = [] := by
  cases cur with
  | hdrWrite _ => obtain ⟨rfl, -⟩ | ⟨rfl, -⟩ := h <;> cases hcmd
  | encode _ => obtain ⟨rfl | rfl, -⟩ | ⟨rfl, -⟩ := h <;> cases hcmd
  | issue | hdrRead _ | validate | decodeRaw _ _ _ | decodeRle _ _ | resample _ | derive _ _ _ =>
    rfl

end

theorem Cursor.offers_of_stage {cur : Cursor} (hwrite : cur.stage ≠ .hdrWrite)
    (hencode : cur.stage ≠ .encode) : cur.offers = [] := by
  cases cur with
  | hdrWrite _ => exact absurd rfl hwrite
  | encode _ => exact absurd rfl hencode
  | issue | hdrRead _ | validate | decodeRaw _ _ _ | decodeRle _ _ | resample _ | derive _ _ _ =>
    rfl

theorem State.issue_takes (s : State) (cmd : Command) :
    s.Takes (cmd.reads = false) (s.issue cmd) := by
  refine State.issue_keeps (s.Takes (cmd.reads = false)) (.refl _ s) (State.Takes.refl _ s)
    fun u plan cur hseq _ hp hu => hu.trans ?_
  obtain ⟨hcur, -⟩ := (State.placed_run_iff hseq).mp hp
  exact (State.engineStep_comes hseq).input.imp (Cursor.stage_of_not_reads hcur)

theorem State.issue_offers (s : State) (cmd : Command) :
    s.Offers (cmd.writes = false) (s.issue cmd) := by
  refine State.issue_keeps (s.Offers (cmd.writes = false)) (.refl _ s) (State.Offers.refl _ s)
    fun u plan cur hseq _ hp hu => hu.trans ?_
  obtain ⟨hcur, -⟩ := (State.placed_run_iff hseq).mp hp
  exact (State.engineStep_comes hseq).output.imp (Cursor.offers_of_not_writes hcur)

/-- Settles O56: each step of the engine takes from the front and counts, in HDR_READ and DECODE
alone, where only the commands that read come. -/
theorem inputIsTakenInOrderAndCounted : Obligations.InputIsTakenInOrderAndCounted := by
  refine ⟨fun s t i h hi => ?_, fun s t hp h => ?_⟩
  · change s.Takes _ t
    obtain ⟨cmd, hcmd, rfl⟩ | ⟨-, st, rfl⟩ | ⟨hsrst, -⟩ | ⟨hchunk, cmd, plan, d, -, hcomes⟩ :=
      exec_next_cases h
    · refine (s.issue_takes cmd).imp ?_
      rw [eq_instr_of_commandOf hcmd]
      cases cmd <;> simp [Command.instr, Command.reads]
    · exact State.Takes.refl _ s
    · exact absurd hsrst hi
    · refine hcomes.input.imp ?_
      rintro (rfl | rfl | rfl | rfl | rfl | rfl) <;> cases hchunk
  · obtain rfl | ⟨cmd, plan, cur, hseq, rfl⟩ := State.engineTurn_next h
    · obtain ⟨used, hused, hcount, hnone⟩ := State.Takes.refl True t
      exact ⟨used, hused, hcount, fun _ => hnone trivial, fun _ _ _ _ =>
        ⟨fun _ => hnone trivial, fun _ _ => hnone trivial⟩⟩
    · obtain ⟨hcur, -⟩ := (State.placed_run_iff hseq).mp hp
      obtain ⟨used, hused, hcount, hnone⟩ := (State.engineStep_comes hseq).input
      rw [hseq]
      refine ⟨used, hused, hcount, nofun, fun _ _ _ heq => ?_⟩
      cases heq
      refine ⟨fun hcmd => hnone (Cursor.stage_of_not_reads hcur ?_), fun hr hd => hnone ⟨hr, hd⟩⟩
      rcases hcmd with rfl | rfl | rfl | rfl | rfl <;> rfl

/-- Settles O57: each step of the engine appends and counts, in HDR_WRITE and ENCODE alone, where
only the commands that write offer a byte. -/
theorem outputOnlyGrowsAndIsCounted : Obligations.OutputOnlyGrowsAndIsCounted := by
  refine ⟨fun s t i h hi => ?_, fun s t hp h => ?_⟩
  · change s.Offers _ t
    obtain ⟨cmd, hcmd, rfl⟩ | ⟨-, st, rfl⟩ | ⟨hsrst, -⟩ | ⟨-, cmd, plan, d, -, hcomes⟩ :=
      exec_next_cases h
    · refine (s.issue_offers cmd).imp ?_
      rw [eq_instr_of_commandOf hcmd]
      cases cmd <;> simp [Command.instr, Command.writes]
    · exact State.Offers.refl _ s
    · exact absurd hsrst hi
    · exact hcomes.output.imp fun _ => rfl
  · obtain rfl | ⟨cmd, plan, cur, hseq, rfl⟩ := State.engineTurn_next h
    · obtain ⟨sent, hsent, hcount, hnone⟩ := State.Offers.refl True t
      exact ⟨sent, hsent, hcount, fun _ => hnone trivial, fun _ _ _ _ =>
        ⟨fun _ => hnone trivial, fun _ _ => hnone trivial⟩⟩
    · obtain ⟨hcur, -⟩ := (State.placed_run_iff hseq).mp hp
      obtain ⟨sent, hsent, hcount, hnone⟩ := (State.engineStep_comes hseq).output
      rw [hseq]
      refine ⟨sent, hsent, hcount, nofun, fun _ _ _ heq => ?_⟩
      cases heq
      refine ⟨fun hcmd => hnone (Cursor.offers_of_not_writes hcur ?_),
        fun hw he => hnone (Cursor.offers_of_stage hw he)⟩
      rcases hcmd with rfl | rfl | rfl | rfl | rfl <;> rfl

end Sys2Proof.Machine
end

section
/-!
The frame of PB: the bytes each command leaves, at once or in turns of the engine, and the bytes a
chunk leaves (10_state.md R29; 20_memory.md R47, R48; 60_exceptions.md R188).
-/

namespace Sys2Proof.Machine

/-- The byte `a` of PB is outside the regions of the command, which its registers give, or for
CONVERT the header (20_memory.md R47, R48). -/
def Command.keeps (p : Params) (r : Header) (a : Nat) : Command → Prop
  | .rdhdr | .drvhdr | .wrhdr | .encrle | .encraw => True
  | .decrle | .decraw => outside p.bufBase.toNat p.bufLen.toNat a
  | .resample => outside p.dstBase.toNat (p.dstW.toNat * p.dstH.toNat * p.bpp.toNat) a
  | .convert => outside 0 ((planOf p r).srcBytes + (planOf p r).dstBytes) a

/-- What is left where the command keeps the byte, command by command. -/
theorem Command.keeps_elim {p : Params} {r : Header} {a : Nat} {cmd : Command} {Q : Prop}
    (h : cmd.keeps p r a → Q) :
    (cmd = .rdhdr ∨ cmd = .drvhdr ∨ cmd = .wrhdr ∨ cmd = .encrle ∨ cmd = .encraw → Q) ∧
    (cmd = .decrle ∨ cmd = .decraw → outside p.bufBase.toNat p.bufLen.toNat a → Q) ∧
    (cmd = .resample →
      outside p.dstBase.toNat (p.dstW.toNat * p.dstH.toNat * p.bpp.toNat) a → Q) ∧
    (cmd = .convert → outside 0 ((planOf p r).srcBytes + (planOf p r).dstBytes) a → Q) := by
  refine ⟨?_, ?_, ?_, ?_⟩
  · rintro (rfl | rfl | rfl | rfl | rfl) <;> exact h trivial
  · rintro (rfl | rfl) <;> exact h
  · rintro rfl; exact h
  · rintro rfl; exact h

/-- CONVERT's regions alone depend on the header. -/
theorem Command.keeps_header {p : Params} {r r' : Header} {a : Nat} {cmd : Command}
    (hcmd : cmd ≠ .convert) (h : cmd.keeps p r a) : cmd.keeps p r' a := by
  cases cmd with
  | convert => exact absurd rfl hcmd
  | rdhdr | drvhdr | wrhdr | decrle | encrle | decraw | encraw | resample => exact h

section
variable {s : State} {cmd : Command} {plan : Option Plan} {cur : Cursor}
  (hseq : s.seq = .run cmd plan cur) (hp : s.Placed)
include hseq hp

/-- A byte outside the command's regions is outside the region of its stage, and of CONVERT's
temporaries. -/
theorem State.leaves_of_keeps {a : Nat} (hk : cmd.keeps s.params s.hdrIn a) :
    cur.leaves a ∧ ∀ q, plan = some q → outside 0 (q.srcBytes + q.dstBytes) a := by
  obtain ⟨hcur, hplan⟩ := (State.placed_run_iff hseq).mp hp
  constructor
  · by_cases hcmd : cmd = .convert
    · subst hcmd
      exact hp.leaves hseq hk
    · cases cur with
      | decodeRaw base size done =>
        obtain ⟨rfl, -, rfl, rfl⟩ | ⟨hcv, -⟩ := hcur
        · exact hk
        · exact absurd hcv hcmd
      | decodeRle d pos =>
        obtain ⟨rfl, -, hbase, hsize⟩ | ⟨hcv, -⟩ := hcur
        · rw [Cursor.leaves, hbase, hsize]
          exact hk
        · exact absurd hcv hcmd
      | resample g =>
        obtain ⟨rfl, -, rfl⟩ | ⟨hcv, -⟩ := hcur
        · exact hk
        · exact absurd hcv hcmd
      | issue | hdrRead _ | validate | derive _ _ _ | hdrWrite _ | encode _ => trivial
  · rintro q rfl
    obtain rfl := Cursor.command_of_placed_some hcur
    rw [hplan q rfl]
    exact hk

theorem State.engineStep_pbByte (hlegal : cur.chunkLegal) {a : Nat}
    (hk : cmd.keeps s.params s.hdrIn a) : s.engineStep.pbByte a = s.pbByte a := by
  obtain ⟨hleaves, hplan⟩ := State.leaves_of_keeps hseq hp hk
  exact (State.engineStep_comes hseq).pbByte_eq hseq hlegal hleaves hplan

end

/-- CONVERT gets its temporaries once and keeps them. -/
theorem State.Comes.plan_eq_none {P : Prop} {s t : State} {cmd c : Command} {plan : Option Plan}
    {cur cur' : Cursor} (h : s.Comes P cmd plan cur t) (ht : t.seq = .run c none cur') :
    plan = none := by
  cases h with
  | failed | ended => cases ht
  | goes _ hplan => cases ht; exact hplan rfl

/-- From `s` to `u`, a state of the run of `cmd`, the bytes outside the command's regions are
unchanged; all are where CONVERT has no temporaries yet, for its regions are then those of a header
still to be read. -/
structure State.KeepsPb (cmd : Command) (s u : State) : Prop where
  all : ∀ cur, u.seq = .run .convert none cur → ∀ a, u.pbByte a = s.pbByte a
  outside : ∀ a, cmd.keeps u.params u.hdrIn a → u.pbByte a = s.pbByte a

theorem State.KeepsPb.engineStep {s u : State} {cmd : Command} {plan : Option Plan} {cur : Cursor}
    (hseq : u.seq = .run cmd plan cur) (hs : u.Stands cmd plan cur) (hp : u.Placed)
    (h : s.KeepsPb cmd u) : s.KeepsPb cmd u.engineStep := by
  have hcomes := State.engineStep_comes hseq
  have hlegal := Cursor.chunkLegal_of_legal hs.cursor
  obtain ⟨hcur, -⟩ := (State.placed_run_iff hseq).mp hp
  by_cases hearly : cmd = .convert ∧ plan = none
  · obtain ⟨rfl, rfl⟩ := hearly
    have hstage := Cursor.stage_le_of_placed_none hcur
    have hall (a : Nat) : u.engineStep.pbByte a = s.pbByte a :=
      (hcomes.pbByte_eq hseq hlegal (Cursor.leaves_of_stage hstage a).2 nofun).trans
        (h.all cur hseq a)
    exact ⟨fun _ _ => hall, fun a _ => hall a⟩
  · have hruns : u.Runs cmd := fun c plan' cur' hseq' => by
      cases hseq.symm.trans hseq'
      exact ⟨rfl, hs, hp⟩
    refine ⟨fun cur' hnone => ?_, fun a hk => ?_⟩
    · obtain ⟨hcmd, -⟩ := hruns.engineStep _ _ _ hnone
      exact absurd ⟨hcmd.symm, hcomes.plan_eq_none hnone⟩ hearly
    · have hk' : cmd.keeps u.params u.hdrIn a := by
        rw [hcomes.fixed.params] at hk
        by_cases hcmd : cmd = .convert
        · have hstage : cur.stage ≠ .hdrRead := fun hstage => by
            cases cur <;> cases hstage
            exact hearly ⟨hcmd, hcur.2⟩
          rwa [hcomes.hdrIn_eq hseq hstage] at hk
        · exact Command.keeps_header hcmd hk
      exact (State.engineStep_pbByte hseq hp hlegal hk').trans (h.outside a hk')

theorem State.issue_keepsPb (s : State) (cmd : Command) : s.KeepsPb cmd (s.issue cmd) :=
  State.issue_keeps (s.KeepsPb cmd) ⟨fun _ _ _ => rfl, fun _ _ => rfl⟩
    ⟨fun _ _ _ => rfl, fun _ _ => rfl⟩ fun _ _ _ hseq hs hp h => h.engineStep hseq hs hp

/-- Settles O55: every stage writes in the region of its cursor and every failure frees the regions
of its command, which are those the registers or the header give. -/
theorem frameOfThePixelBuffer : Obligations.FrameOfThePixelBuffer := by
  refine ⟨fun s t i a h => ?_, fun s t cmd plan cur a hinv hp hseq h => ?_⟩
  · obtain ⟨cmd, hcmd, rfl⟩ | ⟨rfl, st, rfl⟩ | ⟨rfl, rfl | rfl⟩ |
      ⟨hchunk, cmd, plan, d, hseq, hcomes⟩ := exec_next_cases h
    · have hkeeps := (s.issue_keepsPb cmd).outside a
      rw [(State.Fixed.issue s cmd).params] at hkeeps
      obtain ⟨hnone, hbuf, hdst, hconvert⟩ := Command.keeps_elim hkeeps
      obtain rfl := eq_instr_of_commandOf hcmd
      refine ⟨fun hi => hnone ?_, fun hi => hbuf ?_, fun hi => hdst ?_, fun hi => hconvert ?_,
        fun _ _ _ hi => ?_⟩ <;> cases cmd <;> simp_all [Command.instr, Instr.isCommand]
    · exact ⟨fun _ => rfl, fun _ _ => rfl, fun _ _ => rfl, fun _ _ => rfl, nofun⟩
    · exact ⟨fun _ => rfl, fun _ _ => rfl, fun _ _ => rfl, fun _ _ => rfl, nofun⟩
    · exact ⟨fun _ => rfl, fun _ _ => rfl, fun _ _ => rfl, fun _ _ => rfl, nofun⟩
    · refine ⟨?_, ?_, ?_, ?_, fun cmd' plan' d' _ hwf hseq' hout hplan => ?_⟩
      · rintro (rfl | rfl | rfl | rfl | rfl | rfl | rfl) <;> cases hchunk
      · rintro (rfl | rfl) <;> cases hchunk
      · rintro rfl; cases hchunk
      · rintro rfl; cases hchunk
      · cases hseq.symm.trans hseq'
        exact hcomes.pbByte_eq hseq hwf hout hplan
  · refine Command.keeps_elim fun hk => ?_
    obtain rfl | ⟨_, _, _, -, rfl⟩ := State.engineTurn_next h
    · rfl
    · obtain ⟨⟨-, hs⟩, -⟩ := (State.inv_run_iff hseq).mp hinv
      exact State.engineStep_pbByte hseq hp (Cursor.chunkLegal_of_legal hs.cursor) hk

end Sys2Proof.Machine
end

section
/-!
The family 70_reset_and_hazards.md, late answers: a stage that is given more answers goes the same
way with them, or, held, goes on with them where it stood (10_state.md R23, R24; R229).
-/

namespace Sys2Proof.Machine

/-! ### More answers in the queues -/

/-- The same state with more answers behind those that are ready. -/
def State.queue (s : State) (x : List InAnswer) (y : List OutAnswer) : State :=
  { s with source := s.source ++ x, sink := s.sink ++ y }

section
variable (s : State) (x : List InAnswer) (y : List OutAnswer)

@[simp] theorem State.queue_params : (s.queue x y).params = s.params := rfl
@[simp] theorem State.queue_hdrIn : (s.queue x y).hdrIn = s.hdrIn := rfl
@[simp] theorem State.queue_seq : (s.queue x y).seq = s.seq := rfl
@[simp] theorem State.queue_pbSize : (s.queue x y).pbSize = s.pbSize := rfl
@[simp] theorem State.queue_source : (s.queue x y).source = s.source ++ x := rfl
@[simp] theorem State.queue_sink : (s.queue x y).sink = s.sink ++ y := rfl

theorem State.spoil_queue : (s.queue x y).spoil = s.spoil.queue x y := by
  unfold State.spoil
  rw [State.queue_seq]
  split
  · rfl
  · rfl
  next plan cur _ =>
    cases cur with
    | issue | hdrRead _ | validate | resample _ | derive _ _ _ => rfl
    | decodeRaw _ _ _ | decodeRle _ _ | hdrWrite _ | encode _ => cases plan <;> rfl

theorem State.raise_queue (e : ErrorCode) : (s.queue x y).raise e = (s.raise e).queue x y :=
  congrArg (fun t => State.enterError t e s.seq.stage) (s.spoil_queue x y)

theorem State.checked_queue (check : Option ErrorCode) (cur : Cursor) :
    (s.queue x y).checked check cur = (s.checked check cur).queue x y := by
  cases check with
  | none => rfl
  | some e => exact s.raise_queue x y e

theorem State.afterHdrRead_queue : (s.queue x y).afterHdrRead = s.afterHdrRead.queue x y := by
  unfold State.afterHdrRead
  rw [State.queue_seq]
  split <;> rfl

theorem State.afterDecode_queue : (s.queue x y).afterDecode = s.afterDecode.queue x y := by
  unfold State.afterDecode
  rw [State.queue_seq]
  split <;> rfl

theorem State.afterResample_queue : (s.queue x y).afterResample = s.afterResample.queue x y := by
  unfold State.afterResample
  rw [State.queue_seq]
  split <;> rfl

theorem State.afterDerive_queue : (s.queue x y).afterDerive = s.afterDerive.queue x y := by
  unfold State.afterDerive
  rw [State.queue_seq]
  split <;> rfl

theorem State.afterHdrWrite_queue : (s.queue x y).afterHdrWrite = s.afterHdrWrite.queue x y := by
  unfold State.afterHdrWrite
  rw [State.queue_seq]
  split <;> rfl

theorem State.chunkEnd_queue (d : Decoder) :
    (s.queue x y).chunkEnd d = (s.chunkEnd d).queue x y := by
  unfold State.chunkEnd
  split
  · rfl
  · exact s.afterDecode_queue x y

theorem State.issueStage_queue (cmd : Command) :
    (s.queue x y).issueStage cmd = (s.issueStage cmd).queue x y := by
  cases cmd with
  | rdhdr | drvhdr | wrhdr => rfl
  | decrle | encrle | decraw | encraw | resample | convert => exact s.checked_queue x y _ _

theorem State.validateStage_queue :
    (s.queue x y).validateStage = s.validateStage.queue x y := by
  unfold State.validateStage
  rw [State.queue_params, State.queue_hdrIn, State.queue_pbSize]
  split
  · exact s.raise_queue x y _
  · rfl

end

/-! ### A held stage goes on where it stood -/

/-- `cur'` is a later place in the stage of `cur`, over the same region. -/
inductive Cursor.Continues : Cursor → Cursor → Prop
  | hdrRead (k k' : Nat) : Continues (.hdrRead k) (.hdrRead k')
  | decodeRaw (base size done done' : Nat) :
    Continues (.decodeRaw base size done) (.decodeRaw base size done')
  | decodeRle {d d' : Decoder} (pos pos' : ChunkPos) (hbase : d'.base = d.base)
    (hsize : d'.size = d.size) : Continues (.decodeRle d pos) (.decodeRle d' pos')
  | hdrWrite (left left' : List Byte) : Continues (.hdrWrite left) (.hdrWrite left')
  | encode (left left' : List Byte) : Continues (.encode left) (.encode left')

section
variable {s : State} {cmd : Command} {plan : Option Plan} {cur cur' : Cursor}
  (hseq : s.seq = .run cmd plan cur) (hcur : cur.Continues cur')
include hseq hcur

/-- Where in its stage a command stood does not matter to the error it raises. -/
theorem State.raise_moveTo (e : ErrorCode) : (s.moveTo cur').raise e = s.raise e := by
  cases hcur with
  | decodeRle pos pos' hbase hsize => exact State.raise_moveTo_decodeRle e hseq hbase hsize
  | hdrRead | decodeRaw | hdrWrite | encode =>
    cases plan <;>
      simp [State.raise, State.spoil, State.enterError, State.freePb, State.freeHdrIn,
        State.moveTo, hseq, Sequencer.stage, Cursor.stage]

theorem State.onTaken_moveTo (ending : TakeEnd) (e : ErrorCode) (next : State) (cur'' : Cursor) :
    (s.moveTo cur').onTaken ending e next cur'' = s.onTaken ending e next cur'' := by
  cases ending with
  | full => rfl
  | hold => exact s.moveTo_moveTo cur' cur''
  | eos => exact State.raise_moveTo hseq hcur e
  | failed => exact State.raise_moveTo hseq hcur .ioError

theorem State.onGiven_moveTo (ending : PutEnd) (next : State) (cur'' : Cursor) :
    (s.moveTo cur').onGiven ending next cur'' = s.onGiven ending next cur'' := by
  cases ending with
  | full => rfl
  | hold => exact s.moveTo_moveTo cur' cur''
  | failed => exact State.raise_moveTo hseq hcur .writeFailed

end

theorem State.afterHdrRead_moveTo {s : State} {cmd : Command} {plan : Option Plan} {cur : Cursor}
    (hseq : s.seq = .run cmd plan cur) (cur' : Cursor) :
    (s.moveTo cur').afterHdrRead = s.afterHdrRead := by
  cases cmd <;>
    simp [State.afterHdrRead, State.moveTo, State.complete, hseq, Sequencer.command]

theorem State.afterHdrWrite_moveTo {s : State} {cmd : Command} {plan : Option Plan} {cur : Cursor}
    (hseq : s.seq = .run cmd plan cur) (cur' : Cursor) :
    (s.moveTo cur').afterHdrWrite = s.afterHdrWrite := by
  cases plan with
  | none => simp [State.afterHdrWrite, State.moveTo, State.complete, hseq, Sequencer.plan]
  | some p =>
    have hseq' : (s.moveTo cur').seq = .run cmd (some p) cur' := by simp [hseq]
    rw [State.afterHdrWrite_of_plan_some _ hseq, State.afterHdrWrite_of_plan_some _ hseq',
      State.moveTo_moveTo]
    rfl

theorem Header.store_append (h : Header) (k : Nat) (xs ys : List Byte) :
    h.store k (xs ++ ys) = (h.store k xs).store (k + xs.length) ys := by
  induction xs generalizing h k with
  | nil => rfl
  | cons b xs ih =>
    rw [List.cons_append, Header.store, ih, Header.store, List.length_cons]
    congr 1
    omega

/-! ### The stages -/

/-- `t'` is where `t` comes to with the answers `x` and `y` more: they stay queued, or the engine,
held in `t`, goes on with them. -/
def State.Resumes (x : List InAnswer) (y : List OutAnswer) (t t' : State) : Prop :=
  t' = t.queue x y ∨ (t.queue x y).ready = true ∧ (t.queue x y).engineStep = t'

section
variable {x : List InAnswer} {y : List OutAnswer} {s : State} {cmd : Command}
  {plan : Option Plan}

/-- A request with more answers behind it: they stay behind it, or, where it was held, it goes on
with them. -/
theorem takeN_append_cases (n : Nat) (q x : List InAnswer) :
    (∃ b l e, takeN n q = ⟨b, l, e⟩ ∧ takeN n (q ++ x) = ⟨b, l ++ x, e⟩) ∨
    (x ≠ [] ∧ ∃ b r, takeN n q = ⟨b, [], .hold⟩ ∧ takeN (n - b.length) x = r ∧
      takeN n (q ++ x) = ⟨b ++ r.bytes, r.left, r.ending⟩) := by
  by_cases hfree : (takeN n q).ending ≠ .hold ∨ x = []
  · refine .inl ⟨_, _, _, rfl, ?_⟩
    obtain h | rfl := hfree
    · exact takeN_append n q x h
    · simp
  · obtain ⟨hend, hx⟩ := not_or.mp hfree
    rw [not_not] at hend
    refine .inr ⟨hx, (takeN n q).bytes, _, ?_, rfl, takeN_append_of_hold n q x hend⟩
    rcases takeN_cases n q with ⟨h, -⟩ | ⟨-, -, hleft, -⟩ | ⟨h, -⟩ | ⟨h, -⟩
    case inr.inl => rw [← hleft, ← hend]
    all_goals rw [hend] at h; cases h

/-- The same of bytes that are offered. -/
theorem putN_append_cases (bs : List Byte) (q y : List OutAnswer) :
    (∃ g u l e, putN bs q = ⟨g, u, l, e⟩ ∧ putN bs (q ++ y) = ⟨g, u, l ++ y, e⟩) ∨
    (y ≠ [] ∧ ∃ g u r, putN bs q = ⟨g, u, [], .hold⟩ ∧ putN u y = r ∧
      putN bs (q ++ y) = ⟨g ++ r.sent, r.unsent, r.left, r.ending⟩) := by
  by_cases hfree : (putN bs q).ending ≠ .hold ∨ y = []
  · refine .inl ⟨_, _, _, _, rfl, ?_⟩
    obtain h | rfl := hfree
    · exact putN_append bs q y h
    · simp
  · obtain ⟨hend, hy⟩ := not_or.mp hfree
    rw [not_not] at hend
    obtain ⟨-, ⟨h, -⟩ | ⟨-, -, hleft, -⟩ | ⟨h, -⟩⟩ := putN_cases bs q
    case inr.inl =>
      exact .inr ⟨hy, _, _, _, by rw [← hleft, ← hend], rfl,
        putN_append_of_hold bs q y hend⟩
    all_goals rw [hend] at h; cases h

theorem State.Resumes.onTaken {v next next' : State} (ending : TakeEnd) (e : ErrorCode)
    (cur' : Cursor) (hnext : Resumes x y next next') :
    Resumes x y (v.onTaken ending e next cur') ((v.queue x y).onTaken ending e next' cur') := by
  cases ending with
  | full => exact hnext
  | hold => exact .inl rfl
  | eos => exact .inl (v.raise_queue x y e)
  | failed => exact .inl (v.raise_queue x y .ioError)

theorem State.Resumes.onGiven {v next next' : State} (ending : PutEnd) (cur' : Cursor)
    (hnext : Resumes x y next next') :
    Resumes x y (v.onGiven ending next cur') ((v.queue x y).onGiven ending next' cur') := by
  cases ending with
  | full => exact hnext
  | hold => exact .inl rfl
  | failed => exact .inl (v.raise_queue x y .writeFailed)

/-- A stage held at `cur'` for the lack of an answer goes on with the step from there. -/
theorem State.Resumes.of_held {v t : State} {cur cur' : Cursor} (hv : v.seq = .run cmd plan cur)
    (hsource : v.source = []) (hx : x ≠ []) (hoffers : cur'.offers = [])
    (hstage : ((v.moveTo cur').queue x y).stageStep cmd cur' = t) :
    Resumes x y (v.moveTo cur') t := by
  have hseq' : ((v.moveTo cur').queue x y).seq = .run cmd plan cur' := by simp [hv]
  refine .inr ⟨State.ready_of_source hseq' hoffers (.inr (by simpa [hsource] using hx)), ?_⟩
  rw [State.engineStep_run _ hseq', hstage]

/-! ### Stages that take bytes -/

/-- The transactions of a header read and its writes of HDR_IN (40_header.md R91). -/
def State.takeHeader (s : State) (k : Nat) (t : Taken) : State :=
  { s.afterTake t with hdrIn := s.hdrIn.store k t.bytes }

/-- The transactions of a decoder that writes the bytes to PB as they come (41_rle_codec.md R102,
42_raw_codec.md R121). -/
def State.takeTo (s : State) (a : Nat) (t : Taken) : State := (s.afterTake t).memWrite a t.bytes

theorem State.hdrReadStage_eq (s : State) {k : Nat} {t : Taken} (ht : takeN (18 - k) s.source = t) :
    s.hdrReadStage k = (s.takeHeader k t).onTaken t.ending .truncatedHeader
      (s.takeHeader k t).afterHdrRead (.hdrRead (k + t.bytes.length)) := by
  rw [State.hdrReadStage, ht]
  rfl

theorem State.decodeRawStage_eq (s : State) {base size done : Nat} {t : Taken}
    (ht : takeN (size - done) s.source = t) :
    s.decodeRawStage base size done = (s.takeTo (base + done) t).onTaken t.ending .truncatedData
      (s.takeTo (base + done) t).afterDecode (.decodeRaw base size (done + t.bytes.length)) := by
  rw [State.decodeRawStage, ht]
  rfl

theorem State.rawRest_eq (s : State) {d : Decoder} {left : Nat} {t : Taken}
    (ht : takeN left s.source = t) :
    s.rawRest d left = (s.takeTo (d.base + d.emitted) t).onTaken t.ending .truncatedData
      ((s.takeTo (d.base + d.emitted) t).chunkEnd (d.advance t.bytes.length))
      (.decodeRle (d.advance t.bytes.length) (.rest (left - t.bytes.length))) := by
  rw [State.rawRest, ht]
  rfl

theorem State.chunkPixel_eq (s : State) {d : Decoder} {kind : ChunkKind} {count : Nat}
    {got : List Byte} {t : Taken} (ht : takeN (d.bpp - got.length) s.source = t) :
    s.chunkPixel d kind count got = (s.afterTake t).onTaken t.ending .truncatedData
      ((s.afterTake t).chunkBody d kind count (got ++ t.bytes))
      (.decodeRle d (.firstPixel kind count (got ++ t.bytes))) := by
  rw [State.chunkPixel, ht]

/-! Transactions that were held, and those that go on with the answers that came: together they are
one request, the move to the place between them aside. -/

section
variable (s : State) (x : List InAnswer) (y : List OutAnswer) (cur : Cursor) (b : List Byte)
  (r : Taken)

theorem State.afterTake_resume :
    (((s.afterTake ⟨b, [], .hold⟩).moveTo cur).queue x y).afterTake r =
      ((s.queue x y).afterTake ⟨b ++ r.bytes, r.left, r.ending⟩).moveTo cur := by
  simp [State.afterTake, State.moveTo, State.queue, BitVec.ofNat_add, BitVec.add_assoc]

theorem State.takeHeader_resume (k : Nat) :
    (((s.takeHeader k ⟨b, [], .hold⟩).moveTo cur).queue x y).takeHeader (k + b.length) r =
      ((s.queue x y).takeHeader k ⟨b ++ r.bytes, r.left, r.ending⟩).moveTo cur := by
  simp [State.takeHeader, State.afterTake, State.moveTo, State.queue, Header.store_append,
    BitVec.ofNat_add, BitVec.add_assoc]

theorem State.takeTo_resume (a : Nat) :
    (((s.takeTo a ⟨b, [], .hold⟩).moveTo cur).queue x y).takeTo (a + b.length) r =
      ((s.queue x y).takeTo a ⟨b ++ r.bytes, r.left, r.ending⟩).moveTo cur := by
  simp [State.takeTo, State.afterTake, State.memWrite, State.moveTo, State.queue,
    Memory.setBlock_append, BitVec.ofNat_add, BitVec.add_assoc]

end

theorem State.hdrReadStage_resumes {k : Nat} (hseq : s.seq = .run cmd plan (.hdrRead k)) :
    Resumes x y (s.hdrReadStage k) ((s.queue x y).hdrReadStage k) := by
  obtain ⟨b, l, e, h, h'⟩ | ⟨hx, b, r, h, hr, h'⟩ := takeN_append_cases (18 - k) s.source x <;>
    rw [s.hdrReadStage_eq h, (s.queue x y).hdrReadStage_eq h']
  · exact .onTaken (v := s.takeHeader k ⟨b, l, e⟩) _ _ _
      (.inl ((s.takeHeader k ⟨b, l, e⟩).afterHdrRead_queue x y))
  · refine .of_held (v := s.takeHeader k ⟨b, [], .hold⟩) hseq rfl hx rfl ?_
    have hv : ((s.queue x y).takeHeader k ⟨b ++ r.bytes, r.left, r.ending⟩).seq = _ := hseq
    rw [State.stageStep, State.hdrReadStage_eq _ (t := r) (by rw [← Nat.sub_sub]; exact hr),
      State.takeHeader_resume, State.onTaken_moveTo hv (.hdrRead _ _), State.afterHdrRead_moveTo hv]
    dsimp only
    rw [List.length_append, Nat.add_assoc]

theorem State.decodeRawStage_resumes {base size done : Nat}
    (hseq : s.seq = .run cmd plan (.decodeRaw base size done)) :
    Resumes x y (s.decodeRawStage base size done)
      ((s.queue x y).decodeRawStage base size done) := by
  obtain ⟨b, l, e, h, h'⟩ | ⟨hx, b, r, h, hr, h'⟩ := takeN_append_cases (size - done) s.source x <;>
    rw [s.decodeRawStage_eq h, (s.queue x y).decodeRawStage_eq h']
  · exact .onTaken (v := s.takeTo (base + done) ⟨b, l, e⟩) _ _ _
      (.inl ((s.takeTo (base + done) ⟨b, l, e⟩).afterDecode_queue x y))
  · refine .of_held (v := s.takeTo (base + done) ⟨b, [], .hold⟩) hseq rfl hx rfl ?_
    have hv : ((s.queue x y).takeTo (base + done) ⟨b ++ r.bytes, r.left, r.ending⟩).seq = _ := hseq
    rw [State.stageStep, State.decodeRawStage_eq _ (t := r) (by rw [← Nat.sub_sub]; exact hr),
      ← Nat.add_assoc, State.takeTo_resume, State.onTaken_moveTo hv (.decodeRaw _ _ _ _),
      State.afterDecode_moveTo]
    dsimp only
    rw [List.length_append, Nat.add_assoc]

end

/-! Inside a step that begins at `pos` in the decode of `d₀`: the decoder has come to `d`, over the
same buffer. -/

section
variable {x : List InAnswer} {y : List OutAnswer} {s : State} {cmd : Command}
  {plan : Option Plan} {d₀ d : Decoder} {pos : ChunkPos}
  (hseq : s.seq = .run cmd plan (.decodeRle d₀ pos)) (hbase : d.base = d₀.base)
  (hsize : d.size = d₀.size)

theorem State.chunkEnd_moveTo (s : State) (d : Decoder) (cur : Cursor) :
    (s.moveTo cur).chunkEnd d = s.chunkEnd d := by
  unfold State.chunkEnd
  split
  · exact s.moveTo_moveTo cur _
  · exact s.afterDecode_moveTo cur

include hseq hbase hsize

theorem State.rawRest_moveTo (pos' : ChunkPos) (d' : Decoder) (left : Nat) :
    (s.moveTo (.decodeRle d pos')).rawRest d' left = s.rawRest d' left := by
  have hv : (s.takeTo (d'.base + d'.emitted) (takeN left s.source)).seq = _ := hseq
  rw [State.rawRest_eq (s.moveTo _) rfl, s.rawRest_eq rfl]
  exact (State.onTaken_moveTo hv (.decodeRle pos pos' hbase hsize) _ _ _ _).trans
    (congrArg (State.onTaken _ _ _ · _)
      (State.chunkEnd_moveTo (s.takeTo (d'.base + d'.emitted) (takeN left s.source)) _ _))

theorem State.chunkBody_moveTo (pos' : ChunkPos) (kind : ChunkKind) (count : Nat) (px : Pixel) :
    (s.moveTo (.decodeRle d pos')).chunkBody d kind count px = s.chunkBody d kind count px := by
  unfold State.chunkBody
  split
  · exact State.raise_moveTo hseq (.decodeRle pos pos' hbase hsize) .overrun
  · cases kind with
    | rep => exact State.chunkEnd_moveTo (s.memWrite (d.base + d.emitted) _) _ _
    | raw =>
      exact State.rawRest_moveTo (s := s.memWrite (d.base + d.emitted) px) hseq hbase hsize pos' _ _

theorem State.rawRest_resumes (left : Nat) :
    Resumes x y (s.rawRest d left) ((s.queue x y).rawRest d left) := by
  obtain ⟨b, l, e, h, h'⟩ | ⟨hx, b, r, h, hr, h'⟩ := takeN_append_cases left s.source x <;>
    rw [s.rawRest_eq h, (s.queue x y).rawRest_eq h']
  · exact .onTaken (v := s.takeTo (d.base + d.emitted) ⟨b, l, e⟩) _ _ _
      (.inl ((s.takeTo (d.base + d.emitted) ⟨b, l, e⟩).chunkEnd_queue x y _))
  · refine .of_held (v := s.takeTo (d.base + d.emitted) ⟨b, [], .hold⟩) hseq rfl hx rfl ?_
    have hv : ((s.queue x y).takeTo (d.base + d.emitted)
      ⟨b ++ r.bytes, r.left, r.ending⟩).seq = _ := hseq
    have hplace : (d.advance b.length).base + (d.advance b.length).emitted =
      d.base + d.emitted + b.length := (Nat.add_assoc _ _ _).symm
    have hadvance : (d.advance b.length).advance r.bytes.length =
        d.advance (b ++ r.bytes).length := by
      simp [Decoder.advance, Nat.add_assoc]
    rw [State.stageStep, State.rawRest_eq _ (t := r) hr, hplace, State.takeTo_resume,
      State.onTaken_moveTo hv (.decodeRle (d' := d.advance b.length) _ _ hbase hsize),
      State.chunkEnd_moveTo, hadvance]
    dsimp only
    rw [List.length_append, Nat.sub_sub]

theorem State.chunkBody_resumes (kind : ChunkKind) (count : Nat) (px : Pixel) :
    Resumes x y (s.chunkBody d kind count px) ((s.queue x y).chunkBody d kind count px) := by
  unfold State.chunkBody
  split
  · exact .inl (s.raise_queue x y .overrun)
  · cases kind with
    | rep => exact .inl ((s.memWrite _ _).chunkEnd_queue x y _)
    | raw =>
      exact State.rawRest_resumes (s := s.memWrite (d.base + d.emitted) px)
        (d := { d with emitted := d.emitted + d.bpp }) hseq hbase hsize _

theorem State.chunkPixel_resumes (kind : ChunkKind) (count : Nat) (got : List Byte) :
    Resumes x y (s.chunkPixel d kind count got) ((s.queue x y).chunkPixel d kind count got) := by
  obtain ⟨b, l, e, h, h'⟩ | ⟨hx, b, r, h, hr, h'⟩ :=
      takeN_append_cases (d.bpp - got.length) s.source x <;>
    rw [s.chunkPixel_eq h, (s.queue x y).chunkPixel_eq h']
  · exact .onTaken (v := s.afterTake ⟨b, l, e⟩) _ _ _
      (State.chunkBody_resumes (s := s.afterTake ⟨b, l, e⟩) hseq hbase hsize kind count _)
  · refine .of_held (v := s.afterTake ⟨b, [], .hold⟩) hseq rfl hx rfl ?_
    have hv : ((s.queue x y).afterTake ⟨b ++ r.bytes, r.left, r.ending⟩).seq = _ := hseq
    rw [State.stageStep, State.chunkPixel_eq _ (t := r)
        (by rw [List.length_append, ← Nat.sub_sub]; exact hr), State.afterTake_resume,
      State.onTaken_moveTo hv (.decodeRle _ _ hbase hsize), State.chunkBody_moveTo hv hbase hsize]
    dsimp only
    rw [List.append_assoc]

end

section
variable {x : List InAnswer} {y : List OutAnswer} {s : State} {cmd : Command} {plan : Option Plan}

theorem State.controlStage_resumes {d : Decoder}
    (hseq : s.seq = .run cmd plan (.decodeRle d .control)) (hready : s.ready = true) :
    Resumes x y (s.controlStage d) ((s.queue x y).controlStage d) := by
  by_cases hlt : d.emitted < d.size
  · match hs : s.source with
    | [] =>
      rw [s.ready_run hseq] at hready
      simp [Cursor.pending, Cursor.offers, Cursor.wanted, hlt, hs] at hready
    | .byte c :: q =>
      obtain ⟨kind, hrun⟩ := State.runChunkOf_decodeChunk c
      have hs' : (s.queue x y).source = .byte c :: (q ++ x) := by simp [hs]
      rw [s.controlStage_byte hlt hs, (s.queue x y).controlStage_byte hlt hs', hrun, hrun]
      exact State.chunkPixel_resumes (s := s.afterTake ⟨[c], q, .full⟩) hseq rfl rfl kind _ []
    | .eos :: q =>
      have hs' : (s.queue x y).source = .eos :: (q ++ x) := by simp [hs]
      rw [State.controlStage_short q true hlt hs, State.controlStage_short (q ++ x) true hlt hs']
      exact .inl ((s.afterTake ⟨[], q, .full⟩).raise_queue x y _)
    | .fail :: q =>
      have hs' : (s.queue x y).source = .fail :: (q ++ x) := by simp [hs]
      rw [State.controlStage_short q false hlt hs, State.controlStage_short (q ++ x) false hlt hs']
      exact .inl ((s.afterTake ⟨[], q, .full⟩).raise_queue x y _)
  · rw [State.controlStage, if_neg hlt, State.controlStage, if_neg hlt]
    exact .inl (s.afterDecode_queue x y)

/-! ### Stages that offer bytes -/

theorem State.afterPut_resume (s : State) (x : List InAnswer) (y : List OutAnswer) (cur : Cursor)
    (g u : List Byte) (r : Given) :
    (((s.afterPut ⟨g, u, [], .hold⟩).moveTo cur).queue x y).afterPut r =
      ((s.queue x y).afterPut ⟨g ++ r.sent, r.unsent, r.left, r.ending⟩).moveTo cur := by
  simp [State.afterPut, State.moveTo, State.queue, BitVec.ofNat_add, BitVec.add_assoc]

theorem State.hdrWriteStage_eq (s : State) {left : List Byte} {g : Given}
    (hg : putN left s.sink = g) :
    s.hdrWriteStage left = (s.afterPut g).onGiven g.ending (s.afterPut g).afterHdrWrite
      (.hdrWrite g.unsent) := by
  rw [State.hdrWriteStage, hg]

theorem State.encodeStage_eq (s : State) {left : List Byte} {g : Given}
    (hg : putN left s.sink = g) :
    s.encodeStage left = (s.afterPut g).onGiven g.ending (s.afterPut g).complete
      (.encode g.unsent) := by
  rw [State.encodeStage, hg]

/-- A stage held at `cur'` because the sink gave no answer goes on with the step from there. -/
theorem State.Resumes.of_held_output {v t : State} {cur cur' : Cursor}
    (hv : v.seq = .run cmd plan cur) (hsink : v.sink = []) (hy : y ≠ []) (hwanted : cur'.wanted = 0)
    (hstage : ((v.moveTo cur').queue x y).stageStep cmd cur' = t) :
    Resumes x y (v.moveTo cur') t := by
  have hseq' : ((v.moveTo cur').queue x y).seq = .run cmd plan cur' := by simp [hv]
  refine .inr ⟨State.ready_of_sink hseq' hwanted (by simpa [hsink] using hy), ?_⟩
  rw [State.engineStep_run _ hseq', hstage]

theorem State.hdrWriteStage_resumes {left : List Byte}
    (hseq : s.seq = .run cmd plan (.hdrWrite left)) :
    Resumes x y (s.hdrWriteStage left) ((s.queue x y).hdrWriteStage left) := by
  obtain ⟨g, u, l, e, h, h'⟩ | ⟨hy, g, u, r, h, hr, h'⟩ := putN_append_cases left s.sink y <;>
    rw [s.hdrWriteStage_eq h, (s.queue x y).hdrWriteStage_eq h']
  · exact .onGiven (v := s.afterPut ⟨g, u, l, e⟩) _ _
      (.inl ((s.afterPut ⟨g, u, l, e⟩).afterHdrWrite_queue x y))
  · refine .of_held_output (v := s.afterPut ⟨g, u, [], .hold⟩) hseq rfl hy rfl ?_
    have hv : ((s.queue x y).afterPut ⟨g ++ r.sent, r.unsent, r.left, r.ending⟩).seq = _ := hseq
    rw [State.stageStep, State.hdrWriteStage_eq _ (g := r) hr, State.afterPut_resume,
      State.onGiven_moveTo hv (.hdrWrite _ _), State.afterHdrWrite_moveTo hv]

theorem State.encodeStage_resumes {left : List Byte}
    (hseq : s.seq = .run cmd plan (.encode left)) :
    Resumes x y (s.encodeStage left) ((s.queue x y).encodeStage left) := by
  obtain ⟨g, u, l, e, h, h'⟩ | ⟨hy, g, u, r, h, hr, h'⟩ := putN_append_cases left s.sink y <;>
    rw [s.encodeStage_eq h, (s.queue x y).encodeStage_eq h']
  · exact .onGiven (v := s.afterPut ⟨g, u, l, e⟩) _ _ (.inl rfl)
  · refine .of_held_output (v := s.afterPut ⟨g, u, [], .hold⟩) hseq rfl hy rfl ?_
    have hv : ((s.queue x y).afterPut ⟨g ++ r.sent, r.unsent, r.left, r.ending⟩).seq = _ := hseq
    rw [State.stageStep, State.encodeStage_eq _ (g := r) hr, State.afterPut_resume,
      State.onGiven_moveTo hv (.encode _ _)]
    rfl

/-! ### The engine -/

theorem State.engineStep_resumes (x : List InAnswer) (y : List OutAnswer)
    (hready : s.ready = true) :
    Resumes x y s.engineStep (s.queue x y).engineStep := by
  obtain ⟨cmd, plan, cur, hseq⟩ := State.seq_run_of_ready hready
  rw [s.engineStep_run hseq, (s.queue x y).engineStep_run hseq]
  match cur with
  | .issue => exact .inl (s.issueStage_queue x y cmd)
  | .hdrRead k => exact State.hdrReadStage_resumes hseq
  | .validate => exact .inl (s.validateStage_queue x y)
  | .decodeRaw base size done => exact State.decodeRawStage_resumes hseq
  | .decodeRle d .control => exact State.controlStage_resumes hseq hready
  | .decodeRle d (.firstPixel kind count got) =>
    exact State.chunkPixel_resumes hseq rfl rfl kind count got
  | .decodeRle d (.rest left) => exact State.rawRest_resumes hseq rfl rfl left
  | .resample g => exact .inl ((s.memWrite g.dbase (destBytes s.pbByte g)).afterResample_queue x y)
  | .derive width height imageType =>
    exact .inl (({ s with hdrOut := s.hdrIn.derive width height imageType } :
      State).afterDerive_queue x y)
  | .hdrWrite left => exact State.hdrWriteStage_resumes hseq
  | .encode left => exact State.encodeStage_resumes hseq

/-- More answers do not hold an engine that can move. -/
theorem State.ready_queue (x : List InAnswer) (y : List OutAnswer) (hready : s.ready = true) :
    (s.queue x y).ready = true := by
  obtain ⟨cmd, plan, cur, hseq⟩ := State.seq_run_of_ready hready
  rw [State.ready_run _ (show (s.queue x y).seq = _ from hseq)]
  exact ((s.ready_run hseq).mp hready).imp id
    (.imp (.imp id (List.append_ne_nil_of_left_ne_nil · x))
      (.imp id (List.append_ne_nil_of_left_ne_nil · y)))

theorem State.settle_of_not_ready (h : s.ready = false) : s.settle = s :=
  s.drive_of_not_ready _ h

theorem State.settle_engineStep (h : s.ready = true) : s.engineStep.settle = s.settle := by
  have hstop : (s.drive (s.engineStep.work + 1)).ready = false := by
    rw [s.drive_succ _ h]
    exact s.engineStep.settle_not_ready
  calc s.engineStep.settle
      = s.drive (s.engineStep.work + 1) := (s.drive_succ _ h).symm
    _ = s.drive (max (s.engineStep.work + 1) s.work) := (s.drive_of_le (le_max_left _ _) hstop).symm
    _ = s.settle := s.drive_of_le (le_max_right _ _) s.settle_not_ready

theorem State.Resumes.settle {t t' : State} (h : Resumes x y t t') :
    t'.settle = (t.queue x y).settle := by
  obtain rfl | ⟨hready, rfl⟩ := h
  · rfl
  · exact State.settle_engineStep hready

/-- Answers that come after the engine has settled bring it where they would have, had they been
ready from the start. -/
theorem State.settle_queue (s : State) (x : List InAnswer) (y : List OutAnswer) :
    (s.queue x y).settle = (s.settle.queue x y).settle := by
  cases hready : s.ready with
  | false => rw [State.settle_of_not_ready hready]
  | true =>
    obtain ⟨cmd, plan, cur, hseq⟩ := State.seq_run_of_ready hready
    have hstep : (s.queue x y).settle = (s.engineStep.queue x y).settle :=
      (State.settle_engineStep (State.ready_queue x y hready)).symm.trans
        (State.engineStep_resumes x y hready).settle
    rw [hstep, ← State.settle_engineStep hready]
    obtain hstop | hlt := (State.engineStep_stepsTo hseq).remaining_lt hseq
    · rw [State.settle_of_not_ready hstop]
    · exact State.settle_queue s.engineStep x y
termination_by s.remaining

end

/-- Settles O60: the one answer more is the case of one queue and nothing in the other. -/
theorem lateAnswersGiveTheSameResult : Obligations.LateAnswersGiveTheSameResult := by
  unfold Obligations.LateAnswersGiveTheSameResult
  intro s
  refine ⟨fun a => ?_, fun a => ?_⟩
  · simpa [State.queue] using s.settle_queue [a] []
  · simpa [State.queue] using s.settle_queue [] [a]

end Sys2Proof.Machine
end
